-- ==== Sys2Proof/Word.lean ====
section
/-! DEFINITION. Word.lean: the widths the manual computes with, and the one container used for sparse state. -/
namespace Sys2Proof

/-- A byte of memory. -/
abbrev Byte := BitVec 8
/-- A 32-bit register lane (R18). -/
abbrev Word := BitVec 32
/-- A 64-bit memory word, instruction word or address (R86, R109, R274). -/
abbrev DWord := BitVec 64
/-- A set of lanes: bit `l` stands for lane `l` (R62). -/
abbrev Mask := BitVec 64
/-- A table keyed by number. A key that is not listed reads as the table's default. -/
abbrev Tbl (α : Type) := List (Nat × α)

end Sys2Proof
end

