-- ==== Sys2Proof/Syntax.lean ====
section
/-! DEFINITION. Syntax.lean: one constructor of `Instr` for every row of the opcode table: the 126
instructions of the Thafethen set, decoded, and the 108 events of the device. An instruction holds what its
entry in chapters 18 and 24 to 27 names. An event holds which unit, message or register it happens to,
and the data that comes from outside the device. -/
namespace Sys2Proof

/-- Empty policy of a source (R43). -/
inductive Policy where
  | block | split | trap
deriving DecidableEq, Repr

/-- An operand (the table of R277). Codes 0xCD to 0xDF have no operand. -/
inductive Opd where
  | v (n : Fin 128) | s (n : Fin 64) | zero | lid | gslot | cid | widLo | widHi | wf (k : Fin 6)
  | path | w (n : Fin 16) | m (n : Fin 16)
deriving DecidableEq, Repr

/-- A source operand with its empty policy and last-read bit (R43, R45, R265). -/
structure Src where
  o : Opd
  pol : Policy := .block
  lr : Bool := false
deriving DecidableEq, Repr

/-- The control fields every instruction word carries (R274): U, the guard, the scoreboard set. -/
structure Ctl where
  u : Bool := false
  gn : Bool := false
  gp : Fin 8 := 0
  sb : Option (Fin 8) := none
deriving DecidableEq, Repr

/-- MOD of IADD and ISUB (R356). -/
inductive Sat where
  | wrap | sat | usat
deriving DecidableEq, Repr

/-- Rounding modes (R77). -/
inductive RM where
  | rn | rz | ru | rd | dt
deriving DecidableEq, Repr

/-- Conditions of ICMP and ICMPI (R279). -/
inductive ICC where
  | eq | ne | lt | le | gt | ge | ltu | leu | gtu | geu
deriving DecidableEq, Repr

/-- Conditions of FCMP (R279). -/
inductive FCC where
  | eq | ne | lt | le | gt | ge | un | ord
deriving DecidableEq, Repr

/-- Condition of BRC (R327). -/
inductive BrCond where
  | any | all | none
deriving DecidableEq, Repr

/-- What MELD reads (R373). -/
inductive MeldSel where
  | pred (p : Fin 8) | q4 (a : Src)
deriving DecidableEq, Repr

/-- Element types of CVT (R285). -/
inductive Ty where
  | f32 | f16 | bf16 | e4m3 | e5m2 | sp8 | i32 | n32 | i8
deriving DecidableEq, Repr

/-- Source lane mode of SHFL (R412). -/
inductive ShMode where
  | idx | up | down | xor
deriving DecidableEq, Repr

/-- VOTE mode (R439). -/
inductive VMode where
  | any | all | eq
deriving DecidableEq, Repr

/-- VOTE destination: a predicate, or an s register with U (R439). -/
inductive VDst where
  | pred (p : Fin 8) | reg (o : Opd)
deriving DecidableEq, Repr

/-- OPR of REDUCE and SCAN (R286). -/
inductive ROp where
  | add | fadd | min | max | umin | umax | fmin | fmax
deriving DecidableEq, Repr

/-- TOPK order (R432). -/
inductive TkKind where
  | f32 | i32 | n32
deriving DecidableEq, Repr

/-- KIND of LD, ST, LDU, LDS, STS (R287). -/
inductive MKind where
  | b8 | b16 | b32 | b64 | b128 | f32 | f16 | bf16 | rb8 | rb16 | rb32 | rb64 | rb128 | i32 | tag
deriving DecidableEq, Repr

/-- Cache hint (R99). -/
inductive Hint where
  | normal | ro | stream | bypass
deriving DecidableEq, Repr

/-- ORD of format M (R276). -/
inductive Ord where
  | plain | acq | rel | ar
deriving DecidableEq, Repr

/-- Operations of ATOM and RED (R288). ACPR uses the first seven (R292). -/
inductive AOp where
  | add32 | add64 | addf | smin | smax | umin | umax | and32 | or32 | xor32 | and64 | or64
  | exch32 | exch64 | cas32 | cas64
deriving DecidableEq, Repr

/-- Forms of FENCE (R348). -/
inductive FenceKind where
  | plain | acq | rel | ar | mem | q (mask : BitVec 4)
deriving DecidableEq, Repr

/-- Operation of CCTL (R290). -/
inductive CKind where
  | inv | wb | invall
deriving DecidableEq, Repr

/-- Completion operand of ACP and ACPR: a register per lane, or the literal (R292). -/
inductive Comp where
  | reg (a : Src) | lit (w : Word)
deriving DecidableEq, Repr

/-- Size of ACP (R308). -/
inductive CSize where
  | b32 | b64 | b128
deriving DecidableEq, Repr

/-- Slot element types of ACPT (R293). -/
inductive DTy where
  | bf16 | f16 | e4m3 | e5m2 | int8 | sp8
deriving DecidableEq, Repr

/-- Source types of ACPT (R293). -/
inductive STy where
  | f32 | bf16 | f16 | e4m3 | e5m2 | int8 | sp8
deriving DecidableEq, Repr

/-- The ACPT literal (R293). -/
structure AcptLit where
  comp : Word
  len : BitVec 9
  sat : Bool
  trn : Bool
  rm : RM
  dty : DTy
  sty : STy
deriving DecidableEq, Repr

/-- Gang shapes of GANG (R353). -/
inductive GShape where
  | g2 | g4 | g6
deriving DecidableEq, Repr

/-- MMA types (R173). -/
inductive MTy where
  | bf16 | f16 | e4m3 | e5m2 | i8 | sp8
deriving DecidableEq, Repr

/-- MMA shapes (R381). -/
inductive MShape where
  | g2lo | g2hi | g4 | g6
deriving DecidableEq, Repr

/-- A debugger's read (R226). -/
inductive DbgTarget where
  | memory (tier : Nat) (word : Nat)
  | register (core slot name lane : Nat)
  | uniform (core slot name : Nat)
  | pc (core slot lane : Nat)
  | window (core n lane : Nat)
  -- full and poison bits of a register, predicates, join masks, scoreboard slots that are set
  | full (core slot name : Nat)
  | poison (core slot name : Nat)
  | predicate (core slot n : Nat)
  | join (core slot n : Nat)
  | scoreboard (core slot : Nat)
  -- a system register, trap registers among them; a word of a lane's scratchpad; a word of a tile slot
  | system (core slot lane n : Nat)
  | scratch (core slot lane off : Nat)
  | tile (core n off : Nat)
  -- an operand code of a path table, a lane's path id, E of a join mask, the lanes held at a meet, those parked
  | pathCode (core slot path n : Nat)
  | path (core slot lane : Nat)
  | expected (core slot n : Nat)
  | held (core slot : Nat)
  | parked (core slot : Nat)
  -- a lane of entry i of a core's outbound FIFO, a TWBAR count, and of a barrier of a lane's set 0 GEN, 1 ARR, 2 TARGET
  | fifo (core i lane : Nat)
  | twbar (core n : Nat)
  | barrier (core slot lane n field : Nat)
deriving DecidableEq, Repr

/-- The rows of the opcode table. -/
inductive Instr where
  -- flow and system (R283)
  | nop (c : Ctl)
  | bra (c : Ctl) (off : BitVec 30)
  | brc (c : Ctl) (p : Fin 8) (cond : BrCond) (off : BitVec 30)
  | brx (c : Ctl) (a : Src)
  | call (c : Ctl) (d : Opd) (off : BitVec 30)
  | callx (c : Ctl) (d : Opd) (a : Src)
  | ret (c : Ctl) (a : Src)
  | exit (c : Ctl)
  | meet (c : Ctl) (n : Fin 8) (off : BitVec 30)
  | jarr (c : Ctl) (n : Fin 8)
  | jleave (c : Ctl) (n : Fin 8)
  | meld (c : Ctl) (sel : MeldSel) (wp : Option (Fin 8))
  | meldx (c : Ctl)
  | ptab (c : Ctl) (k : Fin 4) (hi : Bool) (lit : DWord)
  | npb (c : Ctl)
  | npe (c : Ctl)
  | trap (c : Ctl) (imm : BitVec 22)
  | bkpt (c : Ctl) (imm : BitVec 22)
  | svc (c : Ctl) (imm : BitVec 22)
  | eret (c : Ctl)
  | waite (c : Ctl) (mask : BitVec 8)
  | rdcyc (c : Ctl) (d : Opd)
  | mfs (c : Ctl) (d : Opd) (n : BitVec 9)
  | mts (c : Ctl) (a : Src) (n : BitVec 9)
  -- integer and move (R284)
  | iadd (c : Ctl) (d : Opd) (a b : Src) (md : Sat)
  | iaddi (c : Ctl) (d : Opd) (a : Src) (imm : BitVec 22)
  | isub (c : Ctl) (d : Opd) (a b : Src) (md : Sat)
  | imul (c : Ctl) (d : Opd) (a b : Src)
  | imulh (c : Ctl) (d : Opd) (a b : Src) (uns : Bool)
  | imad (c : Ctl) (d : Opd) (a b e : Src)
  | imin (c : Ctl) (d : Opd) (a b : Src) (uns : Bool)
  | imax (c : Ctl) (d : Opd) (a b : Src) (uns : Bool)
  | iabs (c : Ctl) (d : Opd) (a : Src) (sat : Bool)
  | lop (c : Ctl) (d : Opd) (a b : Src) (t : BitVec 4)
  | lopi (c : Ctl) (d : Opd) (a : Src) (t : BitVec 4) (b : BitVec 18)
  | shl (c : Ctl) (d : Opd) (a b : Src)
  | shr (c : Ctl) (d : Opd) (a b : Src)
  | sar (c : Ctl) (d : Opd) (a b : Src)
  | popc (c : Ctl) (d : Opd) (a : Src)
  | clz (c : Ctl) (d : Opd) (a : Src)
  | brev (c : Ctl) (d : Opd) (a : Src)
  | bfx (c : Ctl) (d : Opd) (a b : Src) (sx : Bool)
  | bfi (c : Ctl) (d : Opd) (a b e : Src)
  | icmp (c : Ctl) (p : Fin 8) (cc : ICC) (a b : Src)
  | icmpi (c : Ctl) (p : Fin 8) (cc : ICC) (a : Src) (imm : BitVec 22)
  | aadd (c : Ctl) (d : Opd) (a b : Src) (scale : Fin 4) (zx : Bool)
  | aaddi (c : Ctl) (d : Opd) (a : Src) (imm : BitVec 22)
  | sel (c : Ctl) (d : Opd) (a b : Src) (p : Fin 8) (neg : Bool)
  | mov (c : Ctl) (d : Opd) (a : Src)
  | movi (c : Ctl) (d : Opd) (imm : BitVec 22)
  | movl (c : Ctl) (d : Opd) (pair : Bool) (lit : DWord)
  | plop (c : Ctl) (d a b : Fin 8) (t : BitVec 4)
  -- float, packed and conversion (R285)
  | fadd (c : Ctl) (d : Opd) (a b : Src) (rm : RM) (na nb : Bool)
  | fmul (c : Ctl) (d : Opd) (a b : Src) (rm : RM) (na nb : Bool)
  | ffma (c : Ctl) (d : Opd) (a b e : Src) (rm : RM) (np nc : Bool)
  | fmin (c : Ctl) (d : Opd) (a b : Src)
  | fmax (c : Ctl) (d : Opd) (a b : Src)
  | fcmp (c : Ctl) (p : Fin 8) (cc : FCC) (a b : Src)
  | frnd (c : Ctl) (d : Opd) (a : Src) (rm : RM)
  | fcls (c : Ctl) (d : Opd) (a : Src)
  | frcp (c : Ctl) (d : Opd) (a : Src)
  | frsq (c : Ctl) (d : Opd) (a : Src)
  | fsqt (c : Ctl) (d : Opd) (a : Src)
  | fex2 (c : Ctl) (d : Opd) (a : Src)
  | flg2 (c : Ctl) (d : Opd) (a : Src)
  | fspi (c : Ctl) (d : Opd) (a : Src)
  | fcpi (c : Ctl) (d : Opd) (a : Src)
  | padd2 (c : Ctl) (d : Opd) (a b : Src) (rm : RM) (bf : Bool)
  | pmul2 (c : Ctl) (d : Opd) (a b : Src) (rm : RM) (bf : Bool)
  | pfma2 (c : Ctl) (d : Opd) (a b e : Src) (rm : RM) (bf : Bool)
  | dot2f (c : Ctl) (d : Opd) (a b e : Src) (bf : Bool)
  | dot4i (c : Ctl) (d : Opd) (a b e : Src) (ua ub : Bool)
  | spdot (c : Ctl) (d : Opd) (a b e : Src)
  | cvt (c : Ctl) (d : Opd) (a : Src) (dst src : Ty) (rm : RM) (sat : Bool) (el : Fin 4)
  | pack2 (c : Ctl) (d : Opd) (a b : Src)
  | unpk2 (c : Ctl) (d : Opd) (a : Src) (hi sx : Bool)
  | raybox (c : Ctl) (d : Opd) (a b : Src)
  | raytri (c : Ctl) (d : Opd) (a b : Src)
  -- cross-lane (R286)
  | shfl (c : Ctl) (d : Opd) (a b : Src) (mode : ShMode)
  | ballot (c : Ctl) (d : Opd) (p : Fin 8)
  | vote (c : Ctl) (d : VDst) (p : Fin 8) (mode : VMode)
  | matchKeys (c : Ctl) (d : Opd) (a : Src)
  | compact (c : Ctl) (d : Opd) (a : Src)
  | reduce (c : Ctl) (d : Opd) (a : Src) (op : ROp)
  | scan (c : Ctl) (d : Opd) (a : Src) (op : ROp) (excl : Bool)
  | regroup (c : Ctl) (key : Opd) (off : BitVec 30) (carry : Word)
  | topk (c : Ctl) (d : Opd) (a b : Src) (kind : TkKind)
  | pchk (c : Ctl) (p : Fin 8) (a : Src)
  -- memory (R289)
  | ld (c : Ctl) (d : Opd) (a b : Src) (kind : MKind) (hint : Hint) (acq : Bool) (off : BitVec 6)
  | st (c : Ctl) (a b : Src) (kind : MKind) (hint : Hint) (rel : Bool) (off : BitVec 6)
  | ldu (c : Ctl) (d : Opd) (a b : Src) (kind : MKind) (ro : Bool) (off : BitVec 6)
  | lds (c : Ctl) (d : Opd) (a : Src) (kind : MKind) (acq : Bool) (off : BitVec 6)
  | sts (c : Ctl) (a b : Src) (kind : MKind) (rel : Bool) (off : BitVec 6)
  | atom (c : Ctl) (d : Opd) (a b : Src) (op : AOp) (ord : Ord) (off : BitVec 6)
  | red (c : Ctl) (a b : Src) (op : AOp) (rel : Bool) (off : BitVec 6)
  | fence (c : Ctl) (kind : FenceKind)
  | pref (c : Ctl) (a b : Src) (l2 : Bool) (off : BitVec 6)
  | cctl (c : Ctl) (a : Src) (kind : CKind) (off : BitVec 6)
  | mzero (c : Ctl) (a : Src) (n : Fin 10) (off : BitVec 6)
  | mcopy (c : Ctl) (a b : Src) (n : Fin 10) (off : BitVec 6)
  | mcmp (c : Ctl) (d : Opd) (a b : Src) (n : Fin 10) (off : BitVec 6)
  | swinit (c : Ctl) (a b : Src) (off : BitVec 6)
  | swarr (c : Ctl) (a b : Src) (off : BitVec 6)
  | swwait (c : Ctl) (a b : Src) (off : BitVec 6)
  | bar (c : Ctl) (id : BitVec 7) (cnt : BitVec 15)
  | bara (c : Ctl) (id : BitVec 7) (cnt : BitVec 15)
  | barw (c : Ctl) (id : BitVec 7)
  -- copies, queues and tasks (R292 to R294)
  | acp (c : Ctl) (d : Opd) (a : Src) (comp : Comp) (q : Fin 4) (size : CSize) (g : Bool)
  | acpt (c : Ctl) (slot : Fin 16) (a : Src) (q : Fin 4) (hi : Bool) (lit : AcptLit)
  | acpr (c : Ctl) (d : Opd) (a b : Src) (comp : Comp) (q : Fin 4) (op : AOp)
  | acpl (c : Ctl) (d : Opd) (a b : Src) (q : Fin 4) (g : Bool) (size : BitVec 10) (comp : Word)
  | enq (c : Ctl) (a b : Src)
  | enqc (c : Ctl)
  | tksig (c : Ctl) (a : Src)
  -- matrix and twin (R295)
  | gang (c : Ctl) (a b : Src) (shape : GShape)
  | tclm (c : Ctl) (p : Fin 8) (s1 s2 s3 : Option (Fin 16))
  | trel (c : Ctl) (s1 s2 s3 : Option (Fin 16))
  | tfill (c : Ctl) (slot : Fin 16) (b : Src) (hi bc b8 : Bool)
  | mma (c : Ctl) (d : Opd) (a b : Fin 16) (b2 : Option (Fin 16)) (ty : MTy) (shape : MShape) (z : Bool)
  | mlic (c : Ctl) (p : Fin 8)
  | mlrel (c : Ctl)
  | twsend (c : Ctl) (a : Src)
  | twsendNb (c : Ctl) (p : Fin 8) (a : Src)
  | twrecv (c : Ctl) (d : Opd)
  | twfree (c : Ctl) (d : Opd)
  | twbar (c : Ctl) (n : Fin 4)
  -- events: issue and L1
  | clauseStart (core q : Nat)
  | l1Fill (core n : Nat)
  | frespRetry (fn : Nat) (token : Word)
  | frespDeliver (fn : Nat) (token : Word)
  | frespHalt (fn : Nat) (token : Word)
  | registerPressureEviction (core : Nat)
  | evictedGroupResume (core : Nat)
  | setAdmission (launch set core : Nat)
  | granuleConversionDone (core : Nat) (spad : Bool)
  -- events: translation and migration
  | pageWalkComplete (n : Nat)
  | translationInvalidate (fn proc : Nat) (pages : List Nat)
  | translationInvalidateDone (n : Nat)
  | migrationStart (fn proc page : Nat) (tier : Nat) (ppn : Nat)
  | migrationComplete
  -- events: home slices, channels
  | homeReadMiss (n : Nat)
  | homeRankedWrite (n : Nat)
  | homeUnrankedWrite (n : Nat)
  | homeRegistration (n : Nat)
  | homeRankClear (n : Nat)
  | homeAtomic (n : Nat)
  | homeCopyWrite (core q unit : Nat)
  | recall (n : Nat)
  | registrationAck (n : Nat)
  | burstSlot (chan : Nat)
  -- events: reliability
  | scoreboardRepair (core slot : Nat)
  | containment (launch core slot src : Nat) (lanes : Mask)
  | snapshotCopyDone (n : Nat)
  -- events: copy engine and task table
  | copyWriteAck (core q unit : Nat)
  | copyComplete (core q : Nat)
  | queueFenceComplete (core id : Nat)
  | taskDecrement (fn : Nat)
  -- events: front end
  | frontEndArbitrate (fn : Nat)
  | cmdLaunch (fn : Nat)
  | cmdGraphReplay (fn : Nat)
  | cmdCopy (fn : Nat)
  | cmdSignalDecrement (fn : Nat)
  | cmdSignalSet (fn : Nat)
  | cmdFence (fn : Nat)
  | launchComplete (launch : Nat)
  | cmdFenceComplete (fn n : Nat)
  | graphReplayComplete (fn n : Nat)
  | vtUpdate (fn : Nat)
  | quantumWindowEnd (cluster : Nat)
  | batchLaunch (fn node : Nat)
  | batchTimeout (fn node : Nat)
  | groupForm (core : Nat)
  | regroupTimeout (core : Nat)
  | hardPreemption (launch set : Nat)
  | lightPreemption (launch set : Nat)
  | saveImageComplete (launch set : Nat)
  | restore (launch set core : Nat)
  -- events: heat, supply, licence, matrix, pod
  | sensorSample (pod : Nat) (tup tlo : BitVec 16) (vup vlo : BitVec 16) (rup rlo : Word)
  | thermalThrottleStep (pod : Nat)
  | supplyDroop (core : Nat) (mv : BitVec 16)
  | licenceGrant (pod : Nat)
  | licenceIdleExpiry (pod : Nat)
  | licenceHoldExpiry (pod : Nat)
  | handoverEnd (pod : Nat)
  | roundFire (core : Nat)
  | mmaRoundComplete (core : Nat)
  | slotClearDone (core slot : Nat)
  | linkItemCross (core : Nat)
  | podctlGate (pod : Nat)
  | podctlUngate (pod : Nat)
  | gatingComplete (pod : Nat)
  | ungatingComplete (pod : Nat)
  -- events: host registers
  | qtailWrite (fn q : Nat) (v : Word)
  | qctlWrite (fn q : Nat) (v : Word)
  | cqheadWrite (fn q : Nat) (v : Word)
  | frheadWrite (fn : Nat) (v : Word)
  | sliceBlockWrite (fn : Nat) (v : DWord)
  | nodeConfigWrite (fn off : Nat) (v : DWord)
  | processContextWrite (fn off : Nat) (v : DWord)
  | partitionWrite (off : Nat) (v : DWord)
  | defragGo (v : Word)
  | vfrstWrite (v : DWord)
  | flr (fn : Nat)
  | collectiveEnWrite (fn k : Nat) (v : Word)
  | keyctlLoad (kid owner : BitVec 8)
  | keyctlUnload (kid : BitVec 8)
  | devstGofull
  | stackTrainingComplete (k : Nat)
  | moduleReset
  | firmwareImageVerify (reg : Nat) (image sig : List Byte)
  | firmwareUpdate (image sig : List Byte)
  | recoveryImageWrite (image sig : List Byte)
  | attestationRequest (nonce : List Byte) (fn : Nat) (addr : DWord)
  | debugRead (t : DbgTarget)
  -- events: fabric
  | flitReceive (link : Nat) (flit : List Byte)
  | remoteRequestReceive (n : Nat)
  | remoteResponseReceive (n : Nat)
  | barrierFlitReceive (n : Nat)
  | resetNoticeReceive (dev fn : Nat)
  | fabricLimitExpiry (n : Nat)
  | linkFailure (link : Nat)
  -- events: host tier
  | priResponse (fn : Nat) (token : Word) (ok : Bool)
  | hostAtsInvalidate (fn : Nat) (pages : List Nat)
  | hostCompletionTimeout (n : Nat)
  | barRegisterWrite (fn off : Nat) (v : DWord)
  | refresh (chan : Nat)
  | supplyRecovery (core : Nat) (mv : BitVec 16)
  | topkComplete (core n : Nat)
  | scratchpadReadComplete (core n : Nat)
  | homeResponseReceive (core n : Nat)
  | scrub (tier word : Nat)
  | hostReadCompletion (n : Nat) (data : List DWord)
  | atsTranslationResponse (n : Nat) (ok : Bool) (pa : DWord)
  | clockGating (core : Nat) (gated retention : Bool)
deriving DecidableEq, Repr

end Sys2Proof
end

