-- ==== Sys2Proof/WellFormed.lean ====
section
/-! DEFINITION. WellFormed.lean: the checks of R280 that read the instruction alone. `opOk` holds the checks of
step 3 (reserved values, U against the row), `operandsOk` those of step 4 (operand codes, pairs, blocks). -/
namespace Sys2Proof

/-- Scope of a system register (R218). -/
inductive SysScope where
  | thread | group | core | pod | device
deriving DecidableEq, Repr

/-- Access of a system register (R218). -/
inductive SysAccess where
  | rw | ro | priv
deriving DecidableEq, Repr

/-- One row of the table of R218. -/
structure SysInfo where
  wide : Bool
  scope : SysScope
  acc : SysAccess
deriving DecidableEq, Repr

/-- The table of R218. A number without a row answers `none`. -/
def sysInfo (n : Nat) : Option SysInfo :=
  if n = 0x000 then some ⟨false, .group, .rw⟩
  else if n ≤ 0x003 then some ⟨true, .group, .rw⟩
  else if n = 0x008 ∨ n = 0x009 then some ⟨false, .group, .rw⟩
  else if n = 0x00A then some ⟨true, .thread, .rw⟩
  else if n = 0x00B then some ⟨false, .thread, .rw⟩
  else if n = 0x00C then some ⟨false, .thread, .ro⟩
  else if n = 0x010 then some ⟨false, .group, .ro⟩
  else if n = 0x011 ∨ n = 0x012 then some ⟨false, .core, .ro⟩
  else if n = 0x013 ∨ n = 0x014 then some ⟨false, .thread, .ro⟩
  else if n = 0x040 then some ⟨false, .pod, .ro⟩
  else if n = 0x041 then some ⟨false, .core, .ro⟩
  else if n = 0x042 then some ⟨false, .device, .ro⟩
  else if n = 0x080 ∨ n = 0x081 then some ⟨false, .group, .rw⟩
  else if n = 0x100 ∨ n = 0x102 ∨ n = 0x104 then some ⟨false, .pod, .priv⟩
  else if n = 0x140 then some ⟨true, .device, .priv⟩
  else if n = 0x141 then some ⟨false, .device, .priv⟩
  else if 0x180 ≤ n ∧ n ≤ 0x1A0 then some ⟨false, .device, .priv⟩
  else none

/-- A pair, quad or block of v registers starting at `n` (R278): pairs are even, quads start at a multiple of 4. -/
def vRun (k n : Nat) : Bool :=
  (if k = 2 then n % 2 == 0 else if k = 4 then n % 4 == 0 else true) && n + k ≤ 128

/-- As `vRun`, for s registers. -/
def sRun (k n : Nat) : Bool :=
  (if k = 2 then n % 2 == 0 else if k = 4 then n % 4 == 0 else true) && n + k ≤ 64

/-- Destination of one register: v, zero, s with U, m without U (R61, R277). -/
def okDst (u : Bool) : Opd → Bool
  | .v _ | .zero => true
  | .s _ => u
  | .m _ => !u
  | _ => false

/-- As `okDst`, window registers admitted (R384). -/
def okDstW (u : Bool) : Opd → Bool
  | .w _ => true
  | o => okDst u o

/-- Destination of `k` registers: v, zero, s with U (R278). -/
def okDstRun (u : Bool) (k : Nat) : Opd → Bool
  | .v n => vRun k n
  | .s n => u && sRun k n
  | .zero => true
  | _ => false

/-- Destination of a long-latency load of `k` registers: v or zero, m when single. -/
def okDstLoad (k : Nat) : Opd → Bool
  | .v n => vRun k n
  | .zero => true
  | .m _ => k == 1
  | _ => false

/-- An address: an even v pair or an s pair (R289). -/
def okAddr : Opd → Bool
  | .v n => vRun 2 n
  | .s n => sRun 2 n
  | _ => false

def okSPair : Opd → Bool
  | .s n => sRun 2 n
  | _ => false

/-- AADD and AADDI admit the whole wid as the pair A (R278). -/
def okPairA : Opd → Bool
  | .widLo => true
  | o => okAddr o

/-- v or s register. -/
def okVS : Opd → Bool
  | .v _ | .s _ => true
  | _ => false

def okV : Opd → Bool
  | .v _ => true
  | _ => false

def okVBlk (k : Nat) : Opd → Bool
  | .v n => vRun k n
  | _ => false

/-- v, s or m (R368, R376). -/
def okVSM : Opd → Bool
  | .v _ | .s _ | .m _ => true
  | _ => false

/-- What MTS writes from: v, s or m, and zero, which the program of R297 names. DEDUCED (log 108). -/
def okMts (o : Opd) : Bool := okVSM o || o == .zero

/-- Data of `k` registers: any source code when single (R277), v, s or zero when a pair or a quad (R278). DEDUCED (log 108). -/
def okData (k : Nat) : Opd → Bool
  | .v n => vRun k n
  | .s n => sRun k n
  | .zero => true
  | _ => k == 1

/-- Registers that a KIND's value takes (R287). -/
def MKind.regs : MKind → Nat
  | .b64 | .rb64 => 2
  | .b128 | .rb128 => 4
  | _ => 1

/-- Whether an atomic works on 8 bytes (R288). -/
def AOp.wide : AOp → Bool
  | .add64 | .and64 | .or64 | .exch64 | .cas64 => true
  | _ => false

def AOp.regs (op : AOp) : Nat := if op.wide then 2 else 1

/-- Registers of the operand B of an atomic (R318). -/
def AOp.bRegs : AOp → Nat
  | .cas32 => 2
  | .cas64 => 4
  | op => op.regs

/-- Operations RED accepts (R288). -/
def AOp.redOk : AOp → Bool
  | .exch32 | .exch64 | .cas32 | .cas64 => false
  | _ => true

/-- Operations ACPR accepts (R313). -/
def AOp.acprOk : AOp → Bool
  | .add32 | .add64 | .addf | .smin | .smax | .umin | .umax => true
  | _ => false

/-- KIND values of LDU (R289). -/
def MKind.lduOk : MKind → Bool
  | .b32 | .b64 | .b128 => true
  | _ => false

/-- KIND values of LDS and STS (R289). -/
def MKind.ldsOk : MKind → Bool
  | .b8 | .b16 | .b32 | .b64 | .b128 => true
  | _ => false

def Ty.isFloat : Ty → Bool
  | .f32 | .f16 | .bf16 | .e4m3 | .e5m2 => true
  | _ => false

/-- The pairs CVT permits (R335). -/
def cvtPairOk (src dst : Ty) : Bool :=
  match src with
  | .f32 | .f16 | .bf16 | .e4m3 | .e5m2 => src != dst
  | .i32 | .n32 | .i8 => dst.isFloat || dst == .sp8
  | .sp8 => dst == .f32 || dst == .f16 || dst == .bf16

/-- Elements of a lane of a CVT source (R285). -/
def Ty.perLane : Ty → Nat
  | .f32 | .i32 | .n32 => 1
  | .f16 | .bf16 => 2
  | .e4m3 | .e5m2 | .sp8 | .i8 => 4

def DTy.is8 : DTy → Bool
  | .bf16 | .f16 => false
  | _ => true

/-- Whether a source type names the same element type as a slot type. -/
def styEq : STy → DTy → Bool
  | .bf16, .bf16 | .f16, .f16 | .e4m3, .e4m3 | .e5m2, .e5m2 | .int8, .int8 | .sp8, .sp8 => true
  | _, _ => false

def STy.isFloat : STy → Bool
  | .int8 | .sp8 => false
  | _ => true

/-- The conversions ACPT permits (R316). -/
def acptPairOk (s : STy) (d : DTy) : Bool :=
  styEq s d || s.isFloat || (d == .bf16 || d == .f16)

/-- Step 3 for the literal of ACPT: a permitted pair, rn alone for SP8, dt only where it converts (R77), TRN for 16-bit
types (R316). -/
def AcptLit.ok (l : AcptLit) : Bool :=
  acptPairOk l.sty l.dty && (l.dty != .sp8 || l.rm == .rn) && (l.rm != .dt || !styEq l.sty l.dty) && !(l.trn && l.dty.is8)

/-- Slot columns of one row for a slot type (R316). -/
def DTy.cols (d : DTy) : Nat := if d.is8 then 256 else 128

/-- Step 3 of R280 for values an `Instr` can hold: U against the row, modes, pairs of types. -/
def Instr.opOk : Instr → Bool
  | .nop c | .exit c | .meldx c | .npb c | .npe c | .eret c | .enqc c | .mlrel c => !c.u
  | .bra c _ | .brc c _ _ _ | .brx c _ | .call c _ _ | .callx c _ _ | .ret c _ => !c.u
  | .meet c _ _ | .jarr c _ | .jleave c _ | .meld c _ _ | .ptab c _ _ _ => !c.u
  | .trap c _ | .bkpt c _ | .svc c _ => !c.u
  | .waite c m => !c.u && m != 0
  | .fadd _ _ _ _ rm _ _ | .fmul _ _ _ _ rm _ _ | .ffma _ _ _ _ _ rm _ _ | .frnd _ _ _ rm
  | .padd2 _ _ _ _ rm _ | .pmul2 _ _ _ _ rm _ | .pfma2 _ _ _ _ _ rm _ => rm != .dt
  | .cvt _ _ _ d s rm _ el => cvtPairOk s d && el.val < s.perLane && (d != .sp8 || rm == .rn)
  | .movl _ _ pair lit => pair || lit.toNat < 2 ^ 32
  | .raybox c _ _ _ | .raytri c _ _ _ => !c.u
  | .shfl c _ _ _ _ | .matchKeys c _ _ | .compact c _ _ | .regroup c _ _ _ | .topk c _ _ _ _ | .pchk c _ _ => !c.u
  | .ld c _ _ _ _ _ _ _ | .st c _ _ _ _ _ _ => !c.u
  | .ldu c _ _ _ k _ _ => c.u && k.lduOk
  | .lds c _ _ k _ _ => !c.u && k.ldsOk
  | .sts c _ _ k _ _ => !c.u && k.ldsOk
  | .atom c _ _ _ _ _ _ => !c.u
  | .red c _ _ op _ _ => !c.u && op.redOk
  | .fence c _ | .pref c _ _ _ _ | .cctl c _ _ _ => !c.u
  | .swinit c _ _ _ | .swarr c _ _ _ | .swwait c _ _ _ => !c.u
  | .bar c id cnt | .bara c id cnt => !c.u && (id.toNat < 64 || cnt == 0)
  | .barw c _ => !c.u
  | .acp c _ _ _ _ _ _ => !c.u
  | .acpr c _ _ _ _ _ op => !c.u && op.acprOk
  | .acpt c _ _ _ _ l => !c.u && l.ok
  | .acpl c _ _ _ _ _ _ _ => !c.u
  | .enq c _ _ => !c.u
  | .tksig c _ => c.u
  | .gang c _ _ _ => c.u
  | .tclm c _ _ _ _ | .trel c _ _ _ | .tfill c _ _ _ _ _ | .mma c _ _ _ _ _ _ _ | .mlic c _ => !c.u
  | .twsend c _ | .twsendNb c _ _ | .twrecv c _ | .twbar c _ => !c.u
  | _ => true

/-- Step 4 of R280 for values an `Instr` can hold: operand codes in their positions, pairs, quads and blocks. -/
def Instr.operandsOk : Instr → Bool
  | .brx _ a | .ret _ a => okAddr a.o
  | .call _ d _ => okVBlk 2 d
  | .callx _ d a => okVBlk 2 d && okAddr a.o
  | .meld _ (.pred _) wp => match wp with | none => true | some b => 1 ≤ b.val && b.val ≤ 6
  | .meld _ (.q4 a) wp => okVS a.o && match wp with | none => true | some b => 1 ≤ b.val && b.val ≤ 4
  | .rdcyc c d => okDstRun c.u 2 d
  | .mfs c d n =>
    match sysInfo n.toNat with
    | none => false
    | some i => if i.wide then okDstRun c.u 2 d else okDst c.u d
  | .mts _ a n =>
    match sysInfo n.toNat with
    | none => false
    | some i => i.acc != .ro && (if i.wide then okAddr a.o || a.o == .zero else okMts a.o)
  | .iadd c d _ _ _ | .isub c d _ _ _ | .imul c d _ _ | .imulh c d _ _ _ | .imad c d _ _ _ => okDst c.u d
  | .imin c d _ _ _ | .imax c d _ _ _ | .iabs c d _ _ | .iaddi c d _ _ => okDst c.u d
  | .lop c d _ _ _ | .lopi c d _ _ _ | .shl c d _ _ | .shr c d _ _ | .sar c d _ _ => okDst c.u d
  | .popc c d _ | .clz c d _ | .brev c d _ | .bfx c d _ _ _ | .bfi c d _ _ _ => okDst c.u d
  | .aadd c d a _ _ _ | .aaddi c d a _ => okDstRun c.u 2 d && okPairA a.o
  | .sel c d _ _ _ _ => okDst c.u d
  | .mov c d _ | .movi c d _ => okDstW c.u d
  | .movl c d pair _ => if pair then okDstRun c.u 2 d else okDstW c.u d
  | .fadd c d _ _ _ _ _ | .fmul c d _ _ _ _ _ | .ffma c d _ _ _ _ _ _ | .fmin c d _ _ | .fmax c d _ _ => okDst c.u d
  | .frnd c d _ _ | .fcls c d _ | .frcp c d _ | .frsq c d _ | .fsqt c d _ | .fex2 c d _ | .flg2 c d _ => okDst c.u d
  | .fspi c d _ | .fcpi c d _ | .padd2 c d _ _ _ _ | .pmul2 c d _ _ _ _ | .pfma2 c d _ _ _ _ _ => okDst c.u d
  | .dot2f c d _ _ _ _ | .dot4i c d _ _ _ _ _ | .spdot c d _ _ _ | .cvt c d _ _ _ _ _ _ => okDst c.u d
  | .pack2 c d _ _ | .unpk2 c d _ _ _ => okDst c.u d
  | .raybox _ d a b => (okV d || d == .zero) && okVBlk 8 a.o && okVBlk 6 b.o
  | .raytri _ d a b => okDstRun false 2 d && okVBlk 8 a.o && okVBlk 9 b.o
  | .shfl _ d _ _ _ => okDst false d
  | .ballot c d _ => okDstRun c.u 2 d
  | .vote c d _ _ => match d with | .pred _ => !c.u | .reg o => c.u && (match o with | .s _ => true | _ => false)
  | .matchKeys _ d a => okDstRun false 2 d && okVSM a.o
  | .compact _ d _ => okDst false d
  | .reduce c d _ _ | .scan c d _ _ _ => okDst c.u d
  | .regroup _ k _ _ => okV k
  | .topk _ d _ _ _ => okDstRun false 2 d
  | .pchk _ _ a => okVS a.o
  | .ld _ d a _ k _ _ _ => okDstLoad k.regs d && okAddr a.o
  | .st _ a b k _ _ _ => okAddr a.o && okData k.regs b.o
  | .ldu _ d a _ k _ _ => okDstRun true k.regs d && okSPair a.o
  | .lds _ d a k _ _ => okDstLoad k.regs d && okVS a.o
  | .sts _ a b k _ _ => okVS a.o && okData k.regs b.o
  | .atom _ d a b op _ _ => okDstLoad op.regs d && okAddr a.o && okData op.bRegs b.o
  | .red _ a b op _ _ => okAddr a.o && okData op.bRegs b.o
  | .fence _ k => match k with | .q m => m != 0 | _ => true
  | .pref _ a _ _ _ => okAddr a.o
  | .cctl _ a k _ => if k == .invall then a == ⟨.zero, .block, false⟩ else okAddr a.o
  | .mzero c a _ _ => if c.u then okSPair a.o else okVBlk 2 a.o
  | .mcopy c a b _ _ => if c.u then okSPair a.o && okSPair b.o else okVBlk 2 a.o && okVBlk 2 b.o
  | .mcmp c d a b _ _ => okV d && (if c.u then okSPair a.o && okSPair b.o else okVBlk 2 a.o && okVBlk 2 b.o)
  | .swinit _ a _ _ | .swarr _ a _ _ | .swwait _ a _ _ => okVS a.o
  | .acp _ d a cp _ _ g =>
    (if g then okAddr d else okVS d) && okAddr a.o && (match cp with | .reg r => okVS r.o | .lit _ => true)
  | .acpt _ _ a _ _ l =>
    okAddr a.o && 1 ≤ l.len.toNat && l.len.toNat ≤ (if l.trn then 128 else l.dty.cols)
  | .acpr _ d _ b cp _ op =>
    okAddr d && okData op.regs b.o && (match cp with | .reg r => okVS r.o | .lit _ => true)
  | .acpl _ d a b _ g size _ =>
    (if g then okSPair d else (match d with | .s _ => true | _ => false)) && okSPair a.o && okV b.o
      && 1 ≤ size.toNat && size.toNat ≤ 512
  | .enq _ a _ => okV a.o
  | .tclm _ _ s1 s2 s3 | .trel _ s1 s2 s3 => s1.isSome || s2.isSome || s3.isSome
  | .tfill _ _ b _ bc _ => if bc then okV b.o else okVBlk 64 b.o
  | .mma _ d _ _ b2 _ sh _ => okVBlk 64 d && (b2.isSome == (sh == .g6))
  | .twsend _ a | .twsendNb _ _ a => okV a.o
  | .twrecv _ d => okV d || d == .zero
  | .twfree c d => okDst c.u d
  | _ => true

/-- Whether the row has an encoding: the instructions do, the device's events do not. -/
def Instr.isInstr : Instr → Bool
  | .nop _ | .bra .. | .brc .. | .brx .. | .call .. | .callx .. | .ret .. | .exit _ | .meet .. | .jarr .. | .jleave ..
  | .meld .. | .meldx _ | .ptab .. | .npb _ | .npe _ | .trap .. | .bkpt .. | .svc .. | .eret _ | .waite .. | .rdcyc ..
  | .mfs .. | .mts .. | .iadd .. | .iaddi .. | .isub .. | .imul .. | .imulh .. | .imad .. | .imin .. | .imax ..
  | .iabs .. | .lop .. | .lopi .. | .shl .. | .shr .. | .sar .. | .popc .. | .clz .. | .brev .. | .bfx .. | .bfi ..
  | .icmp .. | .icmpi .. | .aadd .. | .aaddi .. | .sel .. | .mov .. | .movi .. | .movl .. | .plop .. | .fadd ..
  | .fmul .. | .ffma .. | .fmin .. | .fmax .. | .fcmp .. | .frnd .. | .fcls .. | .frcp .. | .frsq .. | .fsqt ..
  | .fex2 .. | .flg2 .. | .fspi .. | .fcpi .. | .padd2 .. | .pmul2 .. | .pfma2 .. | .dot2f .. | .dot4i .. | .spdot ..
  | .cvt .. | .pack2 .. | .unpk2 .. | .raybox .. | .raytri .. | .shfl .. | .ballot .. | .vote .. | .matchKeys ..
  | .compact .. | .reduce .. | .scan .. | .regroup .. | .topk .. | .pchk .. | .ld .. | .st .. | .ldu .. | .lds ..
  | .sts .. | .atom .. | .red .. | .fence .. | .pref .. | .cctl .. | .mzero .. | .mcopy .. | .mcmp .. | .swinit ..
  | .swarr .. | .swwait .. | .bar .. | .bara .. | .barw .. | .acp .. | .acpt .. | .acpr .. | .acpl .. | .enq ..
  | .enqc _ | .tksig .. | .gang .. | .tclm .. | .trel .. | .tfill .. | .mma .. | .mlic .. | .mlrel _ | .twsend ..
  | .twsendNb .. | .twrecv .. | .twfree .. | .twbar .. => true
  | _ => false

/-- An instruction that passes every check of R280 that reads it alone. Events have nothing to check. -/
def Instr.wf (i : Instr) : Bool := i.opOk && i.operandsOk

end Sys2Proof
end

