-- ==== Sys2Proof/Decode.lean ====
section
/-! DEFINITION. Decode.lean: instruction words to `Instr` (R274 to R295) and clause headers (R39, R40), total on
every word. A word the tables do not assign, or whose fields the row does not allow, answers the trap R280 gives
it, ILLEGAL_OP (step 1 or 3) or ILLEGAL_OPERAND (step 4). After it stands the encoder, from the same tables. -/
namespace Sys2Proof

/-- The fields of format V (R274). The other formats are read from the same fields (R276). -/
structure VF where
  op : BitVec 8
  u : Bool
  gn : Bool
  gp : BitVec 3
  la : Bool
  lb : Bool
  lc : Bool
  pa : BitVec 2
  pb : BitVec 2
  pc : BitVec 2
  ss : Bool
  slot : BitVec 3
  d : BitVec 8
  a : BitVec 8
  b : BitVec 8
  c : BitVec 8
  mod : BitVec 6
deriving DecidableEq, Repr

/-- The layout of R274. -/
def splitWord (w : DWord) : VF where
  op := w.extractLsb' 56 8
  u := w.getLsbD 55
  gn := w.getLsbD 54
  gp := w.extractLsb' 51 3
  la := w.getLsbD 50
  lb := w.getLsbD 49
  lc := w.getLsbD 48
  pa := w.extractLsb' 46 2
  pb := w.extractLsb' 44 2
  pc := w.extractLsb' 42 2
  ss := w.getLsbD 41
  slot := w.extractLsb' 38 3
  d := w.extractLsb' 30 8
  a := w.extractLsb' 22 8
  b := w.extractLsb' 14 8
  c := w.extractLsb' 6 8
  mod := w.extractLsb' 0 6

/-- The word with these fields (R274). -/
def joinWord (f : VF) : DWord :=
  f.op ++ (BitVec.ofBool f.u ++ (BitVec.ofBool f.gn ++ (f.gp ++ (BitVec.ofBool f.la ++ (BitVec.ofBool f.lb ++
    (BitVec.ofBool f.lc ++ (f.pa ++ (f.pb ++ (f.pc ++ (BitVec.ofBool f.ss ++ (f.slot ++ (f.d ++ (f.a ++ (f.b ++
      (f.c ++ f.mod)))))))))))))))

/-- IMM of format I (R276). -/
def VF.imm (f : VF) : BitVec 22 := f.b ++ (f.c ++ f.mod)
/-- OFF of format K (R276). -/
def VF.koff (f : VF) : BitVec 30 := f.a ++ (f.b ++ (f.c ++ f.mod))
/-- KIND, HINT and ORD of format M (R276). OFF is MOD. -/
def VF.kind (f : VF) : BitVec 4 := f.c.extractLsb' 4 4
def VF.hint (f : VF) : BitVec 2 := f.c.extractLsb' 2 2
def VF.ord (f : VF) : BitVec 2 := f.c.extractLsb' 0 2

/-- The assigned values of OP (R282), by name. -/
inductive Mn where
  | nop | bra | brc | brx | call | callx | ret | exit | meet | jarr | jleave | meld | meldx | ptab | npb
  | npe | trap | bkpt | svc | eret | waite | rdcyc | mfs | mts | iadd | iaddi | isub | imul | imulh | imad
  | imin | imax | iabs | lop | lopi | shl | shr | sar | popc | clz | brev | bfx | bfi | icmp | icmpi | aadd
  | aaddi | sel | mov | movi | movl | plop | fadd | fmul | ffma | fmin | fmax | fcmp | frnd | fcls | frcp
  | frsq | fsqt | fex2 | flg2 | fspi | fcpi | padd2 | pmul2 | pfma2 | dot2f | dot4i | spdot | cvt | pack2
  | unpk2 | raybox | raytri | shfl | ballot | vote | matchKeys | compact | reduce | scan | regroup | topk
  | pchk | ld | st | ldu | lds | sts | atom | red | fence | pref | cctl | mzero | mcopy | mcmp | swinit
  | swarr | swwait | bar | bara | barw | acp | acpt | acpr | acpl | enq | enqc | tksig | gang | tclm | trel
  | tfill | mma | mlic | mlrel | twsend | twrecv | twfree | twbar
deriving DecidableEq, Repr

/-- OP of each name (R282). -/
def Mn.op : Mn → BitVec 8
  | .nop => 0x00 | .bra => 0x01 | .brc => 0x02 | .brx => 0x03 | .call => 0x04 | .callx => 0x05 | .ret => 0x06
  | .exit => 0x07 | .meet => 0x08 | .jarr => 0x09 | .jleave => 0x0A | .meld => 0x0B | .meldx => 0x0C
  | .ptab => 0x0D | .npb => 0x0E | .npe => 0x0F | .trap => 0x10 | .bkpt => 0x11 | .svc => 0x12
  | .eret => 0x13 | .waite => 0x14 | .rdcyc => 0x15 | .mfs => 0x16 | .mts => 0x17 | .iadd => 0x20
  | .iaddi => 0x21 | .isub => 0x22 | .imul => 0x23 | .imulh => 0x24 | .imad => 0x25 | .imin => 0x26
  | .imax => 0x27 | .iabs => 0x28 | .lop => 0x29 | .lopi => 0x2A | .shl => 0x2B | .shr => 0x2C | .sar => 0x2D
  | .popc => 0x2E | .clz => 0x2F | .brev => 0x30 | .bfx => 0x31 | .bfi => 0x32 | .icmp => 0x33
  | .icmpi => 0x34 | .aadd => 0x35 | .aaddi => 0x36 | .sel => 0x37 | .mov => 0x38 | .movi => 0x39
  | .movl => 0x3A | .plop => 0x3B | .fadd => 0x40 | .fmul => 0x41 | .ffma => 0x42 | .fmin => 0x43
  | .fmax => 0x44 | .fcmp => 0x45 | .frnd => 0x46 | .fcls => 0x47 | .frcp => 0x48 | .frsq => 0x49
  | .fsqt => 0x4A | .fex2 => 0x4B | .flg2 => 0x4C | .fspi => 0x4D | .fcpi => 0x4E | .padd2 => 0x50
  | .pmul2 => 0x51 | .pfma2 => 0x52 | .dot2f => 0x53 | .dot4i => 0x54 | .spdot => 0x55 | .cvt => 0x56
  | .pack2 => 0x57 | .unpk2 => 0x58 | .raybox => 0x59 | .raytri => 0x5A | .shfl => 0x60 | .ballot => 0x61
  | .vote => 0x62 | .matchKeys => 0x63 | .compact => 0x64 | .reduce => 0x65 | .scan => 0x66
  | .regroup => 0x67 | .topk => 0x68 | .pchk => 0x69 | .ld => 0x70 | .st => 0x71 | .ldu => 0x72
  | .lds => 0x73 | .sts => 0x74 | .atom => 0x75 | .red => 0x76 | .fence => 0x77 | .pref => 0x78
  | .cctl => 0x79 | .mzero => 0x7A | .mcopy => 0x7B | .mcmp => 0x7C | .swinit => 0x7D | .swarr => 0x7E
  | .swwait => 0x7F | .bar => 0x80 | .bara => 0x81 | .barw => 0x82 | .acp => 0x90 | .acpt => 0x91
  | .acpr => 0x92 | .acpl => 0x93 | .enq => 0x94 | .enqc => 0x95 | .tksig => 0x96 | .gang => 0xA0
  | .tclm => 0xA1 | .trel => 0xA2 | .tfill => 0xA3 | .mma => 0xA4 | .mlic => 0xA5 | .mlrel => 0xA6
  | .twsend => 0xA7 | .twrecv => 0xA8 | .twfree => 0xA9 | .twbar => 0xAA

/-- Every name, in the order of OP. -/
def Mn.all : List Mn :=
  [.nop, .bra, .brc, .brx, .call, .callx, .ret, .exit, .meet, .jarr, .jleave, .meld, .meldx, .ptab, .npb, .npe, .trap, .bkpt, .svc, .eret, .waite, .rdcyc, .mfs, .mts, .iadd]
    ++ [.iaddi, .isub, .imul, .imulh, .imad, .imin, .imax, .iabs, .lop, .lopi, .shl, .shr, .sar, .popc, .clz, .brev, .bfx, .bfi, .icmp, .icmpi, .aadd, .aaddi, .sel, .mov, .movi]
    ++ [.movl, .plop, .fadd, .fmul, .ffma, .fmin, .fmax, .fcmp, .frnd, .fcls, .frcp, .frsq, .fsqt, .fex2, .flg2, .fspi, .fcpi, .padd2, .pmul2, .pfma2, .dot2f, .dot4i, .spdot, .cvt, .pack2]
    ++ [.unpk2, .raybox, .raytri, .shfl, .ballot, .vote, .matchKeys, .compact, .reduce, .scan, .regroup, .topk, .pchk, .ld, .st, .ldu, .lds, .sts, .atom, .red, .fence, .pref, .cctl, .mzero, .mcopy]
    ++ [.mcmp, .swinit, .swarr, .swwait, .bar, .bara, .barw, .acp, .acpt, .acpr, .acpl, .enq, .enqc, .tksig, .gang, .tclm, .trel, .tfill, .mma, .mlic, .mlrel, .twsend, .twrecv, .twfree, .twbar]

/-- Formats (R274, R276). X reads as V, and L adds a word to V or K. -/
inductive Fmt where
  | v | i | m | k
deriving DecidableEq, Repr

/-- Format of each opcode (R283 to R295). -/
def Mn.fmt : Mn → Fmt
  | .bra | .brc | .call | .meet | .regroup => .k
  | .trap | .bkpt | .svc | .waite | .mfs | .mts | .iaddi | .lopi | .icmpi | .aaddi | .movi | .fence | .bar
  | .bara | .barw | .twbar => .i
  | .ld | .st | .ldu | .lds | .sts | .atom | .red | .pref | .cctl | .mzero | .mcopy | .mcmp | .swinit
  | .swarr | .swwait => .m
  | _ => .v

/-- The U column (R283 to R295). -/
inductive URule where
  | may | no | must
deriving DecidableEq, Repr

def Mn.uRule : Mn → URule
  | .nop | .bra | .brc | .brx | .call | .callx | .ret | .exit | .meet | .jarr | .jleave | .meld | .meldx
  | .ptab | .npb | .npe | .trap | .bkpt | .svc | .eret | .waite | .raybox | .raytri | .shfl | .matchKeys
  | .compact | .regroup | .topk | .pchk | .ld | .st | .lds | .sts | .atom | .red | .fence | .pref | .cctl
  | .swinit | .swarr | .swwait | .bar | .bara | .barw | .acp | .acpt | .acpr | .acpl | .enq | .enqc | .tclm
  | .trel | .tfill | .mma | .mlic | .mlrel | .twsend | .twrecv | .twbar => .no
  | .ldu | .tksig | .gang => .must
  | _ => .may

/-- MOD bits of format V that are not reserved (R275). -/
def Mn.modMask : Mn → BitVec 6
  | .jarr | .jleave | .ptab | .aadd | .frnd | .reduce | .acpt | .acpl | .tfill => 0x07
  | .meld | .fadd | .fmul | .ffma => 0x1F
  | .iadd | .isub | .dot4i | .unpk2 | .shfl | .vote | .topk | .gang => 0x03
  | .imulh | .imin | .imax | .iabs | .bfx | .movl | .dot2f | .twsend => 0x01
  | .lop | .sel | .plop | .padd2 | .pmul2 | .pfma2 | .scan => 0x0F
  | .cvt | .acp | .acpr | .mma => 0x3F
  | _ => 0x00

/-- The opcode a value of OP names (R282). -/
def Mn.ofOp (op : BitVec 8) : Option Mn := Mn.all.find? fun m => m.op == op

/-- Whether a literal word follows (R4, R276 format L, R292). -/
def hasLiteral (m : Mn) (f : VF) : Bool :=
  match m with
  | .ptab | .movl | .regroup | .acpt | .acpl => true
  | .acp | .acpr => f.mod.getLsbD 5
  | _ => false

/-- The instructions that must stand last in their clause (R40). -/
def Mn.standsLast : Mn → Bool
  | .bra | .brc | .brx | .call | .callx | .ret | .exit | .eret => true
  | _ => false

/-- The engines of R39. -/
inductive Engine where
  | vector | memory | matrix | async | system
deriving DecidableEq, Repr

/-- The engine an opcode uses (R39). 0x00 to 0x0F use none. -/
def engineOf (op : BitVec 8) : Option Engine :=
  let n := op.toNat
  if n < 0x10 then none
  else if n < 0x20 then some .system
  else if n < 0x70 then some .vector
  else if n < 0x90 then some .memory
  else if n < 0xA0 then some .async
  else if n < 0xA7 then some .matrix
  else some .system

/-- Which of A, B, C the opcode reads as a source operand code (R275). -/
def readsABC (m : Mn) (f : VF) : Bool × Bool × Bool :=
  match m with
  | .brx | .callx | .ret | .mts | .iaddi | .iabs | .lopi | .popc | .clz | .brev | .icmpi | .aaddi | .mov | .frnd
  | .fcls | .frcp | .frsq | .fsqt | .fex2 | .flg2 | .fspi | .fcpi | .cvt | .unpk2 | .matchKeys | .compact | .reduce
  | .scan | .pchk | .lds | .mzero | .acpt | .tksig | .twsend => (true, false, false)
  | .meld => (f.mod.getLsbD 0, false, false)
  | .cctl => (f.kind != 2, false, false)
  | .iadd | .isub | .imul | .imulh | .imin | .imax | .lop | .shl | .shr | .sar | .bfx | .icmp | .aadd | .sel | .fadd
  | .fmul | .fmin | .fmax | .fcmp | .padd2 | .pmul2 | .pack2 | .raybox | .raytri | .shfl | .topk | .ld | .st | .ldu
  | .sts | .atom | .red | .pref | .mcopy | .mcmp | .swinit | .swarr | .swwait | .acpl | .enq | .gang => (true, true, false)
  | .imad | .bfi | .ffma | .pfma2 | .dot2f | .dot4i | .spdot => (true, true, true)
  | .acp => (true, false, !f.mod.getLsbD 5)
  | .acpr => (true, true, !f.mod.getLsbD 5)
  | .tfill => (false, true, false)
  | _ => (false, false, false)

def encPol : Policy → BitVec 2
  | .block => 0 | .split => 1 | .trap => 2

/-- R43. Policy 11 has no meaning. -/
def decPol (p : BitVec 2) : Option Policy :=
  if p = 0 then some .block else if p = 1 then some .split else if p = 2 then some .trap else none

/-- The table of R277. -/
def encOpd : Opd → BitVec 8
  | .v n => BitVec.ofNat 8 n.val
  | .s n => BitVec.ofNat 8 (0x80 + n.val)
  | .zero => 0xC0
  | .lid => 0xC1 | .gslot => 0xC2 | .cid => 0xC3 | .widLo => 0xC4 | .widHi => 0xC5
  | .wf k => BitVec.ofNat 8 (0xC6 + k.val)
  | .path => 0xCC
  | .w n => BitVec.ofNat 8 (0xE0 + n.val)
  | .m n => BitVec.ofNat 8 (0xF0 + n.val)

def decOpd (x : BitVec 8) : Option Opd :=
  let n := x.toNat
  if h : n < 128 then some (.v ⟨n, h⟩)
  else if h : n - 0x80 < 64 then some (.s ⟨n - 0x80, h⟩)
  else if n = 0xC0 then some .zero
  else if n = 0xC1 then some .lid
  else if n = 0xC2 then some .gslot
  else if n = 0xC3 then some .cid
  else if n = 0xC4 then some .widLo
  else if n = 0xC5 then some .widHi
  else if h : n - 0xC6 < 6 then some (.wf ⟨n - 0xC6, h⟩)
  else if n = 0xCC then some .path
  else if n < 0xE0 then none
  else if h : n - 0xE0 < 16 then some (.w ⟨n - 0xE0, h⟩)
  else if h : n - 0xF0 < 16 then some (.m ⟨n - 0xF0, h⟩)
  else none

/-- A predicate field (R279). -/
def decPred (x : BitVec 8) : Option (Fin 8) :=
  if x.toNat < 8 then some ⟨x.toNat % 8, Nat.mod_lt _ (by decide)⟩ else none
def encPred (p : Fin 8) : BitVec 8 := BitVec.ofNat 8 p.val

/-- A slot-number field (R276). -/
def decSlot (x : BitVec 8) : Option (Option (Fin 16)) :=
  if x.toNat < 16 then some (some ⟨x.toNat % 16, Nat.mod_lt _ (by decide)⟩) else if x = 0xC0 then some none else none
def encSlot : Option (Fin 16) → BitVec 8
  | some n => BitVec.ofNat 8 n.val
  | none => 0xC0

/-- A three-bit number. -/
def fin8 (x : BitVec 3) : Fin 8 := ⟨x.toNat, x.isLt⟩
/-- A two-bit number. -/
def fin4 (x : BitVec 2) : Fin 4 := ⟨x.toNat, x.isLt⟩

def encSat : Sat → BitVec 6
  | .wrap => 0 | .sat => 1 | .usat => 2
def decSat (x : BitVec 6) : Option Sat :=
  if x = 0 then some .wrap else if x = 1 then some .sat else if x = 2 then some .usat else none

/-- R77. -/
def encRM : RM → BitVec 3
  | .rn => 0 | .rz => 1 | .ru => 2 | .rd => 3 | .dt => 4
def decRM (x : BitVec 3) : Option RM :=
  if x = 0 then some .rn else if x = 1 then some .rz else if x = 2 then some .ru else if x = 3 then some .rd
  else if x = 4 then some .dt else none

/-- R279. -/
def encICC : ICC → BitVec 4
  | .eq => 0 | .ne => 1 | .lt => 2 | .le => 3 | .gt => 4 | .ge => 5 | .ltu => 6 | .leu => 7 | .gtu => 8 | .geu => 9
def decICC (x : BitVec 4) : Option ICC :=
  [ICC.eq, .ne, .lt, .le, .gt, .ge, .ltu, .leu, .gtu, .geu][x.toNat]?
def encFCC : FCC → BitVec 4
  | .eq => 0 | .ne => 1 | .lt => 2 | .le => 3 | .gt => 4 | .ge => 5 | .un => 6 | .ord => 7
def decFCC (x : BitVec 4) : Option FCC :=
  [FCC.eq, .ne, .lt, .le, .gt, .ge, .un, .ord][x.toNat]?

/-- R327. -/
def encBrCond : BrCond → BitVec 2
  | .any => 0 | .all => 1 | .none => 2
def decBrCond (x : BitVec 2) : Option BrCond := [BrCond.any, .all, .none][x.toNat]?

/-- R285. -/
def encTy : Ty → BitVec 4
  | .f32 => 0 | .f16 => 1 | .bf16 => 2 | .e4m3 => 3 | .e5m2 => 4 | .sp8 => 5 | .i32 => 6 | .n32 => 7 | .i8 => 8
def decTy (x : BitVec 4) : Option Ty :=
  [Ty.f32, .f16, .bf16, .e4m3, .e5m2, .sp8, .i32, .n32, .i8][x.toNat]?

/-- R286. -/
def encShMode : ShMode → BitVec 2
  | .idx => 0 | .up => 1 | .down => 2 | .xor => 3
def decShMode (x : BitVec 2) : ShMode :=
  if x = 0 then .idx else if x = 1 then .up else if x = 2 then .down else .xor
def encVMode : VMode → BitVec 2
  | .any => 0 | .all => 1 | .eq => 2
def decVMode (x : BitVec 2) : Option VMode := [VMode.any, .all, .eq][x.toNat]?
def encROp : ROp → BitVec 3
  | .add => 0 | .fadd => 1 | .min => 2 | .max => 3 | .umin => 4 | .umax => 5 | .fmin => 6 | .fmax => 7
def decROp (x : BitVec 3) : Option ROp :=
  [ROp.add, .fadd, .min, .max, .umin, .umax, .fmin, .fmax][x.toNat]?
def encTk : TkKind → BitVec 2
  | .f32 => 0 | .i32 => 1 | .n32 => 2
def decTk (x : BitVec 2) : Option TkKind := [TkKind.f32, .i32, .n32][x.toNat]?

/-- R287. -/
def encMKind : MKind → BitVec 4
  | .b8 => 0 | .b16 => 1 | .b32 => 2 | .b64 => 3 | .b128 => 4 | .f32 => 5 | .f16 => 6 | .bf16 => 7 | .rb8 => 8
  | .rb16 => 9 | .rb32 => 10 | .rb64 => 11 | .rb128 => 12 | .i32 => 13 | .tag => 14
def decMKind (x : BitVec 4) : Option MKind :=
  [MKind.b8, .b16, .b32, .b64, .b128, .f32, .f16, .bf16, .rb8, .rb16, .rb32, .rb64, .rb128, .i32, .tag][x.toNat]?

/-- R276. -/
def encHint : Hint → BitVec 2
  | .normal => 0 | .ro => 1 | .stream => 2 | .bypass => 3
def decHint (x : BitVec 2) : Hint :=
  if x = 0 then .normal else if x = 1 then .ro else if x = 2 then .stream else .bypass
def encOrd : Ord → BitVec 2
  | .plain => 0 | .acq => 1 | .rel => 2 | .ar => 3
def decOrd (x : BitVec 2) : Ord :=
  if x = 0 then .plain else if x = 1 then .acq else if x = 2 then .rel else .ar

/-- R288. -/
def encAOp : AOp → BitVec 4
  | .add32 => 0 | .add64 => 1 | .addf => 2 | .smin => 3 | .smax => 4 | .umin => 5 | .umax => 6 | .and32 => 7
  | .or32 => 8 | .xor32 => 9 | .and64 => 10 | .or64 => 11 | .exch32 => 12 | .exch64 => 13 | .cas32 => 14 | .cas64 => 15
def decAOp (x : BitVec 4) : Option AOp :=
  [AOp.add32, .add64, .addf, .smin, .smax, .umin, .umax, .and32, .or32, .xor32, .and64, .or64, .exch32, .exch64,
    .cas32, .cas64][x.toNat]?

/-- R290. -/
def encCKind : CKind → BitVec 4
  | .inv => 0 | .wb => 1 | .invall => 2
def decCKind (x : BitVec 4) : Option CKind := [CKind.inv, .wb, .invall][x.toNat]?

def encCSize : CSize → BitVec 2
  | .b32 => 0 | .b64 => 1 | .b128 => 2
def decCSize (x : BitVec 2) : Option CSize := [CSize.b32, .b64, .b128][x.toNat]?

/-- R293. -/
def encDTy : DTy → BitVec 3
  | .bf16 => 1 | .f16 => 2 | .e4m3 => 3 | .e5m2 => 4 | .int8 => 5 | .sp8 => 6
def decDTy (x : BitVec 3) : Option DTy :=
  if x = 0 then none else [DTy.bf16, .f16, .e4m3, .e5m2, .int8, .sp8][x.toNat - 1]?
def encSTy : STy → BitVec 3
  | .f32 => 0 | .bf16 => 1 | .f16 => 2 | .e4m3 => 3 | .e5m2 => 4 | .int8 => 5 | .sp8 => 6
def decSTy (x : BitVec 3) : Option STy := [STy.f32, .bf16, .f16, .e4m3, .e5m2, .int8, .sp8][x.toNat]?

def encAcpt (l : AcptLit) : DWord :=
  l.comp ++ ((0 : BitVec 12) ++ (l.len ++ (BitVec.ofBool l.sat ++ (BitVec.ofBool l.trn ++ (encRM l.rm ++
    (encDTy l.dty ++ encSTy l.sty))))))
def decAcpt (w : DWord) : Option AcptLit :=
  match decRM (w.extractLsb' 6 3), decDTy (w.extractLsb' 3 3), decSTy (w.extractLsb' 0 3) with
  | some rm, some dty, some sty =>
    some ⟨w.extractLsb' 32 32, w.extractLsb' 11 9, w.getLsbD 10, w.getLsbD 9, rm, dty, sty⟩
  | _, _, _ => none

/-- R295. -/
def encGShape : GShape → BitVec 2
  | .g2 => 1 | .g4 => 2 | .g6 => 3
def decGShape (x : BitVec 2) : Option GShape :=
  if x = 1 then some .g2 else if x = 2 then some .g4 else if x = 3 then some .g6 else none
def encMTy : MTy → BitVec 3
  | .bf16 => 0 | .f16 => 1 | .e4m3 => 2 | .e5m2 => 3 | .i8 => 4 | .sp8 => 5
def decMTy (x : BitVec 3) : Option MTy := [MTy.bf16, .f16, .e4m3, .e5m2, .i8, .sp8][x.toNat]?
def encMShape : MShape → BitVec 2
  | .g2lo => 0 | .g2hi => 1 | .g4 => 2 | .g6 => 3
def decMShape (x : BitVec 2) : MShape :=
  if x = 0 then .g2lo else if x = 1 then .g2hi else if x = 2 then .g4 else .g6

/-- R291. -/
def encFence : FenceKind → BitVec 22
  | .plain => 0 | .acq => 1 | .rel => 2 | .ar => 3 | .mem => 4
  | .q m => (0 : BitVec 14) ++ (m ++ (8 : BitVec 4))
def decFence (x : BitVec 22) : Option FenceKind :=
  if x.extractLsb' 8 14 != 0 then none
  else if x.extractLsb' 0 4 = 8 then some (.q (x.extractLsb' 4 4))
  else if x.extractLsb' 4 4 != 0 then none
  else
    let k := x.extractLsb' 0 4
    if k = 0 then some .plain else if k = 1 then some .acq else if k = 2 then some .rel
    else if k = 3 then some .ar else if k = 4 then some .mem else none

/-- Rows of format M: KIND, HINT and ORD admitted (R289, R290, R331, R370, R420). -/
def memRowOk (m : Mn) (f : VF) : Bool :=
  match m with
  | .ld => f.kind != 15 && f.ord.toNat < 2
  | .st => f.kind != 15 && (f.ord = 0 || f.ord = 2)
  | .ldu => 2 ≤ f.kind.toNat && f.kind.toNat ≤ 4 && f.hint.toNat < 2 && f.ord = 0
  | .lds => f.kind.toNat ≤ 4 && f.hint = 0 && f.ord.toNat < 2
  | .sts => f.kind.toNat ≤ 4 && f.hint = 0 && (f.ord = 0 || f.ord = 2)
  | .atom => f.hint = 0
  | .red => f.kind.toNat ≤ 11 && f.hint = 0 && (f.ord = 0 || f.ord = 2)
  | .pref => f.kind.toNat ≤ 1 && f.hint = 0 && f.ord = 0
  | .cctl => f.kind.toNat ≤ 2 && f.hint = 0 && f.ord = 0
  | .mzero | .mcopy | .mcmp => f.kind.toNat ≤ 9 && f.hint = 0 && f.ord = 0
  | .swinit | .swarr | .swwait => f.kind = 0 && f.hint = 0 && f.ord = 0
  | _ => true

/-- The checks of step 3 of R280 that one opcode makes of its own. -/
def rowOwnOk (m : Mn) (f : VF) (lit : DWord) : Bool :=
  match m with
  | .brc => f.d.extractLsb' 3 2 != 3
  | .meld => f.mod.getLsbD 1 || f.mod.extractLsb' 2 3 == 0
  | .waite => f.imm.extractLsb' 0 8 != 0 && f.imm.extractLsb' 8 14 == 0
  | .mfs | .mts => f.imm.extractLsb' 9 13 == 0
  | .iadd | .isub => f.mod != 3
  | .icmp | .icmpi => (f.d.extractLsb' 3 4).toNat < 10
  | .fcmp => (f.d.extractLsb' 3 4).toNat < 8
  | .movl => f.mod.getLsbD 0 || lit.extractLsb' 32 32 == 0
  | .fadd | .fmul | .ffma | .frnd | .padd2 | .pmul2 | .pfma2 => (f.mod.extractLsb' 0 3).toNat < 4
  | .cvt =>
    match decTy (f.b.extractLsb' 4 4), decTy (f.b.extractLsb' 0 4), decRM (f.mod.extractLsb' 0 3) with
    | some s, some d, some rm =>
      cvtPairOk s d && (f.mod.extractLsb' 4 2).toNat < s.perLane && (d != .sp8 || rm == .rn)
    | _, _, _ => false
  | .vote | .topk => f.mod != 3
  | .regroup => lit.extractLsb' 32 32 == 0
  | .fence => (decFence f.imm).isSome
  | .bar | .bara => (f.imm.extractLsb' 0 7).toNat < 64 || f.imm.extractLsb' 7 15 == 0
  | .barw => f.imm.extractLsb' 7 15 == 0
  | .acp => f.mod.extractLsb' 2 2 != 3 && (!f.mod.getLsbD 5 || lit.extractLsb' 32 32 == 0)
  | .acpr => f.mod.extractLsb' 2 3 != 7 && (!f.mod.getLsbD 5 || lit.extractLsb' 32 32 == 0)
  | .acpt =>
    lit.extractLsb' 20 12 == 0 &&
    match decAcpt lit with
    | some l => l.ok
    | none => false
  | .acpl => lit.extractLsb' 10 22 == 0
  | .gang => f.mod != 0
  | .mma => (f.mod.extractLsb' 0 3).toNat < 6
  | .twbar => f.imm.extractLsb' 2 20 == 0
  | _ => true

/-- Step 3 of R280: reserved bits and values, U against the row, SS and SLOT, fields that are not sources. -/
def rowOk (m : Mn) (f : VF) (lit : DWord) : Bool :=
  (match m.uRule with | .may => true | .no => !f.u | .must => f.u)
    && (f.ss || f.slot == 0)
    && (m.fmt != .v || f.mod &&& ~~~m.modMask == 0)
    && ((readsABC m f).1 || (!f.la && f.pa == 0))
    && ((readsABC m f).2.1 || (!f.lb && f.pb == 0))
    && ((readsABC m f).2.2 || (!f.lc && f.pc == 0))
    && memRowOk m f && rowOwnOk m f lit

/-- The control fields of a word that passed step 3. -/
def VF.ctl (f : VF) : Ctl := ⟨f.u, f.gn, fin8 f.gp, if f.ss then some (fin8 f.slot) else none⟩

/-- Sources A, B, C as operands. `none` for a reserved code or policy 11. -/
def VF.srcA (f : VF) : Option Src :=
  match decOpd f.a, decPol f.pa with | some o, some p => some ⟨o, p, f.la⟩ | _, _ => none
def VF.srcB (f : VF) : Option Src :=
  match decOpd f.b, decPol f.pb with | some o, some p => some ⟨o, p, f.lb⟩ | _, _ => none
def VF.srcC (f : VF) : Option Src :=
  match decOpd f.c, decPol f.pc with | some o, some p => some ⟨o, p, f.lc⟩ | _, _ => none

/-- One source and a destination. -/
def VF.da (f : VF) (k : Opd → Src → Instr) : Option Instr :=
  match decOpd f.d, f.srcA with | some d, some a => some (k d a) | _, _ => none
/-- Two sources and a destination. -/
def VF.dab (f : VF) (k : Opd → Src → Src → Instr) : Option Instr :=
  match decOpd f.d, f.srcA, f.srcB with | some d, some a, some b => some (k d a b) | _, _, _ => none
/-- Three sources and a destination. -/
def VF.dabc (f : VF) (k : Opd → Src → Src → Src → Instr) : Option Instr :=
  match decOpd f.d, f.srcA, f.srcB, f.srcC with
  | some d, some a, some b, some e => some (k d a b e) | _, _, _, _ => none
/-- Sources A and B without a destination. -/
def VF.ab (f : VF) (k : Src → Src → Instr) : Option Instr :=
  match f.srcA, f.srcB with | some a, some b => some (k a b) | _, _ => none

/-- The instruction, from fields that passed step 3. `none` for an operand code or policy that does not read. -/
def build (m : Mn) (f : VF) (lit : DWord) : Option Instr :=
  let c := f.ctl
  let mb := fun n => f.mod.getLsbD n
  let rm := (decRM (f.mod.extractLsb' 0 3)).getD .rn
  match m with
  | .nop => some (.nop c)
  | .bra => some (.bra c f.koff)
  | .brc =>
    if f.d.extractLsb' 5 3 = 0 then
      (decBrCond (f.d.extractLsb' 3 2)).map fun k => .brc c (fin8 (f.d.extractLsb' 0 3)) k f.koff
    else none
  | .brx => f.srcA.map (.brx c)
  | .call => (decOpd f.d).map fun d => .call c d f.koff
  | .callx => f.da (.callx c)
  | .ret => f.srcA.map (.ret c)
  | .exit => some (.exit c)
  | .meet => (decPred f.d).map fun n => .meet c n f.koff
  | .jarr => some (.jarr c (fin8 (f.mod.extractLsb' 0 3)))
  | .jleave => some (.jleave c (fin8 (f.mod.extractLsb' 0 3)))
  | .meld =>
    let wp := if mb 1 then some (fin8 (f.mod.extractLsb' 2 3)) else none
    if mb 0 then f.srcA.map fun a => .meld c (.q4 a) wp else (decPred f.a).map fun p => .meld c (.pred p) wp
  | .meldx => some (.meldx c)
  | .ptab => some (.ptab c (fin4 (f.mod.extractLsb' 0 2)) (mb 2) lit)
  | .npb => some (.npb c)
  | .npe => some (.npe c)
  | .trap => some (.trap c f.imm)
  | .bkpt => some (.bkpt c f.imm)
  | .svc => some (.svc c f.imm)
  | .eret => some (.eret c)
  | .waite => some (.waite c (f.imm.extractLsb' 0 8))
  | .rdcyc => (decOpd f.d).map (.rdcyc c)
  | .mfs => (decOpd f.d).map fun d => .mfs c d (f.imm.extractLsb' 0 9)
  | .mts => f.srcA.map fun a => .mts c a (f.imm.extractLsb' 0 9)
  | .iadd => f.dab fun d a b => .iadd c d a b ((decSat f.mod).getD .wrap)
  | .iaddi => f.da fun d a => .iaddi c d a f.imm
  | .isub => f.dab fun d a b => .isub c d a b ((decSat f.mod).getD .wrap)
  | .imul => f.dab (.imul c)
  | .imulh => f.dab fun d a b => .imulh c d a b (mb 0)
  | .imad => f.dabc (.imad c)
  | .imin => f.dab fun d a b => .imin c d a b (mb 0)
  | .imax => f.dab fun d a b => .imax c d a b (mb 0)
  | .iabs => f.da fun d a => .iabs c d a (mb 0)
  | .lop => f.dab fun d a b => .lop c d a b (f.mod.extractLsb' 0 4)
  | .lopi => f.da fun d a => .lopi c d a (f.imm.extractLsb' 18 4) (f.imm.extractLsb' 0 18)
  | .shl => f.dab (.shl c)
  | .shr => f.dab (.shr c)
  | .sar => f.dab (.sar c)
  | .popc => f.da (.popc c)
  | .clz => f.da (.clz c)
  | .brev => f.da (.brev c)
  | .bfx => f.dab fun d a b => .bfx c d a b (mb 0)
  | .bfi => f.dabc (.bfi c)
  | .icmp =>
    if f.d.getLsbD 7 then none
    else match decICC (f.d.extractLsb' 3 4) with
      | some k => f.ab fun a b => .icmp c (fin8 (f.d.extractLsb' 0 3)) k a b
      | none => none
  | .icmpi =>
    if f.d.getLsbD 7 then none
    else match decICC (f.d.extractLsb' 3 4), f.srcA with
      | some k, some a => some (.icmpi c (fin8 (f.d.extractLsb' 0 3)) k a f.imm)
      | _, _ => none
  | .aadd => f.dab fun d a b => .aadd c d a b (fin4 (f.mod.extractLsb' 0 2)) (mb 2)
  | .aaddi => f.da fun d a => .aaddi c d a f.imm
  | .sel => f.dab fun d a b => .sel c d a b (fin8 (f.mod.extractLsb' 0 3)) (mb 3)
  | .mov => f.da (.mov c)
  | .movi => (decOpd f.d).map fun d => .movi c d f.imm
  | .movl => (decOpd f.d).map fun d => .movl c d (mb 0) lit
  | .plop =>
    match decPred f.d, decPred f.a, decPred f.b with
    | some d, some a, some b => some (.plop c d a b (f.mod.extractLsb' 0 4))
    | _, _, _ => none
  | .fadd => f.dab fun d a b => .fadd c d a b rm (mb 3) (mb 4)
  | .fmul => f.dab fun d a b => .fmul c d a b rm (mb 3) (mb 4)
  | .ffma => f.dabc fun d a b e => .ffma c d a b e rm (mb 3) (mb 4)
  | .fmin => f.dab (.fmin c)
  | .fmax => f.dab (.fmax c)
  | .fcmp =>
    if f.d.getLsbD 7 then none
    else match decFCC (f.d.extractLsb' 3 4) with
      | some k => f.ab fun a b => .fcmp c (fin8 (f.d.extractLsb' 0 3)) k a b
      | none => none
  | .frnd => f.da fun d a => .frnd c d a rm
  | .fcls => f.da (.fcls c)
  | .frcp => f.da (.frcp c)
  | .frsq => f.da (.frsq c)
  | .fsqt => f.da (.fsqt c)
  | .fex2 => f.da (.fex2 c)
  | .flg2 => f.da (.flg2 c)
  | .fspi => f.da (.fspi c)
  | .fcpi => f.da (.fcpi c)
  | .padd2 => f.dab fun d a b => .padd2 c d a b rm (mb 3)
  | .pmul2 => f.dab fun d a b => .pmul2 c d a b rm (mb 3)
  | .pfma2 => f.dabc fun d a b e => .pfma2 c d a b e rm (mb 3)
  | .dot2f => f.dabc fun d a b e => .dot2f c d a b e (mb 0)
  | .dot4i => f.dabc fun d a b e => .dot4i c d a b e (mb 0) (mb 1)
  | .spdot => f.dabc (.spdot c)
  | .cvt =>
    match decTy (f.b.extractLsb' 0 4), decTy (f.b.extractLsb' 4 4) with
    | some dt, some st => f.da fun d a => .cvt c d a dt st rm (mb 3) (fin4 (f.mod.extractLsb' 4 2))
    | _, _ => none
  | .pack2 => f.dab (.pack2 c)
  | .unpk2 => f.da fun d a => .unpk2 c d a (mb 0) (mb 1)
  | .raybox => f.dab (.raybox c)
  | .raytri => f.dab (.raytri c)
  | .shfl => f.dab fun d a b => .shfl c d a b (decShMode (f.mod.extractLsb' 0 2))
  | .ballot => match decOpd f.d, decPred f.a with | some d, some p => some (.ballot c d p) | _, _ => none
  | .vote =>
    let md := (decVMode (f.mod.extractLsb' 0 2)).getD .any
    match decPred f.a with
    | some p =>
      if f.u then (decOpd f.d).map fun o => .vote c (.reg o) p md
      else (decPred f.d).map fun q => .vote c (.pred q) p md
    | none => none
  | .matchKeys => f.da (.matchKeys c)
  | .compact => f.da (.compact c)
  | .reduce => match decROp (f.mod.extractLsb' 0 3) with | some k => f.da fun d a => .reduce c d a k | none => none
  | .scan =>
    match decROp (f.mod.extractLsb' 0 3) with | some k => f.da fun d a => .scan c d a k (mb 3) | none => none
  | .regroup => (decOpd f.d).map fun k => .regroup c k f.koff (lit.extractLsb' 0 32)
  | .topk =>
    match decTk (f.mod.extractLsb' 0 2) with | some k => f.dab fun d a b => .topk c d a b k | none => none
  | .pchk => match decPred f.d, f.srcA with | some p, some a => some (.pchk c p a) | _, _ => none
  | .ld =>
    match decMKind f.kind with
    | some k => f.dab fun d a b => .ld c d a b k (decHint f.hint) (f.ord == 1) f.mod
    | none => none
  | .st =>
    match decMKind f.kind with
    | some k => f.ab fun a b => .st c a b k (decHint f.hint) (f.ord == 2) f.mod
    | none => none
  | .ldu =>
    match decMKind f.kind with | some k => f.dab fun d a b => .ldu c d a b k (f.hint == 1) f.mod | none => none
  | .lds =>
    match decMKind f.kind with | some k => f.da fun d a => .lds c d a k (f.ord == 1) f.mod | none => none
  | .sts =>
    match decMKind f.kind with | some k => f.ab fun a b => .sts c a b k (f.ord == 2) f.mod | none => none
  | .atom =>
    match decAOp f.kind with | some k => f.dab fun d a b => .atom c d a b k (decOrd f.ord) f.mod | none => none
  | .red => match decAOp f.kind with | some k => f.ab fun a b => .red c a b k (f.ord == 2) f.mod | none => none
  | .fence => (decFence f.imm).map (.fence c)
  | .pref => f.ab fun a b => .pref c a b (f.kind == 1) f.mod
  | .cctl =>
    if f.kind = 2 then some (.cctl c ⟨.zero, .block, false⟩ .invall f.mod)
    else match decCKind f.kind, f.srcA with | some k, some a => some (.cctl c a k f.mod) | _, _ => none
  | .mzero =>
    if h : f.kind.toNat < 10 then f.srcA.map fun a => .mzero c a ⟨f.kind.toNat, h⟩ f.mod else none
  | .mcopy =>
    if h : f.kind.toNat < 10 then f.ab fun a b => .mcopy c a b ⟨f.kind.toNat, h⟩ f.mod else none
  | .mcmp =>
    if h : f.kind.toNat < 10 then f.dab fun d a b => .mcmp c d a b ⟨f.kind.toNat, h⟩ f.mod else none
  | .swinit => f.ab fun a b => .swinit c a b f.mod
  | .swarr => f.ab fun a b => .swarr c a b f.mod
  | .swwait => f.ab fun a b => .swwait c a b f.mod
  | .bar => some (.bar c (f.imm.extractLsb' 0 7) (f.imm.extractLsb' 7 15))
  | .bara => some (.bara c (f.imm.extractLsb' 0 7) (f.imm.extractLsb' 7 15))
  | .barw => some (.barw c (f.imm.extractLsb' 0 7))
  | .acp =>
    let q := fin4 (f.mod.extractLsb' 0 2)
    let sz := (decCSize (f.mod.extractLsb' 2 2)).getD .b32
    if mb 5 then f.da fun d a => .acp c d a (.lit (lit.extractLsb' 0 32)) q sz (mb 4)
    else match f.srcC with
      | some e => f.da fun d a => .acp c d a (.reg e) q sz (mb 4)
      | none => none
  | .acpt =>
    match decSlot f.d, f.srcA, decAcpt lit with
    | some (some t), some a, some l => some (.acpt c t a (fin4 (f.mod.extractLsb' 0 2)) (mb 2) l)
    | _, _, _ => none
  | .acpr =>
    let q := fin4 (f.mod.extractLsb' 0 2)
    match decAOp ((0 : BitVec 1) ++ f.mod.extractLsb' 2 3) with
    | some op =>
      if mb 5 then f.dab fun d a b => .acpr c d a b (.lit (lit.extractLsb' 0 32)) q op
      else match f.srcC with
        | some e => f.dab fun d a b => .acpr c d a b (.reg e) q op
        | none => none
    | none => none
  | .acpl =>
    f.dab fun d a b =>
      .acpl c d a b (fin4 (f.mod.extractLsb' 0 2)) (mb 2) (lit.extractLsb' 0 10) (lit.extractLsb' 32 32)
  | .enq => f.ab (.enq c)
  | .enqc => some (.enqc c)
  | .tksig => f.srcA.map (.tksig c)
  | .gang => match decGShape (f.mod.extractLsb' 0 2) with | some k => f.ab fun a b => .gang c a b k | none => none
  | .tclm =>
    match decPred f.d, decSlot f.a, decSlot f.b, decSlot f.c with
    | some p, some x, some y, some z => some (.tclm c p x y z)
    | _, _, _, _ => none
  | .trel =>
    match decSlot f.a, decSlot f.b, decSlot f.c with
    | some x, some y, some z => some (.trel c x y z)
    | _, _, _ => none
  | .tfill =>
    match decSlot f.a, f.srcB with
    | some (some t), some b => some (.tfill c t b (mb 0) (mb 1) (mb 2))
    | _, _ => none
  | .mma =>
    match decOpd f.d, decSlot f.a, decSlot f.b, decSlot f.c, decMTy (f.mod.extractLsb' 0 3) with
    | some d, some (some x), some (some y), some z, some ty =>
      some (.mma c d x y z ty (decMShape (f.mod.extractLsb' 3 2)) (mb 5))
    | _, _, _, _, _ => none
  | .mlic => (decPred f.d).map (.mlic c)
  | .mlrel => some (.mlrel c)
  | .twsend =>
    if mb 0 then match decPred f.d, f.srcA with | some p, some a => some (.twsendNb c p a) | _, _ => none
    else f.srcA.map (.twsend c)
  | .twrecv => (decOpd f.d).map (.twrecv c)
  | .twfree => (decOpd f.d).map (.twfree c)
  | .twbar => some (.twbar c (fin4 (f.imm.extractLsb' 0 2)))

/-- What the decoder answers (steps 1, 3 and 4 of R280). -/
inductive Decoded where
  | ok (i : Instr)
  | illegalOp
  | illegalOperand
deriving DecidableEq, Repr

/-- Steps 3 and 4 of R280 over the fields of a word whose OP is assigned. -/
def decodeFields (m : Mn) (f : VF) (lit : DWord) : Decoded :=
  if rowOk m f lit then
    match build m f lit with
    | some i => if !i.opOk then .illegalOp else if i.operandsOk then .ok i else .illegalOperand
    | none => .illegalOperand
  else .illegalOp

/-- An instruction word and the word after it, which is read only where the opcode takes a literal. -/
def decodeWord (w lit : DWord) : Decoded :=
  match Mn.ofOp (splitWord w).op with
  | some m => decodeFields m (splitWord w) lit
  | none => .illegalOp

/-- Words that an instruction takes: 2 with a literal, otherwise 1 (R4). -/
def wordsOf (w : DWord) : Nat :=
  match Mn.ofOp (splitWord w).op with
  | some m => if hasLiteral m (splitWord w) then 2 else 1
  | none => 1

/-- Eight bytes as a word, the first the low one (R86). -/
def wordOfBytes (bs : List Byte) : DWord :=
  BitVec.ofNat 64 ((List.range 8).foldl (fun n k => n + (bs.getD k 0).toNat * 2 ^ (8 * k)) 0)

/-- A word as eight bytes, low first (R86). -/
def bytesOfWord (w : DWord) : List Byte := (List.range 8).map fun k => w.extractLsb' (8 * k) 8

/-- Decoding from bytes: the instruction and how many words it takes. Missing bytes refuse as an illegal word. -/
def decodeBytes (bs : List Byte) : Decoded × Nat :=
  if bs.length < 8 then (.illegalOp, 1)
  else
    let w := wordOfBytes bs
    if bs.length < 8 * wordsOf w then (.illegalOp, 1) else (decodeWord w (wordOfBytes (bs.drop 8)), wordsOf w)

/-- The instruction whose bits are `w`, the first word in the low 64 bits. Bits above `nbits` are 0. -/
def decodeTableWord (nbits w : Nat) : Option Instr :=
  let v := w % 2 ^ nbits
  match decodeBytes (bytesOfWord (BitVec.ofNat 64 v) ++ bytesOfWord (BitVec.ofNat 64 (v / 2 ^ 64))) with
  | (.ok i, _) => some i
  | _ => none

/-- A clause header (R39). -/
structure Header where
  ev : Bool
  em : Bool
  ex : Bool
  ea : Bool
  es : Bool
  cnt : Nat
  wait : BitVec 8
  sp : Bool
  live : BitVec 32
deriving DecidableEq, Repr

/-- R39 and the first row of R40: `none` when MARK is wrong, CNT is outside 1 to 24, or a reserved bit is set. -/
def decodeHeader (w : DWord) : Option Header :=
  let cnt := (w.extractLsb' 48 5).toNat
  if w.extractLsb' 58 6 = 0x3D ∧ 1 ≤ cnt ∧ cnt ≤ 24 ∧ w.extractLsb' 32 7 = 0 then
    some ⟨w.getLsbD 57, w.getLsbD 56, w.getLsbD 55, w.getLsbD 54, w.getLsbD 53, cnt, w.extractLsb' 40 8,
      w.getLsbD 39, w.extractLsb' 0 32⟩
  else none

/-- The word of a header (R39). -/
def encodeHeader (h : Header) : DWord :=
  (0x3D : BitVec 6) ++ (BitVec.ofBool h.ev ++ (BitVec.ofBool h.em ++ (BitVec.ofBool h.ex ++ (BitVec.ofBool h.ea ++
    (BitVec.ofBool h.es ++ (BitVec.ofNat 5 h.cnt ++ (h.wait ++ (BitVec.ofBool h.sp ++ ((0 : BitVec 7) ++ h.live)))))))))

/-- Whether a header lists an engine. -/
def Header.lists (h : Header) : Engine → Bool
  | .vector => h.ev | .memory => h.em | .matrix => h.ex | .async => h.ea | .system => h.es

/-! The encoder. Unused operand fields hold 0xC0 (R275). -/

/-- The fields every encoding starts from: OP, the control fields, unused operands. -/
def encBase (m : Mn) (c : Ctl) : VF where
  op := m.op
  u := c.u
  gn := c.gn
  gp := BitVec.ofNat 3 c.gp.val
  la := false
  lb := false
  lc := false
  pa := 0
  pb := 0
  pc := 0
  ss := c.sb.isSome
  slot := match c.sb with | some n => BitVec.ofNat 3 n.val | none => 0
  d := 0xC0
  a := 0xC0
  b := 0xC0
  c := 0xC0
  mod := 0

def VF.withD (f : VF) (d : Opd) : VF := { f with d := encOpd d }
def VF.withA (f : VF) (a : Src) : VF := { f with a := encOpd a.o, pa := encPol a.pol, la := a.lr }
def VF.withB (f : VF) (b : Src) : VF := { f with b := encOpd b.o, pb := encPol b.pol, lb := b.lr }
def VF.withC (f : VF) (e : Src) : VF := { f with c := encOpd e.o, pc := encPol e.pol, lc := e.lr }
def VF.withMod (f : VF) (m : BitVec 6) : VF := { f with mod := m }
def VF.withImm (f : VF) (i : BitVec 22) : VF :=
  { f with b := i.extractLsb' 14 8, c := i.extractLsb' 6 8, mod := i.extractLsb' 0 6 }
def VF.withOff (f : VF) (o : BitVec 30) : VF :=
  { f with a := o.extractLsb' 22 8, b := o.extractLsb' 14 8, c := o.extractLsb' 6 8, mod := o.extractLsb' 0 6 }
/-- KIND, HINT, ORD and OFF of format M (R276). -/
def VF.withMem (f : VF) (kind : BitVec 4) (hint ord : BitVec 2) (off : BitVec 6) : VF :=
  { f with c := kind ++ (hint ++ ord), mod := off }
/-- D of a compare (R279). -/
def VF.withCC (f : VF) (p : Fin 8) (cc : BitVec 4) : VF :=
  { f with d := (0 : BitVec 1) ++ (cc ++ BitVec.ofNat 3 p.val) }

/-- RM in [2:0] with three bits above it (R285). -/
def modRM (rm : RM) (b5 b4 b3 : Bool) : BitVec 6 :=
  BitVec.ofBool b5 ++ (BitVec.ofBool b4 ++ (BitVec.ofBool b3 ++ encRM rm))

def bit6 (b2 b1 b0 : Bool) : BitVec 6 :=
  (0 : BitVec 3) ++ (BitVec.ofBool b2 ++ (BitVec.ofBool b1 ++ BitVec.ofBool b0))

def ordAcq (b : Bool) : BitVec 2 := if b then 1 else 0
def ordRel (b : Bool) : BitVec 2 := if b then 2 else 0

/-- The fields of an instruction word and its literal. Events have no word. -/
def fieldsOf : Instr → Option (VF × Option DWord)
  | .nop c => some (encBase .nop c, none)
  | .bra c off => some ((encBase .bra c).withOff off, none)
  | .brc c p k off =>
    some ((({ encBase .brc c with d := (0 : BitVec 3) ++ (encBrCond k ++ BitVec.ofNat 3 p.val) } : VF)).withOff off, none)
  | .brx c a => some ((encBase .brx c).withA a, none)
  | .call c d off => some (((encBase .call c).withD d).withOff off, none)
  | .callx c d a => some (((encBase .callx c).withD d).withA a, none)
  | .ret c a => some ((encBase .ret c).withA a, none)
  | .exit c => some (encBase .exit c, none)
  | .meet c n off => some ((({ encBase .meet c with d := encPred n } : VF)).withOff off, none)
  | .jarr c n => some ((encBase .jarr c).withMod (BitVec.ofNat 6 n.val), none)
  | .jleave c n => some ((encBase .jleave c).withMod (BitVec.ofNat 6 n.val), none)
  | .meld c sel wp =>
    let hi : BitVec 5 := match wp with
      | some b => (0 : BitVec 1) ++ (BitVec.ofNat 3 b.val ++ (1 : BitVec 1))
      | none => 0
    match sel with
    | .pred p => some ((({ encBase .meld c with a := encPred p } : VF)).withMod (hi ++ (0 : BitVec 1)), none)
    | .q4 a => some (((encBase .meld c).withA a).withMod (hi ++ (1 : BitVec 1)), none)
  | .meldx c => some (encBase .meldx c, none)
  | .ptab c k hi lit =>
    some ((encBase .ptab c).withMod ((0 : BitVec 3) ++ (BitVec.ofBool hi ++ BitVec.ofNat 2 k.val)), some lit)
  | .npb c => some (encBase .npb c, none)
  | .npe c => some (encBase .npe c, none)
  | .trap c i => some ((encBase .trap c).withImm i, none)
  | .bkpt c i => some ((encBase .bkpt c).withImm i, none)
  | .svc c i => some ((encBase .svc c).withImm i, none)
  | .eret c => some (encBase .eret c, none)
  | .waite c m => some ((encBase .waite c).withImm ((0 : BitVec 14) ++ m), none)
  | .rdcyc c d => some ((encBase .rdcyc c).withD d, none)
  | .mfs c d n => some (((encBase .mfs c).withD d).withImm ((0 : BitVec 13) ++ n), none)
  | .mts c a n => some (((encBase .mts c).withA a).withImm ((0 : BitVec 13) ++ n), none)
  | .iadd c d a b s => some (((((encBase .iadd c).withD d).withA a).withB b).withMod (encSat s), none)
  | .iaddi c d a i => some ((((encBase .iaddi c).withD d).withA a).withImm i, none)
  | .isub c d a b s => some (((((encBase .isub c).withD d).withA a).withB b).withMod (encSat s), none)
  | .imul c d a b => some ((((encBase .imul c).withD d).withA a).withB b, none)
  | .imulh c d a b u => some (((((encBase .imulh c).withD d).withA a).withB b).withMod (bit6 false false u), none)
  | .imad c d a b e => some (((((encBase .imad c).withD d).withA a).withB b).withC e, none)
  | .imin c d a b u => some (((((encBase .imin c).withD d).withA a).withB b).withMod (bit6 false false u), none)
  | .imax c d a b u => some (((((encBase .imax c).withD d).withA a).withB b).withMod (bit6 false false u), none)
  | .iabs c d a s => some ((((encBase .iabs c).withD d).withA a).withMod (bit6 false false s), none)
  | .lop c d a b t => some (((((encBase .lop c).withD d).withA a).withB b).withMod ((0 : BitVec 2) ++ t), none)
  | .lopi c d a t b => some ((((encBase .lopi c).withD d).withA a).withImm (t ++ b), none)
  | .shl c d a b => some ((((encBase .shl c).withD d).withA a).withB b, none)
  | .shr c d a b => some ((((encBase .shr c).withD d).withA a).withB b, none)
  | .sar c d a b => some ((((encBase .sar c).withD d).withA a).withB b, none)
  | .popc c d a => some (((encBase .popc c).withD d).withA a, none)
  | .clz c d a => some (((encBase .clz c).withD d).withA a, none)
  | .brev c d a => some (((encBase .brev c).withD d).withA a, none)
  | .bfx c d a b sx => some (((((encBase .bfx c).withD d).withA a).withB b).withMod (bit6 false false sx), none)
  | .bfi c d a b e => some (((((encBase .bfi c).withD d).withA a).withB b).withC e, none)
  | .icmp c p k a b => some ((((encBase .icmp c).withCC p (encICC k)).withA a).withB b, none)
  | .icmpi c p k a i => some ((((encBase .icmpi c).withCC p (encICC k)).withA a).withImm i, none)
  | .aadd c d a b s zx =>
    some (((((encBase .aadd c).withD d).withA a).withB b).withMod
      ((0 : BitVec 3) ++ (BitVec.ofBool zx ++ BitVec.ofNat 2 s.val)), none)
  | .aaddi c d a i => some ((((encBase .aaddi c).withD d).withA a).withImm i, none)
  | .sel c d a b p n =>
    some (((((encBase .sel c).withD d).withA a).withB b).withMod
      ((0 : BitVec 2) ++ (BitVec.ofBool n ++ BitVec.ofNat 3 p.val)), none)
  | .mov c d a => some (((encBase .mov c).withD d).withA a, none)
  | .movi c d i => some (((encBase .movi c).withD d).withImm i, none)
  | .movl c d pr lit => some (((encBase .movl c).withD d).withMod (bit6 false false pr), some lit)
  | .plop c d a b t =>
    some ((({ encBase .plop c with d := encPred d, a := encPred a, b := encPred b } : VF)).withMod
      ((0 : BitVec 2) ++ t), none)
  | .fadd c d a b rm na nb => some (((((encBase .fadd c).withD d).withA a).withB b).withMod (modRM rm false nb na), none)
  | .fmul c d a b rm na nb => some (((((encBase .fmul c).withD d).withA a).withB b).withMod (modRM rm false nb na), none)
  | .ffma c d a b e rm np nc =>
    some ((((((encBase .ffma c).withD d).withA a).withB b).withC e).withMod (modRM rm false nc np), none)
  | .fmin c d a b => some ((((encBase .fmin c).withD d).withA a).withB b, none)
  | .fmax c d a b => some ((((encBase .fmax c).withD d).withA a).withB b, none)
  | .fcmp c p k a b => some ((((encBase .fcmp c).withCC p (encFCC k)).withA a).withB b, none)
  | .frnd c d a rm => some ((((encBase .frnd c).withD d).withA a).withMod (modRM rm false false false), none)
  | .fcls c d a => some (((encBase .fcls c).withD d).withA a, none)
  | .frcp c d a => some (((encBase .frcp c).withD d).withA a, none)
  | .frsq c d a => some (((encBase .frsq c).withD d).withA a, none)
  | .fsqt c d a => some (((encBase .fsqt c).withD d).withA a, none)
  | .fex2 c d a => some (((encBase .fex2 c).withD d).withA a, none)
  | .flg2 c d a => some (((encBase .flg2 c).withD d).withA a, none)
  | .fspi c d a => some (((encBase .fspi c).withD d).withA a, none)
  | .fcpi c d a => some (((encBase .fcpi c).withD d).withA a, none)
  | .padd2 c d a b rm bf => some (((((encBase .padd2 c).withD d).withA a).withB b).withMod (modRM rm false false bf), none)
  | .pmul2 c d a b rm bf => some (((((encBase .pmul2 c).withD d).withA a).withB b).withMod (modRM rm false false bf), none)
  | .pfma2 c d a b e rm bf =>
    some ((((((encBase .pfma2 c).withD d).withA a).withB b).withC e).withMod (modRM rm false false bf), none)
  | .dot2f c d a b e bf =>
    some ((((((encBase .dot2f c).withD d).withA a).withB b).withC e).withMod (bit6 false false bf), none)
  | .dot4i c d a b e ua ub =>
    some ((((((encBase .dot4i c).withD d).withA a).withB b).withC e).withMod (bit6 false ub ua), none)
  | .spdot c d a b e => some (((((encBase .spdot c).withD d).withA a).withB b).withC e, none)
  | .cvt c d a dt st rm sat el =>
    some (({ (((encBase .cvt c).withD d).withA a) with b := encTy st ++ encTy dt } : VF).withMod
      (BitVec.ofNat 2 el.val ++ (BitVec.ofBool sat ++ encRM rm)), none)
  | .pack2 c d a b => some ((((encBase .pack2 c).withD d).withA a).withB b, none)
  | .unpk2 c d a hi sx => some ((((encBase .unpk2 c).withD d).withA a).withMod (bit6 false sx hi), none)
  | .raybox c d a b => some ((((encBase .raybox c).withD d).withA a).withB b, none)
  | .raytri c d a b => some ((((encBase .raytri c).withD d).withA a).withB b, none)
  | .shfl c d a b md =>
    some (((((encBase .shfl c).withD d).withA a).withB b).withMod ((0 : BitVec 4) ++ encShMode md), none)
  | .ballot c d p => some ({ (encBase .ballot c).withD d with a := encPred p }, none)
  | .vote c d p md =>
    let f : VF := { encBase .vote c with a := encPred p, d := match d with | .pred q => encPred q | .reg o => encOpd o }
    some (f.withMod ((0 : BitVec 4) ++ encVMode md), none)
  | .matchKeys c d a => some (((encBase .matchKeys c).withD d).withA a, none)
  | .compact c d a => some (((encBase .compact c).withD d).withA a, none)
  | .reduce c d a op => some ((((encBase .reduce c).withD d).withA a).withMod ((0 : BitVec 3) ++ encROp op), none)
  | .scan c d a op ex =>
    some ((((encBase .scan c).withD d).withA a).withMod ((0 : BitVec 2) ++ (BitVec.ofBool ex ++ encROp op)), none)
  | .regroup c k off carry => some (((encBase .regroup c).withD k).withOff off, some ((0 : BitVec 32) ++ carry))
  | .topk c d a b k =>
    some (((((encBase .topk c).withD d).withA a).withB b).withMod ((0 : BitVec 4) ++ encTk k), none)
  | .pchk c p a => some ((({ encBase .pchk c with d := encPred p } : VF)).withA a, none)
  | .ld c d a b k h acq off =>
    some (((((encBase .ld c).withD d).withA a).withB b).withMem (encMKind k) (encHint h) (ordAcq acq) off, none)
  | .st c a b k h rel off =>
    some ((((encBase .st c).withA a).withB b).withMem (encMKind k) (encHint h) (ordRel rel) off, none)
  | .ldu c d a b k ro off =>
    some (((((encBase .ldu c).withD d).withA a).withB b).withMem (encMKind k) (ordAcq ro) 0 off, none)
  | .lds c d a k acq off => some ((((encBase .lds c).withD d).withA a).withMem (encMKind k) 0 (ordAcq acq) off, none)
  | .sts c a b k rel off => some ((((encBase .sts c).withA a).withB b).withMem (encMKind k) 0 (ordRel rel) off, none)
  | .atom c d a b op ord off =>
    some (((((encBase .atom c).withD d).withA a).withB b).withMem (encAOp op) 0 (encOrd ord) off, none)
  | .red c a b op rel off => some ((((encBase .red c).withA a).withB b).withMem (encAOp op) 0 (ordRel rel) off, none)
  | .fence c k => some ((encBase .fence c).withImm (encFence k), none)
  | .pref c a b l2 off =>
    some ((((encBase .pref c).withA a).withB b).withMem (if l2 then 1 else 0) 0 0 off, none)
  | .cctl c a k off =>
    some ((if k = .invall then encBase .cctl c else (encBase .cctl c).withA a).withMem (encCKind k) 0 0 off, none)
  | .mzero c a n off => some (((encBase .mzero c).withA a).withMem (BitVec.ofNat 4 n.val) 0 0 off, none)
  | .mcopy c a b n off => some ((((encBase .mcopy c).withA a).withB b).withMem (BitVec.ofNat 4 n.val) 0 0 off, none)
  | .mcmp c d a b n off =>
    some (((((encBase .mcmp c).withD d).withA a).withB b).withMem (BitVec.ofNat 4 n.val) 0 0 off, none)
  | .swinit c a b off => some ((((encBase .swinit c).withA a).withB b).withMem 0 0 0 off, none)
  | .swarr c a b off => some ((((encBase .swarr c).withA a).withB b).withMem 0 0 0 off, none)
  | .swwait c a b off => some ((((encBase .swwait c).withA a).withB b).withMem 0 0 0 off, none)
  | .bar c id cnt => some ((encBase .bar c).withImm (cnt ++ id), none)
  | .bara c id cnt => some ((encBase .bara c).withImm (cnt ++ id), none)
  | .barw c id => some ((encBase .barw c).withImm ((0 : BitVec 15) ++ id), none)
  | .acp c d a cp q sz g =>
    let lo : BitVec 5 := BitVec.ofBool g ++ (encCSize sz ++ BitVec.ofNat 2 q.val)
    let f := ((encBase .acp c).withD d).withA a
    match cp with
    | .reg e => some ((f.withC e).withMod ((0 : BitVec 1) ++ lo), none)
    | .lit w => some (f.withMod ((1 : BitVec 1) ++ lo), some ((0 : BitVec 32) ++ w))
  | .acpt c t a q hi l =>
    some (({ (encBase .acpt c).withA a with d := encSlot (some t) } : VF).withMod
      ((0 : BitVec 3) ++ (BitVec.ofBool hi ++ BitVec.ofNat 2 q.val)), some (encAcpt l))
  | .acpr c d a b cp q op =>
    let lo : BitVec 5 := (encAOp op).extractLsb' 0 3 ++ BitVec.ofNat 2 q.val
    let f := (((encBase .acpr c).withD d).withA a).withB b
    match cp with
    | .reg e => some ((f.withC e).withMod ((0 : BitVec 1) ++ lo), none)
    | .lit w => some (f.withMod ((1 : BitVec 1) ++ lo), some ((0 : BitVec 32) ++ w))
  | .acpl c d a b q g size comp =>
    some (((((encBase .acpl c).withD d).withA a).withB b).withMod
      ((0 : BitVec 3) ++ (BitVec.ofBool g ++ BitVec.ofNat 2 q.val)), some (comp ++ ((0 : BitVec 22) ++ size)))
  | .enq c a b => some (((encBase .enq c).withA a).withB b, none)
  | .enqc c => some (encBase .enqc c, none)
  | .tksig c a => some ((encBase .tksig c).withA a, none)
  | .gang c a b k => some ((((encBase .gang c).withA a).withB b).withMod ((0 : BitVec 4) ++ encGShape k), none)
  | .tclm c p x y z =>
    some ({ encBase .tclm c with d := encPred p, a := encSlot x, b := encSlot y, c := encSlot z }, none)
  | .trel c x y z => some ({ encBase .trel c with a := encSlot x, b := encSlot y, c := encSlot z }, none)
  | .tfill c t b hi bc b8 =>
    some ((({ encBase .tfill c with a := encSlot (some t) } : VF).withB b).withMod (bit6 b8 bc hi), none)
  | .mma c d x y z ty sh zz =>
    some ((({ (encBase .mma c).withD d with a := encSlot (some x), b := encSlot (some y), c := encSlot z } : VF)).withMod
      (BitVec.ofBool zz ++ (encMShape sh ++ encMTy ty)), none)
  | .mlic c p => some ({ encBase .mlic c with d := encPred p }, none)
  | .mlrel c => some (encBase .mlrel c, none)
  | .twsend c a => some ((encBase .twsend c).withA a, none)
  | .twsendNb c p a => some ((({ encBase .twsend c with d := encPred p } : VF).withA a).withMod 1, none)
  | .twrecv c d => some ((encBase .twrecv c).withD d, none)
  | .twfree c d => some ((encBase .twfree c).withD d, none)
  | .twbar c n => some ((encBase .twbar c).withImm (BitVec.ofNat 22 n.val), none)
  | _ => none

/-- The words of a well-formed instruction: the instruction word and its literal. An event has none. -/
def encode (i : Instr) : List DWord :=
  match fieldsOf i with
  | some (f, some lit) => [joinWord f, lit]
  | some (f, none) => [joinWord f]
  | none => []

/-- `decodeWord` on the words of `encode`. -/
def decodeWords : List DWord → Decoded
  | w :: lit :: _ => decodeWord w lit
  | [w] => decodeWord w 0
  | [] => .illegalOp

end Sys2Proof
end

