-- ==== Sys2Proof/Machine/Crypto.lean ====
section
/-! DEFINITION. Crypto.lean: the named standard algorithms that the spec cites and does not define: AES-256-XTS (R121),
SHAKE256 (R255) and CRC-64 (R244). Their arithmetic is that of their standards. PRESUMED (log 5). -/
namespace Sys2Proof.Machine

/-- Doubling in the AES field. -/
def gfDouble (a : Byte) : Byte := (a <<< 1) ^^^ (if a.getLsbD 7 then 0x1B else 0)

/-- Product in the AES field. -/
def gfMul (a b : Byte) : Byte :=
  ((List.range 8).foldl (fun (acc : Byte × Byte) i =>
    (if b.getLsbD i then acc.1 ^^^ acc.2 else acc.1, gfDouble acc.2)) ((0 : Byte), a)).1

/-- a^254, the inverse, and 0 for 0. -/
def gfInv (a : Byte) : Byte :=
  let a2 := gfMul a a
  let a4 := gfMul a2 a2
  let a8 := gfMul a4 a4
  let a16 := gfMul a8 a8
  let a32 := gfMul a16 a16
  let a64 := gfMul a32 a32
  let a128 := gfMul a64 a64
  gfMul a128 (gfMul a64 (gfMul a32 (gfMul a16 (gfMul a8 (gfMul a4 a2)))))

def aesSub (a : Byte) : Byte :=
  let b := gfInv a
  b ^^^ b.rotateLeft 1 ^^^ b.rotateLeft 2 ^^^ b.rotateLeft 3 ^^^ b.rotateLeft 4 ^^^ 0x63

def aesSubInv (a : Byte) : Byte :=
  gfInv (a.rotateLeft 1 ^^^ a.rotateLeft 3 ^^^ a.rotateLeft 6 ^^^ 0x05)

def xorBytes (a b : List Byte) : List Byte := List.zipWith (· ^^^ ·) a b

/-- Round constants of the key schedule. -/
def aesRcon (i : Nat) : Byte := (List.range i).foldl (fun a _ => gfDouble a) 1

/-- The 60 words of the AES-256 key schedule, newest first. -/
def aesExpand (key : List Byte) : List (List Byte) :=
  let start := (List.range 8).map fun i => (key.drop (4 * i)).take 4
  ((List.range 52).foldl (fun (ws : List (List Byte)) j =>
    let i := j + 8
    let prev := ws.headD []
    let t := if i % 8 = 0 then
        xorBytes ((prev.drop 1 ++ prev.take 1).map aesSub) [aesRcon (i / 8 - 1), 0, 0, 0]
      else if i % 8 = 4 then prev.map aesSub else prev
    xorBytes (ws.getD 7 []) t :: ws) start.reverse)

/-- The 15 round keys, 16 bytes each. -/
def aesRoundKeys (key : List Byte) : List (List Byte) :=
  let ws := (aesExpand key).reverse
  (List.range 15).map fun r => (List.range 4).flatMap fun i => ws.getD (4 * r + i) []

def aesShift (s : List Byte) : List Byte := (List.range 16).map fun i => s.getD ((i + 4 * (i % 4)) % 16) 0
def aesShiftInv (s : List Byte) : List Byte := (List.range 16).map fun i => s.getD ((i + 12 * (i % 4)) % 16) 0

/-- MixColumns with the first row of its matrix. -/
def aesMix (row : List Byte) (s : List Byte) : List Byte :=
  (List.range 16).map fun i =>
    (List.range 4).foldl (fun a k => a ^^^ gfMul (row.getD ((k + 4 - i % 4) % 4) 0) (s.getD (4 * (i / 4) + k) 0)) 0

def aesEncrypt (rks : List (List Byte)) (b : List Byte) : List Byte :=
  let s := (List.range 13).foldl (fun s r => xorBytes (aesMix [2, 3, 1, 1] (aesShift (s.map aesSub))) (rks.getD (r + 1) []))
    (xorBytes b (rks.getD 0 []))
  xorBytes (aesShift (s.map aesSub)) (rks.getD 14 [])

def aesDecrypt (rks : List (List Byte)) (b : List Byte) : List Byte :=
  let s := (List.range 13).foldl (fun s r =>
      aesMix [14, 11, 13, 9] (xorBytes ((aesShiftInv s).map aesSubInv) (rks.getD (13 - r) [])))
    (xorBytes b (rks.getD 14 []))
  xorBytes ((aesShiftInv s).map aesSubInv) (rks.getD 0 [])

/-- Doubling of an XTS tweak. -/
def xtsDouble (t : List Byte) : List Byte :=
  let r := (List.range 16).map fun i =>
    let lo : Byte := if i = 0 then 0 else (t.getD (i - 1) 0) >>> (7 : Nat)
    (t.getD i 0) <<< (1 : Nat) ||| lo
  if (t.getD 15 0).getLsbD 7 then r.set 0 (r.getD 0 0 ^^^ 0x87) else r

/-- One 16-byte block, number j of a data unit with number `unit`, encrypted or decrypted (R121). -/
def xtsBlock (enc : Bool) (k1 k2 : List Byte) (unit j : Nat) (b : List Byte) : List Byte :=
  let t0 := aesEncrypt (aesRoundKeys k2) ((List.range 16).map fun i => BitVec.ofNat 8 (unit / 256 ^ i))
  let t := (List.range j).foldl (fun t _ => xtsDouble t) t0
  let ks := aesRoundKeys k1
  xorBytes (if enc then aesEncrypt ks (xorBytes b t) else aesDecrypt ks (xorBytes b t)) t

/-! ### SHAKE256, for the measurements of R255

The sponge's state is five planes of five lanes. Its offsets and constants are computed from the two walks that define
them. -/

/-- A plane: the five lanes of one y. -/
abbrev Plane := List DWord

/-- The plane with lane x + n in place x. -/
def slide (n : Nat) (p : Plane) : Plane := p.drop n ++ p.take n

def xorPlane (p q : Plane) : Plane := List.zipWith (· ^^^ ·) p q

/-- Every lane takes the parity of the column before it and of the turned column after it. -/
def mixParity (st : List Plane) : List Plane :=
  let par := st.foldl xorPlane (List.replicate 5 0)
  st.map (xorPlane (xorPlane (slide 4 par) ((slide 1 par).map (·.rotateLeft 1))))

/-- The place that a lane's contents move to. -/
def nextPlace (q : Nat × Nat) : Nat × Nat := (q.2, (2 * q.1 + 3 * q.2) % 5)

/-- The contents of the 24 places on the walk from (1, 0) move one place on, those of the t-th turned by t(t + 1)/2. -/
def scatterLanes (st : List Plane) : List Plane :=
  ((List.range 24).foldl (fun (a : (Nat × Nat) × List Plane) i =>
    let lane := (st.getD a.1.2 []).getD a.1.1 0
    let q := nextPlace a.1
    (q, a.2.modify q.2 fun p => p.set q.1 (lane.rotateLeft ((i + 1) * (i + 2) / 2 % 64)))) ((1, 0), st)).2

/-- The one non-linear part, plane by plane. -/
def mixPlane (p : Plane) : Plane := xorPlane p (List.zipWith (fun b c => ~~~b &&& c) (slide 1 p) (slide 2 p))

/-- One step of the register over x^8 + x^6 + x^5 + x^4 + 1 that supplies the bits of the round constants. -/
def lfsrStep (r : Byte) : Byte := (r <<< (1 : Nat)) ^^^ (if r.getLsbD 7 then 0x71 else 0)

/-- A round: its constant goes into lane (0, 0), and the register has stepped seven times after it. -/
def spongeRound (a : Byte × List Plane) : Byte × List Plane :=
  let (r, rc) := (List.range 7).foldl (fun (b : Byte × DWord) j =>
    (lfsrStep b.1, if b.1.getLsbD 0 then b.2 ||| (1 : DWord) <<< (2 ^ j - 1) else b.2)) (a.1, 0)
  (r, ((scatterLanes (mixParity a.2)).map mixPlane).modify 0 fun p => p.modify 0 (· ^^^ rc))

/-- The 24 rounds. -/
def permute (st : List Plane) : List Plane := ((List.range 24).foldl (fun a _ => spongeRound a) ((1 : Byte), st)).2

/-- A message in blocks of 136 bytes with its ending, which closes the last block. -/
def spongeBlocks (m : List Byte) : List (List Byte) :=
  let full := m.length / 136
  let last := m.drop (136 * full)
  (List.range full).map (fun i => (m.drop (136 * i)).take 136)
    ++ [(last ++ 0x1F :: List.replicate (135 - last.length) 0).modify 135 (· ||| 0x80)]

/-- A block goes into the first 17 lanes. -/
def absorb (st : List Plane) (b : List Byte) : List Plane :=
  permute (List.zipWith xorPlane st ((List.range 5).map fun y => (List.range 5).map fun x =>
    wordOfBytes (b.drop (40 * y + 8 * x))))

/-- SHAKE256 with 64 bytes of output. -/
def shake256 (m : List Byte) : List Byte :=
  ((((spongeBlocks m).foldl absorb (List.replicate 5 (List.replicate 5 0))).flatMap id).take 8).flatMap bytesOfWord

/-- CRC-64 with the polynomial of R244 over bytes, high bit first, from 0. -/
def crc64 (bs : List Byte) : DWord :=
  bs.foldl (fun c b =>
    (List.range 8).foldl (fun c _ => c <<< (1 : Nat) ^^^ (if c.getLsbD 63 then (0x42F0E1EBA9EA3693 : DWord) else 0))
      (c ^^^ ((b.zeroExtend 64 : DWord) <<< (56 : Nat)))) 0

end Sys2Proof.Machine
end

