-- ==== Sys2Proof/Machine/Num.lean ====
section
/-! DEFINITION. Num.lean: the number formats, exact values, rounding, flags and functions of chapter 05 (R68 to R85). -/
namespace Sys2Proof.Machine

/-- Flags as FFLAGS holds them: NV, DZ, OF, UF, NX in [4:0] (R83). -/
abbrev Flg := BitVec 5
def fNV : Flg := 16
def fDZ : Flg := 8
def fOF : Flg := 4
def fUF : Flg := 2
def fNX : Flg := 1

/-- An exact value: ±m × 2^e, an infinity or a NaN (signalling or quiet). -/
inductive FV where
  | nan (sig : Bool)
  | inf (neg : Bool)
  | fin (neg : Bool) (m : Nat) (e : Int)
deriving DecidableEq, Repr

/-- A float format (R68, R69). -/
structure Fmt where
  ew : Nat
  fw : Nat
  bias : Nat
  /-- Whether the format has infinities: E4M3 has none (R68). -/
  hasInf : Bool
  canon : Nat
deriving DecidableEq, Repr

def fp32 : Fmt := ⟨8, 23, 127, true, 0x7FC00000⟩
def fp16 : Fmt := ⟨5, 10, 15, true, 0x7FC0⟩
def bfl16 : Fmt := ⟨8, 7, 127, true, 0x7FC0⟩
def e4m3 : Fmt := ⟨4, 3, 7, false, 0x7F⟩
def e5m2 : Fmt := ⟨5, 2, 15, true, 0x7E⟩

/-- The value of a code (R68, R69). -/
def unpackF (f : Fmt) (b : Nat) : FV :=
  let frac := b % 2 ^ f.fw
  let ex := b / 2 ^ f.fw % 2 ^ f.ew
  let neg := b / 2 ^ (f.fw + f.ew) % 2 == 1
  let top := 2 ^ f.ew - 1
  if ex = top ∧ f.hasInf then
    if frac = 0 then .inf neg else .nan (frac / 2 ^ (f.fw - 1) == 0)
  else if ex = top ∧ frac = 2 ^ f.fw - 1 then .nan false
  else if ex = 0 then .fin neg frac (1 - (f.bias : Int) - f.fw)
  else .fin neg (2 ^ f.fw + frac) ((ex : Int) - f.bias - f.fw)

/-- Bits of a number. -/
def bitLen (m : Nat) : Nat := if m = 0 then 0 else Nat.log2 m + 1

/-- Rounding rules with what dither needs (R77, R78). -/
structure Rnd where
  rm : RM
  /-- D[(pos + φ) mod 16]. -/
  dith : Nat := 0
deriving DecidableEq, Repr

/-- The dither table (R78). -/
def ditherTable : List Nat := [0, 8, 2, 10, 12, 4, 14, 6, 3, 11, 1, 9, 15, 7, 13, 5]
def ditherAt (n : Nat) : Nat := ditherTable.getD (n % 16) 0

/-- m / 2^k rounded to an integer (R77, R78), and whether that was exact. -/
def roundShift (r : Rnd) (neg : Bool) (m k : Nat) : Nat × Bool :=
  let q := m / 2 ^ k
  let rem := m % 2 ^ k
  if rem = 0 then (q, true)
  else
    let up := match r.rm with
      | .rn => decide (2 * rem > 2 ^ k) || (decide (2 * rem = 2 ^ k) && q % 2 == 1)
      | .rz => false
      | .ru => !neg
      | .rd => neg
      | .dt => decide (rem * 16 / 2 ^ k > r.dith)
    (if up then q + 1 else q, false)

/-- ±m × 2^e in units of 2^q, rounded. -/
def roundTo (r : Rnd) (neg : Bool) (m : Nat) (e q : Int) : Nat × Bool :=
  if q ≤ e then (m * 2 ^ (e - q).toNat, true) else roundShift r neg m (q - e).toNat

/-- Largest finite code of a format, without its sign. -/
def maxCode (f : Fmt) : Nat :=
  if f.hasInf then (2 ^ f.ew - 1) * 2 ^ f.fw - 1 else 2 ^ (f.ew + f.fw) - 2

/-- Codes of infinity, without the sign. E4M3 gives its NaN (R80). -/
def infCode (f : Fmt) : Nat := if f.hasInf then (2 ^ f.ew - 1) * 2 ^ f.fw else f.canon

def signCode (f : Fmt) (neg : Bool) (c : Nat) : Nat := if neg then c + 2 ^ (f.ew + f.fw) else c

/-- What an overflow gives. -/
inductive Ovf where
  /-- As IEEE 754 gives for the mode: arithmetic (R81). -/
  | ieee
  /-- ±∞, or NaN in E4M3, in every mode: conversions (R80). -/
  | inf
  /-- ±largest finite (R80, R76). -/
  | sat
deriving DecidableEq, Repr

def overflowCode (f : Fmt) (o : Ovf) (rm : RM) (neg : Bool) : Nat :=
  let big := match o with
    | .sat => false
    | .inf => true
    | .ieee => match rm with | .rn | .dt => true | .rz => false | .ru => !neg | .rd => neg
  if big then (if f.hasInf then signCode f neg (infCode f) else f.canon) else signCode f neg (maxCode f)

/-- Rounds ±m × 2^e to a code, with flags. Tininess is found after rounding (R81). -/
def roundPack (f : Fmt) (r : Rnd) (o : Ovf) (neg : Bool) (m : Nat) (e : Int) : Nat × Flg :=
  if m = 0 then (signCode f neg 0, 0)
  else
    let emin : Int := 1 - (f.bias : Int)
    let eM : Int := e + (bitLen m : Int) - 1
    let q : Int := (if eM < emin then emin else eM) - f.fw
    let (k, exact) := roundTo r neg m e q
    -- the code of k × 2^q: k below 2^fw is subnormal, 2^(fw+1) carries into the exponent
    let code : Nat := if k < 2 ^ f.fw then k else k + ((q + f.fw - emin).toNat) * 2 ^ f.fw
    if maxCode f < code then
      (overflowCode f o r.rm neg, fOF ||| fNX)
    else
      let (ku, _) := roundTo r neg m e (eM - f.fw)
      let tiny := eM < emin && !(eM + 1 == emin && ku == 2 ^ (f.fw + 1))
      (signCode f neg code, if exact then 0 else if tiny then fUF ||| fNX else fNX)

/-- Rounds a value to a code. -/
def packF (f : Fmt) (r : Rnd) (o : Ovf) : FV → Nat × Flg
  | .nan _ => (f.canon, 0)
  | .inf neg => match o with
    | .sat => (signCode f neg (maxCode f), fOF ||| fNX)
    | _ => if f.hasInf then (signCode f neg (infCode f), 0) else (f.canon, fOF ||| fNX)
  | .fin neg m e => roundPack f r o neg m e

def FV.isNan : FV → Bool | .nan _ => true | _ => false
def FV.isSig : FV → Bool | .nan s => s | _ => false
def FV.isInf : FV → Bool | .inf _ => true | _ => false
def FV.isZero : FV → Bool | .fin _ m _ => m == 0 | _ => false
def FV.neg : FV → Bool | .nan _ => false | .inf n => n | .fin n _ _ => n
def FV.flip : FV → FV | .nan s => .nan s | .inf n => .inf !n | .fin n m e => .fin (!n) m e

/-- NV where an input is a signalling NaN (R81). -/
def sigFlags (xs : List FV) : Flg := if xs.any FV.isSig then fNV else 0

/-- Signed exact sum of two finite values. -/
def addFin (an : Bool) (am : Nat) (ae : Int) (bn : Bool) (bm : Nat) (be : Int) : Int × Int :=
  let e := min ae be
  let sa : Int := (am * 2 ^ (ae - e).toNat : Nat)
  let sb : Int := (bm * 2 ^ (be - e).toNat : Nat)
  ((if an then -sa else sa) + (if bn then -sb else sb), e)

/-- Exact sum, with the sign that a zero sum takes under the mode (R344), and NV for ∞ − ∞. -/
def addF (rm : RM) (a b : FV) : FV × Flg :=
  match a, b with
  | .nan _, _ => (.nan false, sigFlags [a, b])
  | _, .nan _ => (.nan false, sigFlags [a, b])
  | .inf x, .inf y => if x = y then (.inf x, 0) else (.nan false, fNV)
  | .inf x, .fin .. => (.inf x, 0)
  | .fin .., .inf y => (.inf y, 0)
  | .fin an am ae, .fin bn bm be =>
    let (v, e) := addFin an am ae bn bm be
    if v = 0 then
      let neg := if am = 0 ∧ bm = 0 ∧ an = bn then an else rm == .rd
      (.fin neg 0 0, 0)
    else (.fin (decide (v < 0)) v.natAbs e, 0)

/-- Exact product, with NV for 0 × ∞ (R81). -/
def mulF (a b : FV) : FV × Flg :=
  match a, b with
  | .nan _, _ => (.nan false, sigFlags [a, b])
  | _, .nan _ => (.nan false, sigFlags [a, b])
  | .inf x, .inf y => (.inf (x != y), 0)
  | .inf x, .fin y m _ => if m = 0 then (.nan false, fNV) else (.inf (x != y), 0)
  | .fin x m _, .inf y => if m = 0 then (.nan false, fNV) else (.inf (x != y), 0)
  | .fin x m e, .fin y n g => (.fin (x != y) (m * n) (e + g), 0)

/-- One operation of a format: exact, then rounded once (R344). -/
def fAdd (f : Fmt) (rm : RM) (a b : FV) : Nat × Flg :=
  let (v, fl) := addF rm a b
  let (c, g) := packF f ⟨rm, 0⟩ .ieee v
  (c, fl ||| g)

def fMul (f : Fmt) (rm : RM) (a b : FV) : Nat × Flg :=
  let (v, fl) := mulF a b
  let (c, g) := packF f ⟨rm, 0⟩ .ieee v
  (c, fl ||| g)

/-- FFMA: the terms are the exact product and c. 0 × ∞ sets NV even with a quiet NaN c (R344). -/
def fFma (f : Fmt) (rm : RM) (np : Bool) (a b c : FV) : Nat × Flg :=
  let (p, fl) := mulF a b
  let p := if np then p.flip else p
  let (v, g) := addF rm p c
  let (r, h) := packF f ⟨rm, 0⟩ .ieee v
  (r, fl ||| g ||| h)

/-! ### Comparison, minimum and maximum -/

/-- Order of two values that are not NaN. −0 equals +0. -/
def ltF (a b : FV) : Bool :=
  match a, b with
  | .nan _, _ => false
  | _, .nan _ => false
  | .inf x, .inf y => x && !y
  | .inf x, .fin .. => x
  | .fin .., .inf y => !y
  | .fin an am ae, .fin bn bm be =>
    let d := addFin an am ae (!bn) bm be
    decide (d.1 < 0)
def eqF (a b : FV) : Bool := !a.isNan && !b.isNan && !ltF a b && !ltF b a

/-- FMIN and FMAX of R351 over FP32 codes. -/
def minmaxF (max : Bool) (a b : Nat) : Nat × Flg :=
  let x := unpackF fp32 a
  let y := unpackF fp32 b
  let fl := sigFlags [x, y]
  if x.isNan && y.isNan then (fp32.canon, fl)
  else if x.isNan then (b, fl)
  else if y.isNan then (a, fl)
  else
    -- −0 counts as less than +0
    let lt := ltF x y || (eqF x y && x.neg && !y.neg)
    (if lt then (if max then b else a) else (if max then a else b), fl)

/-! ### Integers -/

/-- Rounds a value to an integer (R77). -/
def roundInt (r : Rnd) (neg : Bool) (m : Nat) (e : Int) : Int × Bool :=
  let (k, exact) := roundTo r neg m e 0
  (if neg then -(k : Int) else k, exact)

/-- Float to integer (R80): saturation and NaN set NV and no other flag. -/
def toInt (r : Rnd) (lo hi : Int) : FV → Int × Flg
  | .nan _ => (0, fNV)
  | .inf neg => (if neg then lo else hi, fNV)
  | .fin neg m e =>
    let (v, exact) := roundInt r neg m e
    if v < lo then (lo, fNV) else if hi < v then (hi, fNV) else (v, if exact then 0 else fNX)

/-- FRND of R352, on an FP32 code. -/
def fRnd (rm : RM) (a : Nat) : Nat × Flg :=
  match unpackF fp32 a with
  | .nan s => (fp32.canon, if s then fNV else 0)
  | .inf _ => (a, 0)
  | .fin neg m e =>
    if m = 0 then (a, 0)
    else
      let (k, exact) := roundTo ⟨rm, 0⟩ neg m e 0
      ((roundPack fp32 ⟨.rn, 0⟩ .ieee neg k 0).1, if exact then 0 else fNX)

/-! ### SP8 (R71 to R73) -/

/-- The value of a code in units of 2^−7. -/
def sp8Units (b : Nat) : Int :=
  let t := fun (s e : Nat) => if s = 1 then -((2 ^ (7 - e) : Nat) : Int) else ((2 ^ (7 - e) : Nat) : Int)
  t (b / 128 % 2) (b / 16 % 8) + t (b / 8 % 2) (b % 8)

def sp8FV (b : Nat) : FV := let v := sp8Units b; .fin (decide (v < 0)) v.natAbs (-7)

/-- The smallest code that carries a value in units of 2^−7. -/
def sp8Code (v : Int) : Nat := ((List.range 256).find? fun b => sp8Units b == v).getD 8

/-- Every code's value, once each. -/
def sp8Values : List Int := ((List.range 256).map sp8Units).eraseDups

/-- Distance of ±m × 2^e from v × 2^−7, as a number over 2^e' common to both. -/
def sp8Dist (neg : Bool) (m : Nat) (e : Int) (v : Int) : Nat :=
  (addFin neg m e (decide (0 < v)) v.natAbs (-7)).1.natAbs

/-- Encoding to SP8 (R72). -/
def toSp8 : FV → Nat × Flg
  | .nan _ => (0x08, fNV)
  | .inf neg => (if neg then 0x88 else 0x00, fOF ||| fNX)
  | .fin neg m e =>
    if ltF (.fin false 2 0) (.fin false m e) then (if neg then 0x88 else 0x00, fOF ||| fNX)
    else
      let best := sp8Values.foldl (fun (b : Int) v =>
        let db := sp8Dist neg m e b
        let dv := sp8Dist neg m e v
        if dv < db ∨ (dv = db ∧ v.natAbs < b.natAbs) then v else b) 0
      (sp8Code best, if sp8Dist neg m e best = 0 then 0 else fNX)

/-! ### Special functions (R82), correctly rounded -/

/-- ⌊ln 2 × 2^192⌋ and ⌊π × 2^192⌋. -/
def ln2Fix : Nat := 0xB17217F7D1CF79ABC9E3B39803F2F6AF40F343267298B62D
def piFix : Nat := 0x3243F6A8885A308D313198A2E03707344A4093822299F31D0

/-- ⌊√n⌋ for n below 2^(2k). -/
def isqrt (n k : Nat) : Nat :=
  (List.range k).foldl (fun r i => let t := r + 2 ^ (k - 1 - i); if t * t ≤ n then t else r) 0

/-- Rounds a result known to lie strictly between m and m + 1 units of 2^e. -/
def roundInexact (neg : Bool) (m : Nat) (e : Int) : Nat × Flg :=
  roundPack fp32 ⟨.rn, 0⟩ .ieee neg (2 * m + 1) (e - 1)

def nanRes (x : FV) : Nat × Flg := (fp32.canon, if x.isSig then fNV else 0)

/-- FRCP. -/
def fRcp (x : FV) : Nat × Flg :=
  match x with
  | .nan _ => nanRes x
  | .inf n => (signCode fp32 n 0, 0)
  | .fin n m e =>
    if m = 0 then (signCode fp32 n (infCode fp32), fDZ)
    else
      let q := 2 ^ 80 / m
      if q * m = 2 ^ 80 then roundPack fp32 ⟨.rn, 0⟩ .ieee n q (-80 - e) else roundInexact n q (-80 - e)

/-- FSQT. -/
def fSqt (x : FV) : Nat × Flg :=
  match x with
  | .nan _ => nanRes x
  | .inf n => if n then (fp32.canon, fNV) else (infCode fp32, 0)
  | .fin n m e =>
    if m = 0 then (signCode fp32 n 0, 0)
    else if n then (fp32.canon, fNV)
    else
      -- m × 2^e = (m × 2^(80 + e mod 2)) × 2^(e − e mod 2 − 80)
      let odd := (e % 2).toNat
      let w := m * 2 ^ (80 + odd)
      let h := (e - odd - 80) / 2
      let r := isqrt w 56
      if r * r = w then roundPack fp32 ⟨.rn, 0⟩ .ieee false r h else roundInexact false r h

/-- FRSQ. -/
def fRsq (x : FV) : Nat × Flg :=
  match x with
  | .nan _ => nanRes x
  | .inf n => if n then (fp32.canon, fNV) else (0, 0)
  | .fin n m e =>
    if m = 0 then (signCode fp32 n (infCode fp32), fDZ)
    else if n then (fp32.canon, fNV)
    else
      -- 1/√(m × 2^e) with e made even: √(2^160 / m') × 2^(−80 − e'/2)
      let odd := (e % 2).toNat
      let m' := m * 2 ^ odd
      let h := -80 - (e - odd) / 2
      let r := isqrt (2 ^ 160 / m') 81
      if r * r * m' = 2 ^ 160 then roundPack fp32 ⟨.rn, 0⟩ .ieee false r h else roundInexact false r h

/-- A power series in fixed point of 160 bits: Σ t_k with t_{k+1} = t_k × z / den k. -/
def series (z : Nat) (den : Nat → Nat) (n : Nat) : Nat :=
  ((List.range n).foldl (fun (a : Nat × Nat) k =>
    let t : Nat := a.2 * z / 2 ^ 160 / den (k + 1)
    (a.1 + t, t)) (2 ^ 160, 2 ^ 160)).1

/-- As `series`, with alternating signs. -/
def seriesAlt (z : Nat) (den : Nat → Nat) (n : Nat) : Nat :=
  ((List.range n).foldl (fun (a : Int × Nat) k =>
    let t : Nat := a.2 * z / 2 ^ 160 / den (k + 1)
    (if k % 2 = 0 then a.1 - t else a.1 + t, t)) ((2 ^ 160 : Int), 2 ^ 160)).1.toNat

/-- FEX2. -/
def fEx2 (x : FV) : Nat × Flg :=
  match x with
  | .nan _ => nanRes x
  | .inf n => if n then (0, 0) else (infCode fp32, 0)
  | .fin n m e =>
    if m = 0 then (0x3F800000, 0)
    else if ltF (.fin false m e) (.fin false 1 (-30)) then (0x3F800000, fNX)
    else if ltF (.fin false 200 0) (.fin false m e) then
      if n then (0, fUF ||| fNX) else (infCode fp32, fOF ||| fNX)
    else
      -- x in units of 2^−60, exact
      let v : Int := (if n then -1 else 1) * (m * 2 ^ (e + 60).toNat / 2 ^ (-(e + 60)).toNat : Nat)
      let ip := v / 2 ^ 60
      let fr := (v % 2 ^ 60).toNat
      if fr = 0 then roundPack fp32 ⟨.rn, 0⟩ .ieee false 1 ip
      else
        let y := fr * ln2Fix / 2 ^ 92
        roundInexact false (series y id 48) (ip - 160)

/-- FLG2. -/
def fLg2 (x : FV) : Nat × Flg :=
  match x with
  | .nan _ => nanRes x
  | .inf n => if n then (fp32.canon, fNV) else (infCode fp32, 0)
  | .fin n m e =>
    if m = 0 then (signCode fp32 true (infCode fp32), fDZ)
    else if n then (fp32.canon, fNV)
    else
      let k := bitLen m - 1
      let ex : Int := e + k
      if m = 2 ^ k then
        if ex = 0 then (0, 0) else roundPack fp32 ⟨.rn, 0⟩ .ieee (decide (ex < 0)) ex.natAbs 0
      else
        -- ln of m/2^k by 2 artanh z
        let z := (m - 2 ^ k) * 2 ^ 160 / (m + 2 ^ k)
        let z2 := z * z / 2 ^ 160
        let s := ((List.range 64).foldl (fun (a : Nat × Nat) i =>
          let t := a.2 * z2 / 2 ^ 160
          (a.1 + t / (2 * i + 3), t)) (z, z)).1
        let l : Nat := 2 * s * 2 ^ 192 / ln2Fix
        let v : Int := ex * 2 ^ 160 + l
        if 0 ≤ v then roundInexact false v.toNat (-160) else roundInexact true (v.natAbs - 1) (-160)

/-- sin πr for r = m × 2^e in (0, 1/2), as m' × 2^e'. -/
def sinPi (m : Nat) (e : Int) : Nat × Int :=
  -- πr in 160 bits, for the series in (πr)^2
  let u := m * piFix
  let y := if 0 ≤ e + 160 - 192 then u * 2 ^ (e - 32).toNat else u / 2 ^ (32 - e).toNat
  let t := y * y / 2 ^ 160
  (u * seriesAlt t (fun k => 2 * k * (2 * k + 1)) 40, e - 192 - 160)

/-- cos πr for r in (0, 1/4], in 160 bits, below 1. -/
def cosPi (m : Nat) (e : Int) : Nat :=
  let u := m * piFix
  let y := if 0 ≤ e + 160 - 192 then u * 2 ^ (e - 32).toNat else u / 2 ^ (32 - e).toNat
  let t := y * y / 2 ^ 160
  min (seriesAlt t (fun k => (2 * k - 1) * (2 * k)) 40) (2 ^ 160 - 1)

/-- sin πx (`cos` false) or cos πx of a finite nonzero x. -/
def trigPi (cos : Bool) (neg : Bool) (m : Nat) (e : Int) : Nat × Flg :=
  if 0 ≤ e then
    -- an integer
    if cos then (if m * 2 ^ e.toNat % 2 = 1 then 0xBF800000 else 0x3F800000, 0) else (signCode fp32 neg 0, 0)
  else
    let s := (-e).toNat
    let one := 2 ^ s
    let r2 := m % (2 * one)
    let half := one / 2
    -- r in [0, 1) and the sign that the half turn gives
    let turn := decide (one ≤ r2)
    let r := r2 % one
    if cos then
      if r = 0 then (if turn then 0xBF800000 else 0x3F800000, 0)
      else if r * 2 = one then (0, 0)
      else
        let flip := decide (one < 2 * r)
        let q := if flip then one - r else r
        let sg := turn != flip
        if 4 * q ≤ one then roundInexact sg (cosPi q e) (-160)
        else let (v, g) := sinPi (half - q) e; roundInexact sg v g
    else
      if r = 0 then (signCode fp32 neg 0, 0)
      else if r * 2 = one then (if turn != neg then 0xBF800000 else 0x3F800000, 0)
      else
        let q := if one < 2 * r then one - r else r
        let sg := turn != neg
        if 4 * q ≤ one then let (v, g) := sinPi q e; roundInexact sg v g
        else roundInexact sg (cosPi (half - q) e) (-160)

def fSpi (x : FV) : Nat × Flg :=
  match x with
  | .nan _ => nanRes x
  | .inf _ => (fp32.canon, fNV)
  | .fin n m e => if m = 0 then (signCode fp32 n 0, 0) else trigPi false n m e

def fCpi (x : FV) : Nat × Flg :=
  match x with
  | .nan _ => nanRes x
  | .inf _ => (fp32.canon, fNV)
  | .fin n m e => if m = 0 then (0x3F800000, 0) else trigPi true n m e

/-! ### Runs of products (R84) -/

/-- The exact sum of a run of products: value and NV. A zero sum is −0 only when every product is −0. -/
def runSum (ps : List (FV × Flg)) : FV × Flg :=
  let fl := ps.foldl (fun a p => a ||| p.2) 0
  if ps.any fun p => p.1.isNan then (.nan false, fNV)
  else if ps.any (fun p => p.1 == .inf false) && ps.any (fun p => p.1 == .inf true) then (.nan false, fNV)
  else match ps.find? fun p => p.1.isInf with
    | some p => (p.1, fl)
    | none =>
      let (v, e) := ps.foldl (fun (a : Int × Int) p => match p.1 with
        | .fin n m g => addFin (decide (a.1 < 0)) a.1.natAbs a.2 n m g
        | _ => a) ((0 : Int), (0 : Int))
      if v = 0 then (.fin (!ps.isEmpty && ps.all fun p => p.1.neg && p.1.isZero) 0 0, fl)
      else (.fin (decide (v < 0)) v.natAbs e, fl)

/-- One run added into the accumulator, each rounded rn to FP32. -/
def accRun (acc : Nat) (ps : List (FV × Flg)) : Nat × Flg :=
  let (s, fl) := runSum ps
  let (sc, g) := packF fp32 ⟨.rn, 0⟩ .ieee s
  let (r, h) := fAdd fp32 .rn (unpackF fp32 acc) (unpackF fp32 sc)
  (r, fl ||| g ||| h)

/-- Products cut into runs of `L`. -/
def dotRuns (L fuel : Nat) (acc : Nat) (ps : List (FV × Flg)) : Nat × Flg :=
  match fuel with
  | 0 => (acc, 0)
  | n + 1 =>
    if ps.isEmpty then (acc, 0)
    else
      let (a, f) := accRun acc (ps.take L)
      let (b, g) := dotRuns L n a (ps.drop L)
      (b, f ||| g)

end Sys2Proof.Machine
end

