-- ==== Sys2Proof/Config.lean ====
section
/-! DEFINITION. Config.lean: what the spec leaves to each device, and values it leaves open. Each is a constant without
a body, so nothing can be proved of its value. -/
namespace Sys2Proof.Config

/-- The function of a peer that serves a word of its memory (R149, R243): the peer's own partitions, which no rule gives the
requester. Applied to the word's key, which names the peer. Log 17. -/
opaque peerFn : Nat → Nat

/-- Which way of a full cache set is evicted: the spec names no replacement order beyond "first in line" (R99). Applied
to the number of frames that may be taken and the model's supply of free values. Log 3. -/
opaque victim : Nat → Nat → Nat

/-- The credits that an outbound flit returns (R244): the spec names the field and no rule for it. Log 3. -/
opaque credits : Nat → BitVec 8

/-- Whether an Ed448 signature over an image verifies against the key that is fused (R255). The spec names the scheme and
does not give its arithmetic or the key. Log 4. -/
opaque ed448Verify : List Byte → List Byte → Bool

/-- The measurement register that an image's header names (R255): the spec does not give the header. Log 91. -/
opaque imageReg : List Byte → Fin 8

/-- The 57-byte fused seed (R257): the device's own. Log 4. -/
opaque idSeed : BitVec 456

/-- The Ed448 public key of a seed, 57 bytes. The spec names the scheme and does not give its arithmetic. Log 4. -/
opaque ed448Public : BitVec 456 → BitVec 456

/-- The Ed448 signature, 114 bytes, over a message with the private key of a seed. Log 4. -/
opaque ed448Sign : BitVec 456 → List Byte → BitVec 912

/-- IDPUB (R257): the public half of the pair that the seed gives. -/
def idPub : BitVec 456 := ed448Public idSeed

end Sys2Proof.Config
end

