-- ==== Sys2Proof/Machine/State.lean ====
section
/-! DEFINITION. State.lean: everything the spec gives the machine, as plain data, and the state after reset. A field's
docstring gives its width, the rule that names it with the number of its spec file, and its value at reset. Tables
(`Tbl`) list only the entries that differ from what an unlisted key reads as, which the accessor of Ops.lean names. -/
namespace Sys2Proof.Machine

/-- Reasons a step stops. All of them concern the model's own schedule: no instruction of the spec stops the machine. -/
inductive Fault where
  /-- Raised by an instruction's meaning when no lane set is issuing (`State.cur` is `none`): `exec` was called outside
  a step. Safe: `step` never does this. -/
  | noIssuer
deriving DecidableEq, Repr

/-- Reasons an instruction has no meaning. -/
inductive Refusal where
  /-- Raised by the dispatch for an instruction the model does not give a meaning. Safe. -/
  | notModelled (mnemonic : String)
deriving DecidableEq, Repr

/-- Memory: bytes by key, keys strictly rising, no byte equal to what an unlisted key reads as. -/
abbrev Memory := List Host.Cell

/-- What an unlisted byte reads as: 0. The spec gives no content of memory after power-on. DESIGN CHOICE (log 1). -/
def Memory.fill : Byte := 0

/-- The canonical form of memory. -/
def Memory.wf (m : Memory) : Bool :=
  match m with
  | [] => true
  | [c] => c.2 != Memory.fill
  | c :: d :: r => c.2 != Memory.fill && decide (c.1 < d.1) && Memory.wf (d :: r)

/-! ### Words of memory and caches -/

/-- A full rank (R143). Compared device first. -/
structure Rank where
  dev : Nat
  core : Nat
  slot : Nat
  lane : Nat
deriving DecidableEq, Repr

/-- A word's owner at home (R140). -/
inductive Owner where
  | core (c : Nat) | fabric
deriving DecidableEq, Repr

/-- A word of data with its tag and poison, as a cache holds or a message carries it (R97). -/
structure MWord where
  data : DWord := 0
  tag : BitVec 4 := 0
  pois : Bool := false
  /-- The tag bits travel with it. A whole-word store into a word that is not valid leaves the tag at home (R95). -/
  tagd : Bool := true
deriving DecidableEq, Repr

/-- State of one L1 word (R97). A word that is not listed is not valid. -/
structure L1Word where
  /-- 64 data, 4 tag bits and P; R97 (06); none valid -/
  mw : MWord
  /-- D, 1 bit; R97 (06); clear -/
  d : Bool := false
  /-- O, 1 bit; R97 (06); clear -/
  o : Bool := false
  /-- RO, 1 bit; R97 (06); clear -/
  ro : Bool := false
  /-- Rank (group slot, lane) of an unsettled dirty word; R97, R132 (06, 08); none -/
  rank : Option (Nat × Nat) := none
  /-- The launches whose stores dirtied the word, which R136 needs; R136 (08); none -/
  by_ : List Nat := []
  /-- KEY of the page, whether it moves whole sectors, and the function that wrote, for the write-back (R121, R240). -/
  key : Nat := 0
  sector : Bool := false
  fn : Nat := 0
  /-- Check bits over data and tag, held as the syndrome they give; R98 (06); 0 -/
  syn : BitVec 12 := 0
deriving DecidableEq, Repr

/-- State of one word at its home slice: the L2's word and the directory (R97, R140). -/
structure HomeWord where
  /-- V, 1 bit; R97 (06); clear -/
  v : Bool := false
  /-- Value, tag and P; R97 (06); zero -/
  mw : MWord := {}
  /-- D, 1 bit; R97 (06); clear -/
  d : Bool := false
  /-- Home rank; R140 (09); none -/
  rank : Option Rank := none
  /-- The launches whose ranked writes have reached it since its rank was last none; R136 (08); none -/
  by_ : List Nat := []
  /-- Owner; R140 (09); none -/
  owner : Option Owner := none
  /-- KEY of the page and whether it moves whole sectors, for the write-back (R121). -/
  key : Nat := 0
  sector : Bool := false
  /-- Check bits over data and tag, held as the syndrome they give; R98 (06); 0 -/
  syn : BitVec 12 := 0
deriving DecidableEq, Repr

/-- A line frame of a cache: the line it holds, and whether it is first in line for eviction (R99). -/
structure Line where
  line : Nat
  first : Bool := false
deriving DecidableEq, Repr

/-- What a message asks of a home slice (R141), for one word. -/
inductive MsgKind where
  | read
  | ranked (rank : Rank) (mask : BitVec 8) (mw : MWord)
  | unranked (mw : MWord)
  /-- A copy's write of bytes, unranked (R152). -/
  | copied (mask : BitVec 8) (mw : MWord)
  | register
  | rankClear
  | atomic (op : AOp) (b : DWord) (b2 : DWord) (off : Nat)
deriving DecidableEq, Repr

/-- Where a message comes from: a core, its copy engine (R152), that of front end n as 192 + n (R195), or another device. -/
inductive MsgSrc where
  | core (c : Nat) | engine (c : Nat) | fabric (dev : Nat) (tag : BitVec 16) (core slot lane : Nat)
deriving DecidableEq, Repr

/-- How a message that misses at home allocates there (R99). -/
inductive Alloc where
  | normal | stream | bypass
deriving DecidableEq, Repr

/-- A message on its way to a home slice, or waiting there (R140, R141). -/
structure HomeMsg where
  id : Nat
  src : MsgSrc
  fn : Nat
  /-- The word: tier and word address as one key. -/
  w : Nat
  kind : MsgKind
  alloc : Alloc := .normal
  /-- KEY of the page, 0 for none, and whether the page, or the request, moves whole sectors (R101, R121). -/
  key : Nat := 0
  sector : Bool := false
  /-- Whether the response goes to the L1, or to the access `acc`; for a copy engine `acc` is the command. -/
  fill : Bool := false
  acc : Nat := 0
  /-- Messages of one instruction that reach one word together (R130, R320); of a load's read the instruction (R298). -/
  batch : Nat := 0
  /-- The launches that a write comes from (R136). -/
  launch : List Nat := []
  /-- The message has reached its home, and the request that fetches its word from memory; 0 for none. -/
  arrived : Bool := false
  ask : Nat := 0
  /-- The word as it came from memory, and whether it was corrected on the way (R304). -/
  mem : Option MWord := none
  corrected : Bool := false
  /-- The time the home accepted it (R114). -/
  since : Nat := 0
  /-- For a copy engine: the unit of the command that it writes (R152). -/
  unit : Option Nat := none
deriving DecidableEq, Repr

/-- A response from a home slice on its way to a core (R141). -/
structure Resp where
  id : Nat
  core : Nat
  w : Nat
  mw : MWord
  corrected : Bool := false
  acc : Nat := 0
  /-- It comes from the core's own L1 (R99), or goes to its copy engine (R152). -/
  hit : Bool := false
  eng : Bool := false
  /-- The unit of the copy engine's command that has been written (R152). -/
  unit : Option Nat := none
  /-- For a load: the number of its instruction (R298). -/
  ins : Nat := 0
deriving DecidableEq, Repr

/-- A registration acknowledgement on its way to a core (R141). -/
structure Ack where
  id : Nat
  core : Nat
  w : Nat
deriving DecidableEq, Repr

/-- A recall that an owner has to answer (R142). `msg` waits for it at home. -/
structure RecallRec where
  id : Nat
  owner : Nat
  w : Nat
  msg : Nat
deriving DecidableEq, Repr

/-- A request in a channel's pending queue (R114). -/
structure ChanReq where
  id : Nat
  w : Nat
  /-- The words written, with data, tag and poison, none for a read; a repair write of R118 holds them as stored. -/
  wr : List (Nat × MWord) := []
  repair : Bool := false
  key : Nat := 0
  /-- The whole sector moves (R101, R121). -/
  sector : Bool := false
  /-- What an uncorrectable word that a read finds is recorded as (R120). -/
  src : Nat := 2
  since : Nat := 0
deriving DecidableEq, Repr

/-- One channel controller (R113, R114) with its counters (R126). -/
structure Chan where
  /-- Pending queue, at most 512 requests; R114 (07); empty -/
  pend : List ChanReq := []
  /-- Open row by slice × 16 + bank; R113 (07); none open -/
  rows : Tbl Nat := []
  /-- 32 bits; R126 (07); 0 -/
  cech : Word := 0
  /-- 32 bits; R126 (07); 0 -/
  uech : Word := 0
  /-- 32 bits; R126 (07); 0 -/
  pwch : Word := 0
deriving DecidableEq, Repr

/-! ### Registers and threads -/

/-- A physical vector register under its name (R43, R44). `tag` names this allocation of it. -/
structure VReg where
  tag : Nat
  /-- 64 lanes of 32 bits; R18, R43 (02, 03); zero when allocated (R44) -/
  val : List Word
  /-- Full bit per lane; R43 (03); set when allocated (R44) -/
  full : Mask
  /-- Poison bit per lane; R43 (03); clear when allocated (R44) -/
  pois : Mask
  /-- Lanes in which the shadow holds another value since a strike, and that value; R230 (14); none -/
  other : List (Nat × Word) := []
deriving DecidableEq, Repr

/-- A uniform register (R6, R227, R366). -/
structure SReg where
  val : Word := 0
  full : Bool := true
  pois : Bool := false
  /-- The shadow's value where a strike made it another; R230 (14); none -/
  other : Option Word := none
deriving DecidableEq, Repr

/-- A predicate p1 to p7: a bit and a poison bit per lane (R38, R227). -/
structure PReg where
  val : Mask := 0
  pois : Mask := 0
  /-- Lanes in which the shadow holds the other bit; R230 (14); none -/
  other : Mask := 0
deriving DecidableEq, Repr

/-- A rejoin mask (R53). -/
structure JMask where
  e : Mask := 0
  a : Mask := 0
deriving DecidableEq, Repr

/-- A register a parked lane waits on. -/
inductive RegRef where
  | v (name : Nat) | s (name : Nat)
deriving DecidableEq, Repr

/-- What a lane is parked on. -/
inductive Park where
  | no
  /-- Block policy, or a destination still empty: every lane of the mask full (R41, R43). -/
  | src (waits : List (RegRef × Mask))
  /-- Split policy: ready when some lane's registers are full (R52). -/
  | split (waits : List (RegRef × Mask))
  /-- The overflow pool: since when, and the names that the instruction maps (R44). -/
  | pool (since : Nat) (names : List Nat)
  /-- The load-value queue of the group's shadow is full (R230). -/
  | lvq
  /-- An earlier fence, acquire or release of a lane of the mask (R129, R135). -/
  | order (lanes : Mask)
  /-- Miss-status entries and words that all of the instruction's lanes need (R102). -/
  | capacity (entries words : Nat)
  /-- A fault record's answer (R214). -/
  | fault (token : Nat)
  /-- Containment, after a POISON_CONSUMED with these TLANES (R214, R233). -/
  | contained (lanes : Mask)
  /-- Copy queues of the mask need room (R154, R157). -/
  | copyq (mask : BitVec 4)
  /-- Slots of the mask: full, and unlocked when `lock` (R163, R166). -/
  | tile (mask : BitVec 16) (lock : Bool)
  /-- MMA in the latch (R176). -/
  | latch
  /-- Outbound FIFO full (R185). -/
  | fifo
  /-- TWBAR n, reached at count c (R186). -/
  | twbar (n : Nat) (c : Word)
  /-- WAITE on scoreboard slots (R440). -/
  | waite (mask : BitVec 8)
  /-- A barrier's generation: named, or collective from 64 on (R323, R324). -/
  | bar (id : Nat)
deriving DecidableEq, Repr

/-- A clause that a lane is running: its header address, header and words as fetched (R281). -/
structure Run where
  addr : DWord
  hdr : Header
  words : List DWord
deriving DecidableEq, Repr

/-- What the issued parts of an instruction leave to the lanes of its parked split set: its number, the names that its last-read bits
will free, and those that it has written (R45, R52, R58). -/
structure Parts where
  op : Nat
  reads : List Nat := []
  keeps : List Nat := []
deriving DecidableEq, Repr

/-- A thread, in its lane (R38, R224). -/
structure Thread where
  /-- The lane holds a thread; R30 (03); no -/
  present : Bool := false
  /-- 1 bit; R31 (03); clear -/
  exited : Bool := false
  /-- In the regroup table; R63 (04); clear -/
  left : Bool := false
  /-- 64 bits; R29 (03); from placement -/
  wid : DWord := 0
  /-- 64 bits; R38 (03); ENTRY -/
  pc : DWord := 0
  /-- 32 bits; R51, R218 (04, 13); 0 -/
  depth : Word := 0
  /-- 2 bits; R59 (04); 0 -/
  path : BitVec 2 := 0
  /-- 64 bits; R53 (04); 0 -/
  meeta : DWord := 0
  /-- 32 bits, [2:0] used; R53 (04); 0 -/
  meetj : Word := 0
  /-- 32 bits; R221 (13); 0 -/
  spcnt : Word := 0
  /-- NPCNT.IN; R222 (13); 0 -/
  npIn : Bool := false
  /-- NPCNT.COUNT; R222 (13); 0 -/
  npCnt : Word := 0
  /-- The clause it is running, as fetched; R281 (18); none -/
  run : Option Run := none
  /-- The lane has passed WAIT and resumes at an instruction inside a clause; R41 (03); no -/
  mid : Bool := false
  park : Park := .no
  /-- Part of the lane set has issued the instruction at which the lane stands; R52, R58 (04); none -/
  parts : Option Parts := none
  /-- The BAR or TWBAR arrival of the parked lane has been made; R186, R323 (11, 24); no -/
  arrived : Bool := false
  /-- The release of the BAR or BARA at which the lane stands has begun; R134, R323 (08, 24); no -/
  released : Bool := false
  /-- WB, the barrier of its latest arrival; R323 (24); 0 -/
  wb : Nat := 0
  /-- WG, that barrier's generation then; R323 (24); 0 -/
  wg : Word := 0
  /-- Stopped by the pre-emption in progress; R220 (13); no -/
  stopped : Bool := false
  /-- Stopped at a header with SP, with this LIVE; R220 (13); none -/
  stopLive : Option (BitVec 32) := none
  /-- Words its stores wrote into the L1; R134 (08); none -/
  wrote : List Nat := []
  /-- Words its stores wrote at home; R134 (08); none -/
  wroteHome : List Nat := []
deriving DecidableEq, Repr

/-- A staged record (R202). -/
structure StagedRec where
  node : Nat
  words : List Word
deriving DecidableEq, Repr

/-- An MMA in the rendezvous latch (R176). -/
structure LatchEntry where
  a : Nat
  b : Nat
  b2 : Option Nat
  ty : MTy
  shape : MShape
  z : Bool
  d : Nat
  lanes : Mask
  sb : Option (Fin 8)
  next : DWord
  last : Bool
  word : DWord
  /-- Names that the reservation mapped, which a withdrawal unmaps. -/
  names : List Nat
deriving DecidableEq, Repr

/-! ### Work in flight in a core -/

/-- Where a value lands: a lane of a register allocation, a uniform register, or nowhere. -/
inductive Dest where
  | v (tag : Nat) (lane : Nat)
  | s (name : Nat)
  | none
deriving DecidableEq, Repr

/-- A value's shape in the words that supply it (R94, R287). -/
structure LoadShape where
  kind : MKind
  fmt : Nat
  blk : Nat
  /-- Byte offset of the access in its first word. -/
  off : Nat
  /-- Bytes, or 4-bit elements when FMT is INT4. -/
  size : Nat
  /-- Element offset in half bytes, for INT4. -/
  nib : Nat := 0
deriving DecidableEq, Repr

/-- Bytes that a store merges into one word, with the tag it writes (R95, R96). -/
structure StorePart where
  w : Nat
  mask : BitVec 8
  data : DWord
  tag : Option (BitVec 4) := none
deriving DecidableEq, Repr

/-- What a release's lane still has to do after its wait (R134, R167). -/
inductive RelKind where
  | fence (acq mem rel : Bool)
  /-- FENCE.q before it places its queue fences (R157, R349). -/
  | queue (mask : BitVec 4)
  /-- Parts, (KEY, sector mode, hint) of the page, and whether the bytes go home. -/
  | store (parts : List StorePart) (page : Nat × Bool × Hint) (atHome : Bool)
  | atomic (op : AOp) (w off : Nat) (b b2 : DWord) (acq : Bool) (dsts : List Dest) (page : Nat × Bool) (ret : Bool)
  | sts (off : Nat) (bytes : List Byte)
  | swarr (off : Nat) (b : Word)
deriving DecidableEq, Repr

/-- Where MCMP's result goes (R123), and the result so far. -/
structure InmemRes where
  launch : Nat
  set : Nat
  off : Nat
  found : Option DWord := none
deriving DecidableEq, Repr

/-- The body of a piece of work that an issued instruction left behind. -/
inductive Body where
  /-- LD, LDU (R361, R366): the words it waits for, those that came. -/
  | load (shape : LoadShape) (words : List Nat) (got : List (Nat × MWord)) (dsts : List Dest) (acq : Bool)
  /-- LDS (R365): bytes still to read. -/
  | lds (set : Nat) (launch : Nat) (off size : Nat) (dsts : List Dest) (acq : Bool)
  /-- A partial store that waits for its word (R100). -/
  | merge (part : StorePart) (key : Nat) (sector ro : Bool)
  /-- A store on its way home (R127). -/
  | homeStore (w : Nat)
  /-- ATOM, RED (R319). -/
  | atomic (w off : Nat) (dsts : List Dest) (acq : Bool)
  /-- A release in its wait, or waiting for acknowledgements of the words listed (R134). -/
  | release (kind : RelKind) (started : Bool) (waits : List Nat)
  /-- A release's own store: what it waits for, and the words to settle after (R134). -/
  | settle (waits ws : List Nat) (atHome : Bool)
  /-- TWRECV waiting for an entry (R185). -/
  | twrecv (dst : Option Nat) (lanes : Mask)
  /-- TOPK (R433): the value list. -/
  | topk (dI dV : Option Nat) (res : List (Nat × Word × Word))
  /-- MMA in a fired round (R176). -/
  | mma (round : Nat)
  /-- In-memory operations (R123): sectors (destination, source) still to do, and the result. -/
  | inmem (op : Nat) (sectors : List (Nat × Nat)) (base : Nat) (res : Option InmemRes)
  /-- FENCE.q (R157). -/
  | qfence (fid : Nat)
  /-- SWWAIT (R423). -/
  | swwait (set launch off : Nat) (gen : Word)
  /-- A prefetch of instruction `ins` that waits for its page's walk (R395). -/
  | prefetch (va : DWord) (l2 : Bool) (ins : Nat)
  /-- A task decrement on its way to the front end (R431). -/
  | taskDec (fn task : Nat)
  /-- A copy engine's request to a peer, for a unit of a command (R147, R152). -/
  | copyUnit (cmd unit : Nat) (write : Bool)
  /-- A front end's read of a word of a peer, for the event that waits for it (R37, R147). -/
  | feRead (w : Nat)
deriving DecidableEq, Repr

/-- A piece of work in flight: the instruction `op` of lane `lane` of group `gid` in `slot`. -/
structure Item where
  id : Nat
  op : Nat
  gid : Nat
  slot : Nat
  lane : Nat
  /-- The instruction word and virtual address, for a replay descriptor (R224). -/
  word : DWord := 0
  va : DWord := 0
  /-- Launch, function, co-resident set and thread of the lane, which outlive its place in the group; further threads that the
  access belongs to (R365). -/
  launch : Nat := 0
  fn : Nat := 0
  set : Nat := 0
  wid : DWord := 0
  also : List DWord := []
  /-- A load that goes past the L1 (R99). -/
  past : Bool := false
  /-- A load to be sent again, for want of its translation or of room (R20, R225, R231). -/
  walk : Bool := false
  /-- For a release: the words that the lane's stores had written, in the L1 and at home (R134). -/
  wrote : List Nat := []
  wroteHome : List Nat := []
  body : Body
deriving DecidableEq, Repr

/-- A SAFEPOINT_OVERRUN that a pre-emption came before: the lane set at its instruction, the lanes that overran, SPCNT (R221). -/
structure Overrun where
  set : Mask
  lanes : Mask
  count : Word
deriving DecidableEq, Repr

/-- Control state of a lane of a shadow group (R38, R230). -/
structure CtlLane where
  exited : Bool
  pc : DWord
  depth : Word
  path : BitVec 2
  meeta : DWord
  meetj : Word
deriving DecidableEq, Repr

/-- Control state of a shadow group where it is not its leader's (R230): lane by lane, masks, path tables, FFLAGS and JLOST, and
whether the shadow has left its leader's way. -/
structure ShadowCtl where
  strayed : Bool
  lanes : List CtlLane
  jms : Tbl JMask
  ptabs : Tbl (BitVec 8)
  fflags : Word
  jlost : Word
deriving DecidableEq, Repr

/-- A resident group (R31, R224). -/
structure Group where
  /-- Names this residency of the slot. -/
  gid : Nat
  launch : Nat
  /-- Co-resident set number: wid >> b(Lc) of its threads (R32). -/
  set : Nat
  /-- Function of the launch (R191). -/
  fn : Nat
  /-- RB and RX of the launch (R36). -/
  rb : Nat
  rx : Nat
  /-- 64 threads; R31 (03); from placement -/
  threads : List Thread
  /-- Rename map and mapped registers v0 to v127; R44 (03); none mapped -/
  regs : Tbl VReg := []
  /-- s0 to s63, 32 bits, full and poison bit; R6, R227 (01, 14); s0:s1 PARAMS, else 0 -/
  sregs : Tbl SReg := []
  /-- p1 to p7; R38 (03); false -/
  preds : Tbl PReg := []
  /-- j0 to j7; R38, R53 (03, 04); 0 -/
  jms : Tbl JMask := []
  /-- sb0 to sb7: the instruction each follows; R42 (03); clear -/
  sb : Tbl Nat := []
  /-- Second copy of the scoreboard; R231 (14); clear -/
  sb2 : Tbl Nat := []
  /-- Path tables, 4 × 16 operand codes; R59 (04); 0xC0 -/
  ptabs : Tbl (BitVec 8) := []
  /-- FFLAGS, 32 bits; R83 (05); 0 -/
  fflags : Word := 0
  /-- DPH.PHASE, 4 bits; R79 (05); 0 -/
  dph : BitVec 4 := 0
  /-- JLOST, 32 bits; R56 (04); 0 -/
  jlost : Word := 0
  /-- CECNT, 32 bits; R118, R126 (07); 0 -/
  cecnt : Word := 0
  /-- TCAUSE.CODE, 8 bits; R219 (13); 0 -/
  tcode : BitVec 8 := 0
  /-- TCAUSE.ACTIVE, 1 bit; R219 (13); 0 -/
  tactive : Bool := false
  /-- TPC, 64 bits; R209 (13); 0 -/
  tpc : DWord := 0
  /-- TINFO, 64 bits; R210 (13); 0 -/
  tinfo : DWord := 0
  /-- TLANES, 64 bits; R210 (13); 0 -/
  tlanes : DWord := 0
  /-- Trap clause address, 64 bits; R341 (25); 0 -/
  tclause : DWord := 0
  /-- The clause words that the trapping lane set was running; R281 (18); none -/
  trun : Option Run := none
  /-- Lanes in the handler; R212 (13); none -/
  handler : Mask := 0
  /-- GANGR, 32 bits; R178 (11); 0 -/
  gangr : Word := 0
  /-- Slots of the gang's members in member order; R354 (25); none -/
  gang : List Nat := []
  /-- The fault that the group's next MMA raises; R177 (11); none -/
  gangFault : Option (BitVec 8) := none
  /-- MMA in the latch; R176 (11); none -/
  latch : Option LatchEntry := none
  /-- Staged records, at most 256; R202 (12); none -/
  staged : List StagedRec := []
  /-- Formed by REGROUP; R66 (04); no -/
  formed : Bool := false
  /-- The shadow group's slot; R230 (14); none -/
  shadow : Option Nat := none
  /-- This slot holds the shadow of that leader; R230 (14); none -/
  shadowOf : Option Nat := none
  /-- Load-value queue, at most 64: the instructions whose results the shadow has still to take; R230 (14); empty -/
  lvq : List Nat := []
  /-- The shadow's control state where it differs; R230 (14); none -/
  shadowCtl : Option ShadowCtl := none
  /-- Admission order and the time from which its wait counts; R41, R46 (03) -/
  born : Nat := 0
  since : Nat := 0
  /-- The trap that follows once the group has been resumed; R221 (13); none -/
  overrun : Option Overrun := none
  /-- Stopped on its own by a hard pre-emption; R46, R190, R221 (03, 11, 13); no -/
  hard : Bool := false
  /-- What a pre-emption discarded or withdrew, to be sent or waited for again: the load descriptors, SWWAIT and TWRECV
  lanes and queue fences of a save image; R224, R225, R350, R424 (13, 25, 27); none -/
  descs : List Item := []
deriving DecidableEq, Repr

/-- A word that a miss-status entry has asked for: its place in the sector, and the message. After an acquire, or a flush
of the word, a fill serves only loads issued before, whose items have lower numbers, and installs nothing that the
acquire would have dropped (R135). -/
structure Ask where
  pos : Nat
  msg : Nat
  ro : Bool := false
  /-- Groups that asked for it as a word of code, as slot and name: they count its correction (R304). -/
  code : List (Nat × Nat) := []
  stale : Option Nat := none
deriving DecidableEq, Repr

/-- An L1 miss-status entry (R101). -/
structure Mshr where
  sector : Nat
  /-- The core's cycle counter when it was allocated. -/
  since : DWord
  asks : List Ask
deriving DecidableEq, Repr

/-- A leaf as a TLB holds it (R103). -/
structure TlbEntry where
  fn : Nat
  proc : Nat
  /-- VA >> 16, or VA >> 26 for a large page. -/
  vpn : Nat
  large : Bool
  ppn : Nat
  tier : Nat
  lm : Bool
  key : Nat
  fmt : Nat
  blk : Nat
  w : Bool
  x : Bool
  d : Bool
  rp : Bool
  /-- The untranslated page that ATS has answered for; R242 (15); none -/
  ats : Option Nat := none
deriving DecidableEq, Repr

/-- A table walk in progress or answered (R88 to R92). -/
structure Walk where
  id : Nat
  core : Nat
  fn : Nat
  proc : Nat
  vpn : Nat
  write : Bool
  /-- 0 running, 1 done, 2 PAGE_FAULT with this reason, 3 waiting for ATS or PRI. -/
  st : Nat := 0
  reason : Nat := 0
  /-- The entry, where PRI was asked (R242). -/
  token : Nat := 0
  /-- An access waits for it, for whose sake PRI may be asked: no prefetch alone (R395). -/
  pri : Bool := true
deriving DecidableEq, Repr

/-- Completion of a copy (R292). -/
inductive CompRef where
  | sync (set off : Nat) | task (n : Nat)
deriving DecidableEq, Repr

/-- Where a unit of a copy goes. -/
inductive CopyDst where
  /-- Bytes of a home word. -/
  | home (w : Nat) (off size : Nat)
  /-- Bytes of a set's scratchpad. -/
  | spad (set off size : Nat)
  /-- n elements of a tile slot from a row and a column on, along the row, or down the column where transposed. -/
  | slot (slot row col n : Nat)
deriving DecidableEq, Repr

/-- A destination word of a copy command with its source and landed bit (R161). -/
structure CopyUnit where
  dst : CopyDst
  /-- Source word and byte offset, or for ACPR the data. -/
  srcW : Nat
  srcOff : Nat
  data : DWord := 0
  /-- Destination run the unit belongs to (R158). -/
  run : Nat
  /-- KEY and sector mode of source and destination pages. -/
  key : Nat := 0
  sec : Bool := false
  dkey : Nat := 0
  dsec : Bool := false
  /-- Zeros that fill a slot row up (R316). -/
  pad : Bool := false
  /-- A higher lane of an earlier command of the instruction writes the same bytes, which survive (R310). -/
  skip : Bool := false
  /-- For ACPR: units of later commands of the instruction, of lower lanes that name the same word, which are applied before it: how many
  commands on, and which unit (R314). -/
  lead : List (Nat × Nat) := []
  /-- The source word has been asked for; it has come; a request to a peer is under way; the write has been made (R153, R161). -/
  asked : Bool := false
  got : Option MWord := none
  sent : Bool := false
  written : Bool := false
  landed : Bool := false
  pois : Bool := false
deriving DecidableEq, Repr

/-- A destination run of a copy command: lane, bytes, completion, and whether its arrival has been made (R158). -/
structure CopyRun where
  lane : Nat
  /-- The lane's thread (R155). -/
  wid : DWord := 0
  bytes : Nat
  comp : CompRef
  done : Bool := false
deriving DecidableEq, Repr

inductive CopyOp where
  | copy | acpt (lit : AcptLit) (hi : Bool) (slot : Nat) (phi : BitVec 4) | acpr (op : AOp) | acpl
deriving DecidableEq, Repr

/-- An entry of a copy queue: a command with its journal (R161), or a queue fence (R157). -/
inductive CopyCmd where
  | cmd (id : Nat) (gid slot : Nat) (launch set fn : Nat) (op : CopyOp) (units : List CopyUnit) (runs : List CopyRun)
      (replayed : Bool)
  | fence (fid : Nat) (gid slot : Nat) (lanes : Mask)
deriving DecidableEq, Repr

/-- A tile slot (R169, R170). Data are two halves of 16,384 bytes; an empty list is zeros. -/
structure Tile where
  /-- 32 KiB; R169 (11); zeros -/
  data : List Byte := []
  /-- Poison of each byte's element; R169 (11); clear -/
  pois : List Bool := []
  /-- The claiming set (launch, set), or the clearing that follows a release; R170 (11); none -/
  claim : Option (Nat × Nat) := none
  /-- 1 bit; R170 (11); full -/
  full : Bool := true
  /-- Read-lock count; R170 (11); 0 -/
  locks : Nat := 0
  /-- Being cleared after a release; R170 (11); no -/
  clearing : Bool := false
  /-- When the clearing began, in cycles of the pod's clock; R170 (11); 0 -/
  clearAt : Nat := 0
deriving DecidableEq, Repr

/-- A round: complete and waiting, or fired (R176). Members are slots in member order. -/
structure Round where
  id : Nat
  lead : Nat
  members : List Nat
  gids : List Nat
  entries : List LatchEntry
  fired : Bool := false
  /-- When it fired, in cycles of the pod's clock; R173 (11); 0 -/
  firedAt : Nat := 0
  /-- Fragment register tags of each member, row by row. -/
  frag : List (List Nat) := []
  since : Nat := 0
deriving DecidableEq, Repr

/-- A regroup table entry (R63). -/
structure RegroupEntry where
  launch : Nat
  set : Nat
  key : Word
  wid : DWord
  pc : DWord
  depth : Word
  /-- The group that it left (R63). -/
  donor : Nat := 0
  /-- Name, value, poison of each carried register. -/
  carried : List (Nat × Word × Bool)
  spcnt : Word
  npIn : Bool
  npCnt : Word
  wb : Nat
  wg : Word
  /-- The core's cycle counter when it entered. -/
  since : DWord
  wrote : List Nat
  wroteHome : List Nat
deriving DecidableEq, Repr

/-- An item on its way over the pod's register link (R184). -/
inductive LinkItem where
  | window (n : Nat) (val : List Word) (mask : Mask)
  | fifo (val : List Word)
  /-- A TWBAR arrival that stands behind such items, which it must not pass (R168). -/
  | bar (n : Nat)
deriving DecidableEq, Repr

/-- An item that waits for the link, with the cycle of the pod's clock and the quarter that it comes from (R184). -/
structure LinkSlot where
  since : Nat
  quarter : Nat
  item : LinkItem
deriving DecidableEq, Repr

/-- A TCLM as it has acted: its quarter, group, predicate, lanes, slots, set, and whether it claimed them (R427). -/
structure Claim where
  quarter : Nat
  slot : Nat
  gid : Nat
  pred : Nat
  lanes : Mask
  names : List Nat
  owner : Nat × Nat
  won : Bool := false
deriving DecidableEq, Repr

/-- A conversion of granules in progress (R108). -/
structure GranConv where
  n : Nat
  spad : Bool
deriving DecidableEq, Repr

/-- A strike on the results of an instruction: the lanes, the bits that turn over, and whether it hits the shadow's results. A
result of a lane that mirrors another one is that lane's recomputation (R67, R229, R230). -/
structure Strike where
  lanes : Mask
  bits : Word
  shadow : Bool := false
deriving DecidableEq, Repr

/-- A core (R16 to R20). -/
structure Core where
  /-- Cycle counter, 64 bits, as it stood at model time `cycAt`; R28 (02); 0 -/
  cyc : DWord := 0
  cycAt : Nat := 0
  /-- Clock-gated, retention voltage; R28, R226 (02, 13); no -/
  gated : Bool := false
  retention : Bool := false
  /-- Groups by slot 0 to 127; R17 (02); none -/
  groups : Tbl Group := []
  /-- The slot and the lane set each quarter is running a clause for; R17, R41 (02, 03); none -/
  quarters : Tbl (Nat × Mask) := []
  /-- Register and scratchpad granules; R18, R108 (02, 06); 0, the L1 holds all 24 -/
  regGran : Nat := 0
  spadGran : Nat := 0
  conv : List GranConv := []
  /-- L1 words and lines, 512 sets × granule ways; R97 (06); empty -/
  l1 : Tbl L1Word := []
  l1Lines : Tbl Line := []
  /-- Miss-status entries, at most 1,024; R20, R101 (02, 06); none -/
  mshrs : List Mshr := []
  /-- 2,048 entries; R103 (06); empty -/
  tlb : List TlbEntry := []
  /-- Work in flight. -/
  items : List Item := []
  /-- Copy queues q0 to q3, 64 commands each; R154 (10); empty -/
  cq : Tbl (List CopyCmd) := []
  /-- The cycle of the last acceptance, and the commands accepted in it; R154 (10); none -/
  cqCycle : Nat := 0
  cqNew : List Nat := []
  /-- Tile slots ts0 to ts15; R170 (11); clear, unclaimed, full -/
  tiles : Tbl Tile := []
  /-- The cycle of the last TCLM, and the TCLMs of that cycle in quarter order; R427 (27); none -/
  claimCycle : Nat := 0
  claims : List Claim := []
  rounds : List Round := []
  /-- Regroup table; R63 (04); empty -/
  regroup : List RegroupEntry := []
  /-- Outbound window w0 to w15, 64 × 32 bits; R183 (11); 0 -/
  win : Tbl (List Word) := []
  /-- Items waiting for the link; R184 (11); none -/
  link : List LinkSlot := []
  /-- The cycle in which the link last carried an item; R184 (11); none -/
  crossAt : Option Nat := none
  /-- Outbound window as it has crossed; R183 (11); 0 -/
  crossed : Tbl (List Word) := []
  /-- Outbound FIFO, oldest first, at most 8 entries; R185 (11); empty -/
  fifo : List (List Word) := []
  /-- TWBAR arrival counts; R186 (11); 0 -/
  twb : Tbl Word := []
  /-- PMON_V.VMIN, VNOW in mV; R254 (16); 0xFFFF, 0 -/
  vmin : BitVec 16 := 0xFFFF
  vnow : BitVec 16 := 0
  /-- The core stretches its cycles; R253 (16); no -/
  stretched : Bool := false
  /-- SBFIX, MIRMM, SHDMM, CONTN, 32 bits each; R235 (14); 0 -/
  sbfix : Word := 0
  mirmm : Word := 0
  shdmm : Word := 0
  contn : Word := 0
  /-- Evicted groups that wait to resume here, with their slots and copy journals; R46, R225 (03, 13); none -/
  evicted : List (Nat × Group × List (Nat × CopyCmd)) := []
  /-- By quarter, strikes on the results of the instruction that it issues next; R67, R229 (04, 14); none -/
  strikes : Tbl Strike := []
deriving DecidableEq, Repr

/-! ### Sets, launches, pods -/

/-- A 16-byte-aligned scratchpad word of 8 bytes with its poison bit (R106). -/
structure SpadWord where
  data : DWord := 0
  pois : Bool := false
  /-- Check bits, held as the syndrome they give; R106 (06); 0 -/
  syn : BitVec 12 := 0
deriving DecidableEq, Repr

/-- A named barrier (R322, R323). -/
structure Barrier where
  /-- TARGET, and whether it follows the threads of the set (count 0); R323 (24); 0 -/
  target : Nat := 0
  all : Bool := false
  /-- ARR; R323 (24); 0 -/
  arr : Nat := 0
  /-- GEN, 32 bits; R323 (24); 0 -/
  gen : Word := 0
deriving DecidableEq, Repr

/-- The copy journal and control of a saved set (R224). -/
structure SavedSet where
  groups : List (Nat × Group)
  tiles : List (Nat × Tile)
  cmds : List (Nat × CopyCmd)
  regroup : List RegroupEntry
  held : Bool
  /-- Bytes of the image (R224). The link state of a pod set counts in the image of the set saved last. -/
  size : Nat := 0
deriving DecidableEq, Repr

/-- Kinds of pre-emption request on a set (R220). -/
inductive Stop where
  | none | light | hard
deriving DecidableEq, Repr

/-- A co-resident set of a launch (R32). -/
structure CoSet where
  launch : Nat
  set : Nat
  /-- Core it is resident on. -/
  core : Option Nat := none
  /-- Scratchpad units, and its words by offset / 8; R106 (06); DESIGN CHOICE 0 (log 35) -/
  units : Nat := 0
  spad : Tbl SpadWord := []
  bars : Tbl Barrier := []
  /-- Its last thread has exited. -/
  done : Bool := false
  stop : Stop := .none
  /-- Causes that govern the resume (R220): 1 quantum, 2 thermal with the pod, 3 priority, 4 gating, 5 partition,
  6 defragmentation with the core to resume on. -/
  causes : List (Nat × Nat) := []
  saved : Option SavedSet := none
deriving DecidableEq, Repr

/-- The link state of a pod in a save image (R188, R224). -/
structure LinkState where
  winLo : Tbl (List Word) := []
  winUp : Tbl (List Word) := []
  fifoLo : List (List Word) := []
  fifoUp : List (List Word) := []
  twbLo : Tbl Word := []
  twbUp : Tbl Word := []
deriving DecidableEq, Repr

/-- The fields of a launch header (R36). -/
structure LHeader where
  entry : DWord
  params : DWord
  handler : DWord
  widths : List Nat
  lc : Nat
  lp : Nat
  n : Nat
  rb : Nat
  rx : Nat
  spad : Nat
  flags : BitVec 16
  prio : Nat
  cq : Nat
  ctask : Nat
  ctv : Bool
deriving DecidableEq, Repr

/-- What started a launch (R195, R203, R204). -/
inductive Origin where
  | cmd (q : Nat) (tag : DWord) | task (n : Nat) (replay : Option Nat) | batch (node : Nat) (region : Nat)
deriving DecidableEq, Repr

/-- A snapshot of a 64 KiB region (R232): first word key and contents, or copying. -/
structure Snapshot where
  id : Nat
  region : Nat
  done : Bool
  words : List (Nat × MWord)
  /-- KEY and sector mode of the page, and the place in the arena that holds the copy. -/
  key : Nat := 0
  sector : Bool := false
  place : Nat := 0
deriving DecidableEq, Repr

/-- A started launch (R195). -/
structure Launch where
  id : Nat
  fn : Nat
  proc : Nat
  hdrAddr : DWord
  hdr : LHeader
  origin : Origin
  /-- eff at its start (R198). -/
  eff : Nat
  started : Nat
  /-- First halted group: TCAUSE.CODE and TPC (R213). -/
  halted : Option (BitVec 8 × DWord) := none
  /-- ABORTED reason (R233, R243). -/
  aborted : Option Nat := none
  replays : Nat := 0
  nonReplay : Bool := false
  /-- Containments that are due: core, slot, SRC and lanes of R234; R229, R233 (14); none -/
  contain : List (Nat × Nat × Nat × Mask) := []
  /-- Containment has begun: its groups have stopped (R233). -/
  stopping : Bool := false
  snaps : List Snapshot := []
  /-- Words of peers that its stores wrote (R136, R147). -/
  remote : List Nat := []
  /-- A group of it has executed ENQ for these nodes (R203). -/
  enqNodes : List Nat := []
deriving DecidableEq, Repr

/-- State of the licence of a pod (R179). Cores of a pod are `false` lower, `true` upper. -/
inductive Lic where
  | free | held (up : Bool) | handover (up : Bool)
deriving DecidableEq, Repr

/-- A pod (R16, R179 to R190). -/
structure Pod where
  /-- R179 (11); FREE -/
  lic : Lic := .free
  /-- Request flags of lower and upper core; R179 (11); clear -/
  reqLo : Bool := false
  reqUp : Bool := false
  /-- LAST; R179 (11); none -/
  last : Option Bool := none
  /-- Times of the pod's clock from which Hold, Idle and the hand-over count; R179, R297 (11, 19) -/
  grantAt : Nat := 0
  fireAt : Nat := 0
  drainAt : Option Nat := none
  /-- PRIOR of lower and upper core; R180 (11); clear -/
  priorLo : Bool := false
  priorUp : Bool := false
  /-- LICQ, 32 bits; R182 (11); 0x0001_0000 -/
  licq : Word := 0x10000
  /-- PODCTL.GATE; R189 (11); 0 -/
  gate : Bool := false
  /-- PODCTL.UPST, 2 bits; R189, R249 (11, 16); 10 in early service -/
  upst : BitVec 2 := 2
  /-- Gating image: upper window values and counts; R190 (11); none -/
  image : Option (Tbl (List Word) × Tbl Word) := none
  /-- The (launch, pod set) that holds the link state; R188 (11); none -/
  holder : Option (Nat × Nat) := none
  /-- THRM, 32 bits; R252 (16); 0x0690_05F0 -/
  limit : BitVec 16 := 0x0690
  move : BitVec 16 := 0x05F0
  /-- PMON_T, 32 bits; R254 (16); 0 -/
  tup : BitVec 16 := 0
  tlo : BitVec 16 := 0
  /-- Clock divider exponent, 0 to 3; R223 (13); 0 -/
  throttle : Nat := 0
  /-- Cycles of the pod's clock as they stood at model time `clkAt`; R1 (00); 0 -/
  clk : Nat := 0
  clkAt : Nat := 0
  /-- In cycles of that clock: since when the pod is over its limit, and the last sample; R223, R252 (13, 16); none -/
  overSince : Option Nat := none
  sampledAt : Option Nat := none
deriving DecidableEq, Repr

/-! ### Front ends -/

/-- A command queue (R192). -/
structure Queue where
  /-- QBASE, 64 bits; R192 (12); 0 -/
  base : DWord := 0
  /-- QCTL.EN, PRIO, PROC, LOG2N; R192 (12); 0, 0, 0, 6 -/
  en : Bool := false
  prio : Nat := 0
  proc : Nat := 0
  log2n : Nat := 6
  /-- QTAIL, 32 bits; R192 (12); 0 -/
  tail : Word := 0
  /-- QHEAD, 32 bits; R192 (12); 0 -/
  head : Word := 0
  /-- CQBASE, 64 bits; R192 (12); 0 -/
  cqBase : DWord := 0
  /-- CQLOG2N; R192 (12); 6 -/
  cqLog2n : Nat := 6
  /-- CQTAIL, 32 bits; R192 (12); 0 -/
  cqTail : Word := 0
  /-- CQHEAD, 32 bits; R192 (12); 0 -/
  cqHead : Word := 0
  /-- Since when its head has waited, and for how long it had before it was last not startable; R198 (12); 0 -/
  waitFrom : Nat := 0
  waited : Nat := 0
  /-- A fence it read has not completed; R195 (12); none -/
  fenced : Option Nat := none
deriving DecidableEq, Repr

/-- A process context (R192). -/
structure Proc where
  /-- PROOT, 64 bits; R192 (12); 0 -/
  root : DWord := 0
  /-- PTIER; R192 (12); 0 -/
  tier : Nat := 0
  /-- PCFG.V; R192 (12); 0 -/
  v : Bool := false
  /-- PCFG.WEIGHT; R192 (12); 1 -/
  weight : Nat := 1
  /-- ARENA; R192 (12); 0 -/
  arena : DWord := 0
  /-- ARENASZ; R192 (12); 0 -/
  arenaSz : Nat := 0
  /-- Regions of the arena in use, by first byte and size; R205, R232 (12, 14); none -/
  arenaUsed : List (Nat × Nat) := []
  /-- VT, 64 bits; R198 (12); 0 -/
  vt : Nat := 0
  /-- It had work at the last look (R198); no -/
  inP : Bool := false
deriving DecidableEq, Repr

/-- A launch of a task that is due and has not started: the header as it was read, since when, and the entry's process, header pointer
and replay then (R204). -/
structure DueLaunch where
  h : LHeader
  since : Nat
  proc : Nat := 0
  hdr : DWord := 0
  replay : Option Nat := none
deriving DecidableEq, Repr

/-- A task entry (R204). -/
structure Task where
  /-- Counter, 32 bits; R204 (12); 0 -/
  counter : Word := 0
  /-- Prepared launch header pointer, 64 bits; R204 (12); 0 -/
  hdr : DWord := 0
  proc : Nat := 0
  /-- The replay that loaded it. -/
  replay : Option Nat := none
  /-- Its launches that are due and have not started, oldest first; R204 (12); none -/
  due : List DueLaunch := []
deriving DecidableEq, Repr

/-- A work-graph node (R200). -/
structure Node where
  /-- NHDR, 64 bits; R200 (12); 0 -/
  hdr : DWord := 0
  /-- NRING, 64 bits; R200 (12); 0 -/
  ring : DWord := 0
  /-- NCFG.EN; R200 (12); 0 -/
  en : Bool := false
  /-- NCFG.PROC; R200 (12); 0 -/
  proc : Nat := 0
  /-- NCFG.QLOG; R200 (12); 6 -/
  qlog : Nat := 6
  /-- NCFG.RWORDS; R200 (12); 1 -/
  rwords : Nat := 1
  /-- NCFG.BLOG; R200 (12); 0 -/
  blog : Nat := 0
  /-- NDROP, 32 bits; R200 (12); 0 -/
  drop : Word := 0
  /-- NCOMMIT, 32 bits; R200 (12); 0 -/
  commit : Word := 0
  /-- Index of the next record slot, and of the first slot not yet launched; R203 (12); 0 -/
  wr : Nat := 0
  rd : Nat := 0
  /-- Regions launched and not yet free; R203 (12); none -/
  busy : List Nat := []
  /-- When each record not launched was committed, oldest first; R203 (12); none -/
  times : List Nat := []
  /-- When a batch of it was last launched, and when a launch that had executed ENQ for it last completed; R198, R203 (12); 0 -/
  waitFrom : Nat := 0
  idleAt : Nat := 0
deriving DecidableEq, Repr

/-- A command that has started and not completed (R195): replay, copy or fence. -/
inductive Started where
  | copy (q : Nat) (tag : DWord) (units : List CopyUnit) (task : Option Nat) (proc : Nat)
  | replay (q : Nat) (tag : DWord) (obj : DWord) (conc : Bool) (base n : Nat) (left : List Nat) (arena : Option (Nat × Nat))
      (proc : Nat) (pblk : DWord)
  | fence (q : Nat) (tag : DWord) (mask : DWord) (before : List Nat)
deriving DecidableEq, Repr

/-- An entry for a completion ring (R196). -/
structure Entry where
  q : Nat
  tag : DWord
  status : Nat
  reason : Nat := 0
  info : DWord := 0
deriving DecidableEq, Repr

/-- A record of the fault ring (R215, R234). -/
structure FaultRec where
  w0 : DWord
  w1 : DWord := 0
  w2 : DWord := 0
  w3 : DWord := 0
deriving DecidableEq, Repr

/-- An outstanding PAGE_FAULT (R214, R216). -/
structure FaultTok where
  token : Nat
  core : Nat
  slot : Nat
  gid : Nat
  lanes : Mask
  tpc : DWord
  tinfo : DWord
  tlanes : Mask
  /-- The clause of the lanes as far as it has been fetched (R341). -/
  run : Option Run := none
deriving DecidableEq, Repr

/-- A collective barrier object (R247). -/
structure Coll where
  /-- PEERS, 64 bits; R247 (15); 0 -/
  peers : DWord := 0
  /-- EN; R247 (15); 0 -/
  en : Bool := false
  /-- LOST; R247 (15); 0 -/
  lost : Bool := false
  /-- LOCAL, 16 bits; R247 (15); 1 -/
  local_ : BitVec 16 := 1
  /-- GEN, 32 bits; R247 (15); 0 -/
  gen : Word := 0
  /-- COUNT, 16 bits; R247 (15); 0 -/
  count : BitVec 16 := 0
  /-- Peers whose flit for this and for the next generation has come; R247 (15); none -/
  got : DWord := 0
  gotNext : DWord := 0
deriving DecidableEq, Repr

/-- What a front end's arbitration chose: the head of a queue, the due launch of a task, a batch of a node, or the
admission of a set of a started launch (R198). -/
inductive Pick where
  | queue (q : Nat) | task (n : Nat) | batch (node : Nat) | placing (launch : Nat)
deriving DecidableEq, Repr

/-- A front end with its function's registers (R191). -/
structure Fn where
  queues : Tbl Queue := []
  procs : Tbl Proc := []
  tasks : Tbl Task := []
  nodes : Tbl Node := []
  colls : Tbl Coll := []
  /-- FRBASE, 64 bits; R215 (13); 0 -/
  frBase : DWord := 0
  /-- FRLOG2N; R215 (13); 6 -/
  frLog2n : Nat := 6
  /-- FRTAIL, 32 bits; R215 (13); 0 -/
  frTail : Word := 0
  /-- FRHEAD, 32 bits; R215 (13); 0 -/
  frHead : Word := 0
  /-- Records held back while the ring is full; R215 (13); none -/
  held : List FaultRec := []
  toks : List FaultTok := []
  /-- Completion entries held back; R196 (12); none -/
  entries : List Entry := []
  started : Tbl Started := []
  /-- Queue last chosen at each level; R198 (12) -/
  lastQ : Tbl Nat := []
  /-- The choice of the last arbitration; R198 (12); none -/
  chosen : Option Pick := none
  /-- PERIOD, QUANTUM, 32 bits each; R197 (12); 33000, 1000 -/
  period : Word := 33000
  quantum : Word := 1000
  /-- QRAISED, QCFG_SUM, QCFG_ZERO; R197 (12); 0 -/
  qraised : Bool := false
  qsum : Bool := false
  qzero : Bool := false
  /-- Partition EN, BASE, LIMIT, PCFG_BAD, CMASK; R237 (15); EN 1 for the PF, else 0; 0; 23; 0; 0xFF -/
  pen : Bool := false
  pbase : Nat := 0
  plimit : Nat := 23
  pbad : Bool := false
  cmask : BitVec 8 := 0xFF
  /-- L2MASK.WAYS; R240 (15); 0xFFFF -/
  l2mask : BitVec 16 := 0xFFFF
  /-- ATS enabled by the host; R242 (15); no -/
  ats : Bool := false
  /-- The model's mark: the front end's event waits for a translation (R105, R242); no -/
  stall : Bool := false
  /-- Words of peers that the waiting event is to read, and those that have come for it (R37, R147); none -/
  wants : List Nat := []
  fetched : List (Nat × MWord) := []
  /-- A VF reset in progress, and one that waits for a swap of clusters; R243, R238 (15); no -/
  resetting : Bool := false
  resetAsked : Bool := false
deriving DecidableEq, Repr

/-! ### Fabric, keys, management -/

/-- A fabric link (R244, R245). -/
structure Link where
  /-- Next sequence number sent and last received in order, 12 bits; R244 (15); 0 -/
  txSeq : BitVec 12 := 0
  rxSeq : BitVec 12 := 0xFFF
  /-- Failed resends of one flit; R245 (15); 0 -/
  fails : Nat := 0
  down : Bool := false
  /-- Credits returned by the peer; R244 (15); 0 -/
  credits : Nat := 0
deriving DecidableEq, Repr

/-- An outbound request of the fabric (R244). -/
structure RemoteReq where
  id : Nat
  dev : Nat
  core : Nat
  acc : Nat
  w : Nat
  op : BitVec 6
  mask : BitVec 8
  data : DWord
  data2 : Option DWord
  slot : Nat
  lane : Nat
  /-- Function of the requester, home slice on the peer, and whether it has left, on which link (R246). -/
  fn : Nat := 0
  home : Nat
  /-- For a load: the number of its instruction (R298). -/
  ins : Nat := 0
  sent : Bool := false
  link : Nat := 0
  since : Nat
deriving DecidableEq, Repr

/-- A slot that a fabric link received, with its flit's source and KIND, not yet handled (R244). An operation with a
second operand carries it. -/
structure FabMsg where
  id : Nat
  dev : Nat
  kind : Nat
  q0 : DWord
  q1 : DWord
  q2 : DWord
  second : DWord := 0
deriving DecidableEq, Repr

/-- A request to the host (R93, R242): a read for message `id`, or a write where `id` is 0. -/
structure HostReq where
  id : Nat
  addr : DWord
  data : DWord := 0
  mask : BitVec 8 := 0
deriving DecidableEq, Repr

/-- A loaded key (R248): owner and the two halves. -/
structure KeyRec where
  owner : Nat
  k1 : List Byte
  k2 : List Byte
deriving DecidableEq, Repr

/-- A translation invalidation in progress (R104). -/
structure Inval where
  id : Nat
  fn : Nat
  proc : Nat
  pages : List Nat
  /-- Work that translated through the entries: (core, item id) and copy commands. -/
  items : List (Nat × Nat)
  cmds : List (Nat × Nat)
deriving DecidableEq, Repr

/-- The migration in progress (R105). -/
structure Migration where
  fn : Nat
  proc : Nat
  page : Nat
  leafTier : Nat
  leafW : Nat
  tier : Nat
  ppn : Nat
  inval : Nat
deriving DecidableEq, Repr

/-- An import window (R246). -/
structure ImpWin where
  base : DWord := 0
  size : DWord := 0
  devs : DWord := 0
deriving DecidableEq, Repr

/-- The instruction that is issuing: where, for which lanes, its words. -/
structure Cur where
  core : Nat
  slot : Nat
  /-- Active lanes (R49). -/
  lanes : Mask
  pc : DWord
  word : DWord
  lit : DWord
  /-- Address of the next instruction word, or of the next header where this one stands last (R209). -/
  next : DWord
  last : Bool
  run : Run
  /-- Number given to this instruction for the scoreboard. -/
  op : Nat
deriving DecidableEq, Repr

/-- A particle strike: a stored bit of an L1 word, an L2 word, a scratchpad word or a word of memory turns over (R98, R106, R118),
or the second copy of a scoreboard slot (R231), or results of the instruction that a quarter issues next (R67, R230). -/
inductive Upset where
  | l1 (core w bit : Nat)
  | l2 (w bit : Nat)
  | spad (launch set word bit : Nat)
  | mem (w bit : Nat)
  | board (core slot n : Nat)
  | result (core q : Nat) (x : Strike)
deriving DecidableEq, Repr

/-- What moves next: the model's own input, since the spec orders no agents (log 2). -/
inductive Turn where
  /-- Time passes. -/
  | tick (n : Nat)
  /-- Quarter q of a core acts: starts a clause, or issues one instruction of the clause it runs. -/
  | issue (core q : Nat)
  /-- A row of the table that is an event of the device. -/
  | event (i : Instr)
  /-- A particle strikes. -/
  | upset (u : Upset)
deriving DecidableEq, Repr

/-- Where time on a shared cluster stands (R198): whose window runs, by place in ascending order, who holds it, and when
the window and the period began. -/
structure Window where
  slot : Nat := 0
  holder : Nat := 0
  start : Nat := 0
  period : Nat := 0
deriving DecidableEq, Repr

/-- The machine. -/
structure State where
  /-- The model's own input and turn; DESIGN CHOICE (log 2); empty, 0 -/
  agenda : List Turn := []
  turn : Nat := 0
  /-- The model's count of arithmetic cycles; R1 (00); 0 -/
  now : Nat := 0
  /-- The model's number supply: ids of messages, items, launches; 0 -/
  nid : Nat := 1
  /-- The model's supply of free values (log 3); 0 -/
  fresh : Nat := 0
  cur : Option Cur := none
  /-- Cores 0 to 191; R16 (02) -/
  cores : Tbl Core := []
  /-- Pods 0 to 95; R16 (02) -/
  pods : Tbl Pod := []
  sets : List CoSet := []
  launches : List Launch := []
  /-- Link states in save images: (launch, pod set); R188 (11); none -/
  savedLinks : List ((Nat × Nat) × LinkState) := []
  /-- Memory of the stacked and off-stack tiers: 80 stored bits per word; R109 (07); DESIGN CHOICE 0 (log 1) -/
  mem : Memory := []
  /-- Home slices: L2 words with directory, and line frames; R21, R97, R140 (02, 06, 09); empty -/
  home : Tbl HomeWord := []
  l2Lines : Tbl Line := []
  net : List HomeMsg := []
  resps : List Resp := []
  acks : List Ack := []
  recalls : List RecallRec := []
  /-- Channels 0 to 127 and 128 for the off-stack tier; R113, R126 (07) -/
  chans : Tbl Chan := []
  /-- Shared TLBs of the two dies, 65,536 entries each; R103 (06); empty -/
  tlbLo : List TlbEntry := []
  tlbUp : List TlbEntry := []
  walks : List Walk := []
  invals : List Inval := []
  migration : Option Migration := none
  /-- EINJA, 64 bits, W in [48:0]; R125 (07); 0 -/
  einja : DWord := 0
  /-- EINJC, 32 bits; R125 (07); 0 -/
  einjc : Word := 0
  /-- Front ends 0 to 32; R191 (12) -/
  fns : Tbl Fn := []
  /-- NumVFs; R241 (15); DESIGN CHOICE 0 (log 88) -/
  numVfs : Nat := 0
  /-- The window that runs on each shared cluster; R198 (12); the first function's, from 0 -/
  windows : Tbl Window := []
  /-- CMAP where it differs from the identity; R236 (15); identity -/
  cmap : Tbl Nat := []
  /-- SMAP where it differs from the identity; R236 (15); identity -/
  smap : Tbl Nat := []
  /-- DEFRAG.A, B; R238 (15); 0 -/
  defA : Nat := 0
  defB : Nat := 0
  /-- DEFRAG.BUSY: the logical clusters that are being swapped, and whether CMAP has been exchanged; R238 (15); none -/
  defSwap : Option (Nat × Nat × Bool) := none
  /-- PMON_P.ROSC per die quadrant 0 to 7; R254 (16); 0 -/
  rosc : Tbl Word := []
  /-- Model time of each quadrant's last sample; R254 (16); none -/
  roscAt : Tbl Nat := []
  /-- FABCFG.DEVID, link enables; R246 (15); 0 -/
  devid : Nat := 0
  linkEn : BitVec 16 := 0
  /-- FROUTE[d]; R246 (15); DESIGN CHOICE 0 (log 36) -/
  froute : Tbl (BitVec 16) := []
  links : Tbl Link := []
  impWins : Tbl ImpWin := []
  /-- Peers marked lost; R149 (09); none -/
  lost : List Nat := []
  /-- Peers marked lost for the addresses that one of their functions serves: peer and function; R149 (09), R243 (15); none -/
  lostFns : List (Nat × Nat) := []
  rreqs : List RemoteReq := []
  /-- Received requests, responses and barrier flits not yet handled, oldest first. -/
  rin : List FabMsg := []
  /-- Flits sent, newest last: link, 256 bytes (R244). -/
  fout : List (Nat × List Byte) := []
  /-- Writes and requests sent to the host, newest last. -/
  hout : List HostReq := []
  /-- Keys 1 to 128; R248 (15); none loaded -/
  keys : Tbl KeyRec := []
  /-- KEYCTL.KID, OWNER, OP, STATUS; R248 (15); 0 -/
  keyctl : Word := 0
  /-- KEYDAT, 64 bytes, write only; R248 (15); DESIGN CHOICE zeros (log 37) -/
  keydat : List Byte := []
  /-- DEVST.FULL, BADSW, RECOV, TRAINED; R251 (16); 0 -/
  full : Bool := false
  badsw : Bool := false
  recov : Bool := false
  trained : BitVec 8 := 0
  /-- M0 to M7, 64 bytes each; R255 (16); zeros -/
  meas : Tbl (List Byte) := []
  /-- The measurement of a verified firmware update that has not yet extended M7; R255, R258 (16); none -/
  updating : Option (List Byte) := none
  /-- A command or task has started since reset, so boot is over; R255 (16); no -/
  booted : Bool := false
  /-- Attestation: DONE, and the requests that wait; R258 (16); 0, none -/
  attDone : Bool := false
  attWait : List (List Byte × Nat × DWord) := []
  /-- The last answer to a debugger; R226 (13); none -/
  dbg : Option DWord := none
deriving DecidableEq, Repr

/-- The machine right after reset: early service (R249), nothing in flight, nothing listed in memory. -/
def State.reset : State where
  fns := [(0, { pen := true })]

end Sys2Proof.Machine
end

