-- ==== Sys2Proof/Machine/Ops.lean ====
section
/-! DEFINITION. Ops.lean: named operations over tables, lanes, memory, registers, groups and launches; retiring an
instruction; taking a trap (R209 to R214) and halting a group (R213), once for every cause. -/
namespace Sys2Proof.Machine

/-! ### Tables -/

/-- The entry of a key, if listed. -/
def tget? (t : Tbl α) (k : Nat) : Option α :=
  match t with
  | [] => none
  | (j, v) :: r => if j = k then some v else tget? r k

/-- The entry of a key, or what an unlisted key reads as. -/
def tget (t : Tbl α) (k : Nat) (d : α) : α := (tget? t k).getD d

/-- Sets the entry of a key, keys kept in ascending order. -/
def tset (t : Tbl α) (k : Nat) (v : α) : Tbl α :=
  match t with
  | [] => [(k, v)]
  | (j, u) :: r => if j = k then (k, v) :: r else if k < j then (k, v) :: (j, u) :: r else (j, u) :: tset r k v

/-- Removes the entry of a key. -/
def tdel (t : Tbl α) (k : Nat) : Tbl α := t.filter fun e => e.1 != k

/-! ### Lanes -/

/-- The lanes of a mask, ascending. -/
def lanesOf (m : Mask) : List Nat := (List.range 64).filter fun l => m.getLsbD l

/-- The mask of the lanes that satisfy a test. -/
def maskOf (f : Nat → Bool) : Mask :=
  (List.range 64).foldl (fun m l => if f l then m ||| (1 : Mask) <<< l else m) 0

/-- One lane's bit. -/
def laneBit (l : Nat) : Mask := (1 : Mask) <<< l

/-- The lowest lane of a mask. -/
def lowLane (m : Mask) : Nat := ((lanesOf m).head?).getD 0

/-- A list of 64 lanes. -/
def lanes64 (f : Nat → α) : List α := (List.range 64).map f

/-- All ones or all zeros. -/
def allMask (b : Bool) : Mask := if b then BitVec.allOnes 64 else 0

/-! ### Bytes and words -/

/-- Sign extension of a 32-bit value to 64 bits. -/
def sext64 (w : Word) : DWord := w.signExtend 64

/-- Eight bits of a byte mask, as 64 bits of data mask. -/
def byteMask (m : BitVec 8) : DWord :=
  (List.range 8).foldl (fun d i => if m.getLsbD i then d ||| (0xFF : DWord) <<< (8 * i) else d) 0

/-- Merges the bytes of a mask into a word. -/
def mergeBytes (old new : DWord) (m : BitVec 8) : DWord := (old &&& ~~~byteMask m) ||| (new &&& byteMask m)

/-! ### Memory (R109, R116 to R119)

A word's key `w` is tier × 2^50 + W. Its data bytes lie at 8w to 8w + 7. Its tag and its syndrome lie in the two bytes
at 2^60 + 2w. The 12 check bits are held as the syndrome they give (R116), which determines them. -/

/-- One byte. -/
def Memory.read (m : Memory) (k : Nat) : Byte :=
  match m with
  | [] => Memory.fill
  | (j, b) :: r => if j = k then b else if k < j then Memory.fill else Memory.read r k

/-- Writes one byte and keeps the canonical form. -/
def Memory.write (m : Memory) (k : Nat) (b : Byte) : Memory :=
  match m with
  | [] => if b = Memory.fill then [] else [(k, b)]
  | (j, c) :: r =>
    if j = k then (if b = Memory.fill then r else (k, b) :: r)
    else if k < j then (if b = Memory.fill then (j, c) :: r else (k, b) :: (j, c) :: r)
    else (j, c) :: Memory.write r k b

/-- Writes bytes from a key on. -/
def Memory.writes (m : Memory) (k : Nat) (bs : List Byte) : Memory :=
  match bs with
  | [] => m
  | b :: r => Memory.writes (Memory.write m k b) (k + 1) r

def Memory.reads (m : Memory) (k n : Nat) : List Byte := (List.range n).map fun i => Memory.read m (k + i)

/-- A stored word: data, tag, syndrome. -/
structure Stored where
  data : DWord
  tag : BitVec 4
  syn : BitVec 12
deriving DecidableEq, Repr

def sideKey (w : Nat) : Nat := 2 ^ 60 + 2 * w

def memGet (m : Memory) (w : Nat) : Stored :=
  let side := (Memory.read m (sideKey w + 1)) ++ (Memory.read m (sideKey w))
  ⟨wordOfBytes (Memory.reads m (8 * w) 8), side.extractLsb' 0 4, side.extractLsb' 4 12⟩

def memPut (m : Memory) (w : Nat) (x : Stored) : Memory :=
  let side : BitVec 16 := x.syn ++ x.tag
  Memory.writes (Memory.writes m (8 * w) (bytesOfWord x.data)) (sideKey w)
    [side.extractLsb' 0 8, side.extractLsb' 8 8]

/-- Tier and word address of a key. -/
def tierOf (w : Nat) : Nat := w / 2 ^ 50
def waddrOf (w : Nat) : Nat := w % 2 ^ 50
def wkey (tier pa : Nat) : Nat := tier * 2 ^ 50 + pa / 8
/-- The sector of a word, and a word's place in its sector. -/
def sectorOf (w : Nat) : Nat := w / 16

/-- The bytes of weight 2, ascending (R116). -/
def weight2 : List Nat :=
  [0x03, 0x05, 0x06, 0x09, 0x0A, 0x0C, 0x11, 0x12, 0x14, 0x18, 0x21, 0x22, 0x24, 0x28, 0x30, 0x41, 0x42]

/-- The code column H(n, j) (R116). -/
def codeCol (n j : Nat) : BitVec 12 :=
  let g := if n ≤ 16 then weight2.getD n 0 else if n = 17 then 0 else if n = 18 then 2 ^ j else 2 ^ (4 + j)
  BitVec.ofNat 12 (2 ^ (8 + j)) ||| BitVec.ofNat 12 g

/-- Address signature σ(W) (R117). -/
def sigma (wa : Nat) : BitVec 12 :=
  let lo := (List.range 7).foldl (fun a i => a ^^^ BitVec.ofNat 8 (wa / 2 ^ (8 * i) % (if i = 6 then 2 else 256))) (0 : BitVec 8)
  let t := fun i => (List.range 17).foldl (fun a k => a ^^ (wa.testBit (3 * k + i) && 3 * k + i < 49)) false
  BitVec.ofBool (t 0 ^^ t 1 ^^ t 2) ++ (BitVec.ofBool (t 2) ++ (BitVec.ofBool (t 1) ++ (BitVec.ofBool (t 0) ++ lo)))

/-- XOR of the columns of the set data and tag bits (R116). -/
def dataCode (d : DWord) (tag : BitVec 4) : BitVec 12 :=
  (List.range 68).foldl (fun a b =>
    if (if b < 64 then d.getLsbD b else tag.getLsbD (b - 64)) then a ^^^ codeCol (b / 4) (b % 4) else a) 0

/-- P of R116, and the 12 check bits c17, c19, c18 from it (stored bits [71:68], [79:76], [75:72]). -/
def checkBits (wa : Nat) (d : DWord) (tag : BitVec 4) : BitVec 12 :=
  let p := sigma wa ^^^ dataCode d tag
  let c18 := p.extractLsb' 0 4
  let c19 := p.extractLsb' 4 4
  let c17 := p.extractLsb' 8 4 ^^^ c18 ^^^ c19
  c19 ++ (c18 ++ c17)

/-- The syndrome of stored bits (R116). -/
def syndrome (wa : Nat) (d : DWord) (tag : BitVec 4) (chk : BitVec 12) : BitVec 12 :=
  (List.range 12).foldl (fun a b => if chk.getLsbD b then a ^^^ codeCol (17 + b / 4) (b % 4) else a)
    (sigma wa ^^^ dataCode d tag)

/-- Flips stored bit b (R116). A number above 79 flips nothing (R125). -/
def flipBit (x : Stored) (b : Nat) : Stored :=
  if b < 64 then ⟨x.data ^^^ ((1 : DWord) <<< b), x.tag, x.syn ^^^ codeCol (b / 4) (b % 4)⟩
  else if b < 68 then ⟨x.data, x.tag ^^^ ((1 : BitVec 4) <<< (b - 64)), x.syn ^^^ codeCol 16 (b % 4)⟩
  else if b < 80 then ⟨x.data, x.tag, x.syn ^^^ codeCol (b / 4) (b % 4)⟩
  else x

/-- The syndrome of a poisoned word (R119). -/
def poisonSyn : BitVec 12 := 0x3A5

/-- What a reader finds (R118). -/
inductive SynRes where
  | clean | corrected (b : Nat) | poisoned | bad
deriving DecidableEq, Repr

def synRes (x : Stored) : SynRes :=
  if x.syn = 0 then .clean
  else if x.syn = poisonSyn then .poisoned
  else match (List.range 80).find? (fun b => codeCol (b / 4) (b % 4) == x.syn) with
    | some b => .corrected b
    | none => .bad

/-! ### The parts of the machine -/

def coreAt (s : State) (c : Nat) : Core := tget s.cores c {}
def setCore (s : State) (c : Nat) (x : Core) : State := { s with cores := tset s.cores c x }
def modCore (s : State) (c : Nat) (f : Core → Core) : State := setCore s c (f (coreAt s c))
def podAt (s : State) (p : Nat) : Pod := tget s.pods p {}
def modPod (s : State) (p : Nat) (f : Pod → Pod) : State := { s with pods := tset s.pods p (f (podAt s p)) }
def fnAt (s : State) (n : Nat) : Fn := tget s.fns n {}
def modFn (s : State) (n : Nat) (f : Fn → Fn) : State := { s with fns := tset s.fns n (f (fnAt s n)) }
def chanAt (s : State) (k : Nat) : Chan := tget s.chans k {}
def modChan (s : State) (k : Nat) (f : Chan → Chan) : State := { s with chans := tset s.chans k (f (chanAt s k)) }
def homeAt (s : State) (w : Nat) : HomeWord := tget s.home w {}
def setHome (s : State) (w : Nat) (h : HomeWord) : State := { s with home := tset s.home w h }

/-- Pod, side and twin of a core (R16). -/
def podOf (c : Nat) : Nat := c % 96
def isUpper (c : Nat) : Bool := 96 ≤ c
def twinOf (c : Nat) : Nat := if c < 96 then c + 96 else c - 96
def clusterOf (c : Nat) : Nat := podOf c / 4

/-- Cycles of a pod's clock (R1, R223). -/
def podClock (s : State) (p : Nat) : Nat :=
  let q := podAt s p
  q.clk + (s.now - q.clkAt) / 2 ^ q.throttle

/-- A new number. -/
def newId (s : State) : Nat × State := (s.nid, { s with nid := s.nid + 1 })

def groupAt (s : State) (c slot : Nat) : Option Group := tget? (coreAt s c).groups slot
def setGroup (s : State) (c slot : Nat) (g : Group) : State :=
  modCore s c fun x => { x with groups := tset x.groups slot g }
def modGroup (s : State) (c slot : Nat) (f : Group → Group) : State :=
  match groupAt s c slot with
  | some g => setGroup s c slot (f g)
  | none => s

def launchAt (s : State) (n : Nat) : Option Launch := s.launches.find? fun l => l.id == n
def modLaunch (s : State) (n : Nat) (f : Launch → Launch) : State :=
  { s with launches := s.launches.map fun l => if l.id = n then f l else l }
def setAt (s : State) (launch set : Nat) : Option CoSet := s.sets.find? fun x => x.launch == launch && x.set == set
def modSet (s : State) (launch set : Nat) (f : CoSet → CoSet) : State :=
  { s with sets := s.sets.map fun x => if x.launch = launch ∧ x.set = set then f x else x }

def modItems (s : State) (c : Nat) (f : List Item → List Item) : State :=
  modCore s c fun x => { x with items := f x.items }

/-- Header of a group's launch. -/
def hdrOf (s : State) (g : Group) : LHeader :=
  match launchAt s g.launch with
  | some l => l.hdr
  | none => ⟨0, 0, 0, [], 0, 0, 0, 0, 0, 0, 0, 0, 0, 0, false⟩

/-- FLAGS of a launch header (R36). -/
def LHeader.replay (h : LHeader) : Bool := h.flags.getLsbD 0
def LHeader.shadow (h : LHeader) : Bool := h.flags.getLsbD 1
def LHeader.mirror (h : LHeader) : Bool := h.flags.getLsbD 2
def LHeader.npok (h : LHeader) : Bool := h.flags.getLsbD 3
def LHeader.matrix (h : LHeader) : Bool := h.flags.getLsbD 4
def LHeader.twin (h : LHeader) : Bool := h.flags.getLsbD 5

/-- b(k) of R29. -/
def LHeader.bAt (h : LHeader) (k : Nat) : Nat := (h.widths.take k).foldl (· + ·) 0
/-- Width of field k. -/
def LHeader.width (h : LHeader) (k : Nat) : Nat := h.widths.getD k 0

/-! ### Threads -/

def threadAt (g : Group) (l : Nat) : Thread := g.threads.getD l {}
def modThread (g : Group) (l : Nat) (f : Thread → Thread) : Group := { g with threads := g.threads.modify l f }
/-- Rewrites every lane's thread. -/
def mapThreads (g : Group) (f : Nat → Thread → Thread) : Group := { g with threads := lanes64 fun l => f l (threadAt g l) }
def modThreads (g : Group) (m : Mask) (f : Thread → Thread) : Group :=
  mapThreads g fun l t => if m.getLsbD l then f t else t

/-- The lane holds a thread that has neither exited nor left (R30, R63). -/
def Thread.live (t : Thread) : Bool := t.present && !t.exited && !t.left

/-- Lanes that hold a thread which has not exited. -/
def liveMask (g : Group) : Mask := maskOf fun l => (threadAt g l).live

/-! ### Registers -/

def vreg? (g : Group) (n : Nat) : Option VReg := tget? g.regs n
def sregAt (g : Group) (n : Nat) : SReg := tget g.sregs n {}
/-- p0 reads true and is never poisoned (R38). -/
def predBit (g : Group) (p l : Nat) : Bool := p == 0 || (tget g.preds p {}).val.getLsbD l
def predPois (g : Group) (p l : Nat) : Bool := p != 0 && (tget g.preds p {}).pois.getLsbD l
/-- Writes predicate lanes. p0 ignores writes (R279). -/
def setPred (g : Group) (p : Nat) (m val pois : Mask) : Group :=
  if p = 0 then g
  else
    let q := tget g.preds p {}
    { g with preds := tset g.preds p ⟨(q.val &&& ~~~m) ||| (val &&& m), (q.pois &&& ~~~m) ||| (pois &&& m), q.other &&& ~~~m⟩ }

/-- Registers a group has mapped (R44). -/
def mappedCount (g : Group) : Nat := g.regs.length

/-- A group and its shadow draw registers alike (R230). -/
def drawers (g : Group) : Nat := if g.shadow.isSome then 2 else 1

/-- The registers that a group and its shadow hold from the overflow pool (R44). A shadow's own place counts its RB alone. -/
def poolHeld (g : Group) : Nat := if g.shadowOf.isSome then 0 else drawers g * (mappedCount g - g.rb)

/-- Free registers of a core's overflow pool (R44). -/
def poolFree (x : Core) : Nat :=
  512 * x.regGran - (x.groups.foldl (fun n e => n + e.2.rb + poolHeld e.2) 0)

/-- A new physical register: lanes read as 0, full and not poisoned (R44). -/
def freshReg (tag : Nat) : VReg := ⟨tag, lanes64 fun _ => 0, BitVec.allOnes 64, 0, []⟩

/-- Maps the names of a list that are not mapped. -/
def allocRegs (s : State) (g : Group) : List Nat → State × Group
  | [] => (s, g)
  | n :: r =>
    match vreg? g n with
    | some _ => allocRegs s g r
    | none => allocRegs { s with nid := s.nid + 1 } { g with regs := tset g.regs n (freshReg s.nid) } r

/-- Writes one lane of a register with its poison, and turns it full. -/
def writeLane (r : VReg) (l : Nat) (w : Word) (p : Bool) : VReg :=
  { r with val := lanes64 fun j => if j = l then w else r.val.getD j 0, full := r.full ||| laneBit l,
           pois := if p then r.pois ||| laneBit l else r.pois &&& ~~~laneBit l, other := r.other.filter fun e => e.1 != l }

/-- Writes the lanes of a mask. -/
def writeLanes (r : VReg) (m : Mask) (f : Nat → Word) (p : Nat → Bool) : VReg :=
  { r with val := lanes64 fun l => if m.getLsbD l then f l else r.val.getD l 0, full := r.full ||| m,
           pois := (r.pois &&& ~~~m) ||| maskOf fun l => m.getLsbD l && p l,
           other := r.other.filter fun e => !m.getLsbD e.1 }

def modReg (g : Group) (n : Nat) (f : VReg → VReg) : Group :=
  match vreg? g n with
  | some r => { g with regs := tset g.regs n (f r) }
  | none => g

/-- The register of an allocation, wherever its name maps now. -/
def modTag (g : Group) (tag : Nat) (f : VReg → VReg) : Group :=
  { g with regs := g.regs.map fun (n, r) => (n, if r.tag = tag then f r else r) }

/-! ### Meets (R54, R55) -/

def jmaskAt (g : Group) (n : Nat) : JMask := tget g.jms n {}

/-- Lane l is held on j n (R54). -/
def heldOn (g : Group) (n l : Nat) : Bool :=
  let t := threadAt g l
  t.live && t.pc == t.meeta && t.meeta != 0 && t.meetj.toNat % 8 == n && (jmaskAt g n).a.getLsbD l

def heldAny (g : Group) (l : Nat) : Bool := (List.range 8).any fun n => heldOn g n l

/-- The hold on j n falls due (R55). -/
def holdDue (g : Group) (n : Nat) : Bool :=
  ((List.range 64).any fun l => heldOn g n l)
    && (lanesOf (jmaskAt g n).e).all fun l => !(threadAt g l).live || heldAny g l

/-- Releases every hold that is due, all of them at once (R55). -/
def releaseMeets (g : Group) : Group :=
  let due := (List.range 8).filter (holdDue g)
  due.foldl (fun h n =>
    let j := jmaskAt g n
    { h with jms := tset h.jms n {}, jlost := if j.e = j.a then h.jlost else h.jlost + 1 }) g

/-! ### Scoreboard (R42) -/

/-- Whether work of instruction `op` is still in flight in the core. -/
def opBusy (x : Core) (op : Nat) : Bool :=
  (x.items.any fun i => i.op == op) || (x.groups.any fun e => e.2.descs.any fun i => i.op == op)
    || x.groups.any fun e => e.2.threads.any fun t => match t.parts with | some p => p.op == op | none => false

/-- Clears every scoreboard slot of the core whose instruction has completed, in both copies, and takes its results out of the
load-value queue (R230). Copies that disagree stand until they are repaired (R231). -/
def clearSlots (x : Core) : Core :=
  { x with groups := x.groups.map fun (n, g) =>
      (n, if g.sb = g.sb2 then { g with sb := g.sb.filter fun e => opBusy x e.2, sb2 := g.sb2.filter fun e => opBusy x e.2,
                                        lvq := g.lvq.filter (opBusy x) }
          else g) }

/-- Points slot n at instruction op (R42). -/
def pointSlot (g : Group) (n : Option (Fin 8)) (op : Nat) : Group :=
  match n with
  | some k => { g with sb := tset g.sb k.val op, sb2 := tset g.sb2 k.val op }
  | none => g

/-! ### Retiring an instruction (R45) -/

/-- Frees register n: the name is unmapped (R45). -/
def freeReg (g : Group) (n : Nat) : Group := { g with regs := tdel g.regs n }

def freeRegs (g : Group) (ns : List Nat) : Group := ns.foldl freeReg g

/-- Counts an issued instruction in the lanes (R221, R222). -/
def countIssue (t : Thread) : Thread :=
  { t with spcnt := t.spcnt + 1, npCnt := if t.npIn then t.npCnt + 1 else t.npCnt, park := .no, parts := none,
           arrived := false, released := false, stopped := false, stopLive := none }

/-- The lanes of a mask pass to address `a`. Where the instruction stood last they leave the clause (R7). DEDUCED (log 100). -/
def passTo (g : Group) (m : Mask) (a : DWord) (leave : Bool) : Group :=
  modThreads g m fun t => { t with pc := a, mid := !leave, run := if leave then none else t.run }

/-- Lets a quarter go. -/
def freeQuarter (s : State) (c slot : Nat) : State :=
  modCore s c fun x =>
    { (if (tget? x.quarters (slot / 32)).map (·.1) = some slot then { x with quarters := tdel x.quarters (slot / 32) } else x) with
      groups := match tget? x.groups slot with
        | some g => tset x.groups slot { g with since := s.now }
        | none => x.groups }

/-! ### Fault records (R215) -/

/-- Free places in a function's fault ring. -/
def frRoom (f : Fn) : Bool := (f.frTail - f.frHead).toNat < 2 ^ f.frLog2n

/-- A write to the host tier leaves over PCIe (R93). The model keeps the host's word as memory of tier 2 (log 7). -/
def hostWrite (s : State) (w : Nat) (d : DWord) (mask : BitVec 8) : State :=
  let old := (memGet s.mem w).data
  { s with mem := memPut s.mem w ⟨mergeBytes old d mask, 0, 0⟩,
           hout := s.hout ++ [⟨0, BitVec.ofNat 64 (8 * waddrOf w), d, mask⟩] }

/-- Writes a record of 32 bytes into a ring of the host's memory. DESIGN CHOICE (log 74). -/
def putRecord (s : State) (at0 : DWord) (r : FaultRec) : State :=
  let w := wkey 2 (at0.toNat % 2 ^ 52)
  hostWrite (hostWrite (hostWrite (hostWrite s w r.w0 0xFF) (w + 1) r.w1 0xFF) (w + 2) r.w2 0xFF) (w + 3) r.w3 0xFF

/-- Writes records that are due into a function's fault ring while it has room, oldest first, and holds the rest back (R215). -/
def pumpRecords (s : State) (fn : Nat) : List FaultRec → State
  | [] => modFn s fn fun f => { f with held := [] }
  | r :: rs =>
    let f := fnAt s fn
    if frRoom f then
      pumpRecords (modFn (putRecord s (f.frBase + BitVec.ofNat 64 (32 * (f.frTail.toNat % 2 ^ f.frLog2n))) r) fn fun f =>
        { f with frTail := f.frTail + 1 }) fn rs
    else modFn s fn fun f => { f with held := r :: rs }

/-- Sends a record to a function's fault ring, held back while the ring is full (R215). -/
def queueRecord (s : State) (fn : Nat) (r : FaultRec) : State := pumpRecords s fn ((fnAt s fn).held ++ [r])

/-- An error record (R215): KIND 2 with an address in +0x08, to a front end. DEDUCED (log 64). -/
def errorRecord (s : State) (fn : Nat) (addr : DWord) (w2 w3 : DWord) : State := queueRecord s fn ⟨2, addr, w2, w3⟩

/-! ### Exit of threads and end of groups, sets -/

/-- Groups of a launch's set on its core. -/
def setGroups (x : Core) (launch set : Nat) : List (Nat × Group) :=
  x.groups.filter fun e => e.2.launch == launch && e.2.set == set

/-- Clears tile slots of the core that satisfy a test (R170): cleared, held for 16 cycles. -/
def releaseTiles (x : Core) (now : Nat) (p : Nat → Tile → Bool) : Core :=
  { x with tiles := x.tiles.map fun (n, t) =>
      (n, if p n t then { t with claim := none, full := true, data := [], pois := [], clearing := true, clearAt := now } else t) }

/-- A member of a gang has ended: every other member gets GANG_ABANDON, and the gang is dissolved (R177). -/
def abandonGang (x : Core) (slot : Nat) : Core :=
  let lose := fun (h : Group) => if h.gangr.getLsbD 31 ∧ h.gang.contains slot then
    { h with gangr := h.gangr &&& 0x7FFFFFFF, gangFault := some 0x0D } else h
  { x with groups := x.groups.map fun (n, h) => (n, if n = slot then h else lose h),
           evicted := x.evicted.map fun (n, h, cs) => (n, lose h, cs) }

/-- Discards the records a group still stages when its last thread exits, and counts them (R202). -/
def dropStaged (s : State) (g : Group) : State :=
  if g.staged.isEmpty then s
  else
    let s := g.staged.foldl (fun s r => modFn s g.fn fun f =>
      { f with nodes := tset f.nodes r.node { tget f.nodes r.node {} with drop := (tget f.nodes r.node {}).drop + 1 } }) s
    errorRecord s g.fn 0 0 0

/-- Pod set number of a set under TWIN: wid bits from b(Lp) on (R33). -/
def podSetOf (h : LHeader) (set : Nat) : Nat := set / 2 ^ (h.bAt h.lp - h.bAt h.lc)

/-- Clears a pod's link state and frees the pod (R188). A TWRECV of a lane that has exited waits no longer. DEDUCED (log 130). -/
def clearLink (s : State) (p : Nat) : State :=
  let waits := fun i : Item => match i.body with | .twrecv .. => true | _ => false
  let clr := fun x : Core =>
    { x with win := [], crossed := [], fifo := [], twb := [], link := [], items := x.items.filter fun i => !waits i }
  modPod (modCore (modCore s p clr) (p + 96) clr) p fun q => { q with holder := none, image := none }

/-- What asks for a pre-emption, which governs the resume (R220, R225). -/
def causeQuantum : Nat := 1
def causeThermal : Nat := 2
def causePriority : Nat := 3
def causeGating : Nat := 4
def causePartition : Nat := 5
def causeDefrag : Nat := 6

/-- Every set of a pod set has left its core or has ended. -/
def podSetGone (s : State) (l : Launch) (ps : Nat) : Bool :=
  s.sets.all fun y => y.launch != l.id || podSetOf l.hdr y.set != ps || y.core.isNone

/-- Window values and counts of an upper core: of a gated one, the gating image's. -/
def upperWin (s : State) (p : Nat) : Tbl (List Word) × Tbl Word :=
  match (podAt s p).image with
  | some i => i
  | none => ((coreAt s (p + 96)).win, (coreAt s (p + 96)).twb)

/-- The link state of a pod whose pod set has left is cleared, and goes into the image of what is saved of it (R188). What gating
alone has saved keeps the pod (R190). -/
def saveLink (s : State) (l : Launch) (c ps : Nat) : State :=
  let p := podOf c
  let mine := s.sets.filter fun y => y.launch == l.id && podSetOf l.hdr y.set == ps
  if !l.hdr.twin || !podSetGone s l ps || (podAt s p).holder != some (l.id, ps) then s
  else if mine.all fun y => y.done then clearLink s p
  else if mine.all fun y => y.done || y.causes.contains (causeGating, p) then s
  else
    let lo := coreAt s p
    let up := coreAt s (p + 96)
    let (wu, bu) := upperWin s p
    clearLink { s with savedLinks := s.savedLinks ++ [((l.id, ps), ⟨lo.win, wu, lo.fifo, up.fifo, lo.twb, bu⟩)] } p

/-- A SWWAIT on a sync word of a set. -/
def waitsOn (launch set : Nat) (i : Item) : Bool :=
  match i.body with
  | .swwait n m _ _ => n == set && m == launch
  | _ => false

/-- Ends a co-resident set whose last thread has exited (R66, R171, R188). A SWWAIT that still waits on its sync words ends with
it. DEDUCED (log 130). -/
def endSet (s : State) (launch set : Nat) : State :=
  match setAt s launch set with
  | none => s
  | some x =>
    let s := modSet s launch set fun x => { x with done := true, units := 0, spad := [], bars := [], core := none }
    match x.core with
    | none => s
    | some c =>
      let s := modCore s c fun y => { releaseTiles y (podClock s (podOf c)) fun _ t => t.claim == some (launch, set) with items := y.items.filter fun i => !waitsOn launch set i }
      match launchAt s launch with
      | some l => saveLink s l c (podSetOf l.hdr set)
      | none => s

/-- A thread of the set has neither exited nor left for good (R323). -/
def setThreads (x : Core) (launch set : Nat) (wid : DWord → Nat) : Nat :=
  (x.groups.foldl (fun n e => if e.2.launch = launch ∧ e.2.shadowOf = none then
      n + (e.2.threads.filter fun t => t.live && wid t.wid == set).length else n) 0)
    + (x.regroup.filter fun r => r.launch == launch && r.set == set).length
    + x.evicted.foldl (fun n e => if e.2.1.launch = launch then
      n + (e.2.1.threads.filter fun t => t.live && wid t.wid == set).length else n) 0

/-- The while-step of R323 on a barrier, with the number of threads that count 0 stands for. -/
def barSettle (live : Nat) (b : Barrier) : Barrier :=
  let target := if b.all then live else b.target
  if target = 0 then b
  else { b with target := target, arr := b.arr % target, gen := b.gen + BitVec.ofNat 32 (b.arr / target) }

/-- Set number of a thread: wid >> b(Lc) (R32). -/
def setOfWid (h : LHeader) (w : DWord) : Nat := w.toNat / 2 ^ h.bAt h.lc

/-- Every barrier of a set is tested again, as at an exit (R323). -/
def settleBars (s : State) (launch set : Nat) : State :=
  match setAt s launch set, launchAt s launch with
  | some x, some l => match x.core with
    | some c =>
      let live := setThreads (coreAt s c) launch set (setOfWid l.hdr)
      modSet s launch set fun x => { x with bars := x.bars.map fun (n, b) => (n, barSettle live b) }
    | none => s
  | _, _ => s

/-- The sets whose threads sit in a group. -/
def groupSets (s : State) (g : Group) : List Nat :=
  if g.formed then ((g.threads.filter fun t => t.present).map fun t => setOfWid (hdrOf s g) t.wid).eraseDups else [g.set]

/-- The sets of a group that no thread runs any longer end, in whatever group their last thread exited (R66). -/
def endSets (s : State) (c : Nat) (g : Group) : State :=
  ((groupSets s g).filter fun n => s.sets.any fun y => y.launch == g.launch && y.set == n && !y.done).foldl (fun s set =>
    if setThreads (coreAt s c) g.launch set (setOfWid (hdrOf s g)) ≠ 0 then s else endSet s g.launch set) s

/-- Takes a group whose threads are all gone off its slot (R31). -/
def retireGroup (s : State) (c slot : Nat) : State :=
  match groupAt s c slot with
  | none => s
  | some g =>
    if g.threads.any (fun t => t.live) then s
    -- the donor keeps its slot until every value it carries has moved (R63)
    else if (coreAt s c).regroup.any fun r => r.donor == g.gid && !r.carried.isEmpty then s
    else
      let s := dropStaged s g
      let s := modCore s c fun x => abandonGang x slot
      let s := freeQuarter s c slot
      let s := modCore s c fun x => { x with
        groups := (match g.shadow with | some k => tdel (tdel x.groups slot) k | none => tdel x.groups slot),
        rounds := x.rounds.filter fun r => r.fired || !r.members.contains slot }
      endSets s c g

/-- The lanes exit (R342), meets are tested and an emptied group ends. -/
def exitLanes (s : State) (c slot : Nat) (m : Mask) : State :=
  match groupAt s c slot with
  | none => s
  | some g =>
    let g := modThreads g m fun t => { t with exited := true, run := none, mid := false, park := .no, parts := none }
    let g := { g with handler := g.handler &&& ~~~m, tactive := g.tactive && (g.handler &&& ~~~m) != 0 }
    let s := setGroup s c slot (releaseMeets g)
    retireGroup (endSets ((groupSets s g).foldl (fun s n => settleBars s g.launch n) s) c g) c slot

/-- Halts a group (R213): every thread counts as exited, and the launch records the first cause. -/
def haltGroup (s : State) (c slot : Nat) (code : BitVec 8) (pc : DWord) : State :=
  match groupAt s c slot with
  | none => s
  | some g =>
    let s := modLaunch s g.launch fun l => { l with halted := match l.halted with | none => some (code, pc) | h => h }
    exitLanes s c slot (BitVec.allOnes 64)

/-! ### Taking a trap (R209 to R214) -/

/-- A trap about to be raised. -/
structure TrapReq where
  code : BitVec 8
  lanes : Mask
  info : DWord := 0
deriving DecidableEq, Repr

/-- Trap codes (R210). -/
def tcIllegalOp : BitVec 8 := 0x01
def tcIllegalOperand : BitVec 8 := 0x02
def tcBadClause : BitVec 8 := 0x03
def tcEmptySource : BitVec 8 := 0x04
def tcUnmappedRead : BitVec 8 := 0x05
def tcRegBudget : BitVec 8 := 0x06
def tcMisaligned : BitVec 8 := 0x07
def tcPageFault : BitVec 8 := 0x08
def tcProtection : BitVec 8 := 0x09
def tcPoison : BitVec 8 := 0x0A
def tcPartialMask : BitVec 8 := 0x0B
def tcGangMismatch : BitVec 8 := 0x0C
def tcGangAbandon : BitVec 8 := 0x0D
def tcSlotState : BitVec 8 := 0x0E
def tcSafepoint : BitVec 8 := 0x0F
def tcNpOverrun : BitVec 8 := 0x10
def tcTwinLink : BitVec 8 := 0x11
def tcSwTrap : BitVec 8 := 0x12
def tcBreakpoint : BitVec 8 := 0x13
def tcSvc : BitVec 8 := 0x14
def tcFormat : BitVec 8 := 0x15
def tcQueueFull : BitVec 8 := 0x16
def tcPeerLost : BitVec 8 := 0x17

/-- TINFO in address form (R210). -/
def addrInfo (reason : Nat) (addr : DWord) : DWord := BitVec.ofNat 7 reason ++ addr.extractLsb' 0 57

/-- The lanes of a set pass to the handler (R212). `tpc` is the pc saved, `clause` the clause that ran. -/
def deliver (g : Group) (lanes : Mask) (handler tpc clause : DWord) (run : Option Run) (t : TrapReq) : Group :=
  let g := { g with tcode := t.code, tactive := true, tpc := tpc, tinfo := t.info, tlanes := t.lanes,
                    tclause := clause, trun := run, handler := lanes }
  modThreads g lanes fun th =>
    { th with pc := handler, run := none, mid := false, park := .no, parts := none, arrived := false, released := false }

/-- A fault record of KIND 1 (R215). -/
def faultRecord (t : TrapReq) (token core slot : Nat) : FaultRec :=
  ⟨t.code.zeroExtend 64 <<< 8 ||| 1, t.info, t.lanes,
    BitVec.ofNat 64 (token % 2 ^ 32 + core * 2 ^ 32 + slot * 2 ^ 40)⟩

/-- Takes a trap of the lane set `lanes` of a group, with the pc it saves (R209, R212 to R214). -/
def takeTrap (s : State) (c slot : Nat) (lanes : Mask) (tpc clause : DWord) (run : Option Run) (t : TrapReq) : State :=
  match groupAt s c slot with
  | none => s
  | some g =>
    let s := freeQuarter s c slot
    -- an error record names the peer (R149)
    let s := if t.code = tcPeerLost then errorRecord s g.fn ((t.info >>> (57 : Nat)) : DWord) 0 0 else s
    if t.code = tcPageFault ∨ t.code = tcPoison then
      let token := s.nid
      let s := { s with nid := s.nid + 1 }
      let s := queueRecord s g.fn (faultRecord t token c slot)
      let s := modGroup s c slot fun g => modThreads g lanes fun th =>
        { th with park := if t.code = tcPoison then .contained t.lanes else .fault token }
      if t.code = tcPoison then modLaunch s g.launch fun l => { l with contain := l.contain ++ [(c, slot, 1, t.lanes)] }
      else modFn s g.fn fun f =>
        { f with toks := f.toks ++ [⟨token, c, slot, g.gid, lanes, tpc, t.info, t.lanes, run⟩] }
    else
      let h := (hdrOf s g).handler
      if g.tactive ∨ h = 0 then haltGroup s c slot t.code tpc
      else modGroup s c slot fun g => releaseMeets (deliver g lanes h tpc clause run t)

/-- The issuing instruction raises a trap of the first class (R209). -/
def trapFirst (k : Cur) (s : State) (t : TrapReq) : State :=
  takeTrap s k.core k.slot k.lanes k.pc k.run.addr (some k.run) t

/-- A lane that parks on the pool again keeps its place (R44). -/
def parkAs (old new : Park) : Park :=
  match old, new with
  | .pool a _, .pool _ n => .pool a n
  | _, p => p

/-- The issuing lane set parks and lets its quarter go (R41, R50). -/
def parkSet (k : Cur) (s : State) (m : Mask) (p : Park) : State :=
  freeQuarter (modGroup s k.core k.slot fun g =>
    modThreads g m fun t => { t with park := parkAs t.park p, mid := true }) k.core k.slot

/-- The cycle counter of a core now (R28). After a module reset the counters of all cores stand at 0, and cores that are
neither gated nor throttled count alike. DESIGN CHOICE (log 114). -/
def cycleOf (s : State) (c : Nat) : DWord :=
  let x := coreAt s c
  if x.gated || x.retention then x.cyc
  else x.cyc + BitVec.ofNat 64 ((s.now - x.cycAt) / 2 ^ (podAt s (podOf c)).throttle)

/-- Takes the counter's value before its rate changes. -/
def rebaseCycle (s : State) (c : Nat) : State :=
  let v := cycleOf s c
  modCore s c fun x => { x with cyc := v, cycAt := s.now }

/-- Free entries of a core's outbound FIFO (R185). Entries that wait for the link hold their places. -/
def outFree (x : Core) : Nat :=
  8 - x.fifo.length - (x.link.filter fun e => match e.item with | .fifo _ => true | _ => false).length

/-- Free entries before any push of the current cycle (R435). -/
def freeBefore (s : State) (c : Nat) : Nat :=
  let x := coreAt s c
  outFree { x with link := x.link.filter fun e => e.since != podClock s (podOf c) }

/-- An item of a quarter waits for the link: in the order in which the core's items came, those of one cycle in ascending
quarter order (R184). -/
def pushLink (s : State) (c q : Nat) (i : LinkItem) : State :=
  let t := podClock s (podOf c)
  let before := fun (e : LinkSlot) => !(e.since == t && decide (q < e.quarter))
  modCore s c fun x => { x with link := x.link.takeWhile before ++ ⟨t, q, i⟩ :: x.link.dropWhile before }

/-- An item that a quarter's instruction sends over the link has not crossed: the instruction stalls the quarter (R184). -/
def linkStalls (x : Core) (q : Nat) : Bool :=
  x.link.any fun e => e.quarter == q && match e.item with | .bar _ => false | _ => true

/-! ### Returning from a trap (R341) -/

/-- The words of the clause have all been fetched (R281). -/
def Run.whole (r : Run) : Bool := decide (r.hdr.cnt ≤ r.words.length)

/-- Lanes leave the handler for TPC. The clause they return into runs on from the words it was running; a TPC that
holds another address of the clause resumes there, any other address is a clause header (R341). Words of the clause that had not come
when a fetch of one of them trapped are fetched first. -/
def returnTo (g : Group) (m : Mask) : Group :=
  let inClause := match g.trun with
    | some r => g.tpc.toNat % 8 == 0 && decide (g.tclause.toNat < g.tpc.toNat)
        && decide (g.tpc.toNat < g.tclause.toNat + 8 * (1 + r.hdr.cnt))
    | none => false
  let whole := match g.trun with | some r => r.whole | none => false
  let g' := modThreads g m fun t =>
    { t with pc := g.tpc, park := .no, parts := none, mid := inClause && whole, run := if inClause then g.trun else none }
  let rest := g.handler &&& ~~~m
  { g' with handler := rest, tactive := g.tactive && rest != 0 }

end Sys2Proof.Machine
end

