-- ==== Sys2Proof/Machine/Home.lean ====
section
/-! DEFINITION. Home.lean: memory below the cores: channels (R110 to R118), home slices and their messages (R139 to
R143), the L2 (R21, R97, R240), the L1 of a core (R97 to R101, R132), and the reads that units outside the cores make. -/
namespace Sys2Proof.Machine

/-! ### Placement -/

def bitsXor (wa : Nat) (ks : List Nat) : Nat := (ks.foldl (fun a k => a ^^ wa.testBit k) false).toNat

/-- Channel of a stacked word (R110). -/
def channelOf (wa : Nat) : Nat :=
  (List.range 7).foldl (fun n i => n + 2 ^ i * bitsXor wa
    ([4 + i, 11 + i, 18 + i, 25 + i, 32 + i] ++ (if i < 2 then [39 + i] else []))) 0

/-- Slice of a stacked word (R111). -/
def sliceOf (wa : Nat) : Nat :=
  (wa % 16) ^^^ (List.range 4).foldl (fun n i => n + 2 ^ i * bitsXor wa [10 + i, 14 + i, 18 + i, 22 + i, 26 + i, 30 + i]) 0

def rowOf (wa : Nat) : Nat := wa / 2 ^ 25 % 2 ^ 11
def bankOf (wa : Nat) : Nat := wa / 2 ^ 21 % 16
/-- The 11-bit colour of a page or run: channel and slice of its first word (R112). -/
def colourOf (wa : Nat) : Nat := channelOf wa * 16 + sliceOf wa
/-- Channel of a word key: the off-stack tier is set 128 (R126). -/
def chanOf (w : Nat) : Nat := if tierOf w = 0 then channelOf (waddrOf w) else 128

/-- Logical home and home slice of a word (R139). -/
def homeHash (w : Nat) : Nat :=
  (List.range 7).foldl (fun a i => a ^^^ (waddrOf w / 16 / 2 ^ (7 * i) % (if i = 6 then 8 else 128))) 0
def homeSlice (s : State) (w : Nat) : Nat := tget s.smap (homeHash w) (homeHash w)

/-- L2 colour of a physical address (R239). -/
def l2Colour (pa : Nat) : Nat := (pa / 2 ^ 16 % 8) ^^^ (pa / 2 ^ 19 % 8) ^^^ (pa / 2 ^ 22 % 8)

/-! ### Sectors (R23, R121) -/

/-- Words of a sector by number. -/
def wordsOfSector (sec : Nat) : List Nat := (List.range 16).map fun i => sec * 16 + i

/-- Accesses of a page in sector mode move whole sectors; in early service every access does (R249). -/
def wholeSector (s : State) (sector : Bool) : Bool := sector || !s.full

/-- Sector mode of a page of which KEY and tier alone are known. -/
def secOf (w key : Nat) : Bool := key != 0 || tierOf w != 0

/-- Two words of a 16-byte block, encrypted or decrypted under a loaded key (R121). -/
def xtsPair (s : State) (enc : Bool) (key w : Nat) (lo hi : DWord) : DWord × DWord :=
  match tget? s.keys key with
  | none => (lo, hi)
  | some k =>
    let b := xtsBlock enc k.k1 k.k2 (waddrOf w / 16) (w % 16 / 2) (bytesOfWord lo ++ bytesOfWord hi)
    (wordOfBytes b, wordOfBytes (b.drop 8))

/-- The data of a sector, encrypted or decrypted; the tags stay in the clear (R121). -/
def cryptSector (s : State) (enc : Bool) (key sec : Nat) (ds : List DWord) : List DWord :=
  if key = 0 then ds
  else (List.range 8).flatMap fun j =>
    let p := xtsPair s enc key (sec * 16 + 2 * j) (ds.getD (2 * j) 0) (ds.getD (2 * j + 1) 0)
    [p.1, p.2]

/-! ### Check bits of cached words (R98, R106) -/

/-- What a read of a protected word finds. -/
inductive Ecc where
  | good | fixed (mw : MWord) | lost
deriving DecidableEq, Repr

/-- SEC-DED over data and tag. The code is that of R116 without an address. DEDUCED (log 65). -/
def eccRead (mw : MWord) (syn : BitVec 12) : Ecc :=
  if syn = 0 then .good
  else match synRes ⟨mw.data, mw.tag, syn⟩ with
    | .corrected b => let y := flipBit ⟨mw.data, mw.tag, syn⟩ b; .fixed { mw with data := y.data, tag := y.tag }
    | _ => .lost

/-- One of the 80 stored bits of a protected word is wrong. -/
def eccFlip (mw : MWord) (syn : BitVec 12) (b : Nat) : MWord × BitVec 12 :=
  let y := flipBit ⟨mw.data, mw.tag, syn⟩ b
  ({ mw with data := y.data, tag := y.tag }, y.syn)

/-! ### Stored words -/

/-- A word with its tag and poison. -/
def mword (d : DWord) (tag : BitVec 4) (p : Bool) : MWord := { data := d, tag := tag, pois := p }

/-- The change that an armed injection makes to a word being stored (R125). DESIGN CHOICE (log 65). -/
def inject (s : State) (w : Nat) (x : Stored) : Stored × State :=
  let c := s.einjc
  if c.getLsbD 31 && waddrOf w == s.einja.toNat % 2 ^ 49 && tierOf w == (c.getLsbD 23).toNat then
    let b0 := (c.extractLsb' 8 7).toNat
    let b1 := (c.extractLsb' 16 7).toNat
    let y := match (c.extractLsb' 0 2).toNat with
      | 1 => flipBit x b0
      | 2 => flipBit (flipBit x b0) b1
      | 3 => { x with syn := poisonSyn }
      | _ => x
    (y, { s with einjc := c &&& 0x7FFFFFFF })
  else (x, s)

/-- Saturating count (R126, R235). -/
def satInc (c : Word) : Word := if c = 0xFFFFFFFF then c else c + 1

/-- A word of data is stored: fresh check bits, or the poison pattern (R116, R119), and an armed injection (R125). A word
that MODE 3 turns into the poison pattern is not counted as one written poisoned. DESIGN CHOICE (log 109). -/
def putStored (s : State) (w : Nat) (d : DWord) (tag : BitVec 4) (p : Bool) : State :=
  let (x, s) := inject s w ⟨d, tag, if p then poisonSyn else 0⟩
  let s := { s with mem := memPut s.mem w x }
  if p then modChan s (chanOf w) fun c => { c with pwch := satInc c.pwch } else s

/-- Adds a request to its channel's queue. What lies beyond 512 requests is held back at the home slices (R114). -/
def pushReq (s : State) (r : ChanReq) : State :=
  modChan { s with nid := s.nid + 1 } (chanOf r.w) fun c => { c with pend := c.pend ++ [{ r with id := s.nid }] }

/-- Words that a request is for. -/
def ChanReq.words (r : ChanReq) : List Nat :=
  if r.sector then wordsOfSector (sectorOf r.w) else if r.wr.isEmpty then [r.w] else r.wr.map (·.1)

/-- Adds a repair write of R118 for a word to its channel's queue: before the writes of the word that wait there. A write received
after the read leaves its data standing. -/
def pushRepair (s : State) (w : Nat) (mw : MWord) : State :=
  let before := fun (q : ChanReq) => q.wr.isEmpty || !q.words.contains w
  let r : ChanReq := { id := s.nid, w := w, wr := [(w, mw)], repair := true, since := s.now }
  modChan { s with nid := s.nid + 1 } (chanOf w) fun c => { c with pend := c.pend.takeWhile before ++ r :: c.pend.dropWhile before }

/-- Words of one sector are written to memory: one request each, or one for the sector (R121). Host words go out. -/
def pushWrites (s : State) (ws : List (Nat × MWord)) (key : Nat) (sector : Bool) : State :=
  match ws with
  | [] => s
  | e :: _ =>
    if tierOf e.1 = 2 then ws.foldl (fun s x => hostWrite s x.1 x.2.data 0xFF) s
    else if key != 0 || wholeSector s sector then
      pushReq s { id := 0, w := e.1, wr := ws, key := key, sector := true, since := s.now }
    else ws.foldl (fun s x => pushReq s { id := 0, w := x.1, wr := [x], since := s.now }) s

/-- Sources of an error record (R120). -/
def srcLoad : Nat := 1
def srcFill : Nat := 2
def srcScrub : Nat := 3
def srcInMem : Nat := 4

/-- A repair write of R118. It is no write of data. -/
def putRepair (s : State) (w : Nat) (mw : MWord) : State :=
  { s with mem := memPut s.mem w ⟨mw.data, mw.tag, if mw.pois then poisonSyn else 0⟩ }

/-- One word is read from memory, and its syndrome acted on (R118): the word as stored, with its poison, and whether it was
corrected. Its repair enters the pending queue, or is made `now` where a write of the word follows in its place. -/
def readStored (s : State) (w src : Nat) (now : Bool := false) : MWord × Bool × State :=
  let x := memGet s.mem w
  let repair := fun (s : State) (mw : MWord) =>
    if now then putRepair s w mw else pushRepair s w mw
  match synRes x with
  | .clean => (mword x.data x.tag false, false, s)
  | .corrected b =>
    let y := flipBit x b
    let s := repair s (mword y.data y.tag false)
    (mword y.data y.tag false, true, modChan s (chanOf w) fun c => { c with cech := satInc c.cech })
  | .poisoned => (mword x.data x.tag true, false, s)
  | .bad =>
    let s := repair s (mword x.data x.tag true)
    let s := modChan s (chanOf w) fun c => { c with uech := satInc c.uech, pwch := satInc c.pwch }
    (mword x.data x.tag true, false,
      errorRecord s 0 (BitVec.ofNat 64 (8 * waddrOf w)) (x.syn.zeroExtend 64) (BitVec.ofNat 64 src))

/-- Words of a sector are read, and their data decrypted (R118, R121). -/
def fetchSector (s : State) (sec key src : Nat) (now : Bool := false) : List (MWord × Bool) × State :=
  let r := (wordsOfSector sec).foldl (fun (a : List (MWord × Bool) × State) w =>
    let x := readStored a.2 w src now
    (a.1 ++ [(x.1, x.2.1)], x.2.2)) ([], s)
  ((r.1.zip (cryptSector s false key sec (r.1.map (·.1.data)))).map fun (x, d) => ({ x.1 with data := d }, x.2), r.2)

/-- A word is read from memory, with its sector where the access moves sectors (R121). -/
def fetchWord (s : State) (w key : Nat) (sector : Bool) (src : Nat) : MWord × Bool × State :=
  if tierOf w = 2 || (key == 0 && !wholeSector s sector) then readStored s w src
  else
    let r := fetchSector s (sectorOf w) key src
    let x := r.1.getD (w % 16) ({}, false)
    (x.1, x.2, r.2)

/-- Words of one sector reach memory. In sector mode the whole sector is written: what is not among them is read first
(R121). DEDUCED (log 110). -/
def storeWords (s : State) (sec key : Nat) (sector : Bool) (ws : List (Nat × MWord)) : State :=
  let put := fun (s : State) (x : Nat × MWord) => putStored s x.1 x.2.data x.2.tag x.2.pois
  if key == 0 && !wholeSector s sector then ws.foldl put s
  else
    let held := fun (w : Nat) => ws.find? fun e => e.1 == w
    let r := if (wordsOfSector sec).all fun w => (held w).isSome then ([], s) else fetchSector s sec key srcFill true
    let all := (wordsOfSector sec).map fun w => match held w with
      | some e => e.2
      | none => (r.1.getD (w % 16) ({}, false)).1
    let ds := cryptSector s true key sec (all.map (·.data))
    ((wordsOfSector sec).zip (all.zip ds)).foldl (fun s (w, mw, d) => put s (w, { mw with data := d })) r.2

/-- A write of one word of data reaches memory. -/
def storeWord (s : State) (w : Nat) (mw : MWord) (key : Nat) : State :=
  storeWords s (sectorOf w) key (secOf w key) [(w, mw)]

/-- A request is performed at its channel. A read hands its words to the messages that wait for it. Of two reads that share a slot
word each acts on what it finds: it counts, repairs and records (R115, R118). DESIGN CHOICE (log 131). -/
def performReq (s : State) (r : ChanReq) : State :=
  if r.repair then r.wr.foldl (fun s x => putRepair s x.1 x.2) s
  else if !r.wr.isEmpty then storeWords s (sectorOf r.w) r.key r.sector r.wr
  else
    let give := fun (s : State) (f : Nat → MWord × Bool) =>
      { s with net := s.net.map fun m =>
          if m.ask = r.id then { m with mem := some (f m.w).1, corrected := m.corrected || (f m.w).2 } else m }
    if r.sector then
      let x := fetchSector s (sectorOf r.w) r.key r.src
      give x.2 fun w => x.1.getD (w % 16) ({}, false)
    else
      let x := readStored s r.w r.src
      give x.2.2 fun _ => (x.1, x.2.1)

/-- The first n requests to words of one sector that wait at its channel are performed, in order. -/
def drainFirst (s : State) (w : Nat) : Nat → State
  | 0 => s
  | n + 1 =>
    match (chanAt s (chanOf w)).pend.find? fun r => sectorOf r.w == sectorOf w with
    | none => s
    | some r => drainFirst (performReq (modChan s (chanOf w) fun c => { c with pend := c.pend.filter fun q => q.id != r.id }) r) w n

/-- Requests to words of one sector that wait at its channel are performed, in order (R115), and with them the repairs that their
reads add, at most one for each of 16 words (R118). -/
def drainWord (s : State) (w : Nat) : State :=
  drainFirst s w (17 * ((chanAt s (chanOf w)).pend.filter fun r => sectorOf r.w == sectorOf w).length)

/-- A word of memory as it stands behind every request received before. -/
def memWordNow (s : State) (w key : Nat) (sector : Bool) (src : Nat) : MWord × Bool × State :=
  fetchWord (drainWord s w) w key sector src

/-! ### L2 lines (R21, R97, R240) -/

/-- Line of a word, its set and frames in its home slice. -/
def lineOf (w : Nat) : Nat := w / 32
def l2Set (w : Nat) : Nat := 48 * l2Colour (8 * waddrOf w) + lineOf (waddrOf w) % 48
def l2Frame (s : State) (w way : Nat) : Nat := (homeSlice s w * 384 + l2Set w) * 16 + way

def l2Way (s : State) (w : Nat) : Option Nat :=
  (List.range 16).find? fun k => match tget? s.l2Lines (l2Frame s w k) with
    | some l => l.line == lineOf w
    | none => false

/-- The words of a line that a slice homes. -/
def lineWords (s : State) (line slice : Nat) : List Nat :=
  ((List.range 32).map fun i => line * 32 + i).filter fun w => homeSlice s w == slice

/-- The L2 reads a word (R98): corrected in place, poisoned where it is dirty, no longer valid where it is clean. Answers
whether it was corrected. -/
def l2Read (s : State) (w : Nat) : Bool × State :=
  let h := homeAt s w
  if !h.v then (false, s)
  else match eccRead h.mw h.syn with
    | .good => (false, s)
    | .fixed mw => (true, setHome s w { h with mw := mw, syn := 0 })
    | .lost =>
      (false, setHome s w (if h.d then { h with mw := { h.mw with pois := true }, syn := 0 } else { h with v := false, syn := 0 }))

/-- The word is clean in the L2 and cannot be corrected, so it has to be fetched again (R98). -/
def l2Lost (h : HomeWord) : Bool := h.v && !h.d && eccRead h.mw h.syn == .lost

/-- Words of memory that messages hold, or have asked for, are no longer its latest: they ask again. -/
def forget (s : State) (ws : List Nat) : State :=
  { s with net := s.net.map fun m => if ws.contains m.w then { m with mem := none, ask := 0 } else m }

/-- The L2 gives a sector up: what is dirty is written back, in sector mode with what is valid beside it (R100, R121). The
directory stays. -/
def evictSector (s : State) (sec : Nat) : State :=
  let ws := wordsOfSector sec
  let s := ws.foldl (fun s w => (l2Read s w).2) s
  let held := (ws.map fun w => (w, homeAt s w)).filter fun e => e.2.v
  let dirty := held.filter fun e => e.2.d
  let sector := held.any fun e => e.2.sector || e.2.key != 0
  let key := (held.map (·.2.key)).foldl max 0
  let s := if dirty.isEmpty then s
    else pushWrites s ((if wholeSector s sector then held else dirty).map fun e => (e.1, e.2.mw)) key sector
  forget (held.foldl (fun s e => setHome s e.1 { homeAt s e.1 with v := false, d := false }) s) (dirty.map (·.1))

/-- Evicts a frame. -/
def evictL2 (s : State) (frame : Nat) : State :=
  match tget? s.l2Lines frame with
  | none => s
  | some l =>
    (((lineWords { s with l2Lines := tdel s.l2Lines frame } l.line (frame / (384 * 16))).map sectorOf).eraseDups).foldl evictSector
      { s with l2Lines := tdel s.l2Lines frame }

/-- Ways of the L2 in which a function allocates (R240). -/
def l2Ways (s : State) (fn : Nat) : List Nat := (List.range 16).filter fun k => (fnAt s fn).l2mask.getLsbD k

/-- A frame for a word's line in one of the ways. -/
def l2Alloc (s : State) (w : Nat) (ways : List Nat) (first : Bool) : State :=
  if (l2Way s w).isSome then s
  else match ways.find? fun k => (tget? s.l2Lines (l2Frame s w k)).isNone with
    | some k => { s with l2Lines := tset s.l2Lines (l2Frame s w k) ⟨lineOf w, first⟩ }
    | none =>
      let firsts := ways.filter fun k => match tget? s.l2Lines (l2Frame s w k) with | some l => l.first | none => false
      let cand := if firsts.isEmpty then ways else firsts
      let k := cand.getD (Config.victim cand.length s.fresh % cand.length) 0
      let s := evictL2 { s with fresh := s.fresh + 1 } (l2Frame s w k)
      { s with l2Lines := tset s.l2Lines (l2Frame s w k) ⟨lineOf w, first⟩ }

/-- The tag of a word as memory keeps it: that of the last write that waits at the channel, or the stored one, corrected. Nothing
reads the word (R303). DEDUCED (log 132). -/
def storedTag (s : State) (w : Nat) : BitVec 4 :=
  let writes := (chanAt s (chanOf w)).pend.filterMap fun r => (r.wr.find? fun e => e.1 == w).map (·.2.tag)
  match writes.getLast? with
  | some t => t
  | none =>
    let x := memGet s.mem w
    match synRes x with
    | .corrected b => (flipBit x b).tag
    | _ => x.tag

/-- A new value at home: a tag that did not travel is the one that the word has. -/
def withTag (s : State) (w : Nat) (mw : MWord) : MWord × State :=
  if mw.tagd then (mw, s)
  else
    let s := (l2Read s w).2
    ({ mw with tagd := true, tag := if (homeAt s w).v then (homeAt s w).mw.tag else storedTag s w }, s)

/-- The home holds a new value of a word. A function that allocates in no way holds it as under the bypass hint, in a line of
any way that is first in line for eviction (R99, R240). DEDUCED (log 111). -/
def homePut (s : State) (w fn : Nat) (al : Alloc) (key : Nat) (sector : Bool) (mw : MWord) (f : HomeWord → HomeWord) : State :=
  let (mw, s) := withTag s w mw
  let ways := l2Ways s fn
  let s := l2Alloc s w (if ways.isEmpty then List.range 16 else ways) (al != .normal || ways.isEmpty)
  setHome s w (f { homeAt s w with v := true, d := true, mw := mw, key := key, sector := sector, syn := 0 })

/-- The home's value of a word: its own, the one fetched for the message, or memory's; and whether it was corrected, here or on the
way to the message (R304). -/
def homeVal (s : State) (w key : Nat) (sector : Bool) (got : Option MWord) (cor : Bool) : MWord × Bool × State :=
  let (c, s) := l2Read s w
  if (homeAt s w).v then ((homeAt s w).mw, c || cor, s)
  else match got with
    | some x => (x, cor, s)
    | none =>
      let r := memWordNow s w key sector srcLoad
      (r.1, r.2.1 || cor, r.2.2)

/-- Bytes of a write merged into a word. A write of the whole word replaces its poison (R119), and a tag that travels
with the write replaces the word's. -/
def mergeWord (old mw : MWord) (mask : BitVec 8) : MWord where
  data := mergeBytes old.data mw.data mask
  tag := if mw.tagd then mw.tag else old.tag
  pois := if mask = 0xFF then mw.pois else old.pois || mw.pois
  tagd := mw.tagd || old.tagd

/-- Lexicographic order of ranks, device first (R140). -/
def rankGt (a b : Rank) : Bool :=
  if a.dev ≠ b.dev then b.dev < a.dev
  else if a.core ≠ b.core then b.core < a.core
  else if a.slot ≠ b.slot then b.slot < a.slot
  else b.lane < a.lane

/-! ### Atomic operations (R288) -/

/-- One operation on a 32-bit value. -/
def atomic32 (op : AOp) (old b b2 : Word) : Word :=
  match op with
  | .add32 => old + b
  | .addf => BitVec.ofNat 32 (fAdd fp32 .rn (unpackF fp32 old.toNat) (unpackF fp32 b.toNat)).1
  | .smin => if b.slt old then b else old
  | .smax => if old.slt b then b else old
  | .umin => if b.ult old then b else old
  | .umax => if old.ult b then b else old
  | .and32 => old &&& b
  | .or32 => old ||| b
  | .xor32 => old ^^^ b
  | .exch32 => b
  | .cas32 => if old = b then b2 else old
  | _ => old

/-- One operation on a 64-bit value. -/
def atomic64 (op : AOp) (old b b2 : DWord) : DWord :=
  match op with
  | .add64 => old + b
  | .and64 => old &&& b
  | .or64 => old ||| b
  | .exch64 => b
  | .cas64 => if old = b then b2 else old
  | _ => old

/-- The operation on a word of memory: `off` is 0 or 4 for 32-bit forms. -/
def atomicWord (op : AOp) (old b b2 : DWord) (off : Nat) : DWord :=
  if op.wide then atomic64 op old b b2
  else
    let x := old.extractLsb' (8 * off) 32
    let y := atomic32 op x (b.extractLsb' 0 32) (b2.extractLsb' 0 32)
    mergeBytes old ((y.zeroExtend 64 : DWord) <<< (8 * off)) (if off = 0 then 0x0F else 0xF0)

/-! ### The L1 of a core (R97 to R101) -/

def l1At (x : Core) (w : Nat) : Option L1Word := tget? x.l1 w
def l1Ways (x : Core) : Nat := 24 - x.regGran - x.spadGran - (x.conv.foldl (fun n c => n + c.n) 0)
def l1Set (w : Nat) : Nat := lineOf (waddrOf w) % 512
def l1Frame (w way : Nat) : Nat := l1Set w * 24 + way

def l1Way (x : Core) (w : Nat) : Option Nat :=
  (List.range 24).find? fun k => match tget? x.l1Lines (l1Frame w k) with
    | some l => l.line == lineOf w
    | none => false

/-- Sends a message of a core to a word's home. -/
def sendMsg (s : State) (m : HomeMsg) : State :=
  { s with nid := s.nid + 1, net := s.net ++ [{ m with id := s.nid, since := s.now }] }

/-- Device rank of a word that this device's core wrote (R143, R146). -/
def fullRank (s : State) (c : Nat) (r : Nat × Nat) : Rank := ⟨s.devid, c, r.1, r.2⟩

/-- The L1 reads a word (R98): as it then stands, `none` where it was clean and cannot be corrected, and whether it was
corrected. -/
def l1Read (x : L1Word) : Option L1Word × Bool :=
  match eccRead x.mw x.syn with
  | .good => (some x, false)
  | .fixed mw => (some { x with mw := mw, syn := 0 }, true)
  | .lost => (if x.d then some { x with mw := { x.mw with pois := true }, syn := 0 } else none, false)

/-- A dirty word as the L1 reads it. -/
def l1Dirty (x : L1Word) : L1Word := (l1Read x).1.getD x

/-- The message that writes an L1 word home: with its rank, or unranked when owned (R141). -/
def writeBackMsg (s : State) (c w : Nat) (x : L1Word) : HomeMsg :=
  { id := 0, src := .core c, fn := x.fn, w := w, key := x.key, sector := x.sector, launch := x.by_,
    kind := match x.o, x.rank with
      | false, some r => .ranked (fullRank s c r) 0xFF (l1Dirty x).mw
      | _, _ => .unranked (l1Dirty x).mw }

/-- Writes a dirty word home. -/
def writeBack (s : State) (c w : Nat) (x : L1Word) : State :=
  if x.d then sendMsg s (writeBackMsg s c w x) else s

/-- Writing the word home corrects it in the L1 (R98). -/
def backFixes (x : L1Word) : Bool := x.d && (l1Read x).2

/-- Drops an L1 word. -/
def l1Drop (s : State) (c w : Nat) : State := modCore s c fun x => { x with l1 := tdel x.l1 w }

/-- A read finds a clean word of the L1 that cannot be corrected, which then has to be fetched again (R98). -/
def dropLost (s : State) (c w : Nat) : State :=
  match l1At (coreAt s c) w with
  | some x => if (l1Read x).1.isNone then l1Drop s c w else s
  | none => s

/-- Evicts an L1 frame: dirty words go home with their ranks (R100). -/
def evictL1 (s : State) (c frame : Nat) : State :=
  match tget? (coreAt s c).l1Lines frame with
  | none => s
  | some l =>
    let s := (List.range 32).foldl (fun s i =>
      let w := l.line * 32 + i
      match l1At (coreAt s c) w with
      | some x => l1Drop (writeBack s c w x) c w
      | none => s) s
    modCore s c fun x => { x with l1Lines := tdel x.l1Lines frame }

/-- A frame for a word's line in the L1, evicting one where the set is full. -/
def l1Alloc (s : State) (c w : Nat) : State :=
  let x := coreAt s c
  match l1Way x w with
  | some _ => s
  | none =>
    let ways := List.range (l1Ways x)
    match ways.find? fun k => (tget? x.l1Lines (l1Frame w k)).isNone with
    | some k => modCore s c fun x => { x with l1Lines := tset x.l1Lines (l1Frame w k) ⟨lineOf w, false⟩ }
    | none =>
      let k := Config.victim ways.length s.fresh % ways.length
      let s := evictL1 { s with fresh := s.fresh + 1 } c (l1Frame w k)
      modCore s c fun x => { x with l1Lines := tset x.l1Lines (l1Frame w k) ⟨lineOf w, false⟩ }

def l1Set! (s : State) (c w : Nat) (v : L1Word) : State := modCore s c fun x => { x with l1 := tset x.l1 w v }

/-- The invalidation step of an acquire (R135): clean words that are not owned and not RO. Fills asked for before it
install no such word. -/
def acquireL1 (n : Nat) (x : Core) : Core :=
  { x with l1 := x.l1.filter fun e => e.2.d || e.2.o || e.2.ro,
           mshrs := x.mshrs.map fun m => { m with asks := m.asks.map fun a => { a with stale := some (a.stale.getD n) } } }

/-- A core answers a recall (R142): the answer and its copy afterwards. -/
def recallAnswer (s : State) (c w : Nat) : Option HomeMsg × State :=
  match l1At (coreAt s c) w with
  | none => (none, s)
  | some x =>
    if x.o || x.d then
      (some (writeBackMsg s c w x), l1Set! s c w { l1Dirty x with d := false, o := false, rank := none, by_ := [] })
    else (none, s)

/-! ### Flits (R244, R246) -/

def linkAt (s : State) (i : Nat) : Link := tget s.links i {}
def modLink (s : State) (i : Nat) (f : Link → Link) : State := { s with links := tset s.links i (f (linkAt s i)) }

/-- A link carries flits: enabled, not failed, and not in early service (R249). -/
def linkUp (s : State) (i : Nat) : Bool := s.full && s.linkEn.getLsbD i && !(linkAt s i).down

/-- The link for a message to a device about a home slice: the k-th of those that reach it (R246). DEDUCED (log 96). -/
def linkFor (s : State) (dev home : Nat) : Option Nat :=
  let ls := (List.range 16).filter fun i => linkUp s i && (tget s.froute dev 0).getLsbD i
  ls[home % ls.length]?

/-- Bytes 0 to 247 of a flit, from its first word and its slots. -/
def flitBody (head : DWord) (slots : List DWord) : List Byte :=
  (head :: (List.range 30).map fun i => slots.getD i 0).flatMap bytesOfWord

/-- A flit goes out on a link. -/
def sendFlit (s : State) (i dev kind : Nat) (slots : List DWord) : State :=
  let l := linkAt s i
  let head : DWord := (0 : BitVec 16) ++ (Config.credits s.fresh ++ (BitVec.ofNat 4 kind ++ (BitVec.ofNat 6 dev ++
    (BitVec.ofNat 6 s.devid ++ (l.rxSeq ++ l.txSeq)))))
  let b := flitBody head slots
  modLink { s with fresh := s.fresh + 1, fout := s.fout ++ [(i, b ++ bytesOfWord (crc64 b))] } i fun l => { l with txSeq := l.txSeq + 1 }

/-- A message to a device about a home slice goes out, if a link reaches it. -/
def sendTo (s : State) (dev home kind : Nat) (slots : List DWord) : State :=
  match linkFor s dev home with
  | some i => sendFlit s i dev kind slots
  | none => s

/-! ### Home actions (R141) -/

/-- The owner stands in the way of a message from this sender. -/
def ownerBars (h : HomeWord) (src : MsgSrc) (atomic : Bool) : Option Nat :=
  match h.owner with
  | none => none
  | some .fabric => none
  | some (.core o) => if atomic then some o else match src with
      | .core c => if c = o then none else some o
      | .engine _ | .fabric .. => some o

def isAtomic : MsgKind → Bool
  | .atomic .. => true
  | _ => false

/-- Whether the message needs the word's value at home, and whether an owner has to be recalled for it. An unranked write
of a copy of another device recalls, as an atomic does (R152). -/
def needsValue : MsgKind → Bool
  | .read | .atomic .. => true
  | .ranked _ mask _ | .copied mask _ => mask != 0xFF
  | _ => false
def needsRecall : MsgKind → Bool
  | .read | .atomic .. | .ranked .. | .copied .. => true
  | _ => false

/-- A response goes back to the core, its copy engine, or over the fabric (R244). -/
def respond (s : State) (m : HomeMsg) (mw : MWord) (cor : Bool) : State :=
  match m.src with
  | .core c =>
    -- a prefetch into the L2 alone waits for nothing (R394)
    if !m.fill && m.acc == 0 then s
    else { s with resps := s.resps ++ [⟨m.id, c, m.w, mw, cor, if m.fill then 0 else m.acc, false, false, none, m.batch⟩] }
  | .engine c => { s with resps := s.resps ++ [⟨m.id, c, m.w, mw, cor, m.acc, false, true, m.unit, 0⟩] }
  | .fabric dev tag .. =>
    sendTo s dev (homeSlice s m.w) 2 [mw.data,
      (tag.zeroExtend 64 : DWord) ||| (if mw.pois then (1 : DWord) <<< (16 : Nat) else 0) ||| (1 : DWord) <<< (63 : Nat), 0]

/-- A dirty host word reaches the host (R93). -/
def hostSettle (s : State) (w : Nat) : State :=
  let h := homeAt s w
  if tierOf w = 2 && h.v && h.d then hostWrite (setHome s w { h with d := false }) w h.mw.data 0xFF else s

/-- The home's action for a message whose recall has been answered (R141). A merged write clears poison only when it
writes the whole word (R119). An unranked write-back of a core that owns the word no longer is discarded, and one of a host
word brings what the host has had since its release (R93). A discarded write sends no notice beyond the acknowledgement of
its arrival. DEDUCED (log 49). A host word written unranked goes to the host at once: no release of a store settles it (R93).
DEDUCED (log 133). -/
def homeAct (s : State) (m : HomeMsg) : State :=
  let h := homeAt s m.w
  let put := fun (s : State) (mw : MWord) => homePut s m.w m.fn m.alloc m.key m.sector mw
  let ack := fun (s : State) (mw : MWord) (cor : Bool) => if m.acc = 0 then s else respond s m mw cor
  match m.kind with
  | .read =>
    let (mw, cor, s) := homeVal s m.w m.key m.sector m.mem m.corrected
    let ways := l2Ways s m.fn
    let s := if (homeAt s m.w).v || m.alloc == .bypass || ways.isEmpty then s
      else
        let s := l2Alloc s m.w ways (m.alloc == .stream)
        setHome s m.w { homeAt s m.w with v := true, d := false, mw := mw, key := m.key, sector := m.sector, syn := 0 }
    respond s m mw cor
  | .ranked k mask mw =>
    let beaten := match h.rank with | some r => rankGt r k | none => false
    if beaten then
      -- the launch dirtied the word all the same (R136)
      ack (setHome s m.w { h with by_ := (h.by_ ++ m.launch).eraseDups }) {} false
    else
      let (old, cor, s) := if mask = 0xFF then (mw, false, s) else homeVal s m.w m.key m.sector m.mem m.corrected
      ack (put s (mergeWord old mw mask) fun h => { h with rank := some k, by_ := (h.by_ ++ m.launch).eraseDups, owner := none }) {} cor
  | .unranked mw =>
    if h.owner ≠ (match m.src with | .core c => some (.core c) | _ => none) then ack s {} false
    else ack (put s mw fun h => { h with rank := none, by_ := [], owner := none, d := tierOf m.w != 2 }) {} false
  | .copied mask mw =>
    let (old, _, s) := if mask = 0xFF then (mw, false, s) else homeVal s m.w m.key m.sector m.mem m.corrected
    let new := mergeWord old mw mask
    ack (hostSettle (put s new fun h => { h with rank := none, by_ := [], owner := none }) m.w) { pois := new.pois } false
  | .register =>
    match m.src with
    | .core c =>
      let s := match h.owner with
        | some (.core o) => if o = c then s else l1Drop s o m.w
        | _ => s
      let s := setHome s m.w { homeAt s m.w with owner := some (.core c), rank := none, by_ := [] }
      { s with acks := s.acks ++ [⟨m.id, c, m.w⟩] }
    | _ => setHome s m.w { h with owner := some .fabric, rank := none, by_ := [] }
  | .rankClear => ack (hostSettle (setHome s m.w { h with rank := none, by_ := [] }) m.w) {} false
  | .atomic op b b2 off =>
    let (old, cor, s) := homeVal s m.w m.key m.sector m.mem m.corrected
    let new := { old with data := atomicWord op old.data b b2 off }
    respond (hostSettle (put s new fun h => { h with rank := none, by_ := [], owner := none }) m.w) m old cor

/-! ### Messages as events -/

/-- Two messages come from one sender: a core, its copy engine, or a device (R140, R246). A core's copy engine sends for itself: its
messages and the core's stand in no order. DESIGN CHOICE (log 134). -/
def sameSender (a b : MsgSrc) : Bool :=
  match a, b with
  | .core c, .core d => c == d
  | .engine c, .engine d => c == d
  | .fabric c _ _ _ _, .fabric d _ _ _ _ => c == d
  | _, _ => false

def modMsg (s : State) (n : Nat) (f : HomeMsg → HomeMsg) : State :=
  { s with net := s.net.map fun m => if m.id = n then f m else m }

/-- A message reaches its home slice: behind those that have, and its age counts from then (R114, R140). -/
def arrive (s : State) (m : HomeMsg) : State :=
  if m.arrived then s
  else { s with net := (s.net.filter fun n => n.id != m.id) ++ [{ m with arrived := true, since := s.now }] }

/-- No earlier message stands before this one: those of its sender to its slice that have not arrived (R140), and those
for its word that have (R141). -/
def msgFirst (s : State) (m : HomeMsg) : Bool :=
  if m.arrived then ((s.net.filter fun n => n.arrived && n.w == m.w).head?.map (·.id)) == some m.id
  else s.net.all fun n => n.id == m.id ||
    ((decide (m.id < n.id) || !sameSender n.src m.src || homeSlice s n.w != homeSlice s m.w || n.arrived)
      && !(n.w == m.w && n.arrived))

/-- A message takes effect, and with it those of its instruction for the word, in lane order with nothing between
(R130, R320). -/
def homeAll (s : State) (m : HomeMsg) : State :=
  let ms := m :: (if m.batch = 0 then [] else
    s.net.filter fun n => n.batch == m.batch && n.w == m.w && n.src == m.src && n.id != m.id)
  let ids := ms.map (·.id)
  ms.foldl homeAct { s with net := s.net.filter fun n => !ids.contains n.id }

/-- What a core sends about a word it holds or registers: a write-back, a registration or a rank clear, no store or atomic of an
instruction. -/
def HomeMsg.ofWord (m : HomeMsg) : Bool :=
  m.batch == 0 && match m.kind with | .ranked .. | .unranked _ | .register | .rankClear => true | _ => false

/-- A core's message reaches its home slice for a recall of word w. What the core sent about the word takes effect, unless a
message of the core for the word waits there already. -/
def drainMsg (c w : Nat) (s : State) (m : HomeMsg) : State :=
  if m.w == w && m.ofWord && !(s.net.any fun n => n.arrived && n.w == w && n.src == .core c)
  then homeAct { s with net := s.net.filter fun n => n.id != m.id } m
  else arrive s m

/-- What a core has sent to a word's home slice arrives, in order, before its answer to a recall does (R140). Its
write-backs of the word take effect for the recall, in their order among what it sent about the word, since the answer may be empty
for their sake (R142). -/
def drainNet (s : State) (c w : Nat) : State :=
  (s.net.filter fun m => m.src == .core c && !m.arrived && homeSlice s m.w == homeSlice s w).foldl (drainMsg c w) s

/-- A core answers a recall of a word, once what it sent before has arrived (R142). -/
def answerRecall (s : State) (c w : Nat) : State :=
  let s := drainNet s c w
  if (homeAt s w).owner ≠ some (.core c) then s
  else match recallAnswer s c w with
    | (some m, s) => homeAct s m
    | (none, s) => setHome s w { homeAt s w with owner := none }

/-- A core's answer to a recall corrects the word in its L1 (R98, R304). -/
def recallFixes (s : State) (c w : Nat) : Bool :=
  (homeAt s w).owner == some (.core c) && match l1At (coreAt s c) w with
    | some x => (x.o || x.d) && (l1Read x).2
    | none => false

/-- A recall is made and answered at once, for a unit that reads at home (R141, R142). -/
def recallNow (s : State) (w : Nat) : State :=
  match (homeAt s w).owner with
  | some (.core c) => answerRecall s c w
  | _ => s

/-- Messages that have arrived for a word take effect before a unit that comes after them (R141). -/
def serveFirst (s : State) (w : Nat) : State :=
  (s.net.filter fun m => m.arrived && m.w == w).foldl (fun s m =>
    if s.net.any fun n => n.id == m.id then
      homeAll (if (if needsRecall m.kind then ownerBars (homeAt s w) m.src (isAtomic m.kind) else none).isSome then recallNow s w else s) m
    else s) s

/-- A read at the home slice by a unit outside the cores (R141, R152): the word, and whether it was corrected. A host word
is asked of the host. -/
def homeRead (s : State) (w key : Nat) (sector : Bool) : MWord × Bool × State :=
  let s := recallNow (serveFirst s w) w
  let s := if tierOf w = 2 && !(homeAt s w).v then
      { s with nid := s.nid + 1, hout := s.hout ++ [⟨s.nid, BitVec.ofNat 64 (8 * waddrOf w), 0, 0⟩] } else s
  homeVal s w key sector none false

/-- An unranked write at home, never discarded (R152). Its line is an ordinary one, and a host word goes on to the host (R93).
DESIGN CHOICE (log 135). DEDUCED (log 133). -/
def homeWrite (s : State) (w key fn : Nat) (sector : Bool) (mask : BitVec 8) (mw : MWord) : State :=
  let s := recallNow (serveFirst s w) w
  let (old, _, s) := if mask = 0xFF then (mw, false, s) else homeVal s w key sector none false
  hostSettle (homePut s w fn .normal key sector (mergeWord old mw mask) fun h => { h with rank := none, by_ := [], owner := none }) w

/-- A read of a message's own. It fills no cache where the message comes from a load under the bypass hint, from a copy or from
another device (R120). -/
def askOwn (s : State) (m : HomeMsg) (sector : Bool) : State :=
  let load : Bool := match m.src with | .core _ => m.alloc == .bypass | _ => true
  pushReq (modMsg s m.id fun m => { m with ask := s.nid })
    { id := 0, w := m.w, key := m.key, sector := sector, src := if load then srcLoad else srcFill, since := m.since }

/-- A home slice asks its channel for a word: with a read of the sector that waits already, where no write of the sector
stands behind it, or with a read of its own (R114, R121). -/
def askChan (s : State) (m : HomeMsg) : State :=
  let sector := m.key != 0 || wholeSector s m.sector
  match ((chanAt s (chanOf m.w)).pend.filter fun r => sectorOf r.w == sectorOf m.w).getLast? with
  | some r =>
    if sector && r.sector && r.wr.isEmpty then modMsg s m.id fun m => { m with ask := r.id } else askOwn s m sector
  | none => askOwn s m sector

/-- A home slice handles message n, if it is of the kind named and nothing stands before it (R141). It may have to
recall the owner or to fetch the word first; the message then waits at home. -/
def homeStep (s : State) (n : Nat) (kind : MsgKind → Bool) : State :=
  match s.net.find? fun m => m.id == n with
  | none => s
  | some m =>
    if !kind m.kind || !msgFirst s m then s
    else
      let h := homeAt s m.w
      match (if needsRecall m.kind then ownerBars h m.src (isAtomic m.kind) else none) with
      | some o =>
        if s.recalls.any fun r => r.msg == m.id then s
        else
          let s := arrive s m
          { s with nid := s.nid + 1, recalls := s.recalls ++ [⟨s.nid, o, m.w, m.id⟩] }
      | none =>
        if needsValue m.kind && (!h.v || l2Lost h) && m.mem.isNone then
          if m.ask != 0 then s
          else
            let s := if h.v then setHome s m.w { h with v := false, syn := 0 } else s
            let s := arrive s m
            let m := { m with arrived := true, since := if m.arrived then m.since else s.now }
            if tierOf m.w = 2 then
              -- a host word comes over PCIe
              { modMsg s n (fun m => { m with ask := n }) with hout := s.hout ++ [⟨n, BitVec.ofNat 64 (8 * waddrOf m.w), 0, 0⟩] }
            else askChan s m
        else homeAll s m

/-- The owner answers recall n (R142). -/
def recallStep (s : State) (n : Nat) : State :=
  match s.recalls.find? fun r => r.id == n with
  | none => s
  | some r =>
    let s := drainNet { s with recalls := s.recalls.filter fun x => x.id != n } r.owner r.w
    let s := if recallFixes s r.owner r.w then modMsg s r.msg fun m => { m with corrected := true } else s
    answerRecall s r.owner r.w

/-! ### Bursts (R113 to R115) -/

/-- The place of a word in its slice's bank. -/
def bankPlace (w : Nat) : Nat := sliceOf (waddrOf w) * 16 + bankOf (waddrOf w)

/-- Every word of a request lies in an open row. -/
def reqHits (c : Chan) (r : ChanReq) : Bool :=
  r.words.all fun w => tget? c.rows (bankPlace w) == some (rowOf (waddrOf w))

/-- The burst that a free slot sends (R114). Reads of one word share a slot (R115), no request passes an earlier one for one
of its words, and a whole sector takes every slice. A request for a sector counts as one of the 512. DESIGN CHOICE (log 136). -/
def formBurst (now : Nat) (stacked : Bool) (c : Chan) : List ChanReq :=
  let q := c.pend.take 512
  let old := q.filter fun r => decide (1024 < now - r.since)
  let r0? := match old with
    | [] => q.head?
    | r :: rs => some (rs.foldl (fun (a b : ChanReq) => if b.since < a.since then b else a) r)
  match r0? with
  | none => []
  | some r0 =>
    -- an earlier request for one of its words goes first
    let first := fun (r : ChanReq) => (q.find? fun x => x.words.any r.words.contains).getD r
    let r0 := first (first r0)
    let hit := reqHits c r0
    let slices := fun (r : ChanReq) => r.words.map fun w => sliceOf (waddrOf w)
    let rest := (q.foldl (fun (a : List ChanReq × List Nat) (r : ChanReq) =>
      -- a: burst, words passed over
      if r.id == r0.id then a
      else
        let words := a.1.flatMap ChanReq.words
        let same := r.wr.isEmpty && r.words.all words.contains
        let free := (slices r).all fun i => !(a.1.flatMap slices).contains i
        let ok := r.wr.isEmpty == r0.wr.isEmpty && !(r.words.any a.2.contains) &&
          (if stacked then (same || free) && (!hit || reqHits c r) else sectorOf r.w == sectorOf r0.w)
        if ok then (a.1 ++ [r], a.2) else (a.1, r.words ++ a.2)) ([r0], []))
    rest.1

/-- One burst is sent. -/
def burstStep (s : State) (k : Nat) : State :=
  let c := chanAt s k
  let b := formBurst s.now (k < 128) c
  if b.isEmpty then s
  else
    let pend := c.pend.filter fun r => !b.any fun x => x.id == r.id
    let rows := if k < 128 then (b.flatMap ChanReq.words).foldl (fun t w => tset t (bankPlace w) (rowOf (waddrOf w))) c.rows
      else c.rows
    b.foldl performReq (modChan s k fun c => { c with pend := pend, rows := rows })

end Sys2Proof.Machine
end

