-- ==== Sys2Proof/Machine/Operands.lean ====
section
/-! DEFINITION. Operands.lean: every operand form (R277, R278), resolving m operands (R61), the checks of an issuing
instruction in the order of R280, empty policies and parks (R41, R43, R52), writing results, retiring. -/
namespace Sys2Proof.Machine

/-! ### Reading -/

/-- The code an m operand resolves to in a lane (R61). -/
def ptabAt (g : Group) (l n : Nat) : BitVec 8 := tget g.ptabs ((threadAt g l).path.toNat * 16 + n) 0xC0

/-- The operand a lane uses: an m operand through its path table. `none` for a code that does not resolve (R61). -/
def resolve (g : Group) (l : Nat) (o : Opd) : Option Opd :=
  match o with
  | .m n => match decOpd (ptabAt g l n.val) with
    | some (.m _) => none
    | r => r
  | o => some o

/-- As `resolve`, where the checks have passed. -/
def resolved (g : Group) (l : Nat) (o : Opd) : Opd := (resolve g l o).getD .zero

/-- Field k of a wid (R29). -/
def widField (h : LHeader) (wid : DWord) (k : Nat) : Word :=
  BitVec.ofNat 32 (wid.toNat / 2 ^ h.bAt k % 2 ^ h.width k)

/-- What a read of the twin's window register n returns (R183). -/
def twinWindow (s : State) (c n : Nat) : List Word :=
  let p := podAt s (podOf c)
  if !isUpper c && p.upst == 2 then []
  else if !isUpper c && p.upst == 3 then
    match p.image with
    | some (w, _) => tget w n []
    | none => []
  else tget (coreAt s (twinOf c)).crossed n []

/-- Register i of an operand in a lane: value and poison. Special operands carry no poison (R227). -/
def laneVal (s : State) (k : Cur) (g : Group) (l : Nat) (o : Opd) (i : Nat) : Word × Bool :=
  let t := threadAt g l
  match resolved g l o with
  | .v n => match vreg? g (n.val + i) with
    | some r => (r.val.getD l 0, r.pois.getLsbD l)
    | none => (0, false)
  | .s n => let r := sregAt g (n.val + i); (r.val, r.pois)
  | .zero => (0, false)
  | .lid => (BitVec.ofNat 32 l, false)
  | .gslot => (BitVec.ofNat 32 k.slot, false)
  | .cid => (BitVec.ofNat 32 k.core, false)
  | .widLo => (t.wid.extractLsb' 0 32, false)
  | .widHi => (t.wid.extractLsb' 32 32, false)
  | .wf j => (widField (hdrOf s g) t.wid j.val, false)
  | .path => (t.path.zeroExtend 32, false)
  | .w n => ((twinWindow s k.core n.val).getD l 0, false)
  | .m _ => (0, false)

/-- A pair in a lane. In A of AADD and AADDI `widLo` is the whole wid (R278). -/
def laneVal64 (s : State) (k : Cur) (g : Group) (l : Nat) (o : Opd) : DWord × Bool :=
  if o = .widLo then ((threadAt g l).wid, false)
  else
    let a := laneVal s k g l o 0
    let b := if o = .zero then (0, false) else laneVal s k g l o 1
    (b.1 ++ a.1, a.2 || b.2)

/-! ### What an instruction reads and writes -/

/-- A source: its position (0 A, 1 B, 2 C, 3 the D field read as a source), its registers, the codes its position
admits. -/
structure SrcUse where
  pos : Nat
  src : Src
  n : Nat := 1
  role : Opd → Bool := fun _ => true
  /-- Every active lane is examined even under U: cross-lane reads (R10). -/
  wide : Bool := false
  /-- Under U the register of the lowest executing lane is read instead of the lowest active one's (R365). -/
  xlow : Bool := false
  /-- Active lanes that do not go on with the instruction, whatever their registers hold (R52, R339). -/
  late : Mask := 0

/-- A destination of n registers. -/
structure DstUse where
  o : Opd
  n : Nat := 1
  /-- A shadow group takes the value from the load-value queue (R230). -/
  queued : Bool := false
  /-- The lowest lanes are written, as many as execute (R333). -/
  low : Bool := false

def useA (a : Src) (n : Nat := 1) : SrcUse := { pos := 0, src := a, n := n }
def useB (a : Src) (n : Nat := 1) : SrcUse := { pos := 1, src := a, n := n }
def useC (a : Src) (n : Nat := 1) : SrcUse := { pos := 2, src := a, n := n }

/-- The guard in a lane (R275). -/
def guardHolds (g : Group) (c : Ctl) (l : Nat) : Bool := predBit g c.gp.val l != c.gn

/-- Executing lanes X of an active lane set (R53, R275). -/
def execLanes (g : Group) (c : Ctl) (act : Mask) : Mask := maskOf fun l => act.getLsbD l && guardHolds g c l

/-- The lowest lanes, as many as a mask has (R62). -/
def lowLanes (x : Mask) : Mask := maskOf fun l => decide (l < (lanesOf x).length)

/-- The lanes whose copy of a source is read: the lowest active lane under U (R274). -/
def readLanes (g : Group) (c : Ctl) (act : Mask) (u : SrcUse) : List Nat :=
  if c.u && !u.wide then
    let m := if u.xlow then execLanes g c act else act
    if m = 0 then [] else [lowLane m]
  else lanesOf act

/-- Register names of a source in a lane. -/
def srcNames (g : Group) (l : Nat) (u : SrcUse) : List RegRef :=
  match resolve g l u.src.o with
  | some (.v n) => (List.range u.n).map fun i => .v (n.val + i)
  | some (.s n) => (List.range u.n).map fun i => .s (n.val + i)
  | _ => []

def refFull (g : Group) (l : Nat) : RegRef → Bool
  | .v n => match vreg? g n with
    | some r => r.full.getLsbD l
    | none => true
  | .s n => (sregAt g n).full

/-- The lane's copy of the source is full. -/
def srcFull (g : Group) (l : Nat) (u : SrcUse) : Bool := (srcNames g l u).all (refFull g l)

def srcPois (s : State) (k : Cur) (g : Group) (l : Nat) (u : SrcUse) : Bool :=
  if u.src.o = .widLo then false
  else (List.range u.n).any fun i => (laneVal s k g l u.src.o i).2

/-! ### Checks (R280) -/

/-- Under U an m operand is what the path table of the lowest active lane says, whichever lanes are read (R61). -/
def pathed (g : Group) (k : Cur) (c : Ctl) (a : Src) : Src :=
  if c.u then { a with o := (resolve g (lowLane k.lanes) a.o).getD a.o } else a

/-- A source whose register may be read in another lane than the lowest active one is resolved before it is read (R61). -/
def SrcUse.pathed (g : Group) (k : Cur) (c : Ctl) (u : SrcUse) : SrcUse :=
  if u.wide || u.xlow then { u with src := Machine.pathed g k c u.src } else u

/-- Step 4, for m operands: every active lane's code resolves and is one the position admits; under U the lowest active lane's
(R61). DEDUCED (log 33). -/
def badOperand (g : Group) (k : Cur) (c : Ctl) (srcs : List SrcUse) (dsts : List DstUse) : Mask :=
  srcs.foldl (fun m u => match u.src.o with
    | .m _ => (if c.u then [lowLane k.lanes] else lanesOf k.lanes).foldl (fun m l => match resolve g l u.src.o with
        | some o => if u.role o then m else m ||| laneBit l
        | none => m ||| laneBit l) m
    | _ => m)
  (dsts.foldl (fun m d => match d.o with
    | .m _ => (lanesOf k.lanes).foldl (fun m l => match resolve g l d.o with
        | some (.v _) | some .zero => m
        | _ => m ||| laneBit l) m
    | _ => m) 0)

/-- Step 5: lanes that name a window register (R34, R61). -/
def windowLanes (g : Group) (k : Cur) (c : Ctl) (srcs : List SrcUse) (dsts : List DstUse) : Mask :=
  let d := if dsts.any (fun d => match d.o with | .w _ => true | _ => false) then k.lanes else 0
  srcs.foldl (fun m u => match u.src.o with
    | .w _ => m ||| k.lanes
    | .m _ => (readLanes g c k.lanes u).foldl (fun m l => match resolve g l u.src.o with
        | some (.w _) => m ||| laneBit l
        | _ => m) m
    | _ => m) d

/-- Step 6: the first source with an unmapped name, its code, and its lanes (R44). -/
def unmapped (g : Group) (k : Cur) (c : Ctl) (srcs : List SrcUse) : Option (Nat × Mask) :=
  srcs.foldl (fun r u => match r with
    | some x => some x
    | none =>
      let miss := fun l => (srcNames g l u).find? fun n => match n with
        | .v n => (vreg? g n).isNone
        | .s _ => false
      let ls := (readLanes g c k.lanes u).filter fun l => (miss l).isSome
      match ls with
      | [] => none
      | l :: _ => match miss l with
        | some (.v n) =>
          some (n, match u.src.o with | .m _ => maskOf fun j => ls.contains j | _ => k.lanes)
        | _ => none) none

/-- Lanes of a source that are empty. -/
def emptyLanes (g : Group) (c : Ctl) (act : Mask) (u : SrcUse) : List Nat :=
  (readLanes g c act u).filter fun l => !srcFull g l u

/-- The active lanes for which a source is found empty: an s register is empty for all of them (R366). -/
def emptyMask (g : Group) (c : Ctl) (act : Mask) (u : SrcUse) : Mask :=
  let ls := emptyLanes g c act u
  if ls.any fun l => (srcNames g l u).any fun n => match n with | .s _ => !refFull g l n | .v _ => false then act
  else maskOf fun l => ls.contains l

/-- Step 6: EMPTY_SOURCE of the sources with the trap policy (R43, R210). -/
def emptyTrap (g : Group) (k : Cur) (c : Ctl) (srcs : List SrcUse) : Option TrapReq :=
  let bad := srcs.filter fun u => u.src.pol == .trap && !(emptyLanes g c k.lanes u).isEmpty
  if bad.isEmpty then none
  else some ⟨tcEmptySource, bad.foldl (fun m u => m ||| emptyMask g c k.lanes u) 0,
    bad.foldl (fun w u => w ||| (1 : DWord) <<< (2 - u.pos)) 0⟩

/-- Registers of the block-policy sources that have an empty lane (R41, R43). -/
def blockWaits (g : Group) (k : Cur) (c : Ctl) (srcs : List SrcUse) : List (RegRef × Mask) :=
  srcs.flatMap fun u =>
    if u.src.pol == .block then
      (emptyLanes g c k.lanes u).flatMap fun l =>
        ((srcNames g l u).filter fun n => !refFull g l n).map fun n => (n, laneBit l)
    else []

/-- Registers that the lanes of a split-policy source wait on. DEDUCED (log 103). -/
def splitUses (srcs : List SrcUse) : List SrcUse := srcs.filter fun u => u.src.pol == .split

/-- Lanes whose split-policy operands are all full (R52). -/
def splitFull (g : Group) (k : Cur) (c : Ctl) (srcs : List SrcUse) : Mask :=
  let us := splitUses srcs
  maskOf fun l => k.lanes.getLsbD l &&
    us.all fun u => !u.late.getLsbD l && (if c.u && !u.wide then readLanes g c k.lanes u else [l]).all fun j => srcFull g j u

/-- Lanes with a poisoned guard (R228 reason 2). -/
def guardPois (g : Group) (c : Ctl) (act : Mask) : Mask :=
  maskOf fun l => act.getLsbD l && predPois g c.gp.val l

/-- Names that a destination maps anew (R44). -/
def newNames (g : Group) (c : Ctl) (x : Mask) (dsts : List DstUse) : List Nat :=
  if x = 0 then []
  else
    (dsts.flatMap fun d => match d.o with
      | .v n => (List.range d.n).map fun i => n.val + i
      | .m _ => (if c.u then [] else lanesOf x).filterMap fun l => match resolve g l d.o with
        | some (.v n) => some n.val
        | _ => none
      | _ => []).eraseDups.filter fun n => (vreg? g n).isNone

/-- Destination lanes still empty from an earlier producer (R43). -/
def dstEmpty (g : Group) (x : Mask) (dsts : List DstUse) : List (RegRef × Mask) :=
  dsts.flatMap fun d => match d.o with
    | .v n => (List.range d.n).filterMap fun i => match vreg? g (n.val + i) with
      | some r => if x &&& ~~~r.full = 0 then none else some (.v (n.val + i), x &&& ~~~r.full)
      | none => none
    | .s n => (List.range d.n).filterMap fun i =>
      if x = 0 || (sregAt g (n.val + i)).full then none else some (.s (n.val + i), x)
    | .m _ => (lanesOf x).filterMap fun l => match resolve g l d.o with
      | some (.v n) => match vreg? g n.val with
        | some r => if r.full.getLsbD l then none else some (.v n.val, laneBit l)
        | none => none
      | _ => none
    | _ => []

/-- What the checks before an instruction's own traps answer. -/
inductive Gate where
  | trap (t : TrapReq)
  | park (m : Mask) (p : Park)
  /-- The active lanes that go on, and those that form a parked split set. -/
  | pass (act rest : Mask) (p : Park)
deriving DecidableEq, Repr

/-- Steps 4 to 7 of R280 for a state's group. `consume` lists the sources whose poison is consumed, with the reason. -/
def gate (s : State) (k : Cur) (g : Group) (c : Ctl) (twin : Bool) (srcs : List SrcUse) (dsts : List DstUse)
    (consume : List (Nat × SrcUse)) : Gate :=
  let bad := badOperand g k c srcs dsts
  if bad ≠ 0 then .trap ⟨tcIllegalOperand, bad, k.word⟩
  else
    let srcs := srcs.map (SrcUse.pathed g k c)
    let win := if twin then k.lanes else windowLanes g k c srcs dsts
    if win ≠ 0 ∧ (hdrOf s g).twin = false then .trap ⟨tcTwinLink, win, 0⟩
    else match unmapped g k c srcs with
    | some (n, m) => .trap ⟨tcUnmappedRead, m, BitVec.ofNat 64 n⟩
    | none => match emptyTrap g k c srcs with
      | some t => .trap t
      | none =>
        let bw := blockWaits g k c srcs
        if !bw.isEmpty then .park k.lanes (.src bw)
        else
          let full := splitFull g k c srcs
          if full = 0 && !(splitUses srcs).isEmpty then
            .park k.lanes (.src ((splitUses srcs).flatMap fun u =>
              (emptyLanes g c k.lanes u).flatMap fun l =>
                ((srcNames g l u).filter fun n => !refFull g l n).map fun n => (n, laneBit l)))
          else
            let act := if (splitUses srcs).isEmpty then k.lanes else full
            let rest := k.lanes &&& ~~~act
            let gp := guardPois g c act
            if gp ≠ 0 then .trap ⟨tcPoison, gp, addrInfo 2 0⟩
            else
              let x := execLanes g c act
              let hit := fun (u : SrcUse) => maskOf fun l => x.getLsbD l &&
                srcPois s k g (if c.u && !u.wide then lowLane act else l) u
              let consume := consume.map fun e => (e.1, e.2.pathed g k c)
              match consume.find? fun e => hit e.2 != 0 with
              | some (r, _) =>
                .trap ⟨tcPoison, (consume.filter fun e => e.1 == r).foldl (fun m e => m ||| hit e.2) 0, addrInfo r 0⟩
              | none =>
                .pass act rest (.split ((lanesOf rest).flatMap fun l => (splitUses srcs).flatMap fun u =>
                  (srcNames g l u).map fun n => (n, laneBit l)))

/-- REG_BUDGET, the end of step 8 (R44, R280). -/
def budgetTrap (k : Cur) (g : Group) (c : Ctl) (x : Mask) (dsts : List DstUse) : Option TrapReq :=
  match (newNames g c x dsts).drop (g.rb + g.rx - mappedCount g) with
  | n :: _ => some ⟨tcRegBudget, k.lanes, BitVec.ofNat 64 n⟩
  | [] => none

/-- Registers that names which an instruction maps take from the overflow pool, for the group and for its shadow (R44, R230). -/
def poolNeed (g : Group) (names : List Nat) : Nat :=
  drawers g * (mappedCount g + (names.filter fun n => (vreg? g n).isNone).length - g.rb) - poolHeld g

/-- The results of the instruction go through the load-value queue, which the leader's group has full (R230). -/
def queueFull (g : Group) (dsts : List DstUse) : Bool := g.shadow.isSome && dsts.any (·.queued) && decide (64 ≤ g.lvq.length)

/-- The instruction takes its place in the load-value queue of a group that has a shadow (R230). -/
def joinQueue (g : Group) (op : Nat) (dsts : List DstUse) : Group :=
  if g.shadow.isSome && dsts.any (·.queued) then { g with lvq := if g.lvq.contains op then g.lvq else g.lvq ++ [op] } else g

/-- The budget and the parks on registers: destinations still empty, the pool, the load-value queue (R43, R44, R230). A group that needs more registers of
the pool than are free parks until as many are. DESIGN CHOICE (log 115). -/
def regGate (s : State) (k : Cur) (g : Group) (c : Ctl) (act x : Mask) (dsts : List DstUse) : Gate :=
  match budgetTrap k g c x dsts with
  | some t => .trap t
  | none =>
    let e := dstEmpty g x dsts
    if !e.isEmpty then .park act (.src e)
    else
      let names := newNames g c x dsts
      if poolFree (coreAt s k.core) < poolNeed g names then .park act (.pool s.now names)
      else if queueFull g dsts then .park act .lvq
      else .pass act 0 .no

/-! ### Writing -/

/-- A register of the core's own outbound window is written in the lanes of a mask (R183), and the write sets out over
the register link (R184). -/
def writeWindow (s : State) (c q n : Nat) (x : Mask) (f : Nat → Word) : State :=
  let s := modCore s c fun y =>
    let old := tget y.win n []
    { y with win := tset y.win n (lanes64 fun l => if x.getLsbD l then f l else old.getD l 0) }
  pushLink s c q (.window n (lanes64 f) x)

/-- Writes register i of a destination in the lanes of x. Under U the value of the lowest active lane goes to every
lane, and an s register is written once (R274). -/
def writeDst (s : State) (k : Cur) (c : Ctl) (x : Mask) (o : Opd) (i : Nat) (f : Nat → Word × Bool) : State :=
  let at_ := fun l => f (if c.u then lowLane k.lanes else l)
  if x = 0 then s
  else match o with
    | .v n => modGroup s k.core k.slot fun g => modReg g (n.val + i) fun r =>
        writeLanes r x (fun l => (at_ l).1) (fun l => (at_ l).2)
    | .s n => modGroup s k.core k.slot fun g =>
        { g with sregs := tset g.sregs (n.val + i) ⟨(at_ (lowLane k.lanes)).1, true, (at_ (lowLane k.lanes)).2, none⟩ }
    | .w n => writeWindow s k.core (k.slot / 32) n.val x fun l => (at_ l).1
    | .m _ => modGroup s k.core k.slot fun g => (lanesOf x).foldl (fun g l => match resolve g l o with
        | some (.v n) => modReg g n.val fun r => writeLane r l (at_ l).1 (at_ l).2
        | _ => g) g
    | _ => s

/-- The lanes of x of a destination turn empty (R43). -/
def markEmpty (s : State) (k : Cur) (x : Mask) (d : DstUse) : State :=
  match d.o with
  | .v n => modGroup s k.core k.slot fun g =>
      (List.range d.n).foldl (fun g i => modReg g (n.val + i) fun r => { r with full := r.full &&& ~~~x }) g
  | .s n => if x = 0 then s else modGroup s k.core k.slot fun g =>
      (List.range d.n).foldl (fun g i =>
        { g with sregs := tset g.sregs (n.val + i) { sregAt g (n.val + i) with full := false } }) g
  | .m _ => modGroup s k.core k.slot fun g => (lanesOf x).foldl (fun g l => match resolve g l d.o with
      | some (.v n) => modReg g n.val fun r => { r with full := r.full &&& ~~~laneBit l }
      | _ => g) g
  | _ => s

/-- Where register i of a destination lands in a lane. -/
def destOf (g : Group) (l : Nat) (o : Opd) (i : Nat) : Dest :=
  match resolved g l o with
  | .v n => match vreg? g (n.val + i) with
    | some r => .v r.tag l
    | none => .none
  | .s n => .s (n.val + i)
  | _ => .none

/-- A value lands (R43): the lane turns full with its poison bit. -/
def landIn (s : State) (c slot gid : Nat) (d : Dest) (w : Word) (p : Bool) : State :=
  match groupAt s c slot with
  | none => s
  | some g =>
    if g.gid ≠ gid then s
    else match d with
      -- a lane whose thread has exited takes nothing (R342)
      | .v tag l => if (threadAt g l).exited then s else setGroup s c slot (modTag g tag fun r => writeLane r l w p)
      | .s n => setGroup s c slot { g with sregs := tset g.sregs n ⟨w, true, p, none⟩ }
      | .none => s

/-- ORs flags into FFLAGS (R83). -/
def orFlags (s : State) (c slot : Nat) (f : Flg) : State :=
  if f = 0 then s else modGroup s c slot fun g => { g with fflags := g.fflags ||| (f.zeroExtend 32 : Word) }

/-! ### Retiring -/

/-- Lanes in which a destination is one, of the lanes of an instruction (R61, R333). -/
def dstLanes (g : Group) (c : Ctl) (d : DstUse) (lanes : Mask) : Mask :=
  if d.low then lowLanes (execLanes g c lanes) else lanes

/-- Names that the destinations of the lanes keep mapped (R45). -/
def keptNames (g : Group) (c : Ctl) (dsts : List DstUse) (lanes : Mask) : List Nat :=
  dsts.flatMap fun d => match d.o with
    | .v n => (List.range d.n).map fun i => n.val + i
    | .m _ => (lanesOf (dstLanes g c d lanes)).filterMap fun l => match resolve g l d.o with
      | some (.v n) => some n.val
      | _ => none
    | _ => []

/-- Names that the last-read bits of the sources mark for the lanes (R45). -/
def lastNames (g : Group) (k : Cur) (c : Ctl) (srcs : List SrcUse) (lanes : Mask) : List Nat :=
  ((srcs.filter fun u => u.src.lr).map (SrcUse.pathed g k c)).flatMap fun u => match u.src.o with
    | .v n => (List.range u.n).map fun i => n.val + i
    | .m _ => (readLanes g c lanes u).filterMap fun l => match resolve g l u.src.o with
      | some (.v n) => some n.val
      | _ => none
    | _ => []

/-- What the earlier parts of the instruction at which a lane set stands have left to it (R58). -/
def partsOf (g : Group) (m : Mask) : Option Parts := (lanesOf m).findSome? fun l => (threadAt g l).parts

/-- Names of two parts of an instruction together. -/
def joinNames (a b : List Nat) : List Nat := (a ++ b).eraseDups

/-- What the parts of the instruction leave once the lanes `act` have issued it (R45, R58). -/
def partsNow (g : Group) (k : Cur) (c : Ctl) (srcs : List SrcUse) (dsts : List DstUse) (act : Mask) : Parts :=
  let p := (partsOf g k.lanes).getD ⟨k.op, [], []⟩
  ⟨k.op, joinNames p.reads (lastNames g k c srcs act), joinNames p.keeps (keptNames g c dsts act)⟩

/-- Names that the parts free, those that they wrote kept (R45). -/
def Parts.frees (p : Parts) : List Nat := p.reads.filter fun n => !p.keeps.contains n

/-- The lane is parked in a split set at the instruction, of which lanes `act` have issued and `rest` stay (R58). -/
def awaitsAt (g : Group) (k : Cur) (act rest : Mask) (l : Nat) : Bool :=
  let t := threadAt g l
  t.live && t.pc == k.pc && t.parts.isSome && !act.getLsbD l && !rest.getLsbD l

/-- Another split set is parked at the instruction, and takes its names over where `rest` is empty (R58). -/
def laterSet (g : Group) (k : Cur) (act rest : Mask) : Bool :=
  rest == 0 && (List.range 64).any (awaitsAt g k act rest)

/-- A lane's thread once the lanes `act` have issued the instruction, of which those of `rest` stay parked on `p` (R45, R52, R58). -/
def retireThread (k : Cur) (n : Parts) (g : Group) (act rest : Mask) (p : Park) (target : Nat → DWord) (leave : Bool) (l : Nat)
    (t : Thread) : Thread :=
  if act.getLsbD l then { countIssue t with pc := target l, mid := !leave, run := if leave then none else t.run }
  else if rest.getLsbD l then { t with park := p, parts := some n, mid := true }
  else if laterSet g k act rest && awaitsAt g k act rest l then
    { t with parts := t.parts.map fun q => ⟨q.op, joinNames q.reads n.reads, joinNames q.keeps n.keeps⟩ }
  else t

/-- Retires the instruction for its lanes: last-read bits, counts, the scoreboard slot, and where each lane goes. The
lanes of `rest` stay, parked (R45, R52, R58). Held lanes, and the end of the clause, let the quarter go. -/
def retireWith (s : State) (k : Cur) (c : Ctl) (n : Parts) (act rest : Mask) (p : Park)
    (target : Nat → DWord) (leave : Bool) : State :=
  let s := modGroup s k.core k.slot fun g =>
    let h := mapThreads g (retireThread k n g act rest p target leave)
    releaseMeets (pointSlot (if rest = 0 && !laterSet g k act rest then freeRegs h n.frees else h) c.sb k.op)
  let s := modCore s k.core clearSlots
  if leave then freeQuarter s k.core k.slot
  else modCore s k.core fun x => { x with quarters := match tget? x.quarters (k.slot / 32) with
    | some q => if q.1 = k.slot then tset x.quarters (k.slot / 32) (k.slot, act) else x.quarters
    | none => x.quarters }

/-- Retires to an address per lane. -/
def retireTo (s : State) (k : Cur) (c : Ctl) (srcs : List SrcUse) (dsts : List DstUse) (act rest : Mask) (p : Park)
    (target : Nat → DWord) (leave : Bool) : State :=
  match groupAt s k.core k.slot with
  | none => s
  | some g => retireWith s k c (partsNow g k c srcs dsts act) act rest p target leave

/-- Retires to the next instruction word or, from the last one, to the next clause header (R7). -/
def retire (s : State) (k : Cur) (c : Ctl) (srcs : List SrcUse) (dsts : List DstUse) (act rest : Mask) (p : Park) :
    State := retireTo s k c srcs dsts act rest p (fun _ => k.next) k.last

/-! ### One issue -/

/-- What an instruction's own rules add after the common checks: a trap of step 8, a park, a stall, or its effect. -/
inductive Own where
  | trap (t : TrapReq)
  | park (p : Park)
  /-- The same, in a state that the check has changed: walks asked for. -/
  | trapIn (t : TrapReq) (s : State)
  | parkIn (p : Park) (s : State)
  /-- The instruction stalls and keeps its quarter: it waits for what is no event of R41, such as a translation. -/
  | wait (s : State)
  /-- The same, once every check has passed. -/
  | hold (s : State)
  /-- The effect has been applied, retirement included. -/
  | done (s : State)
  /-- The effect has been applied; the common retirement follows. -/
  | ok (s : State)
  /-- The same, where the active lanes leave the clause for an address of their own (R328). -/
  | jump (s : State) (target : Nat → DWord)

/-- An instruction's own park comes after every check has passed, REG_BUDGET among them (R280). -/
def parkOwn (k : Cur) (s : State) (g : Group) (c : Ctl) (x : Mask) (dsts : List DstUse) (p : Park) : State :=
  match budgetTrap k g c x dsts with
  | some t => trapFirst k s t
  | none => parkSet k s k.lanes p

/-- The common course of an instruction: the checks of R280, the instruction's own checks, then the registers it takes,
then its effect, then retirement. `own` sees the executing lanes before registers are taken; `eff` applies the effect
after, to a state in which they are taken, and still sees the group as it was. `wl` gives the lanes that are written, where they are not X. -/
def issueG (s : State) (c : Ctl) (twin : Bool) (srcs : List SrcUse) (dsts : List DstUse) (consume : List (Nat × SrcUse))
    (own : Cur → State → Group → Mask → Mask → Own) (eff : Cur → State → Group → Mask → Mask → Own)
    (wl : Mask → Mask := fun x => x) : Host.Outcome State Fault Refusal :=
  match s.cur with
  | none => .fault .noIssuer
  | some k =>
    match groupAt s k.core k.slot with
    | none => .fault .noIssuer
    | some g =>
      .next (match gate s k g c twin srcs dsts consume with
        | .trap t => trapFirst k s t
        | .park m p => parkSet k s m p
        | .pass act rest p =>
          let x := execLanes g c act
          match own k s g act x with
          | .trap t => trapFirst k s t
          | .park q => parkOwn k s g c (wl x) dsts q
          | .trapIn t s => trapFirst k s t
          | .parkIn q s => parkOwn k s g c (wl x) dsts q
          | .wait s => s
          | .hold t => match budgetTrap k g c (wl x) dsts with
            | some r => trapFirst k s r
            | none => t
          | .done s => s
          | .jump s _ | .ok s =>
            match regGate s k g c act (wl x) dsts with
            | .trap t => trapFirst k s t
            | .park _ q => parkSet k s k.lanes q
            | .pass .. =>
              let (s, h) := allocRegs s ((groupAt s k.core k.slot).getD g) (newNames g c (wl x) dsts)
              let s := setGroup s k.core k.slot (joinQueue h k.op dsts)
              match eff k s g act x with
              | .trap t => trapFirst k s t
              | .park q => parkSet k s k.lanes q
              | .trapIn t s => trapFirst k s t
              | .parkIn q s => parkSet k s k.lanes q
              | .wait s | .hold s => s
              | .done s => s
              | .ok s => retire s k c srcs dsts act rest p
              | .jump s target => retireTo s k c srcs dsts act rest p target true)

/-- The issuing group as it stands now. -/
def groupNow (s : State) (k : Cur) (g : Group) : Group := (groupAt s k.core k.slot).getD g

/-- No check of its own. -/
def noOwn : Cur → State → Group → Mask → Mask → Own := fun _ s _ _ _ => .ok s

/-- A register of the window (R183). -/
def isWindow (d : Opd) : Bool := match d with | .w _ => true | _ => false

/-- An instruction that computes each lane's result from its own sources: value, poison and flags. Lanes with a
poisoned source raise no flags (R83). A write into the window consumes poison (R183). -/
def issueAlu (s : State) (c : Ctl) (d : Opd) (srcs : List SrcUse)
    (f : State → Cur → Group → Nat → Word × Flg) (more : Group → Nat → Bool := fun _ _ => false) :
    Host.Outcome State Fault Refusal :=
  issueG s c false srcs [{ o := d }] (if isWindow d then srcs.map fun u => (5, u) else []) noOwn
    fun k t g act x =>
      let rl := fun l => if c.u then lowLane act else l
      let pois := fun l => more g (rl l) || srcs.any fun u => srcPois s k g (rl l) u
      let fl := (lanesOf x).foldl (fun a l => if pois l then a else a ||| (f s k g (rl l)).2) 0
      .ok (orFlags (writeDst t { k with lanes := act } c x d 0 fun l => ((f s k g l).1, pois l)) k.core k.slot fl)

/-- As `issueAlu`, for a result in a register pair. -/
def issueAlu64 (s : State) (c : Ctl) (d : Opd) (srcs : List SrcUse)
    (f : State → Cur → Group → Nat → DWord) (pois : Bool := true) : Host.Outcome State Fault Refusal :=
  issueG s c false srcs [{ o := d, n := 2 }] [] noOwn
    fun k t g act x =>
      let rl := fun l => if c.u then lowLane act else l
      let p := fun l => pois && srcs.any fun u => srcPois s k g (rl l) u
      let k' := { k with lanes := act }
      let s' := writeDst t k' c x d 0 fun l => ((f s k g l).extractLsb' 0 32, p l)
      .ok (writeDst s' k' c x d 1 fun l => ((f s k g l).extractLsb' 32 32, p l))

/-- A compare: the predicate's lanes (R279). p0 discards. -/
def issuePred (s : State) (c : Ctl) (p : Nat) (srcs : List SrcUse)
    (f : State → Cur → Group → Nat → Bool × Flg) (more : Group → Nat → Bool := fun _ _ => false) :
    Host.Outcome State Fault Refusal :=
  issueG s c false srcs [] [] noOwn
    fun k t g act x =>
      let rl := fun l => if c.u then lowLane act else l
      let pois := fun l => more g (rl l) || srcs.any fun u => srcPois s k g (rl l) u
      let fl := (lanesOf x).foldl (fun a l => if pois l then a else a ||| (f s k g (rl l)).2) 0
      let t := modGroup t k.core k.slot fun h =>
        setPred h p x (maskOf fun l => x.getLsbD l && (f s k g (rl l)).1) (maskOf fun l => x.getLsbD l && pois l)
      .ok (orFlags t k.core k.slot fl)

end Sys2Proof.Machine
end

