-- ==== Sys2Proof/Machine/Alu.lean ====
section
/-! DEFINITION. Alu.lean: the integer and move instructions (R284), and the pack instructions. -/
namespace Sys2Proof.Machine

/-- A source of a lane. -/
def val (s : State) (k : Cur) (g : Group) (l : Nat) (a : Src) : Word := (laneVal s k g l a.o 0).1
def val64 (s : State) (k : Cur) (g : Group) (l : Nat) (a : Src) : DWord := (laneVal64 s k g l a.o).1

/-- Instructions of one, two and three 32-bit sources that raise no flag. -/
def alu1 (s : State) (c : Ctl) (d : Opd) (a : Src) (f : Word → Word) : Host.Outcome State Fault Refusal :=
  issueAlu s c d [useA a] fun s k g l => (f (val s k g l a), 0)
def alu2 (s : State) (c : Ctl) (d : Opd) (a b : Src) (f : Word → Word → Word) : Host.Outcome State Fault Refusal :=
  issueAlu s c d [useA a, useB b] fun s k g l => (f (val s k g l a) (val s k g l b), 0)
def alu3 (s : State) (c : Ctl) (d : Opd) (a b e : Src) (f : Word → Word → Word → Word) :
    Host.Outcome State Fault Refusal :=
  issueAlu s c d [useA a, useB b, useC e] fun s k g l => (f (val s k g l a) (val s k g l b) (val s k g l e), 0)

/-! ### What the instructions compute -/

/-- A sum or difference under MOD of R356. -/
def satAdd (md : Sat) (sub : Bool) (a b : Word) : Word :=
  match md with
  | .wrap => if sub then a - b else a + b
  | .sat =>
    let r := if sub then a.toInt - b.toInt else a.toInt + b.toInt
    BitVec.ofInt 32 (max (-2147483648) (min r 2147483647))
  | .usat =>
    let r : Int := if sub then (a.toNat : Int) - b.toNat else (a.toNat : Int) + b.toNat
    BitVec.ofInt 32 (max 0 (min r 4294967295))

/-- Bits [63:32] of a product (R358). -/
def mulHigh (uns : Bool) (a b : Word) : Word :=
  if uns then BitVec.ofNat 32 (a.toNat * b.toNat / 2 ^ 32)
  else ((a.signExtend 64 * b.signExtend 64 : DWord)).extractLsb' 32 32

/-- A bitwise truth table (R284, R367). -/
def tableOp (t : BitVec 4) (a b : Word) : Word :=
  (if t.getLsbD 3 then a &&& b else 0) ||| (if t.getLsbD 2 then a &&& ~~~b else 0)
    ||| (if t.getLsbD 1 then ~~~a &&& b else 0) ||| (if t.getLsbD 0 then ~~~a &&& ~~~b else 0)

/-- Position and width of the field that a control value names (R325). -/
def fieldOf (ctl : Word) : Nat × Nat :=
  let pos := (ctl.extractLsb' 0 5).toNat
  let len := (ctl.extractLsb' 8 5).toNat
  (pos, min (if len = 0 then 32 else len) (32 - pos))

def fieldExtract (sx : Bool) (a ctl : Word) : Word :=
  let f := fieldOf ctl
  let v := a.toNat / 2 ^ f.1 % 2 ^ f.2
  if sx && v.testBit (f.2 - 1) then BitVec.ofInt 32 ((v : Int) - 2 ^ f.2) else BitVec.ofNat 32 v

def fieldInsert (a b ctl : Word) : Word :=
  let f := fieldOf ctl
  let m : Word := BitVec.ofNat 32 (2 ^ f.2 - 1) <<< f.1
  (b &&& ~~~m) ||| ((a <<< f.1) &&& m)

/-- Number of ones of a word (R393). -/
def ones (a : Word) : Word := BitVec.ofNat 32 ((List.range 32).filter fun i => a.getLsbD i).length

/-- Leading zeros (R329). -/
def leadZeros (a : Word) : Word :=
  BitVec.ofNat 32 (((List.range 32).find? fun i => a.getLsbD (31 - i)).getD 32)

def reverseBits (a : Word) : Word :=
  (List.range 32).foldl (fun r i => if a.getLsbD (31 - i) then r ||| (1 : Word) <<< i else r) 0

/-- A condition of R279 on 32-bit integers. -/
def icmpHolds (cc : ICC) (a b : Word) : Bool :=
  match cc with
  | .eq => a == b
  | .ne => a != b
  | .lt => a.slt b
  | .le => a.sle b
  | .gt => b.slt a
  | .ge => b.sle a
  | .ltu => a.ult b
  | .leu => a.ule b
  | .gtu => b.ult a
  | .geu => b.ule a

/-! ### Meanings -/

/-- IADD (R356). -/
def execIadd (c : Ctl) (d : Opd) (a b : Src) (md : Sat) (s : State) := alu2 s c d a b (satAdd md false)
/-- IADDI (R356). -/
def execIaddi (c : Ctl) (d : Opd) (a : Src) (imm : BitVec 22) (s : State) :=
  alu1 s c d a fun x => x + imm.signExtend 32
/-- ISUB (R356). -/
def execIsub (c : Ctl) (d : Opd) (a b : Src) (md : Sat) (s : State) := alu2 s c d a b (satAdd md true)
/-- IMUL (R358). -/
def execImul (c : Ctl) (d : Opd) (a b : Src) (s : State) := alu2 s c d a b fun x y => x * y
/-- IMULH (R358). -/
def execImulh (c : Ctl) (d : Opd) (a b : Src) (uns : Bool) (s : State) := alu2 s c d a b (mulHigh uns)
/-- IMAD (R358). -/
def execImad (c : Ctl) (d : Opd) (a b e : Src) (s : State) := alu3 s c d a b e fun x y z => x * y + z
/-- IMIN (R355). -/
def execImin (c : Ctl) (d : Opd) (a b : Src) (uns : Bool) (s : State) :=
  alu2 s c d a b fun x y => if (if uns then y.ult x else y.slt x) then y else x
/-- IMAX (R355). -/
def execImax (c : Ctl) (d : Opd) (a b : Src) (uns : Bool) (s : State) :=
  alu2 s c d a b fun x y => if (if uns then x.ult y else x.slt y) then y else x
/-- IABS (R355). -/
def execIabs (c : Ctl) (d : Opd) (a : Src) (sat : Bool) (s : State) :=
  alu1 s c d a fun x => if sat && x == 0x80000000 then 0x7FFFFFFF else if x.msb then -x else x
/-- LOP (R367). -/
def execLop (c : Ctl) (d : Opd) (a b : Src) (t : BitVec 4) (s : State) := alu2 s c d a b (tableOp t)
/-- LOPI (R367). -/
def execLopi (c : Ctl) (d : Opd) (a : Src) (t : BitVec 4) (b : BitVec 18) (s : State) :=
  alu1 s c d a fun x => tableOp t x (b.signExtend 32)
/-- SHL (R408). -/
def execShl (c : Ctl) (d : Opd) (a b : Src) (s : State) :=
  alu2 s c d a b fun x n => if 32 ≤ n.toNat then 0 else x <<< n.toNat
/-- SHR (R408). -/
def execShr (c : Ctl) (d : Opd) (a b : Src) (s : State) :=
  alu2 s c d a b fun x n => if 32 ≤ n.toNat then 0 else x >>> n.toNat
/-- SAR (R408). -/
def execSar (c : Ctl) (d : Opd) (a b : Src) (s : State) :=
  alu2 s c d a b fun x n => x.sshiftRight (min n.toNat 32)
/-- POPC (R393). -/
def execPopc (c : Ctl) (d : Opd) (a : Src) (s : State) := alu1 s c d a ones
/-- CLZ (R329). -/
def execClz (c : Ctl) (d : Opd) (a : Src) (s : State) := alu1 s c d a leadZeros
/-- BREV (R329). -/
def execBrev (c : Ctl) (d : Opd) (a : Src) (s : State) := alu1 s c d a reverseBits
/-- BFX (R325). -/
def execBfx (c : Ctl) (d : Opd) (a b : Src) (sx : Bool) (s : State) := alu2 s c d a b (fieldExtract sx)
/-- BFI (R325). -/
def execBfi (c : Ctl) (d : Opd) (a b e : Src) (s : State) := alu3 s c d a b e fieldInsert
/-- ICMP (R357). -/
def execIcmp (c : Ctl) (p : Fin 8) (cc : ICC) (a b : Src) (s : State) :=
  issuePred s c p.val [useA a, useB b] fun s k g l => (icmpHolds cc (val s k g l a) (val s k g l b), 0)
/-- ICMPI (R357). -/
def execIcmpi (c : Ctl) (p : Fin 8) (cc : ICC) (a : Src) (imm : BitVec 22) (s : State) :=
  issuePred s c p.val [useA a] fun s k g l => (icmpHolds cc (val s k g l a) (imm.signExtend 32), 0)
/-- AADD (R307). -/
def execAadd (c : Ctl) (d : Opd) (a b : Src) (scale : Fin 4) (zx : Bool) (s : State) :=
  issueAlu64 s c d [useA a 2, useB b] fun s k g l =>
    let y := val s k g l b
    val64 s k g l a + ((if zx then y.zeroExtend 64 else y.signExtend 64 : DWord) <<< scale.val)
/-- AADDI (R307). -/
def execAaddi (c : Ctl) (d : Opd) (a : Src) (imm : BitVec 22) (s : State) :=
  issueAlu64 s c d [useA a 2] fun s k g l => val64 s k g l a + imm.signExtend 64
/-- SEL (R411). -/
def execSel (c : Ctl) (d : Opd) (a b : Src) (p : Fin 8) (neg : Bool) (s : State) :=
  issueAlu s c d [useA a, useB b]
    (fun s k g l => (if predBit g p.val l != neg then val s k g l a else val s k g l b, 0))
    fun g l => predPois g p.val l
/-- MOV (R384, R385). -/
def execMov (c : Ctl) (d : Opd) (a : Src) (s : State) := alu1 s c d a fun x => x
/-- MOVI (R385). -/
def execMovi (c : Ctl) (d : Opd) (imm : BitVec 22) (s : State) :=
  issueAlu s c d [] fun _ _ _ _ => (imm.signExtend 32, 0)
/-- MOVL (R385). -/
def execMovl (c : Ctl) (d : Opd) (pair : Bool) (lit : DWord) (s : State) :=
  if pair then issueAlu64 s c d [] fun _ _ _ _ => lit
  else issueAlu s c d [] fun _ _ _ _ => (lit.extractLsb' 0 32, 0)
/-- PLOP (R392). -/
def execPlop (c : Ctl) (d a b : Fin 8) (t : BitVec 4) (s : State) :=
  issuePred s c d.val []
    (fun _ _ g l => (t.getLsbD ((predBit g a.val l).toNat * 2 + (predBit g b.val l).toNat), 0))
    fun g l => predPois g a.val l || predPois g b.val l
/-- PACK2 (R388). -/
def execPack2 (c : Ctl) (d : Opd) (a b : Src) (s : State) :=
  alu2 s c d a b fun x y => (y.extractLsb' 0 16 : BitVec 16) ++ (x.extractLsb' 0 16 : BitVec 16)
/-- UNPK2 (R438). -/
def execUnpk2 (c : Ctl) (d : Opd) (a : Src) (hi sx : Bool) (s : State) :=
  alu1 s c d a fun x =>
    let h : BitVec 16 := x.extractLsb' (if hi then 16 else 0) 16
    if sx then h.signExtend 32 else h.zeroExtend 32

end Sys2Proof.Machine
end

