-- ==== Sys2Proof/Machine/Float.lean ====
section
/-! DEFINITION. Float.lean: the float, packed, dot and conversion instructions and the ray tests (R285). -/
namespace Sys2Proof.Machine

/-- A code and its flags as a lane's result. -/
def lane32 (r : Nat × Flg) : Word × Flg := (BitVec.ofNat 32 r.1, r.2)

/-- A value with its sign flipped on request. -/
def FV.neg? (b : Bool) (x : FV) : FV := if b then x.flip else x

def f32Of (w : Word) : FV := unpackF fp32 w.toNat

/-- One-source float instructions. -/
def flt1 (s : State) (c : Ctl) (d : Opd) (a : Src) (f : FV → Nat × Flg) : Host.Outcome State Fault Refusal :=
  issueAlu s c d [useA a] fun s k g l => lane32 (f (f32Of (val s k g l a)))
def flt2 (s : State) (c : Ctl) (d : Opd) (a b : Src) (f : FV → FV → Nat × Flg) : Host.Outcome State Fault Refusal :=
  issueAlu s c d [useA a, useB b] fun s k g l => lane32 (f (f32Of (val s k g l a)) (f32Of (val s k g l b)))

/-! ### Packed pairs (R389, R390) -/

def half (w : Word) (hi : Bool) : Nat := if hi then w.toNat / 2 ^ 16 else w.toNat % 2 ^ 16
def pairFmt (bf : Bool) : Machine.Fmt := if bf then bfl16 else fp16
/-- The canonical NaN of both element formats is 0x7FC0 (R390). -/
def packed (lo hi : Nat × Flg) : Word × Flg := (BitVec.ofNat 32 (lo.1 + 2 ^ 16 * hi.1), lo.2 ||| hi.2)

def packed2 (bf : Bool) (op : Machine.Fmt → FV → FV → Nat × Flg) (a b : Word) : Word × Flg :=
  let f := pairFmt bf
  let e := fun h => op f (unpackF f (half a h)) (unpackF f (half b h))
  packed (e false) (e true)

def packed3 (bf : Bool) (rm : RM) (a b c : Word) : Word × Flg :=
  let f := pairFmt bf
  let e := fun h => fFma f rm false (unpackF f (half a h)) (unpackF f (half b h)) (unpackF f (half c h))
  packed (e false) (e true)

/-! ### Dot products (R84, R85, R337, R414) -/

def byteOf (w : Word) (i : Nat) : BitVec 8 := w.extractLsb' (8 * i) 8

def dot2f (bf : Bool) (a b c : Word) : Word × Flg :=
  let f := pairFmt bf
  let p := fun h => mulF (unpackF f (half a h)) (unpackF f (half b h))
  lane32 (dotRuns 16 1 c.toNat [p false, p true])

def dot4i (ua ub : Bool) (a b c : Word) : Word :=
  let x := fun (u : Bool) (w : Word) i => if u then ((byteOf w i).toNat : Int) else (byteOf w i).toInt
  c + BitVec.ofInt 32 ((List.range 4).foldl (fun t i => t + x ua a i * x ub b i) 0)

def spdot (a b c : Word) : Word :=
  c + BitVec.ofInt 32 ((List.range 4).foldl (fun t i => t + sp8Units (byteOf a i).toNat * (byteOf b i).toInt) 0)

/-! ### Classes and comparisons -/

/-- FCLS (R345). -/
def classOf (w : Word) : Word :=
  match f32Of w with
  | .nan true => 0x100
  | .nan false => 0x200
  | .inf n => if n then 0x01 else 0x80
  | .fin n m _ =>
    if m = 0 then (if n then 0x08 else 0x10)
    else if m < 2 ^ 23 then (if n then 0x04 else 0x20)
    else (if n then 0x02 else 0x40)

/-- A condition of FCMP with its flag (R346). -/
def fcmpHolds (cc : FCC) (a b : FV) : Bool × Flg :=
  let nan := a.isNan || b.isNan
  let nv : Flg := if a.isSig || b.isSig then fNV else 0
  let nvAny : Flg := if nan then fNV else 0
  match cc with
  | .eq => (eqF a b, nv)
  | .ne => (!eqF a b, nv)
  | .lt => (ltF a b, nvAny)
  | .le => (!nan && !ltF b a, nvAny)
  | .gt => (ltF b a, nvAny)
  | .ge => (!nan && !ltF a b, nvAny)
  | .un => (nan, nv)
  | .ord => (!nan, nv)

/-! ### Conversions (R80, R335) -/

/-- A type's format, for float types. -/
def tyFmt : Ty → Machine.Fmt
  | .f16 => fp16
  | .bf16 => bfl16
  | .e4m3 => e4m3
  | .e5m2 => e5m2
  | _ => fp32

/-- The element of a lane that CVT takes. -/
def tyElem (t : Ty) (w : Word) (el : Nat) : Nat :=
  match t.perLane with
  | 1 => w.toNat
  | 2 => w.toNat / 2 ^ (16 * el) % 2 ^ 16
  | _ => w.toNat / 2 ^ (8 * el) % 2 ^ 8

/-- The value of an element. -/
def tyVal (t : Ty) (code : Nat) : FV :=
  let int := fun (v : Int) => FV.fin (decide (v < 0)) v.natAbs 0
  match t with
  | .sp8 => sp8FV code
  | .i32 => int (BitVec.ofNat 32 code).toInt
  | .n32 => .fin false code 0
  | .i8 => int (BitVec.ofNat 8 code).toInt
  | t => unpackF (tyFmt t) code

/-- A value converted to a type, with its flags (R80). -/
def convertTo (dst : Ty) (r : Rnd) (sat : Bool) (x : FV) : Nat × Flg :=
  let sig : Flg := if x.isSig then fNV else 0
  let int := fun (w : Nat) (lo hi : Int) => let p := toInt r lo hi x; ((BitVec.ofInt w p.1).toNat, p.2)
  match dst with
  | .sp8 => toSp8 x
  | .i32 => int 32 (-2147483648) 2147483647
  | .n32 => int 32 0 4294967295
  | .i8 => int 8 (-128) 127
  | t => let p := packF (tyFmt t) r (if sat then .sat else .inf) x; (p.1, p.2 ||| sig)

/-- A float type to a wider one: exact, so that saturation has nothing to act on (R80). -/
def widens (src dst : Ty) : Bool := src.isFloat && dst.isFloat && decide (dst.perLane < src.perLane)

/-- An element of one type converted to another, with its flags (R80). -/
def convertFrom (src dst : Ty) (r : Rnd) (sat : Bool) (code : Nat) : Nat × Flg :=
  convertTo dst r (sat && !widens src dst) (tyVal src code)

/-- CVT on one lane. -/
def convertLane (dst src : Ty) (rm : RM) (sat : Bool) (el : Nat) (phi l : Nat) (w : Word) : Word × Flg :=
  lane32 (convertFrom src dst ⟨rm, ditherAt (l + phi)⟩ sat (tyElem src w el))

/-! ### Rays (R397 to R399): every operation is rounded rn on its own, on FP32 codes -/

def rAdd (a b : Nat) : Nat := (fAdd fp32 .rn (unpackF fp32 a) (unpackF fp32 b)).1
def rSub (a b : Nat) : Nat := (fAdd fp32 .rn (unpackF fp32 a) (unpackF fp32 b).flip).1
def rMul (a b : Nat) : Nat := (fMul fp32 .rn (unpackF fp32 a) (unpackF fp32 b)).1
def rInv (a : Nat) : Nat := (fRcp (unpackF fp32 a)).1
def rNan (a : Nat) : Bool := (unpackF fp32 a).isNan
def rLe (a b : Nat) : Bool := !rNan a && !rNan b && !ltF (unpackF fp32 b) (unpackF fp32 a)
def rMin (a b : Nat) : Nat := (minmaxF false a b).1
def rMax (a b : Nat) : Nat := (minmaxF true a b).1

/-- RAYBOX on one lane (R398): ray registers and box registers. -/
def rayBox (r b : Nat → Nat) : Nat :=
  let t := (List.range 3).foldl (fun (t : Nat × Nat) i =>
    let inv := rInv (r (4 + i))
    let t0 := rMul (rSub (b i) (r i)) inv
    let t1 := rMul (rSub (b (3 + i)) (r i)) inv
    if rNan t0 || rNan t1 then t else (rMax t.1 (rMin t0 t1), rMin t.2 (rMax t0 t1))) (r 3, r 7)
  let bad := (List.range 8).any (fun i => rNan (r i)) || (List.range 6).any fun i => rNan (b i)
  if !bad && rLe t.1 t.2 then t.1 else 0x7F800000

def rCross (a b : Nat → Nat) (i : Nat) : Nat :=
  let j := (i + 1) % 3
  let k := (i + 2) % 3
  rSub (rMul (a j) (b k)) (rMul (a k) (b j))
def rDot (a b : Nat → Nat) : Nat := rAdd (rAdd (rMul (a 0) (b 0)) (rMul (a 1) (b 1))) (rMul (a 2) (b 2))

/-- RAYTRI on one lane (R399): D and D+1. -/
def rayTri (r p : Nat → Nat) : Nat × Nat :=
  let e1 := fun i => rSub (p (3 + i)) (p i)
  let e2 := fun i => rSub (p (6 + i)) (p i)
  let sv := fun i => rSub (r i) (p i)
  let dv := fun i => r (4 + i)
  let q := rCross dv e2
  let rr := rCross sv e1
  let det := rDot e1 q
  let inv := rInv det
  let u := rMul (rDot sv q) inv
  let v := rMul (rDot dv rr) inv
  let t := rMul (rDot e2 rr) inv
  let hit := !(unpackF fp32 det).isZero && !([det, u, v, t].any rNan) && rLe 0 u && rLe 0 v
    && rLe (rAdd u v) 0x3F800000 && rLe (r 3) t && rLe t (r 7)
  let h := fun c => (packF fp16 ⟨.rn, 0⟩ .ieee (unpackF fp32 c)).1
  if hit then (t, h u + 2 ^ 16 * h v) else (0x7F800000, 0)

/-- A block's registers in a lane, as codes. -/
def blockVal (s : State) (k : Cur) (g : Group) (l : Nat) (a : Src) (i : Nat) : Nat := (laneVal s k g l a.o i).1.toNat

/-! ### Meanings -/

/-- FADD (R343, R344). -/
def execFadd (c : Ctl) (d : Opd) (a b : Src) (rm : RM) (na nb : Bool) (s : State) :=
  flt2 s c d a b fun x y => fAdd fp32 rm (x.neg? na) (y.neg? nb)
/-- FMUL (R343, R344). -/
def execFmul (c : Ctl) (d : Opd) (a b : Src) (rm : RM) (na nb : Bool) (s : State) :=
  flt2 s c d a b fun x y => fMul fp32 rm (x.neg? na) (y.neg? nb)
/-- FFMA (R343, R344). -/
def execFfma (c : Ctl) (d : Opd) (a b e : Src) (rm : RM) (np nc : Bool) (s : State) :=
  issueAlu s c d [useA a, useB b, useC e] fun s k g l =>
    lane32 (fFma fp32 rm np (f32Of (val s k g l a)) (f32Of (val s k g l b)) ((f32Of (val s k g l e)).neg? nc))
/-- FMIN (R351). -/
def execFmin (c : Ctl) (d : Opd) (a b : Src) (s : State) :=
  issueAlu s c d [useA a, useB b] fun s k g l => lane32 (minmaxF false (val s k g l a).toNat (val s k g l b).toNat)
/-- FMAX (R351). -/
def execFmax (c : Ctl) (d : Opd) (a b : Src) (s : State) :=
  issueAlu s c d [useA a, useB b] fun s k g l => lane32 (minmaxF true (val s k g l a).toNat (val s k g l b).toNat)
/-- FCMP (R346). -/
def execFcmp (c : Ctl) (p : Fin 8) (cc : FCC) (a b : Src) (s : State) :=
  issuePred s c p.val [useA a, useB b] fun s k g l => fcmpHolds cc (f32Of (val s k g l a)) (f32Of (val s k g l b))
/-- FRND (R352). -/
def execFrnd (c : Ctl) (d : Opd) (a : Src) (rm : RM) (s : State) :=
  issueAlu s c d [useA a] fun s k g l => lane32 (fRnd rm (val s k g l a).toNat)
/-- FCLS (R345). -/
def execFcls (c : Ctl) (d : Opd) (a : Src) (s : State) := alu1 s c d a classOf
/-- FRCP (R347, R82). -/
def execFrcp (c : Ctl) (d : Opd) (a : Src) (s : State) := flt1 s c d a fRcp
/-- FRSQ (R347, R82). -/
def execFrsq (c : Ctl) (d : Opd) (a : Src) (s : State) := flt1 s c d a fRsq
/-- FSQT (R347, R82). -/
def execFsqt (c : Ctl) (d : Opd) (a : Src) (s : State) := flt1 s c d a fSqt
/-- FEX2 (R347, R82). -/
def execFex2 (c : Ctl) (d : Opd) (a : Src) (s : State) := flt1 s c d a fEx2
/-- FLG2 (R347, R82). -/
def execFlg2 (c : Ctl) (d : Opd) (a : Src) (s : State) := flt1 s c d a fLg2
/-- FSPI (R347, R82). -/
def execFspi (c : Ctl) (d : Opd) (a : Src) (s : State) := flt1 s c d a fSpi
/-- FCPI (R347, R82). -/
def execFcpi (c : Ctl) (d : Opd) (a : Src) (s : State) := flt1 s c d a fCpi
/-- PADD2 (R389, R390). -/
def execPadd2 (c : Ctl) (d : Opd) (a b : Src) (rm : RM) (bf : Bool) (s : State) :=
  issueAlu s c d [useA a, useB b] fun s k g l => packed2 bf (fun f => fAdd f rm) (val s k g l a) (val s k g l b)
/-- PMUL2 (R389, R390). -/
def execPmul2 (c : Ctl) (d : Opd) (a b : Src) (rm : RM) (bf : Bool) (s : State) :=
  issueAlu s c d [useA a, useB b] fun s k g l => packed2 bf (fun f => fMul f rm) (val s k g l a) (val s k g l b)
/-- PFMA2 (R389, R390). -/
def execPfma2 (c : Ctl) (d : Opd) (a b e : Src) (rm : RM) (bf : Bool) (s : State) :=
  issueAlu s c d [useA a, useB b, useC e] fun s k g l =>
    packed3 bf rm (val s k g l a) (val s k g l b) (val s k g l e)
/-- DOT2F (R337). -/
def execDot2f (c : Ctl) (d : Opd) (a b e : Src) (bf : Bool) (s : State) :=
  issueAlu s c d [useA a, useB b, useC e] fun s k g l => dot2f bf (val s k g l a) (val s k g l b) (val s k g l e)
/-- DOT4I (R337). -/
def execDot4i (c : Ctl) (d : Opd) (a b e : Src) (ua ub : Bool) (s : State) := alu3 s c d a b e (dot4i ua ub)
/-- SPDOT (R414). -/
def execSpdot (c : Ctl) (d : Opd) (a b e : Src) (s : State) := alu3 s c d a b e spdot
/-- CVT (R334, R335). DEDUCED (log 32). With U, the lane number that dither takes its position from (R78) is that of the lowest active
lane, whose value is computed. DESIGN CHOICE (log 147). -/
def execCvt (c : Ctl) (d : Opd) (a : Src) (dst src : Ty) (rm : RM) (sat : Bool) (el : Fin 4) (s : State) :=
  issueAlu s c d [useA a] fun s k g l => convertLane dst src rm sat el.val g.dph.toNat l (val s k g l a)
/-- RAYBOX (R397, R398). -/
def execRaybox (c : Ctl) (d : Opd) (a b : Src) (s : State) :=
  issueAlu s c d [useA a 8, useB b 6] fun s k g l =>
    (BitVec.ofNat 32 (rayBox (blockVal s k g l a) (blockVal s k g l b)), 0)
/-- RAYTRI (R397, R399). -/
def execRaytri (c : Ctl) (d : Opd) (a b : Src) (s : State) :=
  issueAlu64 s c d [useA a 8, useB b 9] fun s k g l =>
    let r := rayTri (blockVal s k g l a) (blockVal s k g l b)
    BitVec.ofNat 64 (r.1 + 2 ^ 32 * r.2)

end Sys2Proof.Machine
end

