-- ==== Sys2Proof/Machine/Access.lean ====
section
/-! DEFINITION. Access.lean: addresses and translation (R86 to R93, R103), the checks of a memory instruction (R87), the
paths of loads, stores and atomics through a core's L1 (R99 to R102, R127 to R136), and how work in flight completes. -/
namespace Sys2Proof.Machine

/-! ### Addresses and translation -/

/-- Canonical form (R86). -/
def canonical (va : DWord) : Bool :=
  va.extractLsb' 57 7 == (if va.getLsbD 56 then BitVec.allOnes 7 else 0)

/-- Process of a launch, and of a group's. -/
def launchProc (s : State) (n : Nat) : Nat :=
  match launchAt s n with
  | some l => l.proc
  | none => 0
def procOf (s : State) (g : Group) : Nat := launchProc s g.launch

/-- Page number of an address, of 64 KiB or of 64 MiB. -/
def pageOf (va : DWord) (large : Bool) : Nat := va.toNat % 2 ^ 57 / 2 ^ (if large then 26 else 16)

def tlbMatch (fn proc : Nat) (va : DWord) (e : TlbEntry) : Bool :=
  e.fn == fn && e.proc == proc && e.vpn == pageOf va e.large

/-- Physical address of an access through an entry (R93). -/
def physOf (e : TlbEntry) (va : DWord) : Nat :=
  e.ppn * 2 ^ 16 + va.toNat % 2 ^ (if e.large then 26 else 16)

/-- The page moves whole sectors (R93, R101). -/
def TlbEntry.sector (e : TlbEntry) : Bool := e.lm || e.tier == 1 || e.tier == 2

/-- What translation answers. -/
inductive Trans where
  | hit (e : TlbEntry)
  | miss
  | fault (reason : Nat)
deriving DecidableEq, Repr

/-- Looks an address up. A write through a writable entry with D = 0 walks again (R92). -/
def lookup (s : State) (c fn proc : Nat) (va : DWord) (write : Bool) : Trans :=
  match (coreAt s c).tlb.find? (fun e => tlbMatch fn proc va e && (!write || e.d || !e.w)) with
  | some e => .hit e
  | none =>
    match s.walks.find? (fun w => w.core == c && w.fn == fn && w.proc == proc && w.vpn == pageOf va false
        && w.st == 2 && (w.write || !write)) with
    | some w => .fault w.reason
    | none => .miss

/-- Asks for a walk; joins one that is under way. Only an access may have it ask PRI (R395). -/
def askWalk (s : State) (c fn proc : Nat) (va : DWord) (write : Bool) (pri : Bool := true) : Nat × State :=
  match s.walks.find? (fun w => w.core == c && w.fn == fn && w.proc == proc && w.vpn == pageOf va false
      && w.write == write && w.st != 2) with
  | some w => (w.id, { s with walks := s.walks.map fun x => if x.id = w.id then { x with pri := x.pri || pri } else x })
  | none =>
    let w : Walk := { id := s.nid, core := c, fn := fn, proc := proc, vpn := pageOf va false, write := write, pri := pri }
    (s.nid, { s with nid := s.nid + 1, walks := s.walks ++ [w] })

/-- Drops the failed walks that a fault has reported, so that a replay walks again (R217). -/
def dropFailed (s : State) (c fn proc : Nat) : State :=
  { s with walks := s.walks.filter fun w => !(w.st == 2 && w.core == c && w.fn == fn && w.proc == proc) }

/-- One step of a walk's answer. -/
inductive WalkRes where
  | leaf (e : TlbEntry) (w : Nat) (v : DWord)
  | bad (reason : Nat)
deriving DecidableEq, Repr

/-- Whether a leaf's reserved bits, key and tier are as R91 asks. DEDUCED (log 40). -/
def leafBad (s : State) (fn : Nat) (v : DWord) (large : Bool) : Option Nat :=
  let key := (v.extractLsb' 7 8).toNat
  let tier := (v.extractLsb' 4 2).toNat
  let ppn := (v.extractLsb' 28 36).toNat
  let pa := ppn * 2 ^ 16
  if v.extractLsb' 24 4 != 0 || (large && ppn % 1024 != 0) || 129 ≤ key || (key != 0 && 2 ≤ tier)
      || (tier = 0 && 2 ^ 39 ≤ pa) || (tier = 1 && 2 ^ 40 ≤ pa) || (tier = 3 && !s.full) then some 2
  else if fn != 0 && tier < 2 &&
      (if large then (fnAt s fn).cmask != 0xFF else !(fnAt s fn).cmask.getLsbD (l2Colour pa)) then some 2
  else if key != 0 && (match tget? s.keys key with | some k => k.owner != fn | none => true) then some 3
  else none

/-- The entry of a leaf as the TLB holds it (R90, R103). LM counts as 1 under a key. -/
def leafEntry (fn proc vpn : Nat) (v : DWord) (large : Bool) : TlbEntry where
  fn := fn
  proc := proc
  vpn := if large then vpn / 2 ^ 10 else vpn
  large := large
  ppn := (v.extractLsb' 28 36).toNat
  tier := (v.extractLsb' 4 2).toNat
  lm := v.getLsbD 6 || v.extractLsb' 7 8 != 0
  key := (v.extractLsb' 7 8).toNat
  fmt := (v.extractLsb' 15 4).toNat
  blk := (v.extractLsb' 19 2).toNat
  w := v.getLsbD 1
  x := v.getLsbD 2
  d := v.getLsbD 22
  rp := v.getLsbD 3

/-- The walk of R88 and R91 from a table at level `lvl`. Tables are read at their home slices. A poisoned entry counts as
malformed (log 6). -/
def walkFrom (s : State) (fn proc vpn : Nat) (lvl ppn tier : Nat) : WalkRes × State :=
  let idx := if lvl = 3 then vpn / 2 ^ 30 % 2 ^ 11 else vpn / 2 ^ (10 * lvl) % 2 ^ 10
  if 2 ≤ tier then (.bad 2, s)
  else
    let w := wkey tier (ppn * 2 ^ 16 + 8 * idx)
    let (mw, _, s) := homeRead s w 0 (secOf w 0)
    let v := mw.data
    if mw.pois then (.bad 2, s)
    else if !v.getLsbD 0 then (.bad 1, s)
    else if lvl = 0 ∨ (lvl = 1 ∧ !v.getLsbD 24) then
      match leafBad s fn v (lvl = 1) with
      | some r => (.bad r, s)
      | none => (.leaf (leafEntry fn proc vpn v (lvl = 1)) w v, s)
    else if !v.getLsbD 24 || v.extractLsb' 25 3 != 0 || v.extractLsb' 6 18 != 0 || v.extractLsb' 1 3 != 0
        || v.getLsbD 5 then (.bad 2, s)
    else match lvl with
      | 0 => (.bad 2, s)
      | n + 1 => walkFrom s fn proc vpn n (v.extractLsb' 28 36).toNat (v.extractLsb' 4 2).toNat

/-- A whole walk, which sets A, and D for a write to a writable page (R92), at the leaf's home. PCFG.V keeps commands from
starting and no walk: what has started runs to completion (R199). DEDUCED (log 116). -/
def walkPage (s : State) (fn proc vpn : Nat) (write : Bool) : WalkRes × State :=
  let p := tget (fnAt s fn).procs proc {}
  match walkFrom s fn proc vpn 3 (p.root.extractLsb' 16 36).toNat p.tier with
  | (.bad r, s) => (.bad r, s)
  | (.leaf e w v, s) =>
    let set := (0x200000 : DWord) ||| (if write && e.w then 0x400000 else 0)
    let s := if v ||| set = v then s else homeWrite s w 0 fn (secOf w 0) 0xFF { data := v ||| set, tagd := false }
    (.leaf { e with d := e.d || (write && e.w) } w v, s)

/-- The page is in transit (R105). -/
def inTransit (s : State) (fn proc vpn : Nat) : Bool :=
  match s.migration with
  | some m => m.fn == fn && m.proc == proc && m.page == vpn
  | none => false

/-- Translation for a front end, whose walks are named as those of core 192 + n. Where the page is in transit or waits for the
host's ATS, the front end waits (R105, R242). A header's page asks no PRI (R37). -/
def feTrans (s : State) (fn proc : Nat) (va : DWord) (write : Bool) (pri : Bool := true) : Option TlbEntry × State :=
  if !canonical va then (none, s)
  else match walkPage s fn proc (pageOf va false) write with
  | (.bad _, s) => (none, s)
  | (.leaf e _ _, t) =>
    if !inTransit s fn proc (pageOf va false) && !(e.tier == 2 && (fnAt s fn).ats) then (some e, t)
    else match lookup s (192 + fn) fn proc va write with
      | .hit e => (some e, s)
      | .fault _ => (none, dropFailed s (192 + fn) fn proc)
      | .miss => (none, modFn (askWalk s (192 + fn) fn proc va write pri).2 fn fun f => { f with stall := true })

/-- Adds an entry to a core's TLB, which holds 2,048; which entry goes is the device's choice. -/
def tlbAdd (s : State) (c : Nat) (e : TlbEntry) : State :=
  let t := (coreAt s c).tlb.filter fun f => !(f.fn == e.fn && f.proc == e.proc && f.large == e.large && f.vpn == e.vpn)
  if t.length < 2048 then modCore s c fun x => { x with tlb := e :: t }
  else modCore { s with fresh := s.fresh + 1 } c fun x =>
    { x with tlb := e :: t.eraseIdx (Config.victim t.length s.fresh % t.length) }

/-! ### Lanes of a memory instruction -/

/-- One lane's access: its address, and the page it reaches. -/
structure LaneAcc where
  lane : Nat
  va : DWord
  size : Nat
deriving DecidableEq, Repr

/-- A fault of one lane, in the order of R87. -/
structure LaneFault where
  rank : Nat
  code : BitVec 8
  reason : Nat
  lane : Nat
  va : DWord
deriving DecidableEq, Repr

/-- The first fault in the order of R87, with every lane that has it, whatever its reason, and the reason and address of the
lowest (R210). -/
def firstFault (fs : List LaneFault) : Option TrapReq :=
  match fs with
  | [] => none
  | f :: r =>
    let best := r.foldl (fun (a b : LaneFault) => if b.rank < a.rank then b else a) f
    let same := fs.filter fun g => g.rank == best.rank && g.code == best.code
    let low := same.foldl (fun (a b : LaneFault) => if b.lane < a.lane then b else a) best
    some ⟨best.code, maskOf fun l => same.any fun g => g.lane == l, addrInfo low.reason low.va⟩

/-- Faults that an address alone decides (R86). -/
def addrFault (a : LaneAcc) : Option LaneFault :=
  if a.va.toNat % a.size ≠ 0 then some ⟨0, tcMisaligned, 0, a.lane, a.va⟩
  else if !canonical a.va then some ⟨1, tcProtection, 1, a.lane, a.va⟩
  else none

/-- Translation of every lane: faults, pages still to walk, or the entries by lane (R103, R217). -/
structure Xlat where
  faults : List LaneFault
  misses : List DWord
  hits : List (LaneAcc × TlbEntry)

def xlat (s : State) (c : Nat) (g : Group) (write : Bool) (as : List LaneAcc) : Xlat :=
  let proc := procOf s g
  as.foldl (fun x a => match addrFault a with
    | some f => { x with faults := x.faults ++ [f] }
    | none => match lookup s c g.fn proc a.va write with
      | .hit e =>
        if write && !e.w then { x with faults := x.faults ++ [⟨3, tcProtection, 2, a.lane, a.va⟩] }
        else { x with hits := x.hits ++ [(a, e)] }
      | .miss => { x with misses := x.misses ++ [a.va] }
      | .fault r => { x with faults := x.faults ++ [⟨2, tcPageFault, r, a.lane, a.va⟩] }) ⟨[], [], []⟩

/-- The answer of the checks of a memory instruction: a trap, a wait for walks, or the entries. -/
inductive Checked where
  | trap (t : TrapReq) (s : State)
  | wait (s : State)
  | ok (hits : List (LaneAcc × TlbEntry))

/-- Checks and translates every lane (R217). Faults that need no walk, and those of R86, come before any walk is waited
for only when no lane's walk could give an earlier one: MISALIGNED and non-canonical lanes decide at once. -/
def checkLanes (s : State) (c : Nat) (g : Group) (write : Bool) (as : List LaneAcc)
    (more : List (LaneAcc × TlbEntry) → List LaneFault := fun _ => []) : Checked :=
  let early := as.filterMap addrFault
  match firstFault early with
  | some t => .trap t s
  | none =>
    let x := xlat s c g write as
    if !x.misses.isEmpty then
      .wait (x.misses.foldl (fun t va => (askWalk t c g.fn (procOf s g) va write).2) s)
    else
      match firstFault (x.faults ++ more x.hits) with
      | some t => .trap t (dropFailed s c g.fn (procOf s g))
      | none => .ok x.hits

/-- The item is an access of the thread (R127, R365). -/
def Item.of (i : Item) (launch : Nat) (wid : DWord) : Bool := i.launch == launch && (i.wid == wid || i.also.contains wid)

/-- A thread has a fence or an acquire before it that is not complete, so it issues no access (R129, R135), wherever REGROUP
has moved it. -/
def laneBlocked (x : Core) (launch : Nat) (wid : DWord) : Bool :=
  x.items.any fun i => i.of launch wid && match i.body with
    | .release k _ _ => match k with
      | .fence .. => true
      | .queue _ => true
      | .atomic _ _ _ _ _ acq _ _ _ => acq
      | _ => false
    | .load _ _ _ _ acq => acq
    | .lds _ _ _ _ _ acq => acq
    | .atomic _ _ _ acq => acq
    | .qfence _ | .swwait .. => true
    | _ => false

def anyBlocked (x : Core) (g : Group) (m : Mask) : Bool :=
  (lanesOf m).any fun l => laneBlocked x g.launch (threadAt g l).wid

/-! ### Capacity and miss-status entries (R20, R101, R102) -/

/-- Words of memory that a core has outstanding: those that its miss-status entries have asked for, and those of its accesses
that go past the L1 (R20), those of releases in their wait among them. DEDUCED (log 117). Words that a release's store fetches are
counted once it has asked for them. -/
def outstanding (x : Core) : Nat :=
  x.mshrs.foldl (fun n m => n + m.asks.length) 0 + x.items.foldl (fun n i => n + match i.body with
    | .atomic .. | .homeStore _ | .release (.atomic ..) .. => 1
    | .release (.store ps _ true) .. => ps.length
    | _ => 0) 0
    + ((x.items.filter (·.past)).flatMap fun i => match i.body with
        | .load _ ws got _ _ => (ws.filter fun w => !got.any fun e => e.1 == w).map fun w => (i.op, w)
        | _ => []).eraseDups.length

/-- A core can take so many miss-status entries and words more (R20, R102). -/
def capacityFor (x : Core) (entries words : Nat) : Bool :=
  (entries == 0 || decide (x.mshrs.length + entries ≤ 1024)) && (words == 0 || decide (outstanding x + words ≤ 8192))

/-- Asks for words of one sector: joins a recent entry or opens one, and sends the reads. Eight words or more of one
instruction that are new to the entry, words valid in the L1 not counted, are asked for as the whole sector (R101, R102).
DEDUCED (log 102). -/
def askSector (s : State) (c fn key : Nat) (ro sectorMode : Bool) (sec : Nat) (ws : List Nat) : State :=
  let x := coreAt s c
  let joins := fun (m : Mshr) => m.sector == sec && decide ((cycleOf s c - m.since).toNat < 32)
  let held := match x.mshrs.find? joins with | some m => (m.asks.filter fun (a : Ask) => a.stale.isNone).map Ask.pos | none => []
  let fresh := fun (is : List Nat) => is.filter fun i => !held.contains i && (l1At x (sec * 16 + i)).isNone
  let mine := fresh (ws.map (· % 16))
  let whole := wholeSector s sectorMode || 8 ≤ mine.length
  let new := if whole && !mine.isEmpty then fresh (List.range 16) else mine
  if new.isEmpty then s
  else
    let asks : List Ask := (new.zip (List.range new.length)).map fun (i, j) => { pos := i, msg := s.nid + j, ro := ro }
    let s := modCore s c fun x =>
      { x with mshrs := if x.mshrs.any joins then x.mshrs.map fun m => if joins m then { m with asks := m.asks ++ asks } else m
                        else x.mshrs ++ [{ sector := sec, since := cycleOf s c, asks := asks }] }
    new.foldl (fun s i =>
      sendMsg s { id := 0, src := .core c, fn := fn, w := sec * 16 + i, kind := .read, key := key, sector := whole, fill := true }) s

/-- Asks for every word of a list that the L1 does not hold, sector by sector. -/
def askWords (s : State) (c fn key : Nat) (ro sectorMode : Bool) (ws : List Nat) : State :=
  let miss := ws.eraseDups.filter fun w => (l1At (coreAt s c) w).isNone
  ((miss.map sectorOf).eraseDups).foldl (fun s sec =>
    askSector s c fn key ro sectorMode sec (miss.filter fun w => sectorOf w == sec)) s

/-- Words of accesses that go through the L1, with KEY and sector mode of their pages, are asked for. -/
def askHits (s : State) (c fn : Nat) (ro : Bool) (ws : List (Nat × Nat × Bool)) : State :=
  ((ws.map (·.2)).eraseDups).foldl (fun s p =>
    askWords s c fn p.1 ro p.2 ((ws.filter fun e => e.2 == p).map (·.1))) s

/-- Miss-status entries and words that an instruction needs: those that its words through the L1 make it ask for, words that the L1
holds and cannot correct among them, and `past` words beside (R98, R102). -/
def capacityNeed (s : State) (c fn : Nat) (ws : List (Nat × Nat × Bool)) (past : Nat) : Nat × Nat :=
  let s := ws.foldl (fun s e => dropLost s c e.1) s
  let x := coreAt s c
  let y := coreAt (askHits s c fn false ws) c
  (y.mshrs.length - x.mshrs.length, outstanding y - outstanding x + past)

/-! ### Stores into the L1 (R100, R132) -/

/-- A store's part of a word is performed into the L1 under the rank rule (R132). `old` is the word's value where it was
not valid and has been fetched. DEDUCED (log 42). A part of a word reads what the L1 holds (R98). -/
def storeL1 (s : State) (c : Nat) (k : Nat × Nat) (launch fn key : Nat) (sector ro : Bool) (p : StorePart) (old : MWord) : State :=
  let x := (l1At (coreAt s c) p.w).map fun y => if p.mask = 0xFF then y else (l1Read y).1.getD y
  let beaten := match x with
    | some y => y.d && match y.rank with | some r => decide (k.1 < r.1) || (r.1 == k.1 && decide (k.2 < r.2)) | none => false
    | none => false
  if beaten then s
  else
    let base := match x with | some y => y.mw | none => old
    let mw := mergeWord base { data := p.data, tag := p.tag.getD 0, tagd := p.tag.isSome } p.mask
    let s := l1Alloc s c p.w
    let s := l1Set! s c p.w
      { mw := mw, d := true, o := false, ro := if ro then false else (match x with | some y => y.ro | none => false),
        rank := some k, by_ := (launch :: (match x with | some y => y.by_ | none => [])).eraseDups, key := key,
        sector := sector, fn := fn }
    s

/-- The lane's stores wrote a word in the L1, or at home (R134). -/
def noteWrote (s : State) (c slot lane w : Nat) (atHome : Bool) : State :=
  modGroup s c slot fun g => modThread g lane fun t =>
    if atHome then { t with wroteHome := if t.wroteHome.contains w then t.wroteHome else w :: t.wroteHome }
    else { t with wrote := if t.wrote.contains w then t.wrote else w :: t.wrote }

/-! ### Values that loads deliver -/

/-- The bytes of an access from the words it covers. -/
def bytesAt (got : List (Nat × MWord)) (ws : List Nat) (off size : Nat) : Nat :=
  let all := ws.foldr (fun w n => ((got.find? fun e => e.1 == w).map (·.2.data.toNat)).getD 0 + n * 2 ^ 64) 0
  all / 2 ^ (8 * off) % 2 ^ (8 * size)

/-- Whether a supplying word is poisoned (R227). -/
def anyPois (got : List (Nat × MWord)) : Bool := got.any fun e => e.2.pois

end Sys2Proof.Machine
end

