-- ==== Sys2Proof/Machine/Formats.lean ====
section
/-! DEFINITION. Formats.lean: elements of formatted pages (R70 to R76, R94 to R96): what a load makes of the words it
reads, and what an encoding store makes of the lanes that write a word. -/
namespace Sys2Proof

/-- KIND values that decode and encode (R287). -/
def MKind.typed : MKind → Bool
  | .f32 | .f16 | .bf16 | .i32 => true
  | _ => false

/-- KIND values that take bits on any page (R95). -/
def MKind.raw : MKind → Bool
  | .rb8 | .rb16 | .rb32 | .rb64 | .rb128 => true
  | _ => false

/-- Size of a KIND on a page with FMT 0, and of the raw forms (R287). -/
def MKind.size : MKind → Nat
  | .b8 | .rb8 => 1
  | .b16 | .rb16 => 2
  | .b64 | .rb64 | .tag => 8
  | .b128 | .rb128 => 16
  | _ => 4

/-- Elements of a register type that fit in a lane (R94). -/
def MKind.elems : MKind → Nat
  | .f16 | .bf16 => 2
  | _ => 1

end Sys2Proof

namespace Sys2Proof.Machine

/-- Element width of an FMT code, in bits (R90). -/
def fmtWidth (fmt : Nat) : Nat := [0, 32, 16, 16, 8, 8, 8, 8, 4].getD fmt 0

/-- Permitted pairs of FMT and BLK (R74, R91). -/
def fmtBlkOk (fmt blk : Nat) : Bool :=
  match blk with
  | 0 => decide (1 ≤ fmt ∧ fmt ≤ 8)
  | 1 => decide (2 ≤ fmt ∧ fmt ≤ 8)
  | 2 => decide (4 ≤ fmt ∧ fmt ≤ 7)
  | _ => false

/-- Register types that an FMT and BLK permit (R94). -/
def typeOk (fmt blk : Nat) (k : MKind) : Bool :=
  fmtBlkOk fmt blk && (match k with
    | .f32 => true
    | .f16 | .bf16 => fmt != 1
    | .i32 => (fmt == 6 || fmt == 8) && blk == 0
    | _ => false)

/-- Whether a KIND may be used on a page: FORMAT where not (R93 to R96, R287). -/
def kindOk (tier fmt blk : Nat) (k : MKind) : Bool :=
  if k = .tag then decide (tier < 2)
  else if k.raw || fmt == 0 then true
  else decide (tier < 2) && k.typed && typeOk fmt blk k

/-- Whether a KIND may be used for a load from a page: a typed load of a page of the host or of a peer raises FORMAT, whatever its FMT
(R362). A typed store to such a page acts as one of 32 bits. DEDUCED (log 45). -/
def loadKindOk (tier fmt blk : Nat) (k : MKind) : Bool := kindOk tier fmt blk k && !(k.typed && decide (2 ≤ tier))

/-- An element's exact value before its scale (R68 to R71). -/
def elemFV (fmt code : Nat) : FV :=
  let int := fun (w : Nat) => let v : Int := if 2 ^ (w - 1) ≤ code then (code : Int) - 2 ^ w else code
    FV.fin (decide (v < 0)) v.natAbs 0
  match fmt with
  | 1 => unpackF fp32 code
  | 2 => unpackF bfl16 code
  | 3 => unpackF fp16 code
  | 4 => unpackF e4m3 code
  | 5 => unpackF e5m2 code
  | 6 => int 8
  | 7 => sp8FV code
  | _ => int 4

/-- A value times 2^k. -/
def FV.scale (x : FV) (k : Int) : FV :=
  match x with
  | .fin n m e => .fin n m (e + k)
  | y => y

/-- Exponent of the scale of a word's elements, `none` where every element is NaN (R74). -/
def scaleExp (blk : Nat) (tag t0 t1 : BitVec 4) : Option Int :=
  match blk with
  | 1 => some ((tag.toNat : Int) - 8)
  | 2 => let e := t0.toNat * 16 + t1.toNat; if e = 255 then none else some ((e : Int) - 127)
  | _ => some 0

/-- The register code of a decoded element, rounded once, rn (R75). -/
def decodeElem (k : MKind) (fmt code : Nat) (sc : Option Int) : Nat :=
  let x := match sc with | some e => (elemFV fmt code).scale e | none => .nan false
  match k with
  | .f16 => (packF fp16 ⟨.rn, 0⟩ .ieee x).1
  | .bf16 => (packF bfl16 ⟨.rn, 0⟩ .ieee x).1
  | .i32 => match x with
    | .fin n m _ => (BitVec.ofInt 32 (if n then -(m : Int) else m)).toNat
    | _ => 0
  | _ => (packF fp32 ⟨.rn, 0⟩ .ieee x).1

/-- Lowest word of a word's quad (R74). -/
def quadOf (w : Nat) : Nat := w / 4 * 4

/-- The words that supply a lane: those of its data, then those whose tags it needs (R94). -/
def loadWords (sh : LoadShape) (w : Nat) : List Nat :=
  let data := if sh.size = 16 then [w, w + 1] else [w]
  if sh.kind.typed && sh.fmt != 0 && sh.blk == 2 then (data ++ [quadOf w, quadOf w + 1]).eraseDups else data

def wordIn (got : List (Nat × MWord)) (w : Nat) : MWord :=
  match got.find? fun e => e.1 == w with
  | some e => e.2
  | none => {}

/-- The registers of a lane from the words that supply it (R361). -/
def loadRegs (sh : LoadShape) (w : Nat) (got : List (Nat × MWord)) : List Word :=
  let d := (wordIn got w).data.toNat + (if sh.size = 16 then (wordIn got (w + 1)).data.toNat * 2 ^ 64 else 0)
  if sh.kind = .tag then [((wordIn got w).tag.zeroExtend 32 : Word)]
  else if sh.kind.typed && sh.fmt != 0 then
    let wd := fmtWidth sh.fmt
    let sc := scaleExp sh.blk (wordIn got w).tag (wordIn got (quadOf w)).tag (wordIn got (quadOf w + 1)).tag
    let e := fun (i : Nat) => decodeElem sh.kind sh.fmt (d / 2 ^ (8 * sh.off + 4 * sh.nib + wd * i) % 2 ^ wd) sc
    [BitVec.ofNat 32 (if sh.kind.elems = 2 then e 0 + 2 ^ 16 * e 1 else e 0)]
  else
    let v := d / 2 ^ (8 * sh.off) % 2 ^ (8 * sh.size)
    (List.range sh.kind.regs).map fun i => BitVec.ofNat 32 (v / 2 ^ (32 * i))

/-! ### Encoding stores (R76, R95) -/

/-- The largest magnitude M of R76. -/
def maxMag (fmt : Nat) : FV :=
  match fmt with
  | 6 => .fin false 127 0
  | 7 => .fin false 2 0
  | 8 => .fin false 7 0
  | 1 => elemFV 1 (maxCode fp32)
  | 2 => elemFV 2 (maxCode bfl16)
  | 3 => elemFV 3 (maxCode fp16)
  | 4 => elemFV 4 (maxCode e4m3)
  | _ => elemFV 5 (maxCode e5m2)

def FV.abs : FV → FV
  | .fin _ m e => .fin false m e
  | .inf _ => .inf false
  | y => y

/-- Every element that is no NaN fits under M × 2^k. -/
def fitsScale (fmt : Nat) (k : Int) (xs : List FV) : Bool :=
  xs.all fun x => x.isNan || !ltF ((maxMag fmt).scale k) x.abs

/-- One element's code at a scale (R76). -/
def encodeElem (fmt : Nat) (k : Int) (x : FV) : Nat :=
  let y := x.scale (-k)
  let flt := fun (f : Machine.Fmt) => match y with
    | .inf n => if f.hasInf then signCode f n (infCode f) else signCode f n (maxCode f)
    | y => (packF f ⟨.rn, 0⟩ .sat y).1
  let int := fun (w : Nat) => match y with
    | .nan _ => 0
    | y => (BitVec.ofInt w (toInt ⟨.rn, 0⟩ (-(2 ^ (w - 1) - 1 : Int)) (2 ^ (w - 1) - 1) y).1).toNat
  match fmt with
  | 1 => flt fp32
  | 2 => flt bfl16
  | 3 => flt fp16
  | 4 => flt e4m3
  | 5 => flt e5m2
  | 6 => int 8
  | 7 => (toSp8 y).1
  | _ => int 4

/-- The values that a lane's register holds under a register type. -/
def regElems (k : MKind) (w : Word) : List FV :=
  match k with
  | .f16 => [unpackF fp16 (w.toNat % 2 ^ 16), unpackF fp16 (w.toNat / 2 ^ 16)]
  | .bf16 => [unpackF bfl16 (w.toNat % 2 ^ 16), unpackF bfl16 (w.toNat / 2 ^ 16)]
  | .i32 => [.fin w.msb w.toInt.natAbs 0]
  | _ => [unpackF fp32 w.toNat]

/-- One lane of an encoding store: the word, the bit offset in it, and the values, lowest first. -/
structure EncLane where
  w : Nat
  bit : Nat
  vals : List FV
deriving DecidableEq, Repr

/-- The value that ends at a bit offset of a word, the highest lane's, if a lane writes it. -/
def encAt (wd : Nat) (ls : List EncLane) (w bit : Nat) : Option FV :=
  ls.foldl (fun r l =>
    if l.w = w ∧ l.bit ≤ bit ∧ bit < l.bit + wd * l.vals.length then l.vals[(bit - l.bit) / wd]? else r) none

/-- All elements of a word, if lanes cover it. -/
def encWord (wd : Nat) (ls : List EncLane) (w : Nat) : Option (List FV) :=
  (List.range (64 / wd)).foldr (fun i r => match r, encAt wd ls w (wd * i) with
    | some xs, some x => some (x :: xs)
    | _, _ => none) (some [])

/-- Data of a word from its elements' codes. -/
def packCodes (wd : Nat) (cs : List Nat) : DWord :=
  BitVec.ofNat 64 (cs.foldr (fun c n => c + n * 2 ^ wd) 0)

/-- The words that an encoding store writes, with their tags; `none` raises FORMAT (R76, R95). A tag that no scale stands in is left
as it was. DEDUCED (log 39). -/
def encodeStore (fmt blk : Nat) (ls : List EncLane) : Option (List StorePart) :=
  let wd := fmtWidth fmt
  let ws := (ls.map (·.w)).eraseDups
  let units := if blk = 2 then ((ws.map quadOf).eraseDups).map fun q => [q, q + 1, q + 2, q + 3] else ws.map fun w => [w]
  units.foldl (fun r u => match r with
    | none => none
    | some ps =>
      let es := u.map (encWord wd ls)
      if es.any (·.isNone) then none
      else
        let xs := es.map fun e => e.getD []
        let all := xs.flatten
        match blk with
        | 1 =>
          let t := ((List.range 16).find? fun (t : Nat) => fitsScale fmt (Int.ofNat t - 8) all).getD 15
          some (ps ++ (u.zip xs).map fun (w, e) =>
            ⟨w, 0xFF, packCodes wd (e.map (encodeElem fmt ((t : Int) - 8))), some (BitVec.ofNat 4 t)⟩)
        | 2 =>
          let e := ((List.range 255).find? fun (e : Nat) => fitsScale fmt (Int.ofNat e - 127) all).getD 254
          let tags := [some (BitVec.ofNat 4 (e / 16)), some (BitVec.ofNat 4 e), none, none]
          some (ps ++ ((u.zip xs).zip tags).map fun ((w, x), tg) =>
            ⟨w, 0xFF, packCodes wd (x.map (encodeElem fmt ((e : Int) - 127))), tg⟩)
        | _ => some (ps ++ (u.zip xs).map fun (w, x) => ⟨w, 0xFF, packCodes wd (x.map (encodeElem fmt 0)), none⟩))
    (some [])

end Sys2Proof.Machine
end

