-- ==== Sys2Proof/Machine/Flight.lean ====
section
/-! DEFINITION. Flight.lean: work in flight: what an issued instruction leaves behind in its core and how it completes
(R42, R127 to R136): arriving words, acknowledgements, releases, acquires, sync words (R107, R423), remote accesses
(R147, R244). -/
namespace Sys2Proof.Machine

/-! ### Items -/

/-- A plain FENCE and an acquire settle nothing (R129, R349). -/
def RelKind.settles : RelKind → Bool
  | .fence _ _ rel => rel
  | .queue _ => false
  | _ => true

/-- Set of the thread in a lane (R32, R66). -/
def laneSet (s : State) (g : Group) (lane : Nat) : Nat := setOfWid (hdrOf s g) (threadAt g lane).wid

/-- A body is a release that settles words. -/
def Body.settles : Body → Bool
  | .release k _ _ => k.settles
  | _ => false

/-- A piece of work of one lane, or of a group where the lane is none of its 64. A release settles the words that its lane's
stores have written so far (R134). -/
def laneItem (s : State) (k : Cur) (g : Group) (lane : Nat) (va : DWord) (b : Body) : Item :=
  let t := threadAt g lane
  { id := s.nid, op := k.op, gid := g.gid, slot := k.slot, lane := lane, word := k.word, va := va, launch := g.launch, fn := g.fn,
    set := if lane < 64 then laneSet s g lane else g.set, wid := t.wid,
    wrote := if b.settles then t.wrote else [], wroteHome := if b.settles then t.wroteHome else [], body := b }

/-- Adds a piece of work, named by `s.nid`. -/
def pushItem (s : State) (c : Nat) (it : Item) : State :=
  modItems { s with nid := s.nid + 1 } c fun xs => xs ++ [{ it with id := s.nid }]

def addItem (s : State) (k : Cur) (g : Group) (lane : Nat) (va : DWord) (b : Body) : State :=
  pushItem s k.core (laneItem s k g lane va b)

def itemAt (s : State) (c n : Nat) : Option Item := (coreAt s c).items.find? fun i => i.id == n

def modItem (s : State) (c n : Nat) (f : Body → Body) : State :=
  modItems s c fun xs => xs.map fun i => if i.id = n then { i with body := f i.body } else i

/-- A message or item `n` that work waited for is done. -/
def Body.without (n : Nat) : Body → Body
  | .release k st ws => .release k st (ws.filter fun x => x != n)
  | .settle ws r h => .settle (ws.filter fun x => x != n) r h
  | b => b

/-- An item is done: it is gone, nothing waits for it any longer, and scoreboard slots are tested (R42). -/
def endItem (s : State) (c n : Nat) : State :=
  modCore s c fun x => clearSlots { x with items := (x.items.filter fun i => i.id != n).map fun i =>
    { i with body := i.body.without n } }

/-- The invalidation of an acquire (R135). -/
def acquire (s : State) (c : Nat) : State := modCore s c (acquireL1 s.nid)

/-- Registers land in the places of a list, which takes them in turn. -/
def landAll (s : State) (c : Nat) (it : Item) (dsts : List Dest) (vals : List Word) (p : Bool) : State :=
  (dsts.zip (List.range dsts.length)).foldl (fun s (d, i) =>
    landIn s c it.slot it.gid d (vals.getD (i % vals.length) 0) p) s

/-- Adds to CECNT of a group (R304). -/
def countCe (s : State) (c slot gid : Nat) : State :=
  modGroup s c slot fun g => if g.gid = gid then { g with cecnt := g.cecnt + 1 } else g

/-- A load whose words have all come lands in its lanes, then performs its acquire (R135, R361). -/
def finishLoad (s : State) (c : Nat) (it : Item) : State :=
  match it.body with
  | .load sh ws got dsts acq =>
    if ws.all fun w => got.any fun e => e.1 == w then
      let s := landAll s c it dsts (loadRegs sh (ws.headD 0) got) (anyPois got)
      endItem (if acq then acquire s c else s) c it.id
    else s
  | _ => s

/-- The L1 is read for a word (R98): what it answers and whether it corrected it. It is corrected in place; a clean word that
cannot be corrected is dropped. -/
def l1Use (s : State) (c w : Nat) : Option (MWord × Bool) × State :=
  match l1At (coreAt s c) w with
  | none => (none, s)
  | some y => match l1Read y with
    | (some z, cor) => (some (z.mw, cor), if y.syn = 0 then s else l1Set! s c w z)
    | (none, _) => (none, l1Drop s c w)

/-- The groups whose instructions a corrected word serves count it, once each instruction (R304). -/
def countFor (s : State) (c : Nat) (its : List Item) : State :=
  ((its.map fun i => (i.op, i.slot, i.gid)).eraseDups).foldl (fun s (_, slot, gid) => countCe s c slot gid) s

/-- Groups that asked for a word of code count its correction (R304). -/
def countCode (s : State) (c : Nat) (gs : List (Nat × Nat)) : State := gs.foldl (fun s g => countCe s c g.1 g.2) s

/-- A load of the core that waits for a word. -/
def Item.wants (i : Item) (w : Nat) : Bool :=
  match i.body with
  | .load _ ws got _ _ => !i.walk && ws.contains w && !got.any (fun e => e.1 == w)
  | _ => false

/-- A word reaches the loads of a core that wait for it, of those that `sel` admits (R101). -/
def giveWord (s : State) (c : Nat) (sel : Item → Bool) (w : Nat) (mw : MWord) : State :=
  let ids := ((coreAt s c).items.filter fun i => sel i && i.wants w).map (·.id)
  let s := ids.foldl (fun s n => modItem s c n fun
    | .load sh ws got ds a => .load sh ws (got ++ [(w, mw)]) ds a
    | b => b) s
  ids.foldl (fun s n => match itemAt s c n with | some i => finishLoad s c i | none => s) s

/-! ### Remote accesses (R147, R244) -/

/-- Peer and word on the peer of a TIER 11 word (R93). -/
def peerOf (w : Nat) : Nat := waddrOf w / 2 ^ 43
def peerWord (w : Nat) : Nat := waddrOf w % 2 ^ 43

/-- A peer is marked lost, whole or for one of its functions (R149, R247). -/
def peerLost (s : State) (d : Nat) : Bool := s.lost.contains d || s.lostFns.any fun e => e.1 == d

/-- A word of a peer that is lost, whole or for the function that serves the word: what is sent to it counts as performed (R149,
R243). -/
def lostWord (s : State) (w : Nat) : Bool :=
  tierOf w == 3 && (s.lost.contains (peerOf w) || s.lostFns.any fun e => e.1 == peerOf w && e.2 == Config.peerFn w)

/-- The second part of a request slot (R244). -/
def reqQ1 (w : Nat) (mask : BitVec 8) (op : BitVec 6) : DWord :=
  (1 : BitVec 1) ++ (op ++ (mask ++ BitVec.ofNat 49 w))
/-- The third part. -/
def reqQ2 (tag core slot lane : Nat) : DWord :=
  (0 : BitVec 27) ++ (BitVec.ofNat 6 lane ++ (BitVec.ofNat 7 slot ++ (BitVec.ofNat 8 core ++ BitVec.ofNat 16 tag)))

def opRead : BitVec 6 := 0x00
def opWrite : BitVec 6 := 0x10
/-- An unranked write of a copy, and whether its data are poisoned: R244 gives the operation bits of a write no meaning (log 8). -/
def opCopy (pois : Bool) : BitVec 6 := if pois then 0x13 else 0x11
def opRed (o : AOp) : BitVec 6 := 0x20 ||| (encAOp o).zeroExtend 6
def opAtom (o : AOp) : BitVec 6 := 0x30 ||| (encAOp o).zeroExtend 6

/-- The slots of a request. -/
def reqSlots (r : RemoteReq) : List DWord :=
  [r.data, reqQ1 (peerWord r.w) r.mask r.op, reqQ2 (r.id % 65536) r.core r.slot r.lane]
    ++ (match r.data2 with | some x => [x, 0, 0] | none => [])

/-- A request that has not left goes out, unless one before it for its home is in flight over another link or has not
left either (R246). To a lost peer, and for a function in reset, nothing goes out any longer (R149, R243). -/
def sendReq (s : State) (n : Nat) : State :=
  match s.rreqs.find? fun r => r.id == n && !r.sent with
  | none => s
  | some r => match linkFor s r.dev r.home with
    | none => s
    | some i =>
      if lostWord s r.w || (fnAt s r.fn).resetting || s.rreqs.any fun q => q.dev == r.dev && q.home == r.home &&
          (if q.sent then q.link != i else decide (q.id < r.id)) then s
      else sendFlit { s with rreqs := s.rreqs.map fun q => if q.id = n then { q with sent := true, link := i } else q } i r.dev 1
        (reqSlots r)

/-- Requests that have waited go out, oldest first. -/
def pumpRemote (s : State) : State := (s.rreqs.map (·.id)).foldl sendReq s

/-- Sends a request to a peer for item `acc`. A rank clear has no code of its own in R244 and goes as a write of no bytes
(log 8). -/
def sendRemote (s : State) (c slot lane acc w : Nat) (op : BitVec 6) (mask : BitVec 8) (d : DWord) (d2 : Option DWord) :
    State :=
  let r : RemoteReq := { id := s.nid, dev := peerOf w, core := c, acc := acc, w := w, op := op, mask := mask, data := d,
                         data2 := d2, slot := slot, lane := lane, home := homeHash (peerWord w), since := s.now,
                         fn := ((itemAt s c acc).map (·.fn)).getD 0, ins := ((itemAt s c acc).map (·.op)).getD 0 }
  sendReq { s with nid := s.nid + 1, rreqs := s.rreqs ++ [r] } s.nid

/-! ### Registration and settling (R134, R141) -/

/-- The registration of a word that a core has under way. -/
def regUnderWay (s : State) (c w : Nat) : Option Nat :=
  match s.net.find? fun m => m.w == w && m.src == .core c && m.kind == .register with
  | some m => some m.id
  | none => (s.acks.find? fun a => a.w == w && a.core == c).map (·.id)

/-- Registers a word of the L1 if it is dirty and not owned; answers the acknowledgement to wait for. A host word also
goes to the host (R93). -/
def settleWord (s : State) (c fn w : Nat) : Option Nat × State :=
  match l1At (coreAt s c) w with
  | none => (none, s)
  | some x =>
    if x.d && !x.o then
      let n := s.nid
      let s := sendMsg s { id := 0, src := .core c, fn := fn, w := w, kind := .register, launch := x.by_ }
      let s := if tierOf w = 2 then hostWrite s w (l1Dirty x).mw.data 0xFF else s
      (some n, l1Set! s c w { x with o := true, rank := none })
    else (if x.o then regUnderWay s c w else none, s)

/-- Clears the rank of a word at its home, or at its peer's, for item `acc` (R134, R147); answers what to wait for. -/
def clearRankAt (s : State) (c slot lane fn acc w : Nat) : List Nat × State :=
  if lostWord s w then ([], s)
  else if tierOf w = 3 then ([s.nid], sendRemote s c slot lane acc w opWrite 0 0 none)
  else ([s.nid], sendMsg s { id := 0, src := .core c, fn := fn, w := w, kind := .rankClear, acc := acc })

/-- A word that a store wrote in the L1 stands there no longer as it left it: it has been written home, and is settled as a word
written at home is, behind that write (R131, R134). DEDUCED (log 137). -/
def wentHome (x : Core) (w : Nat) : Bool :=
  match l1At x w with
  | none => true
  | some y => !y.d && !y.o

/-- Settles words of the L1, and clears ranks of words written at home; answers what to wait for. -/
def settleWords (s : State) (c slot lane fn acc : Nat) (l1 home : List Nat) : List Nat × State :=
  let a := l1.foldl (fun (a : List Nat × State) w =>
    if wentHome (coreAt a.2 c) w then
      let r := clearRankAt a.2 c slot lane fn acc w
      (a.1 ++ r.1, r.2)
    else match settleWord a.2 c fn w with
      | (some n, s) => (a.1 ++ [n], s)
      | (none, s) => (a.1, s)) (([] : List Nat), s)
  home.foldl (fun (a : List Nat × State) w =>
    let r := clearRankAt a.2 c slot lane fn acc w
    (a.1 ++ r.1, r.2)) a

/-! ### Stores -/

/-- The rank of a storing lane (R132). -/
def laneRank (slot lane : Nat) : Nat × Nat := (slot, lane)

/-- Drops the L1's copy of a word, written home first if it is dirty (R99, R136). A fill under way installs none. -/
def flushWord (s : State) (c w : Nat) : State :=
  let s := match l1At (coreAt s c) w with
    | some x => l1Drop (writeBack s c w x) c w
    | none => s
  modCore s c fun x => { x with mshrs := x.mshrs.map fun m =>
    { m with asks := m.asks.map fun a =>
        if m.sector = sectorOf w ∧ a.pos = w % 16 then { a with stale := some (a.stale.getD s.nid) } else a } }

/-- How one word of a store goes: where, under which page. -/
structure StoreWay where
  fn : Nat
  launch : Nat
  key : Nat
  sector : Bool
  hint : Hint

def StoreWay.alloc (y : StoreWay) : Alloc :=
  match y.hint with
  | .stream => .stream
  | .bypass => .bypass
  | _ => .normal

/-- A word of a lane's store goes to its home or to a peer, not into the L1. -/
def StoreWay.past (y : StoreWay) (w : Nat) : Bool := tierOf w == 3 || y.hint == .stream || y.hint == .bypass

/-- A launch's store goes to a word of a peer, whose rank its end clears (R136, R147). -/
def noteRemote (s : State) (launch w : Nat) : State :=
  modLaunch s launch fun y => { y with remote := if y.remote.contains w then y.remote else w :: y.remote }

/-- Adds to CECNT of a lane's group where a read of the L1 for part of a word corrects it (R304). -/
def countPart (s : State) (c : Nat) (it : Item) (p : StorePart) : State :=
  match l1At (coreAt s c) p.w with
  | some y => if p.mask != 0xFF && (l1Read y).2 then countCe s c it.slot it.gid else s
  | none => s

/-- An access to a peer that is lost is dropped, and an error record names the peer (R149). -/
def dropRemote (s : State) (fn w : Nat) : State := errorRecord s fn (BitVec.ofNat 64 (peerOf w)) 0 0

/-- A lane's store to one word leaves, for the lane of `it`: into the L1, to its home, or to a peer (R99, R100, R127, R147).
Answers the items that stand for what is not performed yet. A part of a word that the L1 lacks waits as an item of its own, and the
word is still to be asked for. -/
def storePart (s : State) (c : Nat) (it : Item) (y : StoreWay) (p : StorePart) : List Nat × State :=
  let mw : MWord := { data := p.data, tag := p.tag.getD 0, tagd := p.tag.isSome }
  let rank := laneRank it.slot it.lane
  let n := s.nid
  if lostWord s p.w then ([], dropRemote s y.fn p.w)
  else if tierOf p.w = 3 then
    let s := pushItem (noteRemote s y.launch p.w) c { it with va := 0, body := .homeStore p.w }
    ([n], sendRemote s c it.slot it.lane n p.w opWrite p.mask p.data none)
  else if y.hint = .stream ∨ y.hint = .bypass then
    let fixed := p.mask != 0xFF && match l1At (coreAt s c) p.w with | some x => backFixes x | none => false
    let s := flushWord s c p.w
    let n := s.nid
    let s := pushItem s c { it with va := 0, body := .homeStore p.w }
    let s := sendMsg s { id := 0, src := .core c, fn := y.fn, w := p.w, kind := .ranked (fullRank s c rank) p.mask mw,
                         alloc := y.alloc, key := y.key, sector := y.sector, acc := n, batch := it.op, launch := [y.launch],
                         corrected := fixed }
    ([n], s)
  else
    let s := if p.mask = 0xFF then s else dropLost s c p.w
    if (l1At (coreAt s c) p.w).isSome || p.mask == 0xFF then
      ([], storeL1 (countPart s c it p) c rank y.launch y.fn y.key y.sector (y.hint == .ro) p { tagd := false })
    else ([n], pushItem s c { it with va := 0, body := .merge p y.key y.sector (y.hint == .ro) })

/-- Parts of words that the items from number n on wait to merge: words that the L1 holds by now take them, and the others are asked
for together, sector by sector (R100, R101). -/
def askMerges (s : State) (c n : Nat) : State :=
  let mine := (coreAt s c).items.filter fun i => decide (n ≤ i.id)
  let s := mine.foldl (fun s i => match i.body with
    | .merge p key sector ro =>
      if (l1At (coreAt s c) p.w).isNone then s
      else endItem (storeL1 (countPart s c i p) c (laneRank i.slot i.lane) i.launch i.fn key sector ro p { tagd := false }) c i.id
    | _ => s) s
  askHits s c ((mine.head?.map (·.fn)).getD 0) false (mine.filterMap fun i => match i.body with
    | .merge p key sector _ => if (l1At (coreAt s c) p.w).isNone then some (p.w, key, sector) else none
    | _ => none)

/-! ### Releases (R134, R167) -/

/-- Number, group and slot of an entry of a copy queue. -/
def cmdNum : CopyCmd → Nat
  | .cmd i .. => i
  | .fence i .. => i
def cmdGid : CopyCmd → Nat
  | .cmd _ g .. => g
  | .fence _ g .. => g
def cmdSlot : CopyCmd → Nat
  | .cmd _ _ sl .. => sl
  | .fence _ _ sl _ => sl

/-- A request of the command has been sent. -/
def cmdBegun : CopyCmd → Bool
  | .cmd _ _ _ _ _ _ _ us _ _ => us.any fun u => u.asked || u.sent || u.written || u.landed
  | .fence .. => false

/-- Accepts an entry at the tail of a queue. Of the entries of one cycle those of lower quarters stand first (R154). -/
def acceptCmd (s : State) (c q : Nat) (e : CopyCmd) : State :=
  let t := podClock s (podOf c)
  modCore s c fun x =>
    let new := if x.cqCycle = t then x.cqNew else []
    let before := fun (f : CopyCmd) => !(new.contains (cmdNum f) && decide (cmdSlot e / 32 < cmdSlot f / 32) && !cmdBegun f)
    let es := tget x.cq q []
    { x with cq := tset x.cq q (es.takeWhile before ++ e :: es.dropWhile before), cqCycle := t, cqNew := new ++ [cmdNum e] }

/-- Commands in a copy queue, places that FENCE.q has still to fill among them (R157). -/
def queueUsed (x : Core) (q : Nat) : Nat :=
  (tget x.cq q []).length + (x.items.filter fun i => match i.body with
    | .release (.queue m) .. => m.getLsbD q
    | _ => false).length

/-- Accesses of R127, which a fence or a release waits for. In-memory operations count for FENCE.mem alone (R167). -/
def Body.isAccess : Body → Bool
  | .twrecv .. | .topk .. | .mma _ | .taskDec .. | .inmem .. | .copyUnit .. | .prefetch .. | .feRead _ => false
  | _ => true

def Body.isInmem : Body → Bool
  | .inmem .. => true
  | _ => false

/-- A copy command of a thread that has not made its arrival: its reads and writes are accesses of the lane (R155). -/
def laneCopies (x : Core) (launch : Nat) (wid : DWord) (before : Nat) : Bool :=
  x.cq.any fun e => e.2.any fun
    | .cmd id _ _ l _ _ _ _ runs _ => l == launch && decide (id < before) && runs.any fun r => r.wid == wid && !r.done
    | .fence .. => false

/-- Whether a thread has an access issued before number `before` that is not performed, wherever REGROUP has moved it.
DEDUCED (log 48). -/
def lanePending (x : Core) (launch : Nat) (wid : DWord) (before : Nat) (mem : Bool) : Bool :=
  (x.items.any fun i => decide (i.id < before) && i.of launch wid && (i.body.isAccess || (mem && i.body.isInmem)))
    || laneCopies x launch wid before

def RelKind.mem : RelKind → Bool
  | .fence _ m _ => m
  | _ => false

/-- A scratchpad word as a read finds it, and whether it was corrected (R98, R106). -/
def SpadWord.fixed (x : SpadWord) : SpadWord × Bool :=
  match eccRead { data := x.data, pois := x.pois } x.syn with
  | .good => (x, false)
  | .fixed mw => ({ data := mw.data, pois := x.pois }, true)
  | .lost => ({ data := x.data, pois := true }, false)

def spadAt (t : Tbl SpadWord) (i : Nat) : SpadWord := (tget t i {}).fixed.1

/-- Scratchpad words of n bytes from an offset on. -/
def spadWords (off n : Nat) : List Nat := ((List.range n).map fun i => (off + i) / 8).eraseDups

/-- A read rewrites in place what it corrects, or poisons; answers how many words it corrected (R98, R106). -/
def spadRewrite (t : Tbl SpadWord) (off n : Nat) : Tbl SpadWord × Nat :=
  (spadWords off n).foldl (fun (a : Tbl SpadWord × Nat) i =>
    let x := tget a.1 i {}
    if x.syn = 0 then a else (tset a.1 i x.fixed.1, a.2 + x.fixed.2.toNat)) (t, 0)

/-- Writes bytes into a set's scratchpad from an offset on. A whole word written is fresh, a part keeps poison (R418). -/
def spadWrite (t : Tbl SpadWord) (off : Nat) (bs : List Byte) : Tbl SpadWord :=
  (spadWords off bs.length).foldl (fun t w =>
    let old := spadAt t w
    let new := (List.range 8).map fun i =>
      let p := 8 * w + i
      if off ≤ p ∧ p < off + bs.length then bs.getD (p - off) 0 else old.data.extractLsb' (8 * i) 8
    let whole := decide (off ≤ 8 * w) && decide (8 * w + 8 ≤ off + bs.length)
    tset t w { data := wordOfBytes new, pois := if whole then false else old.pois }) t

/-- DESIGN CHOICE (log 35). -/
def spadRead (t : Tbl SpadWord) (off n : Nat) : List Byte :=
  (List.range n).map fun i => (spadAt t ((off + i) / 8)).data.extractLsb' (8 * ((off + i) % 8)) 8

def spadPois (t : Tbl SpadWord) (off n : Nat) : Bool := (spadWords off n).any fun w => (spadAt t w).pois

/-! ### Sync words (R107) -/

/-- One arrival of b bytes at the sync word at an offset. One of no bytes changes nothing (R422). -/
def swArrive (t : Tbl SpadWord) (off : Nat) (b : Word) (pois : Bool) : Tbl SpadWord :=
  if b = 0 then t else
  let lo := spadAt t (off / 8)
  let hi := spadAt t (off / 8 + 1)
  let target := (lo.data.extractLsb' 0 32).toNat
  let sum := (lo.data.extractLsb' 32 32).toNat + b.toNat
  let wrap := hi.data.getLsbD 33 || decide (2 ^ 32 ≤ sum)
  let count := sum % 2 ^ 32
  let steps := if target = 0 then 0 else count / target
  let count := if target = 0 then count else count % target
  let gen : Word := hi.data.extractLsb' 0 32 + BitVec.ofNat 32 steps
  let flags : Word := (if wrap then 2 else 0) ||| (if pois || hi.data.getLsbD 32 then 1 else 0)
  tset (tset t (off / 8) { lo with data := BitVec.ofNat 32 count ++ (BitVec.ofNat 32 target) }) (off / 8 + 1)
    { hi with data := flags ++ gen }

def swGen (t : Tbl SpadWord) (off : Nat) : Word := (spadAt t (off / 8 + 1)).data.extractLsb' 0 32

/-- SWWAIT lanes whose generation has changed perform their acquire and complete (R423). -/
def wakeSw (s : State) (c : Nat) : State :=
  let done := (coreAt s c).items.filter fun i => match i.body with
    | .swwait set launch off gen => match setAt s launch set with
      | some x => swGen x.spad off != gen
      | none => false
    | _ => false
  done.foldl (fun s i => endItem (acquire s c) c i.id) s

/-- Changes a set's scratchpad, then tests the waits on its sync words. -/
def modSpad (s : State) (launch set : Nat) (f : Tbl SpadWord → Tbl SpadWord) : State :=
  let s := modSet s launch set fun x => if x.done then x else { x with spad := f x.spad }
  match setAt s launch set with
  | some x => match x.core with
    | some c => wakeSw s c
    | none => s
  | none => s

/-- An arrival of a copy. At a poisoned sync word it is not applied, and an error record goes out (R425). -/
def copyArrive (s : State) (fn launch set off : Nat) (b : Word) (pois : Bool) : State :=
  match setAt s launch set with
  | none => s
  | some x =>
    if spadPois x.spad off 16 then errorRecord s fn (BitVec.ofNat 64 off) 0 0
    else modSpad s launch set fun t => swArrive t off b pois

/-! ### Atomics (R136, R319) -/

/-- Sends one lane's atomic, its L1 copy first (R136); `red` returns nothing. -/
def sendAtomic (s : State) (c slot lane op_ : Nat) (y : StoreWay) (acc w off : Nat) (o : AOp) (b b2 : DWord)
    (ret : Bool) : State :=
  if tierOf w = 3 then
    let wide := match o with | .cas32 | .cas64 => some b2 | _ => none
    let m : BitVec 8 := if o.wide then 0xFF else if off = 0 then 0x0F else 0xF0
    sendRemote s c slot lane acc w (if ret then opAtom o else opRed o) m b wide
  else
    let fixed := match l1At (coreAt s c) w with | some x => backFixes x | none => false
    let s := flushWord s c w
    sendMsg s { id := 0, src := .core c, fn := y.fn, w := w, kind := .atomic o b b2 off, key := y.key, sector := y.sector,
                acc := acc, batch := op_, launch := [y.launch], corrected := fixed }

/-! ### Progress -/

/-- An atomic's old value lands, then its acquire is performed (R135, R319). -/
def endAtomic (s : State) (c : Nat) (it : Item) (off : Nat) (dsts : List Dest) (acq : Bool) (mw : MWord) : State :=
  let s := landAll s c it dsts [mw.data.extractLsb' (8 * off) 32, mw.data.extractLsb' 32 32] mw.pois
  endItem (if acq then acquire s c else s) c it.id

/-- What a lane's release does once its wait is over. Its group may have gone meanwhile (R342). An access to a peer that is
lost by then is dropped (R149). -/
def ownAccess (s : State) (c : Nat) (it : Item) (kind : RelKind) : State :=
  match kind with
  | .fence acq _ _ => endItem (if acq then acquire s c else s) c it.id
  | .queue m =>
    (List.range 4).foldl (fun s q => if m.getLsbD q then acceptCmd s c q (.fence it.id it.gid it.slot (laneBit it.lane)) else s)
      (modItem s c it.id fun _ => .qfence it.id)
  | .store parts y atHome =>
    let r := parts.foldl (fun (a : List Nat × State) p =>
      let x := storePart a.2 c it ⟨it.fn, it.launch, y.1, y.2.1, y.2.2⟩ p
      (a.1 ++ x.1, x.2)) (([] : List Nat), s)
    modItem r.2 c it.id fun _ => .settle r.1 (parts.map (·.w)) atHome
  | .atomic o w off b b2 acq dsts y ret =>
    if lostWord s w then endAtomic (dropRemote s it.fn w) c it off dsts acq { pois := true }
    else
      sendAtomic (modItem s c it.id fun _ => .atomic w off dsts acq) c it.slot it.lane it.op
        ⟨it.fn, it.launch, y.1, y.2, .normal⟩ it.id w off o b b2 ret
  | .sts off bs => endItem (modSpad s it.launch it.set fun t => spadWrite t off bs) c it.id
  | .swarr off b => endItem (modSpad s it.launch it.set fun t => swArrive t off b false) c it.id

/-- All lanes of the instruction stand at the end of their waits, so that its words are reached in lane order (R320). -/
def allReady (x : Core) (op : Nat) : Bool :=
  x.items.all fun i => i.op != op || match i.body with
    | .release _ st ws => st && ws.isEmpty
    | _ => true

/-- The core has room for the words that an instruction's release stores fetch (R20, R102). -/
def relFits (s : State) (c op : Nat) : Bool :=
  let its := (coreAt s c).items.filter fun i => i.op == op
  let need := its.flatMap fun i => match i.body with
    | .release (.store ps y false) .. =>
      (ps.filter fun p => p.mask != 0xFF).map fun p => (p.w, y.1, y.2.1)
    | _ => []
  let n := capacityNeed s c ((its.head?.map (·.fn)).getD 0) need 0
  capacityFor (coreAt s c) n.1 n.2

/-- One item moves on if it can. -/
def stepItem (s : State) (c n : Nat) : State :=
  match itemAt s c n with
  | none => s
  | some it =>
    match it.body with
    | .release kind started waits =>
      let s :=
        if started || lanePending (coreAt s c) it.launch it.wid it.id kind.mem then s
        else
          let r := settleWords s c it.slot it.lane it.fn it.id it.wrote it.wroteHome
          modItem r.2 c n fun _ => .release kind true (waits ++ r.1)
      match itemAt s c n with
      | some it => match it.body with
        | .release _ true [] =>
          if allReady (coreAt s c) it.op && relFits s c it.op then
            let m := s.nid
            askMerges (((coreAt s c).items.filter fun i => i.op == it.op).foldl (fun s i => match i.body with
              | .release kind true [] => ownAccess s c i kind
              | _ => s) s) c m
          else s
        | _ => s
      | none => s
    | .settle [] [] _ => endItem s c n
    | .settle [] ws atHome =>
      let r := settleWords s c it.slot it.lane it.fn n (if atHome then [] else ws) (if atHome then ws else [])
      if r.1.isEmpty then endItem r.2 c n else modItem r.2 c n fun _ => .settle r.1 [] atHome
    | _ => s

/-- Every piece of work of a core moves on as far as it can, oldest first. -/
def progress (s : State) (c : Nat) : State :=
  ((coreAt s c).items.map (·.id)).foldl (fun s n => stepItem s c n) s

/-! ### Arrivals at a core -/

/-- The answer to message m reaches the L1: the word is installed, parts that waited for it are merged, and lanes that
wait receive it (R101, R135). -/
def fillWord (s : State) (c m w : Nat) (mw : MWord) (cor : Bool) : State :=
  let mine := fun (a : Ask) => a.msg == m
  let ask := (coreAt s c).mshrs.findSome? fun e => e.asks.find? mine
  let ro := (ask.map (·.ro)).getD false
  let limit := ask.bind (·.stale)
  let sel := fun (i : Item) => !i.past && match limit with | some k => decide (i.id < k) | none => true
  let s := modCore s c fun x => { x with mshrs := (x.mshrs.map fun e =>
      { e with asks := e.asks.filter fun a => !mine a }).filter fun e => !e.asks.isEmpty }
  let merges := (coreAt s c).items.filter fun i => sel i && match i.body with | .merge p .. => p.w == w | _ => false
  let s := if cor then countCode (countFor s c (merges ++ (coreAt s c).items.filter fun i => sel i && i.wants w)) c
    ((ask.map (·.code)).getD []) else s
  let s := match l1At (coreAt s c) w with
    | some y => if y.mw.tagd then s else l1Set! s c w { y with mw := { y.mw with tag := mw.tag, tagd := true } }
    | none =>
      if limit.isSome && !ro then s
      else l1Set! (l1Alloc s c w) c w { mw := mw, ro := ro }
  let val := match l1At (coreAt s c) w with | some y => (l1Dirty y).mw | none => mw
  let s := giveWord s c sel w val
  let s := merges.foldl (fun s i => match i.body with
    | .merge p key sector r => endItem (storeL1 s c (laneRank i.slot i.lane) i.launch i.fn key sector r p mw) c i.id
    | _ => s) s
  progress s c

/-- A response to item `acc` reaches a core: a word, an old value, or an acknowledgement (R319, R127). A word answers instruction
`ins` and serves every lane of its load that waits, whatever has become of the lane that asked (R298). -/
def answerItem (s : State) (c acc ins mid w : Nat) (mw : MWord) (cor : Bool) : State :=
  let count := fun (s : State) (its : List Item) => if cor then countFor s c its else s
  let sel := fun (i : Item) => i.op == ins && decide (i.id < mid)
  let s := giveWord (count s ((coreAt s c).items.filter fun i => sel i && i.wants w)) c sel w mw
  let s := match itemAt s c acc with
    | none => s
    | some it => match it.body with
      | .load .. => s
      | .homeStore _ => endItem (count s [it]) c acc
      | .atomic _ off dsts acq => endAtomic (count s [it]) c it off dsts acq mw
      | _ => modItem s c acc (Body.without mid)
  progress s c

end Sys2Proof.Machine
end

