-- ==== Sys2Proof/Machine/Issue.lean ====
section
/-! DEFINITION. Issue.lean: which lanes issue (R41, R49, R50), fetching a clause (R39, R40, R281), and the checks that come
before an instruction's own (steps 1 to 4 of R280, R221, R222). -/
namespace Sys2Proof.Machine

/-! ### Parked lanes -/

/-- A register of a wait is full in every lane of its mask. -/
def waitMet (g : Group) (w : RegRef × Mask) : Bool :=
  match w.1 with
  | .v n => match vreg? g n with
    | some r => w.2 &&& ~~~r.full == 0
    | none => true
  | .s n => (sregAt g n).full

/-- Some lane of the parked split set of instruction `op` has its operands full (R52). -/
def splitReady (g : Group) (op : Nat) : Bool :=
  (List.range 64).any fun l => match (threadAt g l).park, (threadAt g l).parts with
    | .split ws, some q => q.op == op && (ws.filter fun w => w.2.getLsbD l).all fun w => waitMet g (w.1, laneBit l)
    | _, _ => false

/-- No group of the core has waited for the pool longer (R44). Of groups that parked in one cycle the lower slot goes first.
DESIGN CHOICE (log 118). -/
def poolFirst (x : Core) (slot since : Nat) : Bool :=
  x.groups.all fun e => e.1 == slot || e.2.threads.all fun t => match t.park with
    | .pool b _ => since < b || (since == b && decide (slot < e.1))
    | _ => true

/-- The generation that a barrier number stands at for a thread, and whether it is lost. -/
def barNow (s : State) (g : Group) (t : Thread) (id : Nat) : Word × Bool :=
  if id < 64 then
    match setAt s g.launch (setOfWid (hdrOf s g) t.wid) with
    | some x => ((tget x.bars id {}).gen, false)
    | none => (0, false)
  else
    let o := tget (fnAt s g.fn).colls (id - 64) {}
    (o.gen, o.lost || !o.en)

/-- Arrival count of the twin at TWBAR n, as it stands on this side of the link (R168, R186). A gated or ungating upper core's
is that of the gating image (R190). -/
def twinArrivals (s : State) (c n : Nat) : Word :=
  let p := podAt s (podOf c)
  if !isUpper c && p.upst.getLsbD 1 then match p.image with
    | some (_, t) => tget t n 0
    | none => 0
  else
    let y := coreAt s (twinOf c)
    tget y.twb n 0 - BitVec.ofNat 32 (y.link.filter fun e => e.item == .bar n).length

/-- What a lane is parked on has come about. -/
def parkClear (s : State) (c slot : Nat) (g : Group) (l : Nat) : Bool :=
  let x := coreAt s c
  let t := threadAt g l
  match t.park with
  | .no => true
  | .src ws => ws.all (waitMet g)
  | .split _ => match t.parts with | some q => splitReady g q.op | none => true
  | .pool since names => let need := poolNeed g names
    need == 0 || (decide (need ≤ poolFree x) && poolFirst x slot since)
  | .lvq => decide (g.lvq.length < 64)
  | .order m => (lanesOf m).all fun l => !(threadAt g l).live || !laneBlocked x g.launch (threadAt g l).wid
  | .capacity entries words => capacityFor x entries words
  | .fault _ | .contained _ => false
  | .latch => g.gangFault.isSome || g.latch.isNone
  | .copyq m => (List.range 4).all fun q => !m.getLsbD q || decide (queueUsed x q < 64)
  | .tile m lock => (List.range 16).all fun i => !m.getLsbD i ||
      ((tget x.tiles i {}).full && (!lock || (tget x.tiles i {}).locks == 0))
  | .fifo => decide (0 < outFree x)
  | .twbar n k => decide (0 ≤ ((twinArrivals s c n) - k).toInt)
  | .waite m => (List.range 8).all fun i => !m.getLsbD i || (tget? g.sb i).isNone
  | .bar id => let b := barNow s g t id; t.wb != id || b.1 != t.wg || b.2

/-! ### The lane set (R49) -/

/-- A live lane of the group is inside a non-pre-emptible region: light pre-emption waits, and lanes that it has stopped
run on (R222, R387). -/
def inRegion (g : Group) : Bool := g.threads.any fun t => t.live && t.npIn

/-- A lane is ready (R49). While a handler runs, only its lanes are (R212); lanes that a pre-emption has stopped, and
lanes of a set under hard pre-emption, are not (R220). -/
def ready (s : State) (c slot : Nat) (g : Group) (l : Nat) : Bool :=
  let t := threadAt g l
  t.live && !heldAny g l && (!t.stopped || inRegion g) && (!g.tactive || g.handler.getLsbD l) && parkClear s c slot g l

/-- Every lane that could issue is parked, whatever has stopped the group (R46, R190). -/
def allParked (s : State) (c slot : Nat) (g : Group) : Bool :=
  (List.range 64).all fun l => let t := threadAt g l
    !t.live || heldAny g l || (g.tactive && !g.handler.getLsbD l) || !parkClear s c slot g l

/-- Containment of a group's launch has begun (R233). -/
def contained (s : State) (g : Group) : Bool :=
  match launchAt s g.launch with
  | some y => y.stopping
  | none => false

/-- A set's groups may issue at all. A group whose scoreboard copies disagree waits for the repair (R231). -/
def mayIssue (s : State) (g : Group) : Bool :=
  g.shadowOf.isNone && g.sb == g.sb2 && !g.hard && !contained s g && !((groupSets s g).any fun n => match setAt s g.launch n with
    | some x => x.stop == .hard
    | none => false)

/-- The lane set: the smallest PC, then the greatest depth. Lanes that stand inside a clause as they fetched it, and
lanes that have still to fetch at the same address, do not mix (log 9). -/
def laneSetOf (s : State) (c slot : Nat) (g : Group) : Mask :=
  if !mayIssue s g then 0
  else
    let ls := (List.range 64).filter (ready s c slot g)
    match ls with
    | [] => 0
    | l0 :: _ =>
      let pc := ls.foldl (fun m l => if (threadAt g l).pc.toNat < m then (threadAt g l).pc.toNat else m) (threadAt g l0).pc.toNat
      let ls := ls.filter fun l => (threadAt g l).pc.toNat == pc
      let d := ls.foldl (fun m l => max m (threadAt g l).depth.toNat) 0
      let ls := ls.filter fun l => (threadAt g l).depth.toNat == d
      let lead := threadAt g ((ls.find? fun l => (threadAt g l).mid).getD (ls.headD 0))
      maskOf fun l => ls.contains l && (threadAt g l).mid == lead.mid && (threadAt g l).run == lead.run

/-! ### Fetching a clause -/

/-- A word of code, a walk or words to wait for, or a trap. -/
inductive Fetch where
  | word (d : DWord) (s : State)
  | wait (s : State)
  | trap (t : TrapReq) (s : State)

/-- A word of code that the L1 does not hold is asked for as by a plain load, unless it has been (R281). The group is noted beside
what is asked (R304). -/
def askCode (s : State) (c slot gid fn w : Nat) (e : TlbEntry) : State :=
  let x := coreAt s c
  let mine := fun (m : Mshr) (a : Ask) => m.sector == sectorOf w && a.pos == w % 16 && a.stale.isNone
  let s := if x.mshrs.any (fun m => m.asks.any (mine m)) || !capacityFor x 1 16 then s
    else askWords s c fn e.key false e.sector [w]
  let note := fun (a : Ask) => if a.code.contains (slot, gid) then a else { a with code := a.code ++ [(slot, gid)] }
  modCore s c fun x => { x with mshrs := x.mshrs.map fun m => { m with asks := m.asks.map fun a => if mine m a then note a else a } }

/-- One word of code (R91, R281), from the L1. Code reads raw bits. A poisoned word of code is used as it stands (log 10). -/
def fetchCode (s : State) (c slot : Nat) (g : Group) (m : Mask) (va : DWord) : Fetch :=
  if !canonical va then .trap ⟨tcProtection, m, addrInfo 1 va⟩ s
  else
    let proc := procOf s g
    match lookup s c g.fn proc va false with
    | .miss => .wait (askWalk s c g.fn proc va false).2
    | .fault r => .trap ⟨tcPageFault, m, addrInfo r va⟩ (dropFailed s c g.fn proc)
    | .hit e =>
      if !e.x || 2 ≤ e.tier then .trap ⟨tcProtection, m, addrInfo 3 va⟩ s
      else
        let w := wkey e.tier (physOf e va)
        match l1Use s c w with
        | (some (mw, cor), s) => .word mw.data (if cor then countCe s c slot g.gid else s)
        | (none, s) => .wait (askCode s c slot g.gid g.fn w e)

/-- Words from an address on. Those that are not there are all asked for. -/
def fetchMany (s : State) (c slot : Nat) (g : Group) (m : Mask) (va : DWord) (waits : Bool) : Nat → List DWord → Fetch × List DWord
  | 0, acc => (if waits then .wait s else .word 0 s, acc)
  | n + 1, acc =>
    match fetchCode s c slot g m va with
    | .word d s => fetchMany s c slot g m (va + 8) waits n (acc ++ [d])
    | .wait s => fetchMany s c slot g m (va + 8) true n acc
    | f => (f, acc)

/-- The slots that a header waits on are clear (R41, R42). -/
def waitClear (g : Group) (h : Header) : Bool :=
  (List.range 8).all fun i => !h.wait.getLsbD i || (tget? g.sb i).isNone

/-- Lanes that stand inside a clause of which words are missing go on once these have been fetched (R281, R341). Answers whether the
group holds its quarter, or has done what the fetch asks for. -/
def resumeInside (s : State) (c slot : Nat) (g : Group) (m : Mask) (r : Run) : Bool × State :=
  let hold := fun s : State => modCore s c fun x => { x with quarters := tset x.quarters (slot / 32) (slot, m) }
  match fetchMany s c slot g m (r.addr + 8) false r.hdr.cnt [] with
  | (.wait s, _) => (true, hold s)
  | (.trap t s, _) => (true, takeTrap s c slot m (threadAt g (lowLane m)).pc r.addr (some r) t)
  | (.word _ s, ws) =>
    (true, hold (modGroup s c slot fun g => modThreads g m fun t => { t with mid := true, run := some { r with words := ws } }))

/-- Lanes of a group start the clause at their address (R41, R281): its header is fetched, WAIT is tested, and its words are fetched. The
group holds its quarter from then on, `hold`; before, a header that has not come keeps the quarter from other groups. Answers whether
the quarter goes to no other group. -/
def startSet (s : State) (c slot : Nat) (g : Group) (m : Mask) : Bool × State :=
  let pc := (threadAt g (lowLane m)).pc
  let hold := fun s : State => modCore s c fun x => { x with quarters := tset x.quarters (slot / 32) (slot, m) }
  let trap := fun (s : State) (run : Option Run) (r : TrapReq) => (true, takeTrap s c slot m pc pc run r)
  if pc.toNat % 8 ≠ 0 then trap s none ⟨tcBadClause, m, 0⟩
  else match fetchCode s c slot g m pc with
    | .wait s => (true, s)
    | .trap r s => trap s none r
    | .word d s =>
      match decodeHeader d with
      | none => trap s none ⟨tcBadClause, m, d⟩
      | some h =>
        let light := (groupSets s g).any fun n => match setAt s g.launch n with
          | some x => x.stop == .light
          | none => false
        let stop := maskOf fun l => m.getLsbD l && h.sp && light && !inRegion g
        if stop ≠ 0 then
          (false, modGroup s c slot fun g => modThreads g stop fun t => { t with stopped := true, stopLive := some h.live })
        else if !waitClear g h then (false, s)
        else match fetchMany s c slot g m (pc + 8) false h.cnt [] with
          | (.wait s, _) => (true, hold s)
          | (.trap r s, _) => trap s (some ⟨pc, h, []⟩) r
          | (.word _ s, ws) =>
            -- lanes that reach their meet address here are held (R54, R55)
            (true, hold (modGroup s c slot fun g => releaseMeets (modThreads g m fun t =>
              { t with pc := pc + 8, mid := true, run := some ⟨pc, h, ws⟩, park := .no, stopped := false, stopLive := none,
                       spcnt := if h.sp then 0 else t.spcnt })))

/-- A group of a quarter tries to start its lane set's next clause, or goes on inside one. Answers whether it holds the quarter, keeps
it from other groups or has done what the start asks for, such as a trap. -/
def tryStart (s : State) (c slot : Nat) : Bool × State :=
  match groupAt s c slot with
  | none => (false, s)
  | some g =>
    let m := laneSetOf s c slot g
    if m = 0 then (false, s)
    else
      let t := threadAt g (lowLane m)
      let hold := fun s : State => modCore s c fun x => { x with quarters := tset x.quarters (slot / 32) (slot, m) }
      if let some o := g.overrun then
        -- the trap that the pre-emption came before (R221)
        let t := threadAt g (lowLane o.set)
        let s := modGroup s c slot fun g => { modThreads g o.lanes (fun t => { t with spcnt := 0 }) with overrun := none }
        (true, takeTrap s c slot o.set t.pc ((t.run.map (·.addr)).getD t.pc) t.run ⟨tcSafepoint, o.lanes, o.count.zeroExtend 64⟩)
      else if t.mid then (true, hold s)
      else match t.run with
        | some r => resumeInside s c slot g m r
        | none => startSet s c slot g m

/-- Priority of a group's launch (R36). -/
def prioOf (s : State) (g : Group) : Nat := (hdrOf s g).prio

/-- Groups of a quarter in the order in which R41 prefers them. -/
def candidates (s : State) (c q : Nat) : List Nat :=
  let gs := (coreAt s c).groups.filter fun e => e.1 / 32 == q && laneSetOf s c e.1 e.2 != 0
  let better := fun (a b : Nat × Group) =>
    if prioOf s a.2 ≠ prioOf s b.2 then decide (prioOf s b.2 < prioOf s a.2)
    else if a.2.since ≠ b.2.since then decide (a.2.since < b.2.since)
    else decide (a.1 < b.1)
  (gs.foldl (fun (r : List (Nat × Group)) e =>
    (r.takeWhile fun f => better f e) ++ e :: (r.dropWhile fun f => better f e)) []).map (·.1)

/-! ### The next instruction of a clause -/

/-- Word n of a clause is the literal of the word before it. DEDUCED (log 41). -/
def literalAt (ws : List DWord) (n : Nat) : Bool :=
  ((List.range n).foldl (fun (skip : Bool) i => if skip then false else wordsOf (ws.getD i 0) == 2) false)

/-- Opcodes that raise ILLEGAL_OP in early service (R250). -/
def earlyIllegal (op : BitVec 8) : Bool := (0xA0#8 ≤ op && op ≤ 0xA6#8) || op == 0x91

/-- What a quarter does. -/
inductive Prep where
  | done (s : State)
  | run (i : Instr) (s : State)

/-- Steps 1 to 4 of R280 on an instruction word of a clause. -/
def checkWord (s : State) (r : Run) (n : Nat) : TrapReq ⊕ Instr :=
  let w := r.words.getD n 0
  let lit := r.words.getD (n + 1) 0
  let f := splitWord w
  -- a literal stands in no instruction's place (R341)
  if literalAt r.words n then .inl ⟨tcBadClause, 0, w⟩
  else match Mn.ofOp f.op with
  | none => .inl ⟨tcIllegalOp, 0, w⟩
  | some m =>
    if !s.full && earlyIllegal f.op then .inl ⟨tcIllegalOp, 0, w⟩
    else if (match engineOf f.op with | some e => !r.hdr.lists e | none => false)
        || (m.standsLast && n + 1 != r.hdr.cnt) || (hasLiteral m f && r.hdr.cnt ≤ n + 1) then
      .inl ⟨tcBadClause, 0, w⟩
    else match decodeFields m f lit with
      | .ok i => .inr i
      | .illegalOp => .inl ⟨tcIllegalOp, 0, w⟩
      | .illegalOperand => .inl ⟨tcIllegalOperand, 0, w⟩

/-- Lanes whose next issue passes a limit: NP_OVERRUN inside a region, SAFEPOINT_OVERRUN outside (R221, R222). -/
def overruns (g : Group) (m : Mask) : Mask × Mask :=
  (maskOf fun l => m.getLsbD l && (threadAt g l).npIn && decide (1024 ≤ (threadAt g l).npCnt.toNat),
   maskOf fun l => m.getLsbD l && !(threadAt g l).npIn && decide (2048 ≤ (threadAt g l).spcnt.toNat))

/-- A pre-emption of the group's sets is pending. -/
def stopPending (s : State) (g : Group) : Bool :=
  (groupSets s g).any fun n => match setAt s g.launch n with
    | some x => x.stop != .none
    | none => false

/-- Lanes of a quarter's set that go on: not held (R54), not stopped, and of the handler's lanes while one runs (R212). -/
def goingOn (g : Group) (m : Mask) : Mask :=
  maskOf fun l => m.getLsbD l && (threadAt g l).live && (threadAt g l).mid && !heldAny g l
    && (!(threadAt g l).stopped || inRegion g) && (!g.tactive || g.handler.getLsbD l)

/-- Lanes of a quarter's set that have not come to their clause's first word, or to the word at which they resume. -/
def startingLanes (s : State) (c slot : Nat) (g : Group) (m : Mask) : Mask :=
  maskOf fun l => m.getLsbD l && !(threadAt g l).mid && ready s c slot g l

/-- A group that holds its quarter goes on fetching its clause, or lets the quarter go. -/
def fetchOn (s : State) (c slot : Nat) (g : Group) (m : Mask) : State :=
  if m = 0 || !mayIssue s g then freeQuarter s c slot
  else
    let a := match (threadAt g (lowLane m)).run with
      | some r => resumeInside s c slot g m r
      | none => startSet s c slot g m
    if a.1 then a.2 else freeQuarter a.2 c slot

/-- The quarter's lane set comes to its next instruction. DESIGN CHOICE (log 107). -/
def prepare (s : State) (c q : Nat) : Prep :=
  match tget? (coreAt s c).quarters q with
  | none => .run (.clauseStart c q) s
  | some (slot, m0) =>
    match groupAt s c slot with
    | none => .done (modCore s c fun x => { x with quarters := tdel x.quarters q })
    | some g =>
      let m := goingOn g m0
      let t := threadAt g (lowLane m)
      match t.run with
      | none => .done (fetchOn s c slot g (startingLanes s c slot g m0))
      | some r =>
        if m = 0 ∨ !mayIssue s g then .done (fetchOn s c slot g (startingLanes s c slot g m0))
        else if linkStalls (coreAt s c) q then .done s
        else
          let s := modCore s c fun x => { x with quarters := tset x.quarters q (slot, m) }
          let n := (t.pc.toNat - r.addr.toNat) / 8 - 1
          let w := r.words.getD n 0
          let len := wordsOf w
          let op := (((lanesOf m).findSome? fun l => (threadAt g l).parts).map (·.op)).getD s.nid
          let k : Cur := { core := c, slot := slot, lanes := m, pc := t.pc, word := w, lit := r.words.getD (n + 1) 0,
                           next := t.pc + BitVec.ofNat 64 (8 * len), last := decide (r.hdr.cnt ≤ n + len), run := r, op := op }
          let s := { s with nid := s.nid + 1 }
          let (np, sp) := overruns g m
          if np ≠ 0 then
            let s := modGroup s c slot fun g => modThreads g np fun t => { t with npIn := false }
            .done (trapFirst k s ⟨tcNpOverrun, np, (0x80000000 ||| (threadAt g (lowLane np)).npCnt).zeroExtend 64⟩)
          else if sp ≠ 0 then
            let count := (threadAt g (lowLane sp)).spcnt
            if stopPending s g then
              .done (freeQuarter (modGroup s c slot fun g => { g with hard := true, overrun := some ⟨m, sp, count⟩ }) c slot)
            else
              let s := modGroup s c slot fun g => modThreads g sp fun t => { t with spcnt := 0 }
              .done (trapFirst k s ⟨tcSafepoint, sp, count.zeroExtend 64⟩)
          else match checkWord s r n with
            | .inl x => .done (trapFirst k s { x with lanes := m })
            | .inr i => .run i { s with cur := some k }

/-- CLAUSE_START (R41): an idle quarter starts the next clause of the group it prefers. -/
def startClause (s : State) (c q : Nat) : State :=
  let x := coreAt s c
  if x.gated || x.retention || (tget? x.quarters q).isSome || linkStalls x q then s
  else
    ((candidates s c q).foldl (fun (a : Bool × State) slot => if a.1 then a else tryStart a.2 c slot) (false, s)).2

end Sys2Proof.Machine
end

