-- ==== Sys2Proof/Machine/Preempt.lean ====
section
/-! DEFINITION. Preempt.lean: pre-emption requests (R220), and starting the power gating of an upper core (R189, R190). -/
namespace Sys2Proof.Machine

/-! ### Requests -/

/-- A request reaches one resident set. It joins one that is pending; a hard one makes it hard (R220). -/
def requestSet (s : State) (launch set : Nat) (hard : Bool) (cause : Nat × Nat) : State :=
  modSet s launch set fun x =>
    if x.core.isNone || x.done then x
    else { x with stop := if hard || x.stop == .hard then .hard else .light,
                  causes := if x.causes.contains cause then x.causes else x.causes ++ [cause] }

/-- The sets that a pre-emption of one set saves with it: under TWIN its whole pod set (R225). -/
def withPodSet (s : State) (launch set : Nat) : List Nat :=
  match launchAt s launch with
  | some l =>
    if l.hdr.twin then
      (s.sets.filter fun x => x.launch == launch && podSetOf l.hdr x.set == podSetOf l.hdr set).map (·.set)
    else [set]
  | none => [set]

/-- A request reaches a set, and under TWIN its pod set. -/
def requestStop (s : State) (launch set : Nat) (hard : Bool) (cause : Nat × Nat) : State :=
  (withPodSet s launch set).foldl (fun s n => requestSet s launch n hard cause) s

/-- The sets resident on a core: launch and set numbers. -/
def setsOn (s : State) (c : Nat) : List (Nat × Nat) :=
  (s.sets.filter fun x => x.core == some c && !x.done).map fun x => (x.launch, x.set)

/-! ### Gating (R189, R190) -/

/-- Gating starts: every parked group of the upper core stops at once, the others at safe points. -/
def startGating (s : State) (p : Nat) : State :=
  let c := p + 96
  let s := modPod s p fun q => { q with upst := 1 }
  let parked := ((coreAt s c).groups.filter fun e => allParked s c e.1 e.2).map (·.1)
  let s := (setsOn s c).foldl (fun s e => requestSet s e.1 e.2 false (causeGating, p)) s
  parked.foldl (fun s slot => modGroup s c slot fun g => { g with hard := true }) s

/-- Ungating starts. -/
def startUngating (s : State) (p : Nat) : State := modPod s p fun q => { q with upst := 3 }

/-- A write of GATE (R189): one that changes nothing does nothing, and one during a transition only counts at its end. In early
service a write of 1 is ignored (R250). -/
def writeGate (s : State) (p : Nat) (v : Bool) : State :=
  if (podAt s p).gate = v || (v && !s.full) then s
  else
    let s := modPod s p fun q => { q with gate := v }
    match (podAt s p).upst with
    | 0 => if v then startGating s p else s
    | 2 => if v then s else startUngating s p
    | _ => s

end Sys2Proof.Machine
end

