-- ==== Sys2Proof/Machine/Mem.lean ====
section
/-! DEFINITION. Mem.lean: loads, stores, atomics, prefetch, cache control, fences and in-memory operations (R289 to R291,
R318 to R320, R331, R348, R360 to R371, R394, R401, R415 to R418). -/
namespace Sys2Proof.Machine

/-! ### Addresses of the lanes -/

/-- Signed OFF of format M. -/
def offInt (off : BitVec 6) : Int := off.toInt

/-- Bits that a lane's access moves on a page with an FMT (R94, R287). -/
def accBits (kind : MKind) (fmt : Nat) : Nat :=
  if kind.typed && fmt != 0 then (if fmtWidth fmt = 0 then 32 else kind.elems * fmtWidth fmt) else 8 * kind.size

/-- Sizes in bits that a typed access has on one page or another. -/
def sizesOf (kind : MKind) : List Nat := ((List.range 9).map (accBits kind)).eraseDups

/-- One lane's access with its element in half bytes (R361). -/
structure LaneLoad where
  acc : LaneAcc
  nib : Nat := 0
deriving DecidableEq, Repr

/-- a(l) = A(l) + index × z + OFF × z for a size in bits (R361); INT4 elements of one count in half bytes. -/
def laneAt (l : Nat) (base : DWord) (i off : Int) (bits : Nat) : LaneLoad :=
  if bits = 4 then { acc := ⟨l, base + BitVec.ofInt 64 (off + i.fdiv 2), 1⟩, nib := (i.emod 2).toNat }
  else { acc := ⟨l, base + BitVec.ofInt 64 ((i + off) * Int.ofNat (bits / 8)), bits / 8⟩ }

/-- Bytes that an access of so many bits moves. -/
def bytesOfBits (bits : Nat) : Nat := if bits = 4 then 1 else bits / 8

/-- The access of a typed lane: of the sizes of a list the first whose address lies in a page that gives that size, or an address
whose page is not known yet (R94, R267, R361). DEDUCED (log 12). -/
def reach (s : State) (c : Nat) (g : Group) (kind : MKind) (at_ : Nat → LaneLoad) : List Nat → Option LaneLoad × Option DWord
  | [] => (none, none)
  | b :: bs =>
    let a := at_ b
    if !canonical a.acc.va then reach s c g kind at_ bs
    else match lookup s c g.fn (procOf s g) a.acc.va false with
      | .hit e => if accBits kind e.fmt = b then (some a, none) else reach s c g kind at_ bs
      | .miss => (none, some a.acc.va)
      | .fault _ => reach s c g kind at_ bs

/-- A lane's access, and an address that has to be translated before it is known. Sizes are tried from that of the base's page on.
Where none agrees with the page that it reaches, the first of them that reaches a page moves what that page gives, and where no
page is there the size is 4 bytes. DESIGN CHOICE (log 12). -/
def laneReach (s : State) (k : Cur) (g : Group) (a b : Src) (kind : MKind) (off : BitVec 6) (l : Nat) : LaneLoad × Option DWord :=
  let base := val64 s k g l a
  let at_ := laneAt l base (val s k g l b).toInt (offInt off)
  if !kind.typed then (at_ (8 * kind.size), none)
  else
    let find := fun (va : DWord) => match lookup s k.core g.fn (procOf s g) va false with | .hit e => some e | _ => none
    let sizes := ((match find base with | some e => [accBits kind e.fmt] | none => []) ++ sizesOf kind).eraseDups
    match reach s k.core g kind at_ sizes with
    | (some x, _) => (x, none)
    | (none, some va) => (at_ 32, some va)
    | (none, none) => match sizes.find? fun n => (find (at_ n).acc.va).isSome with
      | some n =>
        let x := at_ n
        let bits := accBits kind (((find x.acc.va).map (·.fmt)).getD 0)
        ({ acc := { x.acc with size := bytesOfBits bits }, nib := if bits = 4 then x.nib else 0 }, none)
      | none => (at_ 32, none)

def laneLoad (s : State) (k : Cur) (g : Group) (a b : Src) (kind : MKind) (off : BitVec 6) (l : Nat) : LaneLoad :=
  (laneReach s k g a b kind off l).1

/-- The accesses of a typed instruction's lanes are known, or walks are asked for. -/
def reachOwn (s : State) (k : Cur) (g : Group) (x : Mask) (a b : Src) (kind : MKind) (off : BitVec 6) (ok : Own) : Own :=
  match (lanesOf x).filterMap fun l => (laneReach s k g a b kind off l).2 with
  | [] => ok
  | vas => .wait (vas.foldl (fun s va => (askWalk s k.core g.fn (procOf s g) va false).2) s)

/-- Accesses of the executing lanes. -/
def laneLoads (s : State) (k : Cur) (g : Group) (x : Mask) (a b : Src) (kind : MKind) (off : BitVec 6) : List LaneLoad :=
  (lanesOf x).map (laneLoad s k g a b kind off)

/-- Key of the word that an access starts in. -/
def accWord (a : LaneAcc) (e : TlbEntry) : Nat := wkey e.tier (physOf e a.va)

/-- FORMAT and PEER_LOST of a lane (R87, R93 to R96, R149). PEER_LOST comes after the faults that R87 orders. DESIGN CHOICE (log 120). -/
def pageFaults (s : State) (bad : TlbEntry → Bool) (hits : List (LaneAcc × TlbEntry)) : List LaneFault :=
  hits.filterMap fun (a, e) =>
    if bad e then some ⟨4, tcFormat, 0, a.lane, a.va⟩
    else
      if lostWord s (accWord a e) then some ⟨5, tcPeerLost, peerOf (accWord a e), a.lane, a.va⟩ else none

/-- An instruction of lanes `m` parks behind a fence or an acquire (R129, R135), then where the core has no room (R102), and else
goes on. Parks come after the faults (R280). -/
def parksOwn (s : State) (k : Cur) (g : Group) (m : Mask) (need : Nat × Nat) (ok : Own) : Own :=
  if anyBlocked (coreAt s k.core) g m then .park (.order m)
  else if !capacityFor (coreAt s k.core) need.1 need.2 then .park (.capacity need.1 need.2)
  else ok

/-- The checks of an instruction that accesses memory through addresses: translation, faults, then the parks. -/
def memOwn (s : State) (k : Cur) (g : Group) (x : Mask) (write : Bool) (as : List LaneAcc)
    (more : List (LaneAcc × TlbEntry) → List LaneFault) (need : List (LaneAcc × TlbEntry) → Nat × Nat)
    (ok : List (LaneAcc × TlbEntry) → Own) : Own :=
  match checkLanes s k.core g write as more with
  | .trap t s => .trapIn t s
  | .wait s => .wait s
  | .ok hits => parksOwn s k g x (need hits) (ok hits)

/-! ### Loads -/

/-- Whether a load needs the tags of its words. -/
def LoadShape.needsTag (sh : LoadShape) : Bool := sh.kind == .tag || (sh.kind.typed && sh.fmt != 0 && sh.blk != 0)

/-- Words that an access covers. -/
def wordsAt (kind : MKind) (a : LaneAcc) (e : TlbEntry) : List Nat :=
  loadWords { kind := kind, fmt := if kind.typed then e.fmt else 0, blk := e.blk, off := 0, size := a.size } (accWord a e)

/-- A hint that goes past the L1 (R99). -/
def goesPast (h : Hint) : Bool := h == .stream || h == .bypass

/-- A word goes home first where the L1's copy cannot serve a load: its tag is not there and is needed, or the load is served at
home and the copy is dirty (R95, R99). DEDUCED (log 113). -/
def readyWord (s : State) (c : Nat) (hint : Hint) (tag : Bool) (w : Nat) : State :=
  match l1At (coreAt s c) w with
  | some y => if (tag && !y.mw.tagd) || (hint == .bypass && y.d) then flushWord s c w else s
  | none => s

/-- The words that lanes' loads cover are made ready for them. -/
def readyWords (s : State) (c : Nat) (hint : Hint) (kind : MKind) (hits : List (LaneAcc × TlbEntry)) : State :=
  hits.foldl (fun s (a, e) => (wordsAt kind a e).foldl (fun s w => readyWord s c hint
    (LoadShape.needsTag { kind := kind, fmt := e.fmt, blk := e.blk, off := 0, size := 0 }) w) s) s

/-- One word of the lanes' load of instruction `op`: answered by the L1 (R99), or asked of its home or its peer for item `acc`. -/
def loadWord (s : State) (c slot fn op : Nat) (hint : Hint) (acc lane w : Nat) (e : TlbEntry) : State :=
  if e.tier = 3 then sendRemote s c slot lane acc w opRead 0xFF 0 none
  else match (if hint == .bypass then (none, s) else l1Use s c w) with
    | (some (mw, cor), s) =>
      { s with nid := s.nid + 1, resps := s.resps ++ [{ id := s.nid, core := c, w := w, mw := mw, corrected := cor, acc := acc, hit := true, ins := op }] }
    | (none, s) =>
      if goesPast hint then
        sendMsg s { id := 0, src := .core c, fn := fn, w := w, kind := .read, key := e.key, sector := e.sector, acc := acc,
                    batch := op, alloc := if hint = .stream then .stream else .bypass }
      else s

/-- The words of a load's lanes are read, each once: word, item and lane that ask, page. Those that go through the L1 and are not
there are asked for together (R101). -/
def loadWordsOf (s : State) (c slot fn op : Nat) (hint : Hint) (ws : List (Nat × Nat × Nat × TlbEntry)) : State :=
  let s := ws.foldl (fun s (w, acc, lane, e) => loadWord s c slot fn op hint acc lane w e) s
  if goesPast hint then s
  else askHits s c fn (hint == .ro) ((ws.filter fun (_, _, _, e) => e.tier != 3).map fun (w, _, _, e) => (w, e.key, e.sector))

/-- The item of a lane's load. -/
def loadItem (s : State) (k : Cur) (g : Group) (hint : Hint) (acq : Bool) (also : List DWord) (kind : MKind) (l : LaneLoad)
    (e : TlbEntry) (dsts : List Dest) : Item :=
  let sh : LoadShape := { kind := kind, fmt := if kind.typed then e.fmt else 0, blk := e.blk, off := l.acc.va.toNat % 8,
                          size := l.acc.size, nib := l.nib }
  { laneItem s k g l.acc.lane l.acc.va (.load sh (loadWords sh (accWord l.acc e)) [] dsts acq) with
    past := goesPast hint || e.tier == 3, also := also }

/-- Every executing lane's load starts: its item, then each word of the instruction is read from the L1 or asked for, once
(R101, R298). -/
def startLoads (s : State) (k : Cur) (g : Group) (hint : Hint) (acq : Bool) (kind : MKind)
    (as : List (LaneLoad × List Dest)) (also : List DWord := []) : State :=
  let hits := as.filterMap fun (l, ds) => match lookup s k.core g.fn (procOf s g) l.acc.va false with
    | .hit e => some (l, e, ds)
    | _ => none
  let s := if kind.typed then dropFailed s k.core g.fn (procOf s g) else s
  let s := readyWords s k.core hint kind (hits.map fun (l, e, _) => (l.acc, e))
  let r := hits.foldl (fun (r : List (Nat × Nat × Nat × TlbEntry) × State) (l, e, ds) =>
    (r.1 ++ (wordsAt kind l.acc e).map fun w => (w, r.2.nid, l.acc.lane, e),
      pushItem r.2 k.core (loadItem r.2 k g hint acq also kind l e ds))) ([], s)
  let words := (r.1.map (·.1)).eraseDups.filterMap fun w => r.1.find? fun e => e.1 == w
  loadWordsOf r.2 k.core k.slot g.fn k.op hint words

/-- Miss-status entries and words that a load of some words needs, with KEY and sector mode of their pages, once the L1 has given up
what it cannot correct (R98, R102). -/
def wordsNeed (s : State) (c fn : Nat) (hint : Hint) (all : List (Nat × Nat × Bool)) : Nat × Nat :=
  let s := all.foldl (fun s e => dropLost s c e.1) s
  let past := fun (e : Nat × Nat × Bool) => tierOf e.1 == 3 || goesPast hint
  capacityNeed s c fn (all.filter fun e => !past e)
    (all.filter fun e => past e && (hint == .bypass || (l1At (coreAt s c) e.1).isNone)).length

/-- What the lanes of a load need, once the L1 has given up what cannot serve it. -/
def loadNeed (s : State) (c fn : Nat) (hint : Hint) (kind : MKind) (hits : List (LaneAcc × TlbEntry)) : Nat × Nat :=
  wordsNeed (readyWords s c hint kind hits) c fn hint
    (hits.flatMap fun (a, e) => (wordsAt kind a e).map fun w => (w, e.key, e.sector)).eraseDups

/-- The checks of a load beyond the common ones (R360 to R362, R102). The access is made for lanes x on behalf of lanes m. -/
def loadOwn (s : State) (k : Cur) (g : Group) (x m : Mask) (a b : Src) (kind : MKind) (hint : Hint) (off : BitVec 6) : Own :=
  reachOwn s k g x a b kind off (memOwn s k g m false ((laneLoads s k g x a b kind off).map (·.acc))
    (pageFaults s fun e => !loadKindOk e.tier e.fmt e.blk kind) (loadNeed s k.core g.fn hint kind) fun _ => .ok s)

/-- LD (R360 to R362). -/
def execLd (c : Ctl) (d : Opd) (a b : Src) (kind : MKind) (hint : Hint) (acq : Bool) (off : BitVec 6) (s : State) :=
  let dst : DstUse := { o := d, n := kind.regs, queued := true }
  issueG s c false [useA a 2, useB b] [dst] [(2, useA a 2), (2, useB b)]
    (fun k s g _ x => loadOwn s k g x x a b kind hint off)
    fun k s g _ x =>
      let h := groupNow s k g
      let as := (laneLoads s k g x a b kind off).map fun l =>
        (l, (List.range kind.regs).map fun i => destOf h l.acc.lane d i)
      .ok (startLoads (markEmpty s k x dst) k g hint acq kind as)

/-- LDU: one access, made for the lowest executing lane on behalf of all (R365, R366). -/
def execLdu (c : Ctl) (d : Opd) (a b : Src) (kind : MKind) (ro : Bool) (off : BitVec 6) (s : State) :=
  let dst : DstUse := { o := d, n := kind.regs, queued := true }
  let hint : Hint := if ro then .ro else .normal
  issueG s c false [useA a 2, { useB b with xlow := true }] [dst] []
    (fun k s g act x =>
      if x = 0 then .ok s
      else
        let b := pathed g k c b
        if srcPois s k g (lowLane act) (useA a 2) || srcPois s k g (lowLane x) (useB b) then
          .trap ⟨tcPoison, laneBit (lowLane x), addrInfo 2 0⟩
        else loadOwn s k g (laneBit (lowLane x)) x (pathed g k c a) b kind hint off)
    fun k s g _ x =>
      if x = 0 then .ok s
      else
        let h := groupNow s k g
        let ds := match d with
          | .s _ => (List.range kind.regs).map fun i => destOf h (lowLane x) d i
          | _ => (lanesOf x).flatMap fun l => (List.range kind.regs).map fun i => destOf h l d i
        .ok (startLoads (markEmpty s k x dst) k g hint false kind [(laneLoad s k g (pathed g k c a) (pathed g k c b) kind off (lowLane x), ds)]
          ((lanesOf x).map fun l => (threadAt g l).wid))

/-! ### The scratchpad (R106, R363, R417) -/

/-- Bytes of the scratchpad of a lane's set. -/
def spadSize (s : State) (g : Group) (l : Nat) : Nat :=
  match setAt s g.launch (laneSet s g l) with
  | some x => x.units * 4096
  | none => 0

/-- Offset of a lane, computed without wrap. -/
def spadOff (s : State) (k : Cur) (g : Group) (a : Src) (z : Nat) (off : BitVec 6) (l : Nat) : Int :=
  ((val s k g l a).toNat : Int) + offInt off * z

/-- Faults of scratchpad offsets (R364). -/
def spadFaults (s : State) (g : Group) (z align : Nat) (os : List (Nat × Int)) : List LaneFault :=
  os.filterMap fun (l, o) =>
    let va := BitVec.ofInt 64 o &&& 0x1FFFFFFFFFFFFFF
    if o.emod align ≠ 0 then some ⟨0, tcMisaligned, 0, l, va⟩
    else if o < 0 ∨ (spadSize s g l : Int) < o + z then some ⟨3, tcProtection, 4, l, va⟩
    else none

/-- The checks of a scratchpad instruction: its faults, a trap of its own, then the park behind a fence or an acquire. -/
def spadOwn (s : State) (k : Cur) (g : Group) (x : Mask) (a : Src) (z : Nat) (off : BitVec 6) (more : Option TrapReq := none) : Own :=
  match firstFault (spadFaults s g z z ((lanesOf x).map fun l => (l, spadOff s k g a z off l))) with
  | some t => .trap t
  | none => match more with
    | some t => .trap t
    | none => parksOwn s k g x (0, 0) (.ok s)

/-- LDS (R363, R364). -/
def execLds (c : Ctl) (d : Opd) (a : Src) (kind : MKind) (acq : Bool) (off : BitVec 6) (s : State) :=
  let dst : DstUse := { o := d, n := kind.regs, queued := true }
  issueG s c false [useA a] [dst] [(2, useA a)]
    (fun k s g _ x => spadOwn s k g x a kind.size off)
    fun k s g _ x =>
      let h := groupNow s k g
      let offs := fun l => (spadOff s k g a kind.size off l).toNat
      .ok ((lanesOf x).foldl (fun s l => addItem s k g l (BitVec.ofNat 64 (offs l))
        (.lds (laneSet s g l) g.launch (offs l) kind.size ((List.range kind.regs).map fun i => destOf h l d i) acq))
        (markEmpty s k x dst))

/-- Low bytes of a lane's data registers. -/
def dataBytes (s : State) (k : Cur) (g : Group) (l : Nat) (b : Src) (n : Nat) : List Byte :=
  (List.range n).map fun i => (laneVal s k g l b.o (i / 4)).1.extractLsb' (8 * (i % 4)) 8

/-- STS (R417, R418). -/
def execSts (c : Ctl) (a b : Src) (kind : MKind) (rel : Bool) (off : BitVec 6) (s : State) :=
  issueG s c false [useA a, useB b kind.regs] [] [(2, useA a), (1, useB b kind.regs)]
    (fun k s g _ x => spadOwn s k g x a kind.size off)
    fun k s g _ x =>
      let bytes := fun l => dataBytes s k g l b kind.size
      let offs := fun l => (spadOff s k g a kind.size off l).toNat
      let s' := (lanesOf x).foldl (fun s l =>
        if rel then addItem s k g l 0 (.release (.sts (offs l) (bytes l)) false [])
        else modSpad s g.launch (laneSet s g l) fun t => spadWrite t (offs l) (bytes l)) s
      .ok (progress s' k.core)

/-! ### Snapshots (R232) -/

/-- The 64 KiB region of a word. -/
def regionOf (w : Nat) : Nat := w / 8192

/-- The lowest place of a process's arena, a multiple of `al`, that is free for a number of bytes (R205, R232). DESIGN CHOICE
(log 127). -/
def arenaFit (s : State) (fn proc size al : Nat) : Option Nat :=
  let p := tget (fnAt s fn).procs proc {}
  let starts := 0 :: p.arenaUsed.map fun e => (e.1 + e.2 + al - 1) / al * al
  let free := fun (o : Nat) => decide (o + size ≤ 65536 * p.arenaSz) &&
    p.arenaUsed.all fun e => decide (o + size ≤ e.1) || decide (e.1 + e.2 ≤ o)
  (starts.filter free).foldl (fun (r : Option Nat) o => match r with
    | some m => some (min m o)
    | none => some o) none

/-- Takes and gives back a region of an arena. -/
def arenaTake (s : State) (fn proc : Nat) (e : Nat × Nat) : State :=
  modFn s fn fun f =>
    let p := tget f.procs proc {}
    { f with procs := tset f.procs proc { p with arenaUsed := p.arenaUsed ++ [e] } }
def arenaGive (s : State) (fn proc : Nat) (e : Nat × Nat) : State :=
  modFn s fn fun f =>
    let p := tget f.procs proc {}
    { f with procs := tset f.procs proc { p with arenaUsed := p.arenaUsed.erase e } }

/-- A write of a launch waits for the snapshots of its regions: those under way, and those now begun. -/
def snapStep (s : State) (launch : Nat) (es : List (Nat × TlbEntry)) : Option Nat × State :=
  match launchAt s launch with
  | none => (none, s)
  | some y =>
    if !y.hdr.replay then (none, s)
    else
      let regs := ((es.filter fun (_, e) => e.rp && e.tier < 2).map fun (w, _) => regionOf w).eraseDups
      let pageOf := fun (r : Nat) => ((es.find? fun p => regionOf p.1 == r).map fun p => (p.2.key, p.2.sector)).getD (0, false)
      regs.foldl (fun (a : Option Nat × State) r =>
        match launchAt a.2 launch with
        | none => a
        | some y => match y.snaps.find? fun z => z.region == r with
          | some z => if z.done then a else (some z.id, a.2)
          | none =>
            match arenaFit a.2 y.fn y.proc 65536 65536 with
            | some u =>
              let n := a.2.nid
              let s := modLaunch { a.2 with nid := n + 1 } launch fun y =>
                { y with snaps := y.snaps ++ [⟨n, r, false, [], (pageOf r).1, (pageOf r).2, u⟩] }
              (some n, arenaTake s y.fn y.proc (u, 65536))
            | none => a) (none, s)

/-- A launch's writes to these words happen: one without a snapshot makes the launch non-replayable. -/
def markWrites (s : State) (launch : Nat) (es : List (Nat × TlbEntry)) : State :=
  modLaunch s launch fun y =>
    if es.all fun (w, e) => e.rp && e.tier < 2 && y.snaps.any (fun z => z.region == regionOf w && z.done) then y
    else { y with nonReplay := true }

/-- Entries of the pages of a list of accesses. -/
def entriesOf (s : State) (c : Nat) (g : Group) (write : Bool) (as : List LaneAcc) : List (LaneAcc × TlbEntry) :=
  (xlat s c g write as).hits

def writtenWords (hits : List (LaneAcc × TlbEntry)) : List (Nat × TlbEntry) := hits.map fun (a, e) => (accWord a e, e)

/-- A write that has passed its checks waits until the snapshots of its regions are made. DEDUCED (log 73). -/
def snapOwn (s : State) (launch : Nat) (es : List (Nat × TlbEntry)) : Own :=
  match snapStep s launch es with
  | (some _, s) => .hold s
  | (none, s) => .ok s

/-! ### Stores (R415, R416) -/

/-- The words that a lane's bytes go to. -/
def byteParts (w off : Nat) (bs : List Byte) : List StorePart :=
  if bs.length = 16 then [⟨w, 0xFF, wordOfBytes (bs.take 8), none⟩, ⟨w + 1, 0xFF, wordOfBytes (bs.drop 8), none⟩]
  else
    let v := (wordOfBytes (bs ++ List.replicate (8 - bs.length) 0))
    [⟨w, BitVec.ofNat 8 ((2 ^ bs.length - 1) * 2 ^ off), v <<< (8 * off), none⟩]

/-- Lanes of an encoding store by page format. -/
def encLanes (s : State) (k : Cur) (g : Group) (b : Src) (kind : MKind) (hits : List (LaneAcc × TlbEntry)) (fmt blk : Nat) :
    List EncLane :=
  (hits.filter fun (_, e) => e.fmt == fmt && e.blk == blk).map fun (a, e) =>
    ⟨accWord a e, 8 * (a.va.toNat % 8), regElems kind (val s k g a.lane b)⟩

/-- The formats of the pages that a typed store reaches. -/
def encFormats (kind : MKind) (hits : List (LaneAcc × TlbEntry)) : List (Nat × Nat) :=
  if kind.typed then ((hits.filter fun (_, e) => e.fmt != 0).map fun (_, e) => (e.fmt, e.blk)).eraseDups else []

/-- FORMAT of an encoding store that does not cover its words (R95). DEDUCED (log 39). TLANES holds every lane on a page of that FMT
and BLK. DESIGN CHOICE (log 138). -/
def coverFaults (s : State) (k : Cur) (g : Group) (b : Src) (kind : MKind) (hits : List (LaneAcc × TlbEntry)) :
    List LaneFault :=
  (encFormats kind hits).flatMap fun (fmt, blk) =>
    match encodeStore fmt blk (encLanes s k g b kind hits fmt blk) with
    | some _ => []
    | none => (hits.filter fun (_, e) => e.fmt == fmt && e.blk == blk).map fun (a, _) => ⟨4, tcFormat, 0, a.lane, a.va⟩

/-- The parts of a store, each with the lane that writes it and its page, ascending lanes for each word. -/
def storeParts (s : State) (k : Cur) (g : Group) (b : Src) (kind : MKind) (hits : List (LaneAcc × TlbEntry)) :
    List (Nat × TlbEntry × StorePart) :=
  let plain := (hits.filter fun (_, e) => !(kind.typed && e.fmt != 0)).flatMap fun (a, e) =>
    (if kind = .tag then
      [(⟨accWord a e, 0, 0, some ((val s k g a.lane b).extractLsb' 0 4)⟩ : StorePart)]
    else byteParts (accWord a e) (a.va.toNat % 8) (dataBytes s k g a.lane b a.size)).map fun p => (a.lane, e, p)
  let enc := (encFormats kind hits).flatMap fun (fmt, blk) =>
    ((encodeStore fmt blk (encLanes s k g b kind hits fmt blk)).getD []).filterMap fun p =>
      -- the highest lane that writes into the word
      let ws := hits.filter fun (a, e) => e.fmt == fmt && e.blk == blk && accWord a e == p.w
      match ws.getLast? with
      | some (a, e) => some (a.lane, e, p)
      | none => none
  plain ++ enc

def wayOf (g : Group) (e : TlbEntry) (hint : Hint) : StoreWay := ⟨g.fn, g.launch, e.key, e.sector, hint⟩

/-- Accesses of a store's lanes. -/
def storeAccs (s : State) (k : Cur) (g : Group) (x : Mask) (a : Src) (kind : MKind) (off : BitVec 6) : List LaneAcc :=
  (laneLoads s k g x a ⟨.zero, .block, false⟩ kind off).map (·.acc)

/-- Miss-status entries and words that a store needs: words to fetch for parts of them, and stores that go past the L1 (R100,
R102). -/
def storeNeed (s : State) (k : Cur) (g : Group) (b : Src) (kind : MKind) (hint : Hint) (hits : List (LaneAcc × TlbEntry)) : Nat × Nat :=
  let parts := storeParts s k g b kind hits
  let past := fun (e : TlbEntry) => goesPast hint || e.tier == 3
  capacityNeed s k.core g.fn ((parts.filter fun (_, e, p) => !past e && p.mask != 0xFF).map fun (_, e, p) => (p.w, e.key, e.sector))
    (parts.filter fun (_, e, _) => past e).length

/-- The checks of a store beyond the common ones (R415, R416, R95, R102, R232). -/
def storeOwn (s : State) (k : Cur) (g : Group) (x : Mask) (a b : Src) (kind : MKind) (hint : Hint) (off : BitVec 6) : Own :=
  reachOwn s k g x a ⟨.zero, .block, false⟩ kind off (memOwn s k g x true (storeAccs s k g x a kind off)
    (fun hits =>
      let bad := fun (e : TlbEntry) => !kindOk e.tier e.fmt e.blk kind
      pageFaults s bad hits ++ coverFaults s k g b kind (hits.filter fun h => !bad h.2))
    (storeNeed s k g b kind hint) fun hits => snapOwn s g.launch (writtenWords hits))

/-- The stores of the executing lanes leave, or wait as releases (R127, R132, R134). Every lane whose bytes a word takes has
written it, as later releases of the lane count it. -/
def startStore (s : State) (k : Cur) (g : Group) (x : Mask) (a b : Src) (kind : MKind) (hint : Hint) (rel : Bool)
    (off : BitVec 6) : State :=
  let hits := entriesOf s k.core g true (storeAccs s k g x a kind off)
  let parts := storeParts s k g b kind hits
  let s := if kind.typed then dropFailed s k.core g.fn (procOf s g) else s
  let s := markWrites s g.launch (writtenWords hits)
  let past := fun (e : TlbEntry) => goesPast hint || e.tier == 3
  let s := if rel then
      (lanesOf x).foldl (fun s l =>
        let mine := parts.filter fun p => p.1 == l
        match (hits.find? fun h => h.1.lane == l) with
        | some (_, e) => addItem s k g l 0 (.release (.store (mine.map (·.2.2)) (e.key, e.sector, hint) (past e)) false [])
        | none => s) s
    else askMerges (parts.foldl (fun s (l, e, p) =>
      (storePart s k.core (laneItem s k g l 0 (.homeStore p.w)) (wayOf g e hint) p).2) s) k.core s.nid
  let s := hits.foldl (fun s (p, e) =>
    (List.range ((p.size + 7) / 8)).foldl (fun s i => noteWrote s k.core k.slot p.lane (accWord p e + i) (past e)) s) s
  parts.foldl (fun s (l, e, p) => noteWrote s k.core k.slot l p.w (past e)) s

/-- The stores leave, and the core's work moves on. -/
def doStore (s : State) (k : Cur) (g : Group) (x : Mask) (a b : Src) (kind : MKind) (hint : Hint) (rel : Bool)
    (off : BitVec 6) : State := progress (startStore s k g x a b kind hint rel off) k.core

/-- ST (R415, R416). -/
def execSt (c : Ctl) (a b : Src) (kind : MKind) (hint : Hint) (rel : Bool) (off : BitVec 6) (s : State) :=
  issueG s c false [useA a 2, useB b kind.regs] [] [(2, useA a 2), (1, useB b kind.regs)]
    (fun k s g _ x => storeOwn s k g x a b kind hint off)
    fun k s g _ x => .ok (doStore s k g x a b kind hint rel off)

/-! ### Atomics (R318 to R320, R401, R402) -/

/-- First and second operand of a lane. -/
def atomB (s : State) (k : Cur) (g : Group) (l : Nat) (op : AOp) (b : Src) : DWord :=
  let r := fun i => (laneVal s k g l b.o i).1
  if op.wide then r 1 ++ r 0 else (r 0).zeroExtend 64
def atomB2 (s : State) (k : Cur) (g : Group) (l : Nat) (op : AOp) (b : Src) : DWord :=
  let r := fun i => (laneVal s k g l b.o i).1
  match op with
  | .cas32 => (r 1).zeroExtend 64
  | .cas64 => r 3 ++ r 2
  | _ => 0

def atomAccs (s : State) (k : Cur) (g : Group) (x : Mask) (a : Src) (op : AOp) (off : BitVec 6) : List LaneAcc :=
  (laneLoads s k g x a ⟨.zero, .block, false⟩ (if op.wide then .b64 else .b32) off).map (·.acc)

/-- What an atomic or a reduction does, the order and the return of its old value apart. -/
structure AtomOp where
  op : AOp
  acq : Bool
  rel : Bool
  ret : Bool
deriving DecidableEq, Repr

/-- A lane's piece of work: its atomic, or a release that waits to make it (R134, R319). -/
def atomBody (s : State) (k : Cur) (g : Group) (d : Opd) (b : Src) (o : AtomOp) (p : LaneAcc) (e : TlbEntry) : Body :=
  let ds := if o.ret then (List.range o.op.regs).map fun i => destOf (groupNow s k g) p.lane d i else []
  if o.rel then
    .release (.atomic o.op (accWord p e) (p.va.toNat % 8) (atomB s k g p.lane o.op b) (atomB2 s k g p.lane o.op b) o.acq ds
      (e.key, e.sector) o.ret) false []
  else .atomic (accWord p e) (p.va.toNat % 8) ds o.acq

/-- The atomics of the executing lanes leave, or wait as releases (R319, R320). -/
def startAtomics (s : State) (k : Cur) (g : Group) (x : Mask) (d : Opd) (b : Src) (o : AtomOp) (hits : List (LaneAcc × TlbEntry)) :
    State :=
  let t := markWrites s g.launch (writtenWords hits)
  let t := if o.ret then markEmpty t k x { o := d, n := o.op.regs, queued := true } else t
  hits.foldl (fun t (p, e) =>
    let u := addItem t k g p.lane p.va (atomBody s k g d b o p e)
    if o.rel then u
    else sendAtomic u k.core k.slot p.lane k.op (wayOf g e .normal) t.nid (accWord p e) (p.va.toNat % 8) o.op
      (atomB s k g p.lane o.op b) (atomB2 s k g p.lane o.op b) o.ret) t

/-- The atomics leave, and the core's work moves on. -/
def doAtomic (s : State) (k : Cur) (g : Group) (x : Mask) (d : Opd) (a b : Src) (op : AOp) (ord : Ord) (off : BitVec 6)
    (ret : Bool) : State :=
  progress (startAtomics s k g x d b ⟨op, ord == .acq || ord == .ar, ord == .rel || ord == .ar, ret⟩
    (entriesOf s k.core g true (atomAccs s k g x a op off))) k.core

/-- The checks of an atomic beyond the common ones (R319, R95, R102, R232). -/
def atomOwn (s : State) (k : Cur) (g : Group) (x : Mask) (a : Src) (op : AOp) (off : BitVec 6) : Own :=
  memOwn s k g x true (atomAccs s k g x a op off) (pageFaults s fun e => e.fmt != 0)
    (fun hits => (0, hits.length)) fun hits => snapOwn s g.launch (writtenWords hits)

/-- The common course of ATOM and RED. -/
def issueAtomic (s : State) (c : Ctl) (d : Opd) (a b : Src) (op : AOp) (ord : Ord) (off : BitVec 6) (ret : Bool) :
    Host.Outcome State Fault Refusal :=
  let nb := op.bRegs
  issueG s c false [useA a 2, useB b nb] (if ret then [{ o := d, n := op.regs, queued := true }] else [])
    [(2, useA a 2), (1, useB b nb)]
    (fun k s g _ x => atomOwn s k g x a op off)
    fun k s g _ x => .ok (doAtomic s k g x d a b op ord off ret)

/-- ATOM. -/
def execAtom (c : Ctl) (d : Opd) (a b : Src) (op : AOp) (ord : Ord) (off : BitVec 6) (s : State) :=
  issueAtomic s c d a b op ord off (d != .zero)
/-- RED. -/
def execRed (c : Ctl) (a b : Src) (op : AOp) (rel : Bool) (off : BitVec 6) (s : State) :=
  issueAtomic s c .zero a b op (if rel then .rel else .plain) off false

/-! ### FENCE (R348, R349) -/

/-- What a form's release item does. -/
def fenceRel : FenceKind → RelKind
  | .plain => .fence false false false
  | .acq => .fence true false false
  | .rel => .fence false false true
  | .ar => .fence true false true
  | .mem => .fence true true true
  | .q m => .queue m

/-- FENCE. Each lane waits for its own accesses first; FENCE.q then places its queue fences, in places that it holds from its issue on
(R157, R349). DEDUCED (log 139). -/
def execFence (c : Ctl) (kind : FenceKind) (s : State) :=
  let qm : BitVec 4 := match kind with | .q m => m | _ => 0
  issueG s c false [] [] []
    (fun k s g _ x =>
      parksOwn s k g x (0, 0) (if x ≠ 0 ∧ (List.range 4).any (fun q => qm.getLsbD q &&
          decide (64 < queueUsed (coreAt s k.core) q + (lanesOf x).length)) then .park (.copyq qm)
        else .ok s))
    fun k s g _ x =>
      .ok (progress ((lanesOf x).foldl (fun s l => addItem s k g l 0 (.release (fenceRel kind) false [])) s) k.core)

/-! ### PREF (R394, R395) -/

/-- The words of prefetches whose pages are known are requested together: dropped where the access would fault, at a peer, or where no
miss-status entry or word capacity is free (R101, R395). Those of the L2 alone go past the L1. DEDUCED (log 46). -/
def prefHits (s : State) (c fn : Nat) (l2 : Bool) (as : List (DWord × TlbEntry)) : State :=
  let ws := ((as.filter fun (_, e) => e.tier != 3 && e.fmt == 0).map fun (va, e) => (wkey e.tier (physOf e va), e.key, e.sector)).eraseDups
  let fits := fun (a : List (Nat × Nat × Bool)) =>
    let n := if l2 then (0, a.length) else capacityNeed s c fn a 0
    capacityFor (coreAt s c) n.1 n.2
  let mine := ws.foldl (fun a w => if fits (a ++ [w]) then a ++ [w] else a) []
  if l2 then
    mine.foldl (fun s (w, key, sector) =>
      let many := decide (8 ≤ (mine.filter fun v => sectorOf v.1 == sectorOf w).length)
      sendMsg s { id := 0, src := .core c, fn := fn, w := w, kind := .read, key := key, sector := sector || many }) s
  else askHits s c fn false mine

/-- Prefetches of the lanes at some addresses. Where a page is not known, PREF retires and the prefetch waits for the walk. DEDUCED
(log 13). -/
def prefLanes (s : State) (k : Cur) (g : Group) (l2 : Bool) (vas : List DWord) : State :=
  let at_ := vas.filter canonical
  let known := at_.filterMap fun va => match lookup s k.core g.fn (procOf s g) va false with
    | .hit e => some (va, e)
    | _ => none
  let miss := at_.filter fun va => lookup s k.core g.fn (procOf s g) va false == .miss
  miss.foldl (fun s va =>
    let s := (askWalk s k.core g.fn (procOf s g) va false (pri := false)).2
    pushItem s k.core { laneItem s k g 64 va (.prefetch va l2 k.op) with op := 0, gid := 0 }) (prefHits s k.core g.fn l2 known)

/-- PREF. -/
def execPref (c : Ctl) (a b : Src) (l2 : Bool) (off : BitVec 6) (s : State) :=
  issueG s c false [useA a 2, useB b] [] [(2, useA a 2), (2, useB b)] noOwn fun k s g _ x =>
    .ok (prefLanes s k g l2 ((laneLoads s k g x a b .b64 off).map (·.acc.va)))

/-! ### CCTL (R290, R331, R332) -/

/-- Drops a word of the L1 that is clean and not owned. -/
def dropClean (s : State) (c w : Nat) : State :=
  match l1At (coreAt s c) w with
  | some y => if y.d || y.o then s else l1Drop s c w
  | none => s

/-- Writes a dirty word home, which leaves it clean. Answers the message to wait for. DEDUCED (log 47). -/
def cleanWord (s : State) (c acc w : Nat) : List Nat × State :=
  match l1At (coreAt s c) w with
  | some y =>
    if y.d then
      let n := s.nid
      ([n], l1Set! (sendMsg s { writeBackMsg s c w y with acc := acc }) c w { l1Dirty y with d := false, o := false, rank := none, by_ := [] })
    else ([], s)
  | none => ([], s)

/-- Accesses of CCTL: one byte of each lane's sector. -/
def cctlAccs (s : State) (k : Cur) (g : Group) (x : Mask) (a : Src) (off : BitVec 6) : List LaneAcc :=
  (lanesOf x).map fun l => ⟨l, val64 s k g l a + BitVec.ofInt 64 (offInt off * 128), 1⟩

/-- CCTL.inv and CCTL.wb of the lanes' sectors. -/
def doCctl (s : State) (k : Cur) (g : Group) (as : List LaneAcc) (kind : CKind) : State :=
  let cc := k.core
  let hits := (entriesOf s cc g false as).filter fun (_, e) => e.tier != 3
  hits.foldl (fun s (p, e) =>
    let ws := wordsOfSector (sectorOf (accWord p e))
    if kind = .inv then ws.foldl (fun s w => dropClean s cc w) s
    else
      let n := s.nid
      let s := addItem s k g p.lane p.va (.settle [] [] false)
      let r := ws.foldl (fun (q : List Nat × State) w =>
        let z := cleanWord q.2 cc n w
        (q.1 ++ z.1, z.2)) (([] : List Nat), s)
      if r.1.isEmpty then endItem r.2 cc n else modItem r.2 cc n fun _ => .settle r.1 [] false) s

/-- CCTL. -/
def execCctl (c : Ctl) (a : Src) (kind : CKind) (off : BitVec 6) (s : State) :=
  let src := if kind == .invall then [] else [useA a 2]
  issueG s c false src [] (src.map fun u => (2, u))
    (fun k s g _ x =>
      if kind = .invall then parksOwn s k g x (0, 0) (.ok s)
      else memOwn s k g x false (cctlAccs s k g x a off) (fun _ => []) (fun _ => (0, 0)) fun _ => .ok s)
    fun k s g _ x => .ok (
      if kind = .invall then
        if x = 0 then s else modCore s k.core fun y => { y with l1 := y.l1.filter fun e => e.2.d || e.2.o }
      else doCctl s k g (cctlAccs s k g x a off) kind)

/-! ### In-memory operations (R122 to R124, R370, R371) -/

/-- Bytes of a run. -/
def runBytes (n : Fin 10) : Nat := 128 * 2 ^ n.val

/-- The lanes for which an in-memory operation is performed: under U the lowest active lane alone. -/
def inmemLanes (c : Ctl) (act x : Mask) : Mask := if c.u then (if x = 0 then 0 else laneBit (lowLane act)) else x

/-- Destination run of a lane. -/
def runAcc (s : State) (k : Cur) (g : Group) (a : Src) (n : Fin 10) (off : BitVec 6) (l : Nat) : LaneAcc :=
  ⟨l, val64 s k g l a + BitVec.ofInt 64 (offInt off * runBytes n), runBytes n⟩

/-- PROTECTION of a run outside what in-memory operations reach (R123). The destination's W is the common check. -/
def runFaults (hits : List (LaneAcc × TlbEntry)) : List LaneFault :=
  hits.filterMap fun (a, e) => if e.tier ≠ 0 ∨ e.key ≠ 0 then some ⟨5, tcProtection, 7, a.lane, a.va⟩ else none

/-- PROTECTION of runs of different colours (R112, R123). DEDUCED (log 38). -/
def colourFaults (ds ss : List (LaneAcc × TlbEntry)) : List LaneFault :=
  ds.filterMap fun (a, e) => match ss.find? fun p => p.1.lane == a.lane with
    | some (b, f) =>
      if colourOf (waddrOf (accWord a e)) ≠ colourOf (waddrOf (accWord b f)) then some ⟨6, tcProtection, 8, a.lane, a.va⟩
      else none
    | none => none

/-- Checks of the runs, the second ones and the result offsets: faults of all of them take their places in one order. -/
def inmemOwn (s : State) (k : Cur) (g : Group) (x : Mask) (write : Bool) (ds ss : List LaneAcc) (extra : List LaneFault) :
    Own :=
  match firstFault ((ds ++ ss).filterMap addrFault ++ extra.filter fun f => f.rank == 0) with
  | some t => .trap t
  | none =>
    let dx := xlat s k.core g write ds
    let sx := xlat s k.core g false ss
    let ask := fun (s : State) (w : Bool) (vs : List DWord) =>
      vs.foldl (fun s va => (askWalk s k.core g.fn (procOf s g) va w).2) s
    if !(dx.misses ++ sx.misses).isEmpty then .wait (ask (ask s write dx.misses) false sx.misses)
    else
      -- a destination without W is reason 7 here, after the faults of R87
      let early := (dx.faults ++ sx.faults).filter fun f => f.code != tcProtection
      let late := (dx.faults.filter fun f => f.code == tcProtection).map fun f => { f with rank := 5, reason := 7 }
      match firstFault (early ++ extra ++ late ++ runFaults (dx.hits ++ sx.hits) ++ colourFaults dx.hits sx.hits) with
      | some t => .trapIn t (dropFailed s k.core g.fn (procOf s g))
      | none => parksOwn s k g x (0, 0) (if write then snapOwn s g.launch (writtenWords dx.hits) else .ok s)

/-- Sectors of two runs, pairwise: destination first. -/
def runSectors (n : Fin 10) (d : Nat) (src : Option Nat) : List (Nat × Nat) :=
  (List.range (2 ^ n.val)).map fun i => (sectorOf d + i, match src with | some w => sectorOf w + i | none => 0)

/-- Items of an in-memory operation: op 0 MZERO, 1 MCOPY, 2 MCMP. -/
def startInmem (s : State) (k : Cur) (g : Group) (op : Nat) (n : Fin 10) (ds ss : List (LaneAcc × TlbEntry))
    (res : Nat → Option InmemRes) : State :=
  ds.foldl (fun s (a, e) =>
    let src := (ss.find? fun p => p.1.lane == a.lane).map fun p => accWord p.1 p.2
    addItem s k g a.lane a.va (.inmem op (runSectors n (accWord a e) src) (accWord a e) (res a.lane))) s

/-- MZERO. -/
def execMzero (c : Ctl) (a : Src) (n : Fin 10) (off : BitVec 6) (s : State) :=
  issueG s c false [useA a 2] [] [(2, useA a 2)]
    (fun k s g act x => let m := inmemLanes c act x
      inmemOwn s k g m true ((lanesOf m).map (runAcc s k g a n off)) [] [])
    fun k s g act x =>
      let ds := entriesOf s k.core g true ((lanesOf (inmemLanes c act x)).map (runAcc s k g a n off))
      .ok (startInmem (markWrites s g.launch (writtenWords ds)) k g 0 n ds [] fun _ => none)
/-- MCOPY. -/
def execMcopy (c : Ctl) (a b : Src) (n : Fin 10) (off : BitVec 6) (s : State) :=
  issueG s c false [useA a 2, useB b 2] [] [(2, useA a 2), (2, useB b 2)]
    (fun k s g act x => let m := inmemLanes c act x
      inmemOwn s k g m true ((lanesOf m).map (runAcc s k g a n off)) ((lanesOf m).map (runAcc s k g b n 0)) [])
    fun k s g act x =>
      let m := inmemLanes c act x
      let ds := entriesOf s k.core g true ((lanesOf m).map (runAcc s k g a n off))
      let ss := entriesOf s k.core g false ((lanesOf m).map (runAcc s k g b n 0))
      .ok (startInmem (markWrites s g.launch (writtenWords ds)) k g 1 n ds ss fun _ => none)
/-- MCMP. -/
def execMcmp (c : Ctl) (d : Opd) (a b : Src) (n : Fin 10) (off : BitVec 6) (s : State) :=
  let du : SrcUse := { pos := 3, src := { o := d } }
  let offs := fun (s : State) (k : Cur) (g : Group) (l : Nat) => (laneVal s k g l d 0).1.toNat
  issueG s c false [useA a 2, useB b 2, du] [] [(2, useA a 2), (2, useB b 2), (2, du)]
    (fun k s g act x => let m := inmemLanes c act x
      inmemOwn s k g m false ((lanesOf m).map (runAcc s k g a n off)) ((lanesOf m).map (runAcc s k g b n 0))
        (spadFaults s g 8 8 ((lanesOf m).map fun l => (l, (offs s k g l : Int)))))
    fun k s g act x =>
      let m := inmemLanes c act x
      let ds := entriesOf s k.core g false ((lanesOf m).map (runAcc s k g a n off))
      let ss := entriesOf s k.core g false ((lanesOf m).map (runAcc s k g b n 0))
      let s0 := s
      .ok (startInmem s k g 2 n ds ss fun l =>
        some { launch := g.launch, set := laneSet s0 g l, off := offs s0 k g l })

end Sys2Proof.Machine
end

