-- ==== Sys2Proof/Machine/Sync.lean ====
section
/-! DEFINITION. Sync.lean: sync words (R107, R420 to R425), named barriers and collective barrier objects (R322 to R324,
R247). -/
namespace Sys2Proof.Machine

/-! ### Sync words -/

/-- The checks that the three instructions share, and for two of them the poison of the sync word (R425). -/
def swOwn (s : State) (k : Cur) (g : Group) (x : Mask) (a : Src) (off : BitVec 6) (reads : Bool) : Own :=
  spadOwn s k g x a 16 off
    (let bad := maskOf fun l => x.getLsbD l && reads && (match setAt s g.launch (laneSet s g l) with
        | some y => spadPois y.spad (spadOff s k g a 16 off l).toNat 16
        | none => false)
     if bad ≠ 0 then some ⟨tcPoison, bad, addrInfo 2 0⟩ else none)

def swOff (s : State) (k : Cur) (g : Group) (a : Src) (off : BitVec 6) (l : Nat) : Nat := (spadOff s k g a 16 off l).toNat

/-- SWINIT (R421). DEDUCED (log 51). -/
def execSwinit (c : Ctl) (a b : Src) (off : BitVec 6) (s : State) :=
  issueG s c false [useA a, useB b] [] [(2, useA a), (1, useB b)]
    (fun k s g _ x => swOwn s k g x a off false)
    fun k s0 g _ x => .ok ((lanesOf x).foldl (fun s l =>
      modSpad s g.launch (laneSet s0 g l) fun t => spadWrite t (swOff s0 k g a off l)
        (bytesOfWord ((val s0 k g l b).zeroExtend 64) ++ bytesOfWord 0)) s0)
/-- SWARR (R422). -/
def execSwarr (c : Ctl) (a b : Src) (off : BitVec 6) (s : State) :=
  issueG s c false [useA a, useB b] [] [(2, useA a), (1, useB b)]
    (fun k s g _ x => swOwn s k g x a off true)
    fun k s0 g _ x =>
      let s := (lanesOf x).foldl (fun s l =>
        addItem s k g l 0 (.release (.swarr (swOff s0 k g a off l) (val s0 k g l b)) false [])) s0
      .ok (progress s k.core)
/-- SWWAIT (R423). -/
def execSwwait (c : Ctl) (a b : Src) (off : BitVec 6) (s : State) :=
  issueG s c false [useA a, useB b] [] [(2, useA a), (1, useB b)]
    (fun k s g _ x => swOwn s k g x a off true)
    fun k s0 g _ x =>
      -- while one lane waits, all of them are blocked
      let s := (lanesOf x).foldl (fun s l =>
        pushItem s k.core { laneItem s k g l (BitVec.ofNat 64 (swOff s0 k g a off l))
          (.swwait (laneSet s0 g l) g.launch (swOff s0 k g a off l) (val s0 k g l b)) with
            also := (lanesOf x).map fun j => (threadAt g j).wid }) s0
      .ok (progress (wakeSw s k.core) k.core)

/-! ### Releases that an instruction waits for before it acts (R134) -/

/-- The release of an instruction that waits for it has still to begin in a lane that has accesses to wait for, or words to
settle. -/
def unreleased (s : State) (k : Cur) (g : Group) (l : Nat) : Bool :=
  let t := threadAt g l
  !t.released && (lanePending (coreAt s k.core) g.launch t.wid s.nid false || !t.wrote.isEmpty || !t.wroteHome.isEmpty)

/-- The waiting step of a release in the lanes of m. `none`: it is done. -/
def releaseFirst (s : State) (k : Cur) (g : Group) (m : Mask) : Option Own :=
  if anyBlocked (coreAt s k.core) g m then some (.park (.order m))
  else
    let ls := (lanesOf m).filter (unreleased s k g)
    if ls.isEmpty then none
    else
      let s := ls.foldl (fun s l => addItem s k g l 0 (.release (.fence false false true) false [])) s
      let s := modGroup s k.core k.slot fun g => modThreads g m fun t => { t with released := true }
      let s := progress s k.core
      match groupAt s k.core k.slot with
      | some g' => if anyBlocked (coreAt s k.core) g' m then some (.parkIn (.order m) s) else some (.ok s)
      | none => some (.ok s)

/-! ### Named barriers -/

/-- |m| threads of one set arrive at a barrier, which then runs the while-step (R323). -/
def arriveSet (s : State) (k : Cur) (g : Group) (set id cnt : Nat) (m : Mask) : State :=
  match setAt s g.launch set with
  | none => s
  | some y =>
    let b := tget y.bars id {}
    let b := if b.arr = 0 then { b with target := cnt, all := decide (cnt = 0) } else b
    let s := modGroup s k.core k.slot fun g => modThreads g m fun t => { t with wb := id, wg := b.gen }
    let live := setThreads (coreAt s k.core) g.launch set (setOfWid (hdrOf s g))
    let b := barSettle live { b with arr := b.arr + (lanesOf m).length }
    modSet s g.launch set fun y => { y with bars := tset y.bars id b }

/-- The lanes of m arrive, each at its own set's barrier (R66, R323). -/
def arriveNamed (s : State) (k : Cur) (g : Group) (id cnt : Nat) (m : Mask) : State :=
  (((lanesOf m).map (laneSet s g)).eraseDups).foldl (fun s set =>
    arriveSet s k g set id cnt (maskOf fun l => m.getLsbD l && laneSet s g l == set)) s

/-! ### Collective barrier objects (R247, R324) -/

def collAt (s : State) (fn i : Nat) : Coll := tget (fnAt s fn).colls i {}
def modColl (s : State) (fn i : Nat) (f : Coll → Coll) : State :=
  modFn s fn fun x => { x with colls := tset x.colls i (f (tget x.colls i {})) }

/-- The generation completes when the local arrivals and every peer's flit have come. -/
def collSettle (o : Coll) : Coll :=
  if o.count == o.local_ && o.peers &&& ~~~o.got == 0 then
    { o with gen := o.gen + 1, count := 0, got := o.gotNext, gotNext := 0 }
  else o

/-- The slot of a barrier flit, whose layout R244 does not give: function and object, and generation (log 15). -/
def barrierSlot (fn i : Nat) (gen : Word) : List DWord :=
  [BitVec.ofNat 64 (64 * fn + i), gen.zeroExtend 64 ||| (1 : DWord) <<< (63 : Nat), 0]

/-- One group arrival. When the last local one has come, the port sends a flit to every peer. -/
def arriveColl (s : State) (k : Cur) (g : Group) (id : Nat) (m : Mask) : State :=
  let i := id - 64
  let o := collAt s g.fn i
  let s := modGroup s k.core k.slot fun g => modThreads g m fun t => { t with wb := id, wg := o.gen }
  let s := modColl s g.fn i fun o => { o with count := o.count + 1 }
  let s := if o.count + 1 = o.local_ then
      (lanesOf o.peers).foldl (fun s d => sendTo s d 0 3 (barrierSlot g.fn i o.gen)) s
    else s
  modColl s g.fn i collSettle

/-- Lowest lost peer of an object. -/
def lostPeer (s : State) (o : Coll) : Nat := ((lanesOf o.peers).find? fun d => peerLost s d).getD 0

/-- The traps of a barrier instruction on a collective object, for the executing lanes x, or where none executes for the lane set. -/
def collTrap (s : State) (g : Group) (set x : Mask) (id : Nat) : Option TrapReq :=
  let m := if x = 0 then set else x
  if id < 64 then none
  else
    let o := collAt s g.fn (id - 64)
    if !o.en then some ⟨tcProtection, m, addrInfo 10 0⟩
    else if o.lost then some ⟨tcPeerLost, m, addrInfo (lostPeer s o) 0⟩
    else none

/-! ### BAR, BARA, BARW -/

/-- The arrival half: traps, then the release, then the arrival of the lanes that have not made it. On a collective object every issue
makes a group arrival, one with no executing lane too (R324). -/
def arriveOwn (s : State) (k : Cur) (g : Group) (x : Mask) (id cnt : Nat) : Own :=
  match collTrap s g k.lanes x id with
  | some t => .trap t
  | none =>
    let new := maskOf fun l => x.getLsbD l && !(threadAt g l).arrived
    if new = 0 ∧ (id < 64 ∨ x ≠ 0) then (if anyBlocked (coreAt s k.core) g x then .park (.order x) else .ok s)
    else
      let go := fun (s : State) =>
        let s := if id < 64 then arriveNamed s k g id cnt new else arriveColl s k g id new
        Own.ok (modGroup s k.core k.slot fun g => modThreads g new fun t => { t with arrived := true })
      match releaseFirst s k g new with
      | none => go s
      | some (.ok s) => go s
      | some o => o

/-- Lanes whose barrier has not moved on since their arrival (R323). -/
def stillWaits (s : State) (g : Group) (x : Mask) (id : Nat) : Bool :=
  (lanesOf x).any fun l =>
    let t := threadAt g l
    t.wb == id && (barNow s g t id).1 == t.wg

/-- The waiting half, in the state after the arrival. -/
def waitOwn (s : State) (k : Cur) (x : Mask) (id : Nat) : Own :=
  match groupAt s k.core k.slot with
  | none => .ok s
  | some g =>
    if x ≠ 0 ∧ stillWaits s g x id then .parkIn (.bar id) s
    else .ok (if x = 0 then s else acquire s k.core)

/-- BARA (R323). -/
def execBara (c : Ctl) (id : BitVec 7) (cnt : BitVec 15) (s : State) :=
  issueG s c false [] [] [] (fun k s g _ x => arriveOwn s k g x id.toNat cnt.toNat) fun _ s _ _ _ => .ok s
/-- BARW (R323). -/
def execBarw (c : Ctl) (id : BitVec 7) (s : State) :=
  issueG s c false [] [] []
    (fun k s g _ x => match collTrap s g k.lanes x id.toNat with
      | some t => .trap t
      | none =>
        if anyBlocked (coreAt s k.core) g x then .park (.order x) else waitOwn s k x id.toNat)
    fun _ s _ _ _ => .ok s
/-- BAR: BARA, then BARW for the same lanes (R131, R323). -/
def execBar (c : Ctl) (id : BitVec 7) (cnt : BitVec 15) (s : State) :=
  issueG s c false [] [] []
    (fun k s g _ x => match arriveOwn s k g x id.toNat cnt.toNat with
      | .ok s => waitOwn s k x id.toNat
      | o => o)
    fun _ s _ _ _ => .ok s

end Sys2Proof.Machine
end

