-- ==== Sys2Proof/Machine/Front.lean ====
section
/-! DEFINITION. Front.lean: what the front ends share: reads and writes in a process's address space, completion entries
(R196), launch headers and their checks (R36, R37), starting a launch (R195), and tasks that fall due (R204, R205). -/
namespace Sys2Proof.Machine

/-! ### Memory as a process sees it

Queues, completion rings, launch headers, graph objects and records are named by virtual addresses of the process (log 28).
A page that does not translate, or a poisoned word, cannot be read (R37). A write to one is dropped (log 20). A word of a peer is
read over the fabric, and the front end's event waits for it (R147). -/

/-- The front end's event waits. -/
def feStall (s : State) (fn : Nat) : State := modFn s fn fun f => { f with stall := true }

/-- A word of a peer, if it has come for the event (R147). The event is to read it else. DESIGN CHOICE (log 141). -/
def peerWordRead (s : State) (fn w : Nat) : Option DWord × State :=
  match (fnAt s fn).fetched.find? fun e => e.1 == w with
  | some e => (if e.2.pois then none else some e.2.data, modFn s fn fun f => { f with fetched := f.fetched.erase e })
  | none => (none, modFn (feStall s fn) fn fun f => { f with wants := f.wants ++ [w] })

/-- Messages that have arrived for a host word wait for the host's answer: what comes after them waits as well (R141). -/
def hostBusy (s : State) (w : Nat) : Bool := tierOf w == 2 && s.net.any fun m => m.arrived && m.w == w

/-- One word: the one that holds the address. A launch header at an address that is no multiple of 128 is read as it stands, which the
spec settles for launch commands alone (R37). DESIGN CHOICE (log 140). -/
def procRead (s : State) (fn proc : Nat) (va : DWord) (pri : Bool := true) : Option DWord × State :=
  match feTrans s fn proc va false pri with
  | (some e, s) =>
    let w := wkey e.tier (physOf e va)
    if e.tier = 3 then peerWordRead s fn w
    else if hostBusy s w then (none, feStall s fn)
    else
      let (mw, _, s) := homeRead s w e.key e.sector
      (if mw.pois then none else some mw.data, s)
  | (none, s) => (none, s)

/-- n words from an address on; `none` where one of them cannot be read. -/
def procReads (s : State) (fn proc : Nat) (va : DWord) (n : Nat) (pri : Bool := true) : Option (List DWord) × State :=
  match n with
  | 0 => (some [], s)
  | n + 1 => match procRead s fn proc va pri with
    | (none, s) => (none, s)
    | (some w, s) => match procReads s fn proc (va + 8) n pri with
      | (none, s) => (none, s)
      | (some ws, s) => (some (w :: ws), s)

/-- A word of a peer is asked for, once, for a front end, whose requests are those of core 192 + n (R147). -/
def askPeer (s : State) (fn w : Nat) : State :=
  let c := 192 + fn
  if (coreAt s c).items.any (fun i => i.body == .feRead w) then s
  else
    let n := s.nid
    sendRemote (pushItem s c { id := 0, op := 0, gid := 0, slot := 0, lane := 0, fn := fn, body := .feRead w }) c 0 0 n w opRead 0xFF 0 none

/-- What waits has done nothing but ask for the translations and the words that it lacks: `t` is what it would have come to. -/
def feKeep (s t : State) (fn : Nat) : State :=
  (fnAt t fn).wants.foldl (fun s w => askPeer s fn w) { s with walks := t.walks, nid := t.nid }

/-- The state before an event of a front end that may have to wait. -/
def feBegin (s : State) (fn : Nat) : State := modFn s fn fun x => { x with stall := false, wants := [] }

/-- What a front end does at once, unless it has to wait for a translation or a word. -/
def feTry (fn : Nat) (f : State → State) (s : State) : State :=
  let t := f (feBegin s fn)
  if (fnAt t fn).stall then feKeep s t fn else t

/-- Writes bytes of the word that holds an address. -/
def procBytes (s : State) (fn proc : Nat) (va : DWord) (mask : BitVec 8) (d : DWord) : State :=
  match feTrans s fn proc va true with
  | (some e, s) =>
    let w := wkey e.tier (physOf e va)
    if !e.w || e.tier == 3 || mask == 0 then s
    else if hostBusy s w then feStall s fn
    else homeWrite s w e.key fn e.sector mask { data := d, tagd := false }
  | (none, s) => s

/-- Writes the low n bytes of a value at an address, up to the end of its word. -/
def procWrite (s : State) (fn proc : Nat) (va : DWord) (n : Nat) (v : DWord) : State :=
  let off := va.toNat % 8
  procBytes s fn proc va (BitVec.ofNat 8 ((2 ^ n - 1) * 2 ^ off)) (v <<< (8 * off))

/-- Writes 8 bytes at any address. -/
def procPatch (s : State) (fn proc : Nat) (va : DWord) (v : DWord) : State :=
  let off := va.toNat % 8
  let s := procWrite s fn proc va 8 v
  if off = 0 then s else procBytes s fn proc (va + 8) (BitVec.ofNat 8 (2 ^ off - 1)) (v >>> (8 * (8 - off)))

/-- Writes words from an address on. -/
def procWrites (s : State) (fn proc : Nat) (va : DWord) (ws : List DWord) : State :=
  (ws.zip (List.range ws.length)).foldl (fun s (w, i) => procWrite s fn proc (va + BitVec.ofNat 64 (8 * i)) 8 w) s

/-! ### Completion entries (R196) -/

def queueAt (s : State) (fn q : Nat) : Queue := tget (fnAt s fn).queues q {}
def modQueue (s : State) (fn q : Nat) (f : Queue → Queue) : State :=
  modFn s fn fun x => { x with queues := tset x.queues q (f (tget x.queues q {})) }

/-- A completion ring has room. -/
def cqRoom (q : Queue) : Bool := decide ((q.cqTail - q.cqHead).toNat < 2 ^ q.cqLog2n)

/-- Writes an entry into its ring. -/
def putEntry (s : State) (fn : Nat) (e : Entry) : State :=
  let q := queueAt s fn e.q
  let at0 := q.cqBase + BitVec.ofNat 64 (32 * (q.cqTail.toNat % 2 ^ q.cqLog2n))
  let s := procWrites s fn q.proc at0 [e.tag, BitVec.ofNat 64 (e.status + 256 * e.reason), e.info, 0]
  modQueue s fn e.q fun q => { q with cqTail := q.cqTail + 1 }

/-- Writes an entry, unless the page of its ring waits for a translation. -/
def tryEntry (s : State) (fn : Nat) (e : Entry) : Bool × State :=
  let t := putEntry (feBegin s fn) fn e
  if (fnAt t fn).stall then (false, feKeep s t fn)
  else (true, modFn t fn fun f => { f with stall := (fnAt s fn).stall, wants := (fnAt s fn).wants })

/-- Writes the entries held back whose rings have room, oldest first. -/
def pumpEntries (s : State) (fn : Nat) : List Entry → List Entry → State
  | [], held => modFn s fn fun f => { f with entries := held }
  | e :: r, held =>
    if cqRoom (queueAt s fn e.q) && !held.any fun h => h.q == e.q then
      let (done, s) := tryEntry s fn e
      pumpEntries s fn r (if done then held else held ++ [e])
    else pumpEntries s fn r (held ++ [e])

/-- Sends an entry, held back while its ring is full. -/
def sendEntry (s : State) (fn : Nat) (e : Entry) : State := pumpEntries s fn ((fnAt s fn).entries ++ [e]) []

def stDone : Nat := 0
def stRejected : Nat := 1
def stBadCommand : Nat := 2
def stFault : Nat := 3
def stAborted : Nat := 4
def stQueueError : Nat := 5

/-! ### Launch headers (R29, R36, R37) -/

def bitsOf (w : DWord) (lo n : Nat) : Nat := w.toNat / 2 ^ lo % 2 ^ n

/-- Fields of a header of 16 words. -/
def parseHeader (h : List DWord) : LHeader :=
  let w := fun i => h.getD i 0
  { entry := w 0, params := w 1, handler := w 2, widths := (List.range 6).map fun k => bitsOf (w 3) (6 * k) 6,
    lc := bitsOf (w 3) 36 6, lp := bitsOf (w 3) 42 6, n := (w 4).toNat, rb := bitsOf (w 5) 0 8, rx := bitsOf (w 5) 8 8,
    spad := bitsOf (w 5) 16 16, flags := (w 5).extractLsb' 32 16, prio := bitsOf (w 6) 0 4, cq := bitsOf (w 6) 4 6,
    ctask := bitsOf (w 6) 16 12, ctv := (w 6).getLsbD 28 }

/-- Threads that a whole co-resident set holds. -/
def LHeader.per (h : LHeader) : Nat := 2 ^ h.bAt h.lc

/-- Number of co-resident sets of a launch (R30, R32). -/
def setTotal (h : LHeader) : Nat := (h.n + h.per - 1) / h.per

/-- Number of groups of a set in ascending wid order, exited ones included. -/
def setGroupCount (h : LHeader) (set : Nat) : Nat :=
  let per := 2 ^ h.bAt h.lc
  (min per (h.n - set * per) + 63) / 64

/-- The sets that are placed together: one, or under TWIN those of its pod set (R33). -/
def podSets (h : LHeader) (set : Nat) : List Nat :=
  if h.twin then
    let k := 2 ^ (h.bAt h.lp - h.bAt h.lc)
    ((List.range k).map fun i => podSetOf h set * k + i).filter fun n => decide (n < setTotal h)
  else [set]

/-- Sets of a list on one side of a pod. -/
def sideSets (h : LHeader) (ns : List Nat) (up : Bool) : List Nat := if h.twin then ns.filter fun n => (n % 2 == 1) == up else ns

/-- Groups, registers and scratchpad units of sets. -/
def groupsNeed (h : LHeader) (ns : List Nat) : Nat := ns.foldl (fun t n => t + setGroupCount h n) 0
def regsNeed (h : LHeader) (ns : List Nat) : Nat := groupsNeed h ns * h.rb * (if h.shadow then 2 else 1)
def unitsNeed (h : LHeader) (ns : List Nat) : Nat := ns.length * h.spad

/-- Sets fit an empty core (R18, R35, R108). -/
def fitsCore (h : LHeader) (ns : List Nat) : Bool :=
  let r := (regsNeed h ns + 511) / 512
  let p := (unitsNeed h ns + 31) / 32
  decide (groupsNeed h ns ≤ (if h.shadow then 64 else 128)) && decide (r ≤ 12) && decide (p ≤ 8) && decide (r + p ≤ 22)

/-- The first reason of R37 for which a header that was read is rejected; 0 for none. -/
def headerReason (full : Bool) (ws : List DWord) : Nat :=
  let w := fun i => ws.getD i 0
  let h := parseHeader ws
  let sum := h.bAt 6
  if bitsOf (w 3) 48 16 ≠ 0 ∨ bitsOf (w 5) 38 26 ≠ 0 ∨ bitsOf (w 6) 10 6 ≠ 0 ∨ bitsOf (w 6) 29 35 ≠ 0
      ∨ (ws.drop 7).any (fun x => x != 0) then 1
  else if h.entry.toNat % 8 ≠ 0 ∨ h.handler.toNat % 8 ≠ 0 then 2
  else if 64 < sum ∨ (sum < 64 ∧ 2 ^ sum < h.n) then 3
  else if 6 < h.lc ∨ 6 < h.lp ∨ h.bAt h.lc < 6 ∨ 13 < h.bAt h.lc then 4
  else if (if h.twin then decide (h.lp ≤ h.lc) else h.lp != h.lc) then 5
  else if h.rb < 8 ∨ 128 < h.rb ∨ h.rb % 8 ≠ 0 ∨ 64 < h.rx ∨ 256 < h.spad then 6
  else if (h.twin && !full) || (decide (0 < h.n) && (!fitsCore h (sideSets h (podSets h 0) false)
      || !fitsCore h (sideSets h (podSets h 0) true))) then 7
  else 0

/-- A header as read and checked: its fields, or a reason. -/
def readHeader (s : State) (fn proc : Nat) (va : DWord) : (LHeader × Nat) × State :=
  match procReads s fn proc va 16 (pri := false) with
  | (none, s) => ((parseHeader [], 8), s)
  | (some ws, s) => ((parseHeader ws, headerReason s.full ws), s)

/-- A rejected launch: its entry, or for one without a command and reason 8 an error record (R37). A rejected task of a
replay counts as launched and completed (log 29). -/
def rejectLaunch (s : State) (fn : Nat) (va : DWord) (h : LHeader) (o : Origin) (reason : Nat) : State :=
  match o with
  | .cmd q tag => sendEntry s fn { q := if reason = 8 then q else h.cq, tag := tag, status := stRejected, reason := reason }
  | .task n rep =>
    let s := if reason = 8 then errorRecord s fn va 0 0
      else if (queueAt s fn h.cq).en then sendEntry s fn { q := h.cq, tag := 0, status := stRejected, reason := reason } else s
    match rep with
    | none => s
    | some i => modFn s fn fun f => { f with started := f.started.map fun e => (e.1, if e.1 = i then (match e.2 with
        | .replay q t ob c b k left a p pb => .replay q t ob c b k (left.filter fun m => m != n) a p pb
        | y => y) else e.2) }
  | .batch .. =>
    if reason = 8 then errorRecord s fn va 0 0 else sendEntry s fn { q := h.cq, tag := 0, status := stRejected, reason := reason }

/-- A launch starts: its header has passed (R195). -/
def startLaunch (s : State) (fn proc : Nat) (va : DWord) (h : LHeader) (o : Origin) (eff : Nat) : State :=
  { s with nid := s.nid + 1, launches := s.launches ++
      [{ id := s.nid, fn := fn, proc := proc, hdrAddr := va, hdr := h, origin := o, eff := eff, started := s.now }] }

/-! ### Tasks (R204, R205) -/

/-- Header of a task of a replay: PARAMS is an offset in the parameter block, CTASK a number from TBASE (R205). -/
def replayHeader (s : State) (fn : Nat) (rep : Option Nat) (h : LHeader) : LHeader :=
  match rep.bind fun i => tget? (fnAt s fn).started i with
  | some (.replay _ _ _ _ base _ _ _ _ pb) => { h with params := pb + h.params, ctask := (h.ctask + base) % 4096 }
  | _ => h

/-- The counter of a task has reached zero: its header is read and checked, and its launch competes from now on. -/
def taskDue (s : State) (fn n : Nat) : State :=
  let t := tget (fnAt s fn).tasks n {}
  let ((h, r), s) := readHeader s fn t.proc t.hdr
  if r ≠ 0 then rejectLaunch s fn t.hdr h (.task n t.replay) r
  else
    let h := replayHeader s fn t.replay h
    modFn s fn fun f =>
      { f with tasks := tset f.tasks n { tget f.tasks n {} with due := (tget f.tasks n {}).due ++ [⟨h, s.now, t.proc, t.hdr, t.replay⟩] } }

/-- One decrement of a task entry. At zero it starts its launch, or sends an error record where it was zero already. -/
def decTask (s : State) (fn n : Nat) : State :=
  let t := tget (fnAt s fn).tasks n {}
  if t.counter = 0 then errorRecord s fn (BitVec.ofNat 64 n) 0 0
  else
    let s := modFn s fn fun f => { f with tasks := tset f.tasks n { t with counter := t.counter - 1 } }
    if t.counter = 1 then taskDue s fn n else s

/-- A set of a task entry. DEDUCED (log 104). -/
def setTask (s : State) (fn n : Nat) (v : Word) : State :=
  let s := modFn s fn fun f => { f with tasks := tset f.tasks n { tget f.tasks n {} with counter := v } }
  if v = 0 then taskDue s fn n else s

end Sys2Proof.Machine
end

