-- ==== Sys2Proof/Machine/Copy.lean ====
section
/-! DEFINITION. Copy.lean: the copy instructions up to acceptance (R150 to R161, R292, R293, R308 to R317), and the
work-graph and task instructions (R200 to R204, R338 to R340, R431). -/
namespace Sys2Proof.Machine

/-! ### Completion values (R292) -/

/-- The completion value of a lane. -/
def compVal (s : State) (k : Cur) (g : Group) (cp : Comp) (l : Nat) : Word :=
  match cp with
  | .reg a => val s k g l a
  | .lit w => w

/-- What a completion value names: a sync word of the lane's set, or a task entry. -/
def compRef (s : State) (g : Group) (l : Nat) (v : Word) : CompRef :=
  if v.msb then .task (v.extractLsb' 0 12).toNat else .sync (laneSet s g l) v.toNat

/-- Faults of completion values. -/
def compFaults (s : State) (g : Group) (vs : List (Nat × Word)) : List LaneFault :=
  spadFaults s g 16 16 ((vs.filter fun e => !e.2.msb).map fun e => (e.1, (e.2.toNat : Int)))

/-- Source operands of a completion. -/
def compUse : Comp → List SrcUse
  | .reg a => [useC a]
  | .lit _ => []

/-- D read as a source (R308, R311, R313). -/
def useD (d : Opd) (n : Nat) : SrcUse := { pos := 3, src := { o := d }, n := n }

/-! ### Checks (R151) -/

/-- MISALIGNED of a row that crosses a 64 KiB page. -/
def crossFaults (bytes : Nat) (as : List LaneAcc) : List LaneFault :=
  as.filterMap fun a =>
    if 65536 < a.va.toNat % 65536 + bytes then some ⟨0, tcMisaligned, 0, a.lane, a.va⟩ else none

/-- Room for n more entries in a copy queue (R154). -/
def queueRoom (x : Core) (q n : Nat) : Bool := decide (queueUsed x q + n ≤ 64)

/-- The checks of a copy instruction. `own` is its own trap after the memory faults, `fmt` forbids formatted pages. -/
def copyOwn (s : State) (k : Cur) (g : Group) (x : Mask) (q : Nat) (srcs dsts : List LaneAcc) (extra : List LaneFault)
    (fmt : Bool) (cmds : Nat) (own : Option TrapReq) : Own :=
  match firstFault ((srcs ++ dsts).filterMap addrFault ++ extra.filter fun f => f.rank == 0) with
  | some t => .trap t
  | none =>
    let sx := xlat s k.core g false srcs
    let dx := xlat s k.core g true dsts
    let ask := fun (s : State) (w : Bool) (vs : List DWord) =>
      vs.foldl (fun s va => (askWalk s k.core g.fn (procOf s g) va w).2) s
    if !(sx.misses ++ dx.misses).isEmpty then .wait (ask (ask s false sx.misses) true dx.misses)
    else
      match firstFault (sx.faults ++ dx.faults ++ extra ++ pageFaults s (fun _ => false) sx.hits
          ++ pageFaults s (fun e => fmt && e.fmt != 0) dx.hits) with
      | some t => .trapIn t (dropFailed s k.core g.fn (procOf s g))
      | none => match own with
        | some t => .trap t
        | none => parksOwn s k g x (0, 0)
          (if queueRoom (coreAt s k.core) q cmds then snapOwn s g.launch (writtenWords dx.hits)
           else .park (.copyq ((1 : BitVec 4) <<< q)))

/-! ### Acceptance (R154, R161, R309) -/

/-- Word, KEY and sector mode of a lane's access. -/
def hitOf (hits : List (LaneAcc × TlbEntry)) (l : Nat) : Nat × Nat × Bool :=
  match hits.find? fun p => p.1.lane == l with
  | some (a, e) => (accWord a e, e.key, e.sector)
  | none => (0, 0, false)

/-- Units of a run of bytes that starts in a word of memory and goes to a home word or to a scratchpad, at most 8 bytes
each. `dst` places the bytes from an offset on. -/
def runUnits (bytes srcW srcOff : Nat) (page dpage : Nat × Bool) (run : Nat) (dst : Nat → Nat → CopyDst) : List CopyUnit :=
  let u : CopyUnit := { dst := dst 0 bytes, srcW := srcW, srcOff := srcOff, run := run, key := page.1, sec := page.2,
                        dkey := dpage.1, dsec := dpage.2 }
  if bytes ≤ 8 then [u] else (List.range (bytes / 8)).map fun i => { u with dst := dst (8 * i) 8, srcW := srcW + i, srcOff := 0 }

/-- Accepts commands at the tail of a queue. -/
def acceptCmds (s : State) (k : Cur) (q : Nat) (cs : List (Nat → CopyCmd)) : State :=
  cs.foldl (fun s f =>
    acceptCmd { s with nid := s.nid + 1 } k.core q (f s.nid)) s

/-- A launch that has signalled a task cannot be replayed (R232). -/
def noReplay (s : State) (launch : Nat) : State := modLaunch s launch fun y => { y with nonReplay := true }

/-- The writes of a copy are noted for replay (R232). -/
def noteCopy (s : State) (g : Group) (dx : List (LaneAcc × TlbEntry)) : State :=
  if dx.isEmpty then s else markWrites s g.launch (writtenWords dx)

/-- Lanes by command: the executing lanes that carry equal completion values, in the order of their lowest lanes.
DEDUCED (log 59). -/
def byComp (vs : List (Nat × Word)) : List (List Nat) :=
  ((vs.map (·.2)).eraseDups).map fun v => (vs.filter fun e => e.2 == v).map (·.1)

/-- Commands of ACP and ACPR: one run and its units per lane. -/
def laneCmds (s : State) (k : Cur) (g : Group) (op : CopyOp) (bytes : Nat) (vs : List (Nat × Word))
    (units : Nat → Nat → List CopyUnit) : List (Nat → CopyCmd) :=
  (byComp vs).map fun ls id =>
    let ix := ls.zip (List.range ls.length)
    .cmd id g.gid k.slot g.launch g.set g.fn op (ix.flatMap fun (l, i) => units l i)
      (ix.map fun (l, _) => { lane := l, wid := (threadAt g l).wid, bytes := bytes, comp := compRef s g l (((vs.find? fun e => e.1 == l).map (·.2)).getD 0) })
      false

/-! ### ACP (R308 to R310) -/

def csizeBytes : CSize → Nat
  | .b32 => 4
  | .b64 => 8
  | .b128 => 16

/-- Source accesses of ACP. -/
def acpSrcs (s : State) (k : Cur) (g : Group) (x : Mask) (a : Src) (z : Nat) : List LaneAcc :=
  (lanesOf x).map fun l => ⟨l, val64 s k g l a, z⟩

/-- Destination accesses of the global form. -/
def acpDsts (s : State) (k : Cur) (g : Group) (x : Mask) (d : Opd) (z : Nat) (glob : Bool) : List LaneAcc :=
  if glob then (lanesOf x).map fun l => ⟨l, val64 s k g l { o := d }, z⟩ else []

/-- Scratchpad offsets of the other form. -/
def acpOffs (s : State) (k : Cur) (g : Group) (x : Mask) (d : Opd) (glob : Bool) : List (Nat × Int) :=
  if glob then [] else (lanesOf x).map fun l => (l, ((laneVal s k g l d 0).1.toNat : Int))

/-- Units of a lane of ACP. Of two lanes that write the same bytes, the lower one's stay unwritten where the higher lane's
command stands before its own (R310). -/
def acpUnits (s : State) (k : Cur) (g : Group) (x : Mask) (d : Opd) (a : Src) (comp : Comp) (size : CSize) (glob : Bool)
    (l run : Nat) : List CopyUnit :=
  let z := csizeBytes size
  let sx := entriesOf s k.core g false (acpSrcs s k g x a z)
  let dx := entriesOf s k.core g true (acpDsts s k g x d z glob)
  let vs := (lanesOf x).map fun l => (l, compVal s k g comp l)
  let offs := acpOffs s k g x d glob
  let offOf := fun (l : Nat) => (((offs.find? fun (e : Nat × Int) => e.1 == l).map Prod.snd).getD 0).toNat
  -- the place a lane writes to
  let place := fun (l : Nat) => if glob then ((hitOf dx l).1, (val64 s k g l { o := d }).toNat % 8, 0) else (0, offOf l, laneSet s g l)
  let cmdNo := fun (l : Nat) => ((byComp vs).findIdx? fun ls => ls.contains l).getD 0
  let hidden := (lanesOf x).any fun m => decide (l < m) && place m == place l && decide (cmdNo m < cmdNo l)
  let h := hitOf sx l
  let t := hitOf dx l
  let us := runUnits z h.1 ((val64 s k g l a).toNat % 8) h.2 t.2 run fun o n =>
    if glob then .home (t.1 + o / 8) ((val64 s k g l { o := d }).toNat % 8) n else .spad (laneSet s g l) (offOf l + o) n
  us.map fun u => { u with skip := hidden }

/-- ACP. -/
def execAcp (c : Ctl) (d : Opd) (a : Src) (comp : Comp) (q : Fin 4) (size : CSize) (glob : Bool) (s : State) :=
  let z := csizeBytes size
  let ud := useD d (if glob then 2 else 1)
  let vals := fun (s : State) (k : Cur) (g : Group) (x : Mask) => (lanesOf x).map fun l => (l, compVal s k g comp l)
  issueG s c false ([useA a 2, ud] ++ compUse comp) [] (([useA a 2, ud] ++ compUse comp).map fun u => (2, u))
    (fun k s g _ x =>
      copyOwn s k g x q.val (acpSrcs s k g x a z) (acpDsts s k g x d z glob)
        (spadFaults s g z z (acpOffs s k g x d glob) ++ compFaults s g (vals s k g x)) false
        (byComp (vals s k g x)).length none)
    fun k s g _ x =>
      let vs := vals s k g x
      .ok (acceptCmds (noteCopy s g (entriesOf s k.core g true (acpDsts s k g x d z glob))) k q.val
        (laneCmds s k g .copy z vs (acpUnits s k g x d a comp size glob)))

/-! ### ACPT (R315 to R317) -/

def styBytes : STy → Nat
  | .f32 => 4
  | .bf16 | .f16 => 2
  | _ => 1

def styTy : STy → Ty
  | .f32 => .f32
  | .bf16 => .bf16
  | .f16 => .f16
  | .e4m3 => .e4m3
  | .e5m2 => .e5m2
  | .int8 => .i8
  | .sp8 => .sp8
def dtyTy : DTy → Ty
  | .bf16 => .bf16
  | .f16 => .f16
  | .e4m3 => .e4m3
  | .e5m2 => .e5m2
  | .int8 => .i8
  | .sp8 => .sp8

/-- Elements of a slot row that a lane fills. -/
def acptWidth (lit : AcptLit) : Nat := if lit.trn then 128 else if lit.dty.is8 then 256 else 128

/-- Units of a lane's row: one for each source word, and one for the zeros after it. -/
def acptUnits (lit : AcptLit) (slot row w off : Nat) (page : Nat × Bool) (run : Nat) : List CopyUnit :=
  let e := styBytes lit.sty
  let len := lit.len.toNat
  let words := (off + len * e + 7) / 8
  let us := (List.range words).map fun i =>
    let lo := if i = 0 then off else 0
    let hi := min 8 (off + len * e - 8 * i)
    ({ dst := .slot slot row ((8 * i + lo - off) / e) ((hi - lo) / e), srcW := w + i, srcOff := lo, run := run, key := page.1, sec := page.2 } : CopyUnit)
  if len < acptWidth lit then
    us ++ [{ dst := .slot slot row len (acptWidth lit - len), srcW := w, srcOff := 0, run := run, pad := true }]
  else us

/-- Units of the executing lanes' rows. -/
def acptRows (s : State) (k : Cur) (g : Group) (x : Mask) (slot : Nat) (a : Src) (hi : Bool) (lit : AcptLit) : List CopyUnit :=
  let sx := entriesOf s k.core g false (acpSrcs s k g x a (styBytes lit.sty))
  ((lanesOf x).zip (List.range 64)).flatMap fun (l, i) =>
    let h := hitOf sx l
    acptUnits lit slot ((if hi then 64 else 0) + l) h.1 ((val64 s k g l a).toNat % 8) h.2 i

/-- ACPT. With no executing lane it accepts nothing. DEDUCED (log 54). -/
def execAcpt (c : Ctl) (slot : Fin 16) (a : Src) (q : Fin 4) (hi : Bool) (lit : AcptLit) (s : State) :=
  let e := styBytes lit.sty
  let rows := fun (s : State) (k : Cur) (g : Group) (x : Mask) => acpSrcs s k g x a e
  issueG s c false [useA a 2] [] [(2, useA a 2)]
    (fun k s g _ x =>
      let ls := (lanesOf x).map fun l => (l, lit.comp)
      let free := (tget (coreAt s k.core).tiles slot.val {}).claim.isNone
      copyOwn s k g x q.val (rows s k g x) []
        (crossFaults (lit.len.toNat * e) (rows s k g x) ++ compFaults s g ls) false (if x = 0 then 0 else 1)
        (if free then some ⟨tcSlotState, k.lanes, (1 : DWord) <<< slot.val⟩ else none))
    fun k s g _ x =>
      if x = 0 then .ok s
      else
        let units := acptRows s k g x slot.val a hi lit
        let runs := (lanesOf x).map fun l => ({ lane := l, wid := (threadAt g l).wid, bytes := 256, comp := compRef s g l lit.comp } : CopyRun)
        let s := modCore s k.core fun y =>
          { y with tiles := tset y.tiles slot.val { tget y.tiles slot.val {} with full := false } }
        .ok (acceptCmds s k q.val [fun id =>
          .cmd id g.gid k.slot g.launch g.set g.fn (.acpt lit hi slot.val g.dph) units runs false])

/-! ### ACPR (R313, R314) -/

/-- Addresses of ACPR. -/
def acprAccs (s : State) (k : Cur) (g : Group) (x : Mask) (d : Opd) (a : Src) (z : Nat) : List LaneAcc :=
  (lanesOf x).map fun l =>
    ⟨l, val64 s k g l { o := d } + sext64 (val s k g l a) * BitVec.ofNat 64 z, z⟩

/-- Lower lanes that name the word of lane l in later commands of the instruction, ascending: how many commands on, and which of that
command's lanes (R314). The commands of one instruction are accepted together, so R156 does not order them. DEDUCED (log 59). -/
def acprLead (word : Nat → Nat) (cmds : List (List Nat)) (l : Nat) : List (Nat × Nat) :=
  let at_ := fun (m : Nat) => (cmds.findIdx? fun ls => ls.contains m).getD 0
  ((List.range l).filter fun m => cmds.any (fun ls => ls.contains m) && word m == word l && decide (at_ l < at_ m)).map fun m =>
    (at_ m - at_ l, ((cmds.getD (at_ m) []).findIdx? (· == m)).getD 0)

/-- The unit of a lane of ACPR. -/
def acprUnits (s : State) (k : Cur) (g : Group) (x : Mask) (d : Opd) (a b : Src) (comp : Comp) (op : AOp) (l run : Nat) :
    List CopyUnit :=
  let z := if op.wide then 8 else 4
  let as := acprAccs s k g x d a z
  let hits := entriesOf s k.core g true as
  let h := hitOf hits l
  let off := ((as.find? fun p => p.lane == l).map fun p => p.va.toNat % 8).getD 0
  let r := fun i => (laneVal s k g l b.o i).1
  [{ dst := .home h.1 off z, srcW := h.1, srcOff := 0, run := run, dkey := h.2.1, dsec := h.2.2,
     lead := acprLead (fun m => (hitOf hits m).1) (byComp ((lanesOf x).map fun m => (m, compVal s k g comp m))) l,
     data := if op.wide then r 1 ++ r 0 else (r 0).zeroExtend 64 }]

/-- ACPR. -/
def execAcpr (c : Ctl) (d : Opd) (a b : Src) (comp : Comp) (q : Fin 4) (op : AOp) (s : State) :=
  let z := if op.wide then 8 else 4
  let ub := useB b (if op.wide then 2 else 1)
  let adr := [useD d 2, useA a] ++ compUse comp
  let vals := fun (s : State) (k : Cur) (g : Group) (x : Mask) => (lanesOf x).map fun l => (l, compVal s k g comp l)
  issueG s c false (adr ++ [ub]) [] ((1, ub) :: adr.map fun u => (2, u))
    (fun k s g _ x =>
      copyOwn s k g x q.val [] (acprAccs s k g x d a z) (compFaults s g (vals s k g x)) true
        (byComp (vals s k g x)).length none)
    fun k s g _ x =>
      let dx := entriesOf s k.core g true (acprAccs s k g x d a z)
      let vs := vals s k g x
      .ok (acceptCmds (noteCopy s g dx) k q.val (laneCmds s k g (.acpr op) z vs (acprUnits s k g x d a b comp op)))

/-! ### ACPL (R311, R312) -/

/-- Rank of a lane among the executing lanes. -/
def laneRankIn (x : Mask) (l : Nat) : Nat := ((lanesOf x).filter fun m => decide (m < l)).length

/-- Rows of ACPL. -/
def acplRows (s : State) (k : Cur) (g : Group) (act x : Mask) (a b : Src) (bytes : Nat) : List LaneAcc :=
  (lanesOf x).map fun l =>
    ⟨l, val64 s k g (lowLane act) a + (val s k g l b).zeroExtend 64 * BitVec.ofNat 64 bytes, 8⟩

/-- Destination rows in memory. -/
def acplDsts (s : State) (k : Cur) (g : Group) (act x : Mask) (d : Opd) (bytes : Nat) (glob : Bool) : List LaneAcc :=
  if glob then (lanesOf x).map fun l =>
    ⟨l, val64 s k g (lowLane act) { o := d } + BitVec.ofNat 64 (laneRankIn x l * bytes), 8⟩
  else []

/-- Destination offsets in the scratchpad. -/
def acplOffs (s : State) (k : Cur) (g : Group) (act x : Mask) (d : Opd) (bytes : Nat) (glob : Bool) : List (Nat × Int) :=
  if glob then [] else (lanesOf x).map fun l =>
    (l, (((laneVal s k g (lowLane act) d 0).1.toNat + laneRankIn x l * bytes : Nat) : Int))

/-- Units of the executing lanes' rows of ACPL. -/
def acplUnits (s : State) (k : Cur) (g : Group) (act x : Mask) (d : Opd) (a b : Src) (glob : Bool) (size : BitVec 10) :
    List CopyUnit :=
  let bytes := 8 * size.toNat
  let sx := entriesOf s k.core g false (acplRows s k g act x a b bytes)
  let dx := entriesOf s k.core g true (acplDsts s k g act x d bytes glob)
  let offs := acplOffs s k g act x d bytes glob
  ((lanesOf x).zip (List.range 64)).flatMap fun (l, i) =>
    let h := hitOf sx l
    let t := hitOf dx l
    let o0 := (((offs.find? fun (e : Nat × Int) => e.1 == l).map Prod.snd).getD 0).toNat
    runUnits bytes h.1 0 h.2 t.2 i fun o n =>
      if glob then .home (t.1 + o / 8) 0 n else .spad (laneSet s g l) (o0 + o) n

/-- ACPL. -/
def execAcpl (c : Ctl) (d : Opd) (a b : Src) (q : Fin 4) (glob : Bool) (size : BitVec 10) (comp : Word) (s : State) :=
  let bytes := 8 * size.toNat
  let ud := useD d (if glob then 2 else 1)
  issueG s c false [useA a 2, useB b, ud] [] [(2, useA a 2), (2, useB b), (2, ud)]
    (fun k s g act x =>
      let rows := acplRows s k g act x a b bytes
      let dsts := acplDsts s k g act x d bytes glob
      copyOwn s k g x q.val rows dsts
        (crossFaults bytes rows ++ crossFaults bytes dsts
          ++ spadFaults s g bytes 8 (acplOffs s k g act x d bytes glob)
          ++ compFaults s g ((lanesOf x).map fun l => (l, comp))) false (if x = 0 then 0 else 1) none)
    fun k s g act x =>
      if x = 0 then .ok s
      else
        let dx := entriesOf s k.core g true (acplDsts s k g act x d bytes glob)
        let units := acplUnits s k g act x d a b glob size
        let runs := (lanesOf x).map fun l => ({ lane := l, wid := (threadAt g l).wid, bytes := bytes, comp := compRef s g l comp } : CopyRun)
        .ok (acceptCmds (noteCopy s g dx) k q.val [fun id =>
          .cmd id g.gid k.slot g.launch g.set g.fn .acpl units runs false])

/-! ### ENQ and ENQC (R338 to R340) -/

/-- A node of a function. -/
def nodeAt (s : State) (fn n : Nat) : Node := tget (fnAt s fn).nodes n {}
def modNode (s : State) (fn n : Nat) (f : Node → Node) : State :=
  modFn s fn fun x => { x with nodes := tset x.nodes n (f (tget x.nodes n {})) }

/-- Node number of an ENQ: B of the lowest lane of X (R338). DEDUCED (log 57). -/
def enqNode (s : State) (k : Cur) (g : Group) (x : Mask) (b : Src) : Nat := (val s k g (lowLane x) b).toNat % 256

/-- First register of the block. -/
def enqFirst (a : Src) : Nat := match a.o with | .v n => n.val | _ => 0

/-- Registers of the record block for candidates m of the active lanes, and the active lanes that do not go on: the lanes of m where a
register of the block is empty under the split policy stay behind, and the node is then that of the lowest lane left (R52, R338, R339).
One register, while the node number is not there. -/
def enqSettle (s : State) (k : Cur) (g : Group) (c : Ctl) (a b : Src) : Nat → Mask → Nat × Mask
  | 0, m => (1, k.lanes &&& ~~~m)
  | fuel + 1, m =>
    let x := execLanes g c m
    let n := if x = 0 || !srcFull g (lowLane x) (useB b) || srcPois s k g (lowLane x) (useB b) then 1
      else (nodeAt s g.fn (enqNode s k g x b)).rwords
    let go := m &&& splitFull g k c [useA a (min n (128 - enqFirst a))]
    if go = m || go = 0 then (n, k.lanes &&& ~~~m) else enqSettle s k g c a b fuel go

/-- Registers of ENQ's record block as the issuing state gives them, and the lanes that do not go on. DEDUCED (log 148). -/
def enqRegs (s : State) (c : Ctl) (a b : Src) : Nat × Mask :=
  match s.cur with
  | none => (1, 0)
  | some k => match groupAt s k.core k.slot with
    | none => (1, 0)
    | some g =>
      let m := splitFull g k c [useB b]
      enqSettle s k g c a b 64 (if m = 0 then k.lanes else m)

/-- ENQ. DEDUCED (log 58). -/
def execEnq (c : Ctl) (a b : Src) (s : State) :=
  let n := (enqRegs s c a b).1
  let ua : SrcUse := { useA a (min n (128 - enqFirst a)) with late := (enqRegs s c a b).2 }
  issueG s c false [ua, useB b] [] []
    (fun k s g _ x =>
      if x = 0 then .ok s
      else if srcPois s k g (lowLane x) (useB b) then .trap ⟨tcPoison, laneBit (lowLane x), addrInfo 3 0⟩
      else
        let bad := maskOf fun l => x.getLsbD l && srcPois s k g l ua
        let node := enqNode s k g x b
        let y := nodeAt s g.fn node
        if bad ≠ 0 then .trap ⟨tcPoison, bad, addrInfo 4 0⟩
        else if 128 < enqFirst a + n then .trap ⟨tcIllegalOperand, k.lanes, k.word⟩
        else if !y.en || y.proc != procOf s g then .trap ⟨tcProtection, k.lanes, addrInfo 6 0⟩
        else if 256 < g.staged.length + (lanesOf x).length then .trap ⟨tcQueueFull, k.lanes, BitVec.ofNat 64 node⟩
        else .ok s)
    fun k s g _ x =>
      if x = 0 then .ok s
      else
        let node := enqNode s k g x b
        let recs := (lanesOf x).map fun l =>
          (⟨node, (List.range n).map fun i => (laneVal s k g l a.o i).1⟩ : StagedRec)
        let s := modLaunch s g.launch fun y =>
          { y with enqNodes := if y.enqNodes.contains node then y.enqNodes else y.enqNodes ++ [node] }
        .ok (modGroup s k.core k.slot fun g => { g with staged := g.staged ++ recs })

/-- Record slot i of a node's ring, counted without wrap, is free (R203). -/
def slotFree (y : Node) (i : Nat) : Bool :=
  let size := 2 ^ y.qlog
  decide (i < size) || (decide (i - size < y.rd) && !y.busy.contains ((i - size) / 2 ^ y.blog))

/-- One record enters its node's ring. DEDUCED (log 60). -/
def commitRec (s : State) (fn : Nat) (r : StagedRec) : State :=
  let y := nodeAt s fn r.node
  let at0 := y.ring + BitVec.ofNat 64 (4 * y.rwords * (y.wr % 2 ^ y.qlog))
  let s := (r.words.zip (List.range r.words.length)).foldl (fun s (v, i) =>
    procWrite s fn y.proc (at0 + BitVec.ofNat 64 (4 * i)) 4 (v.zeroExtend 64)) s
  modNode s fn r.node fun y =>
    { y with wr := y.wr + 1, commit := y.commit + 1, times := y.times ++ [s.now] }

/-- Nodes whose rings lack room for a list of records. -/
def fullNodes (s : State) (fn : Nat) (rs : List StagedRec) : List Nat :=
  ((rs.map (·.node)).eraseDups).filter fun n =>
    let y := nodeAt s fn n
    let cnt := (rs.filter fun r => r.node == n).length
    !(List.range cnt).all fun i => slotFree y (y.wr + i)

/-- Whether the records' pages wait for a translation, which is then asked for. -/
def commitStall (s : State) (fn : Nat) (rs : List StagedRec) : Bool × State :=
  let t := rs.foldl (fun s r => commitRec s fn r) (feBegin s fn)
  ((fnAt t fn).stall, feKeep s t fn)

/-- ENQC. The rings are tested before the release, whose lanes park (R280), and again once it is over. -/
def execEnqc (c : Ctl) (s : State) :=
  issueG s c false [] [] []
    (fun k s g _ x =>
      if x = 0 then .ok s
      else
        let room := fun (s : State) => match fullNodes s g.fn g.staged with
          | [] => let w := commitStall s g.fn g.staged; if w.1 then Own.hold w.2 else .ok s
          | n :: r => .trapIn ⟨tcQueueFull, k.lanes, BitVec.ofNat 64 (r.foldl min n)⟩ s
        match fullNodes s g.fn g.staged with
        | n :: r => .trap ⟨tcQueueFull, k.lanes, BitVec.ofNat 64 (r.foldl min n)⟩
        | [] => match releaseFirst s k g x with
          | some (.ok s) => room s
          | some o => o
          | none => room s)
    fun k s g _ x =>
      if x = 0 then .ok s
      else
        let s := g.staged.foldl (fun s r => commitRec s g.fn r) s
        .ok (noReplay (modGroup s k.core k.slot fun g => { g with staged := [] }) g.launch)

/-! ### TKSIG (R431) -/

/-- TKSIG. -/
def execTksig (c : Ctl) (a : Src) (s : State) :=
  issueG s c false [useA a] [] [(2, useA a)]
    (fun k s g _ x =>
      if x = 0 then .ok s
      else match releaseFirst s k g x with
        | some o => o
        | none => .ok s)
    fun k s g act x =>
      if x = 0 then .ok s
      else
        let n := (val s k g (lowLane act) a).toNat % 4096
        .ok (noReplay (addItem s k g (lowLane x) 0 (.taskDec g.fn n)) g.launch)

end Sys2Proof.Machine
end

