-- ==== Sys2Proof/Machine/Cross.lean ====
section
/-! DEFINITION. Cross.lean: the cross-lane instructions (R286), REGROUP (R405, R406) and TOPK (R299, R432, R433). -/
namespace Sys2Proof.Machine

/-- Lanes of a mask whose copy of a source is poisoned. -/
def poisLanes (s : State) (k : Cur) (g : Group) (m : Mask) (a : Src) : Mask :=
  maskOf fun l => m.getLsbD l && (laneVal s k g l a.o 0).2

/-- POISON_CONSUMED with a reason (R228). -/
def poisonTrap (lanes : Mask) (reason : Nat) : TrapReq := ⟨tcPoison, lanes, addrInfo reason 0⟩

/-- A source of which every active lane is read (R10). -/
def useWide (a : Src) : SrcUse := { pos := 0, src := a, wide := true }

/-- The key of MATCH: a v or an s register (R368). -/
def useKey (a : Src) : SrcUse := { useA a with role := fun o => match o with | .v _ | .s _ => true | _ => false }

/-- Writes a 64-bit mask into a pair in the lanes of x. -/
def writeMask (s : State) (k : Cur) (c : Ctl) (x : Mask) (d : Opd) (f : Nat → DWord) (p : Nat → Bool) : State :=
  let s := writeDst s k c x d 0 fun l => ((f l).extractLsb' 0 32, p l)
  writeDst s k c x d 1 fun l => ((f l).extractLsb' 32 32, p l)

/-- Lanes of x where a predicate holds. -/
def predMask (g : Group) (p : Nat) (x : Mask) : Mask := maskOf fun l => x.getLsbD l && predBit g p l

/-- One step of REDUCE and SCAN (R404). -/
def redStep (op : ROp) (a b : Word) : Word × Flg :=
  match op with
  | .add => (a + b, 0)
  | .fadd => lane32 (fAdd fp32 .rn (f32Of a) (f32Of b))
  | .min => (if b.slt a then b else a, 0)
  | .max => (if a.slt b then b else a, 0)
  | .umin => (if b.ult a then b else a, 0)
  | .umax => (if a.ult b then b else a, 0)
  | .fmin => lane32 (minmaxF false a.toNat b.toNat)
  | .fmax => lane32 (minmaxF true a.toNat b.toNat)

/-- Identity of SCAN (R410). -/
def redIdentity : ROp → Word
  | .add | .umax => 0
  | .fadd => 0x80000000
  | .min => 0x7FFFFFFF
  | .max => 0x80000000
  | .umin => 0xFFFFFFFF
  | .fmin => 0x7F800000
  | .fmax => 0xFF800000

/-- The reduction of a list of values. -/
def reduceVals (op : ROp) : List Word → Word × Flg
  | [] => (0, 0)
  | v :: vs => vs.foldl (fun (a : Word × Flg) w => let r := redStep op a.1 w; (r.1, a.2 ||| r.2)) (v, 0)

/-- The prefixes of a list of values and the last accumulator. An inclusive first step returns the value itself. -/
def scanVals (op : ROp) (excl : Bool) (vs : List Word) : List Word × Flg :=
  let r := vs.foldl (fun (a : Option Word × List Word × Flg) v =>
    let base := a.1.getD (redIdentity op)
    let st := match a.1 with
      | none => if excl then redStep op base v else (v, 0)
      | some b => redStep op b v
    (some st.1, a.2.1 ++ [if excl then base else st.1], a.2.2 ||| st.2)) (none, [], 0)
  r.2

/-- Instructions whose every executing lane's value is consumed when poisoned, and whose result one function gives. -/
def issueRed (s : State) (c : Ctl) (d : Opd) (a : Src) (f : List Word → List Word × Flg) :
    Host.Outcome State Fault Refusal :=
  issueG s c false [useWide a] [{ o := d }] [(3, useWide a)] noOwn fun k t g act x =>
    if x = 0 then .ok t
    else
      let a := pathed g k c a
      let ls := lanesOf x
      let r := f (ls.map fun l => val s k g l a)
      let at_ := fun l => r.1.getD (if c.u then ls.length - 1 else (ls.takeWhile fun j => j != l).length) 0
      .ok (orFlags (writeDst t { k with lanes := act } c x d 0 fun l => (at_ l, false)) k.core k.slot r.2)

/-- Source lane of SHFL (R413). -/
def shflLane (mode : ShMode) (l : Nat) (b : Word) : Nat :=
  match mode with
  | .idx => b.toNat % 64
  | .up => if l < b.toNat then l else l - b.toNat
  | .down => if 63 < l + b.toNat then l else l + b.toNat
  | .xor => l ^^^ (b.toNat % 64)

/-- The lane that SHFL takes a value from. -/
def shflFrom (s : State) (k : Cur) (g : Group) (x : Mask) (mode : ShMode) (b : Src) (l : Nat) : Nat :=
  let j := shflLane mode l (val s k g l b)
  if x.getLsbD j then j else l

/-! ### TOPK (R299) -/

/-- Value `a` ranks before `b` where the lanes decide nothing. -/
def topBefore (kind : TkKind) (a b : Word) : Bool :=
  match kind with
  | .i32 => b.slt a
  | .n32 => b.ult a
  | .f32 => (!(f32Of a).isNan && (f32Of b).isNan) || ltF (f32Of b) (f32Of a)

/-- Lanes with their values in rank order. -/
def ranked (kind : TkKind) (vs : List (Nat × Word)) : List (Nat × Word) :=
  vs.foldl (fun (r : List (Nat × Word)) e =>
    (r.takeWhile fun f => !topBefore kind e.2 f.2) ++ e :: (r.dropWhile fun f => !topBefore kind e.2 f.2)) []

/-- What each lane of X receives. -/
def topkRes (kind : TkKind) (n : Nat) (vs : List (Nat × Word)) : List (Nat × Word × Word) :=
  let r := ranked kind vs
  (vs.zip (List.range vs.length)).map fun (e, i) =>
    if i < min n vs.length then
      let y := r.getD i (0, 0)
      (e.1, BitVec.ofNat 32 y.1, y.2)
    else (e.1, 0xFFFFFFFF, 0)

/-- The allocation of register i of a v destination. -/
def tagOf (g : Group) (o : Opd) (i : Nat) : Option Nat :=
  match o with
  | .v n => (vreg? g (n.val + i)).map (·.tag)
  | _ => none

/-! ### REGROUP -/

/-- Mapped names that a carry mask covers (R406). -/
def carriedNames (g : Group) (carry : Word) : List Nat :=
  (g.regs.filter fun e => carry.getLsbD (e.1 / 4)).map (·.1)

/-- The entry of a thread that leaves (R63, R406). DEDUCED (log 34). -/
def regroupEntry (s : State) (k : Cur) (g : Group) (key : Word) (carry : Word) (pc : DWord) (l : Nat) : RegroupEntry :=
  let t := threadAt g l
  let cs := (carriedNames g carry).map fun n => match vreg? g n with
    | some r => (n, r.val.getD l 0, r.pois.getLsbD l)
    | none => (n, 0, false)
  { launch := g.launch, set := setOfWid (hdrOf s g) t.wid, key := key, wid := t.wid, pc := pc, depth := t.depth,
    donor := g.gid, carried := cs, spcnt := t.spcnt, npIn := t.npIn, npCnt := t.npCnt, wb := t.wb, wg := t.wg, since := cycleOf s k.core,
    wrote := t.wrote, wroteHome := t.wroteHome }

/-- The lanes act as JLEAVE on every j-index and leave the group (R63). -/
def leaveGroup (g : Group) (x : Mask) : Group :=
  let g := { g with jms := g.jms.map fun (n, j) => (n, ⟨j.e &&& ~~~x, j.a &&& ~~~x⟩) }
  releaseMeets (modThreads g x fun t => { t with left := true, meeta := 0, run := none, mid := false, park := .no, parts := none })

/-! ### Meanings -/

/-- SHFL (R412, R413). -/
def execShfl (c : Ctl) (d : Opd) (a b : Src) (mode : ShMode) (s : State) :=
  issueG s c false [useA a, useB b] [{ o := d }] []
    (fun k s g _ x =>
      let bad := poisLanes s k g x b ||| maskOf fun l => x.getLsbD l &&
        (let j := shflFrom s k g x mode b l; j != l && (laneVal s k g j a.o 0).2)
      if bad ≠ 0 then .trap (poisonTrap bad 3) else .ok s)
    fun k t g act x => .ok (writeDst t { k with lanes := act } c x d 0 fun l => laneVal s k g (shflFrom s k g x mode b l) a.o 0)
/-- BALLOT (R321). -/
def execBallot (c : Ctl) (d : Opd) (p : Fin 8) (s : State) :=
  issueG s c false [] [{ o := d, n := 2 }] []
    (fun _ s g _ x =>
      let bad := maskOf fun l => x.getLsbD l && predPois g p.val l
      if bad ≠ 0 then .trap (poisonTrap bad 3) else .ok s)
    fun k s g act x => .ok (writeMask s { k with lanes := act } c x d (fun _ => predMask g p.val x) fun _ => false)
/-- VOTE (R439). -/
def execVote (c : Ctl) (d : VDst) (p : Fin 8) (mode : VMode) (s : State) :=
  let dsts := match d with | .reg o => [{ o := o : DstUse }] | .pred _ => []
  issueG s c false [] dsts []
    (fun _ s g _ x =>
      let bad := maskOf fun l => x.getLsbD l && predPois g p.val l
      if bad ≠ 0 then .trap (poisonTrap bad 3) else .ok s)
    fun k s g act x =>
      let m := predMask g p.val x
      let r := match mode with
        | .any => m != 0
        | .all => m == x
        | .eq => m == 0 || m == x
      .ok (match d with
        | .pred q => modGroup s k.core k.slot fun g => setPred g q.val x (allMask r) 0
        | .reg o => writeDst s { k with lanes := act } c x o 0 fun _ => (if r then 1 else 0, false))
/-- MATCH (R368, R369). -/
def execMatchKeys (c : Ctl) (d : Opd) (a : Src) (s : State) :=
  issueG s c false [useKey a] [{ o := d, n := 2 }] []
    (fun k s g _ x =>
      let bad := poisLanes s k g x a
      if bad ≠ 0 ∧ 2 ≤ (lanesOf x).length then .trap (poisonTrap bad 3) else .ok s)
    fun k t g act x => .ok (writeMask t { k with lanes := act } c x d
      (fun l => maskOf fun j => x.getLsbD j && val s k g j a == val s k g l a) fun l => (laneVal s k g l a.o 0).2)
/-- COMPACT (R62, R333). DEDUCED (log 101). -/
def execCompact (c : Ctl) (d : Opd) (a : Src) (s : State) :=
  issueG s c false [useA a] [{ o := d, low := true }] []
    (fun k s g _ x =>
      let bad := maskOf fun l => x.getLsbD l && (laneVal s k g l a.o 0).2 && (lanesOf x).getD l 64 != l
      if bad ≠ 0 then .trap (poisonTrap bad 3) else .ok s)
    (fun k t g act x => .ok (writeDst t { k with lanes := act } c (lowLanes x) d 0 fun i => laneVal s k g ((lanesOf x).getD i 0) a.o 0))
    lowLanes
/-- REDUCE (R403, R404). -/
def execReduce (c : Ctl) (d : Opd) (a : Src) (op : ROp) (s : State) :=
  issueRed s c d a fun vs => let r := reduceVals op vs; (vs.map fun _ => r.1, r.2)
/-- SCAN (R409, R410). -/
def execScan (c : Ctl) (d : Opd) (a : Src) (op : ROp) (excl : Bool) (s : State) :=
  issueRed s c d a (scanVals op excl)
/-- REGROUP (R405, R406, R63). -/
def execRegroup (c : Ctl) (key : Opd) (off : BitVec 30) (carry : Word) (s : State) :=
  let ku : SrcUse := { pos := 3, src := { o := key } }
  issueG s c false [ku] [] []
    (fun k s g _ x =>
      let names := carriedNames g carry
      let waits := names.filterMap fun n => match vreg? g n with
        | some r => if x &&& ~~~r.full = 0 then none else some (RegRef.v n, x &&& ~~~r.full)
        | none => none
      let bad := maskOf fun l => x.getLsbD l && srcPois s k g l ku
      if x = 0 then .ok s
      else if !waits.isEmpty then .park (.src waits)
      else match names.drop (g.rb + g.rx) with
        | n :: _ => .trap ⟨tcRegBudget, x, BitVec.ofNat 64 n⟩
        | [] => if bad ≠ 0 then .trap (poisonTrap bad 3) else .ok s)
    fun k s g act x =>
      let entries := (lanesOf x).map fun l =>
        regroupEntry s k g (laneVal s k g l key 0).1 carry (k.pc + off.signExtend 64 <<< (3 : Nat)) l
      let s := modCore s k.core fun y => { y with regroup := y.regroup ++ entries }
      let s := modGroup s k.core k.slot fun g => leaveGroup g x
      let s := retire s k c [] [] act 0 .no
      let s := match groupAt s k.core k.slot with
        | some g => if liveMask g = 0 then modCore s k.core fun y => abandonGang y k.slot else s
        | none => s
      .done (retireGroup s k.core k.slot)
/-- TOPK (R432, R433): the results land later, all lanes together. A poisoned k of the lowest active lane, where that lane does not
execute, is consumed by every lane that does (R228). DEDUCED (log 119). -/
def execTopk (c : Ctl) (d : Opd) (a b : Src) (kind : TkKind) (s : State) :=
  let dst : DstUse := { o := d, n := 2 }
  issueG s c false [useA a, useB b] [dst] [(3, useA a), (3, useB b)]
    (fun k s g act x =>
      let n := (val s k g (lowLane act) b).toNat
      if x = 0 then .ok s
      else if (laneVal s k g (lowLane act) b.o 0).2 then .trap (poisonTrap x 3)
      else if n = 0 ∨ 64 < n then .trap ⟨tcIllegalOperand, k.lanes, k.word⟩ else .ok s)
    fun k s g act x =>
      if x = 0 then .ok s
      else
        let n := (val s k g (lowLane act) b).toNat
        let res := topkRes kind n ((lanesOf x).map fun l => (l, val s k g l a))
        let h := groupNow s k g
        .ok (addItem (markEmpty s k x dst) k g 64 0 (.topk (tagOf h d 0) (tagOf h d 1) res))
/-- PCHK (R305, R391). -/
def execPchk (c : Ctl) (p : Fin 8) (a : Src) (s : State) :=
  issueG s c false [useA a] [] [] noOwn fun k t g _ x =>
    .ok (modGroup t k.core k.slot fun h => setPred h p.val x (poisLanes s k g x a) 0)

end Sys2Proof.Machine
end

