-- ==== Sys2Proof/Machine/Resend.lean ====
section
/-! DEFINITION. Resend.lean: loads that are sent again, for lanes still empty, after a restore, a resume or a scoreboard repair (R225,
R231). They ask for words as other loads do: each word of an instruction once (R298), where the core has room (R20, R102). -/
namespace Sys2Proof.Machine

/-- The hint of a load, from its instruction word. -/
def itemHint (it : Item) : Hint :=
  let f := splitWord it.word
  match (Mn.ofOp f.op).map fun m => decodeFields m f 0 with
  | some (.ok (.ld _ _ _ _ _ h _ _)) => h
  | some (.ok (.ldu _ _ _ _ _ ro _)) => if ro then .ro else .normal
  | _ => .normal

/-- A load is to be sent again for its lane, through the address that it used: it has asked for nothing. An address that no longer
translates fills the lane with a poisoned zero. DEDUCED (log 23). -/
def resendLoad (s : State) (c : Nat) (it : Item) : State :=
  match it.body with
  | .load sh _ _ dsts acq =>
    let proc := launchProc s it.launch
    let s' := modItems s c fun xs => xs.map fun i => if i.id = it.id then { i with walk := true, body := .load sh [] [] dsts acq } else i
    match lookup s c it.fn proc it.va false with
    | .miss => (askWalk s' c it.fn proc it.va false).2
    | .fault _ => endItem (landAll s c it dsts [0] true) c it.id
    | .hit _ => s'
  | _ => s

/-- A load to be sent again whose page is known, with the words that it covers. -/
def sentPage (s : State) (c : Nat) (it : Item) : Option (Item × TlbEntry × List Nat) :=
  match it.body, lookup s c it.fn (launchProc s it.launch) it.va false with
  | .load sh _ _ _ _, .hit e => if it.walk then some (it, e, loadWords sh (wkey e.tier (physOf e it.va))) else none
  | _, _ => none

/-- The load has asked for its words. -/
def sentItem (ws : List Nat) (i : Item) : Item :=
  match i.body with
  | .load sh _ _ dsts acq => { i with walk := false, body := .load sh ws [] dsts acq }
  | _ => i

/-- The loads of one instruction that are to be sent again, and whose pages are known, go out together where the core has room. -/
def resendOp (s : State) (c op : Nat) : State :=
  let its := ((coreAt s c).items.filter fun i => i.op == op).filterMap (sentPage s c)
  match its with
  | [] => s
  | (i0, _, _) :: _ =>
    let hint := itemHint i0
    let tag := match i0.body with | .load sh .. => sh.needsTag | _ => false
    let t := its.foldl (fun s (_, _, ws) => ws.foldl (fun s w => readyWord s c hint tag w) s) s
    let all := its.flatMap fun (i, e, ws) => ws.map fun w => (w, i.id, i.lane, e)
    let words := (all.map (·.1)).eraseDups.filterMap fun w => all.find? fun e => e.1 == w
    let need := wordsNeed t c i0.fn hint (words.map fun (w, _, _, e) => (w, e.key, e.sector))
    if !capacityFor (coreAt t c) need.1 need.2 then s
    else
      let sent := fun (i : Item) => match its.find? fun e => e.1.id == i.id with
        | some (_, e, ws) => { sentItem ws i with past := goesPast hint || e.tier == 3 }
        | none => i
      loadWordsOf (modItems t c fun xs => xs.map sent) c i0.slot i0.fn op hint words

/-- Every load of a core that is to be sent again goes out if it can, instruction by instruction. -/
def resendWaiting (s : State) (c : Nat) : State :=
  ((((coreAt s c).items.filter fun i => i.walk).map (·.op)).eraseDups).foldl (fun s op => resendOp s c op) s

/-- A scoreboard whose copies disagree is repaired: the group's loads that are not performed are sent again, and the event is counted
(R231). -/
def repairBoard (s : State) (c slot : Nat) (g : Group) : State :=
  let s := modCore s c fun x => { x with sbfix := satInc x.sbfix }
  let s := modGroup s c slot fun g => { g with sb2 := g.sb }
  let s := modCore s c clearSlots
  resendWaiting (((coreAt s c).items.filter fun i => i.gid == g.gid).foldl (fun s i => match i.body with
    | .load .. => resendLoad s c i
    | _ => s) s) c

end Sys2Proof.Machine
end

