-- ==== Sys2Proof/Machine/Matrix.lean ====
section
/-! DEFINITION. Matrix.lean: gangs, tile slots, matrix products up to the latch, the licence instructions, and the twin
link (R11 to R14, R169 to R188, R353, R354, R379 to R383, R426 to R430, R434 to R437). -/
namespace Sys2Proof.Machine

/-! ### Gangs (R11, R353, R354) -/

/-- Size of a gang shape. -/
def gsize : GShape → Nat
  | .g2 => 2
  | .g4 => 4
  | .g6 => 6

/-- Place of a group among the groups of its set. -/
def groupPos (h : LHeader) (g : Group) : Nat :=
  match g.threads.find? fun t => t.present with
  | some t => t.wid.toNat % 2 ^ h.bAt h.lc / 64
  | none => 0

/-- A group that has been evicted stands in the list of its gang under a name of its own until it has a slot again. -/
def evictedName (g : Group) : Nat := 256 + g.gid

/-- The group at a place of a set that has not ended: its name in a gang's list, and its slot, or, where it stands evicted (R46), the
one that it had until it resumes. DESIGN CHOICE (log 61): R178 gives LEAD no value where member 0 has no slot. -/
def slotOfPos (s : State) (c : Nat) (g : Group) (p : Nat) : Option (Nat × Nat) :=
  let isIt := fun (h : Group) => h.launch == g.launch && h.set == g.set && h.shadowOf.isNone && !h.formed
    && groupPos (hdrOf s g) h == p
  match (coreAt s c).groups.find? fun e => isIt e.2 with
  | some e => some (e.1, e.1)
  | none => ((coreAt s c).evicted.find? fun e => isIt e.2.1).map fun e => (evictedName e.2.1, e.1)

/-- Value of GANGR (R178). -/
def gangrVal (size m lead : Nat) : Word :=
  (1 : BitVec 1) ++ (0 : BitVec 4) ++ BitVec.ofNat 3 size ++ (0 : BitVec 5) ++ BitVec.ofNat 3 m ++ (0 : BitVec 9)
    ++ BitVec.ofNat 7 lead

/-- Position of the first member, and member index. -/
def gangArgs (s : State) (k : Cur) (g : Group) (act : Mask) (a b : Src) : Nat × Nat :=
  ((val s k g (lowLane act) b).toNat, (val s k g (lowLane act) a).toNat)

/-- GANG. A member that has no slot and is not evicted has exited, and the group's next MMA says so (R177). DEDUCED (log 61). -/
def execGang (c : Ctl) (a b : Src) (shape : GShape) (s : State) :=
  let size := gsize shape
  issueG s c false [useA a, useB b] [] [(3, useA a), (3, useB b)]
    (fun k s g act x =>
      if x = 0 then .ok s
      else
        let (b0, m) := gangArgs s k g act a b
        let h := hdrOf s g
        if size ≤ m ∨ setGroupCount h g.set < b0 + size then .trap ⟨tcIllegalOperand, k.lanes, k.word⟩
        else if g.formed ∨ groupPos h g ≠ b0 + m then .trap ⟨tcGangMismatch, k.lanes, 0⟩
        else .ok s)
    fun k s g act x =>
      if x = 0 then .ok s
      else
        let (b0, m) := gangArgs s k g act a b
        let slots := (List.range size).map fun i => slotOfPos s k.core g (b0 + i)
        let lead := ((slots.headD none).map (·.2)).getD 0
        let gone := slots.any (·.isNone)
        .ok (modGroup s k.core k.slot fun g =>
          { g with gang := slots.map fun o => (o.map (·.1)).getD 128, gangr := gangrVal size m lead,
                   gangFault := if gone then some tcGangAbandon else none })

/-! ### Tile slots (R170, R171, R426 to R428) -/

def tileAt (s : State) (c n : Nat) : Tile := tget (coreAt s c).tiles n {}
def modTile (s : State) (c n : Nat) (f : Tile → Tile) : State :=
  modCore s c fun x => { x with tiles := tset x.tiles n (f (tget x.tiles n {})) }

/-- The slots named, each once. -/
def named (ss : List (Option (Fin 16))) : List Nat := (ss.filterMap fun o => o.map (·.val)).eraseDups

def slotMask (ns : List Nat) : BitVec 16 := ns.foldl (fun m n => m ||| (1 : BitVec 16) <<< n) 0

def slotTrap (k : Cur) (ns : List Nat) : TrapReq := ⟨tcSlotState, k.lanes, (slotMask ns).zeroExtend 64⟩

/-- A TCLM acts: it claims all of its slots or none, and says which in its predicate (R427). -/
def actClaim (s : State) (c : Nat) (e : Claim) : State :=
  let free := e.names.all fun n => (tileAt s c n).claim.isNone && !(tileAt s c n).clearing
  let s := if free then e.names.foldl (fun s n => modTile s c n fun t => { t with claim := some e.owner }) s else s
  let s := modGroup s c e.slot fun g => if g.gid = e.gid then setPred g e.pred e.lanes (allMask free) 0 else g
  modCore s c fun x => { x with claims := x.claims ++ [{ e with won := free }] }

/-- What a TCLM claimed is free again. -/
def undoClaim (s : State) (c : Nat) (e : Claim) : State :=
  if e.won then e.names.foldl (fun s n => modTile s c n fun t => { t with claim := none }) s else s

/-- A TCLM acts among those of its core and cycle in quarter order: those of higher quarters act again behind it (R427). -/
def addClaim (s : State) (c : Nat) (e : Claim) : State :=
  let t := podClock s (podOf c)
  let now := if (coreAt s c).claimCycle = t then (coreAt s c).claims else []
  let late := now.filter fun f => decide (e.quarter < f.quarter)
  let s := late.foldl (fun s f => undoClaim s c f) s
  let s := modCore s c fun x => { x with claimCycle := t, claims := now.filter fun f => !decide (e.quarter < f.quarter) }
  late.foldl (fun s f => actClaim s c f) (actClaim s c e)

/-- TCLM. -/
def execTclm (c : Ctl) (p : Fin 8) (s1 s2 s3 : Option (Fin 16)) (s : State) :=
  issueG s c false [] [] [] noOwn fun k s g _ x =>
    .ok (if x = 0 then s
      else addClaim s k.core
        { quarter := k.slot / 32, slot := k.slot, gid := g.gid, pred := p.val, lanes := x, names := named [s1, s2, s3],
          owner := (g.launch, g.set) })

/-- TREL. -/
def execTrel (c : Ctl) (s1 s2 s3 : Option (Fin 16)) (s : State) :=
  let ns := named [s1, s2, s3]
  issueG s c false [] [] []
    (fun k s g _ x =>
      if x = 0 then .ok s
      else if ns.any fun n => (tileAt s k.core n).claim != some (g.launch, g.set) then .trap (slotTrap k ns)
      else if ns.any fun n => !(tileAt s k.core n).full || (tileAt s k.core n).locks != 0 then .park (.tile (slotMask ns) true)
      else .ok s)
    fun k s _ _ x => .ok (if x = 0 then s else modCore s k.core fun y => releaseTiles y (podClock s (podOf k.core)) fun n _ => ns.contains n)

/-- Byte offset of element (i, j) in a slot (R169). -/
def tileOff (b8 : Bool) (i j : Nat) : Nat :=
  if b8 then ((i / 8) * 32 + j / 8) * 64 + (i % 8) * 8 + j % 8
  else ((i / 8) * 16 + j / 8) * 128 + ((i % 8) * 8 + j % 8) * 2

/-- Bytes written over a list from an offset on, which lies inside it. -/
def overwrite (l : List α) (off : Nat) (xs : List α) : List α := l.take off ++ xs ++ l.drop (off + xs.length)

/-- A slot's bytes and poison bits in full. -/
def tileBytes (t : Tile) : List Byte := if t.data.isEmpty then List.replicate 32768 0 else t.data
def tilePois (t : Tile) : List Bool := if t.pois.isEmpty then List.replicate 32768 false else t.pois

/-- Writes an element of a slot with its poison. -/
def tileWrite (t : Tile) (off : Nat) (bs : List Byte) (p : Bool) : Tile :=
  { t with data := overwrite (tileBytes t) off bs, pois := overwrite (tilePois t) off (bs.map fun _ => p) }

/-- Row and byte column of a slot's byte (R169). -/
def tilePlace (b8 : Bool) (o : Nat) : Nat × Nat :=
  if b8 then (o / 2048 * 8 + o % 64 / 8, o % 2048 / 64 * 8 + o % 8)
  else (o / 2048 * 8 + o % 128 / 16, o % 2048 / 128 * 16 + o % 16)

/-- A half of a slot is filled (R172): `f` gives the word of a row of the half in a lane. Lane l supplies columns 2l and
2l + 1, or 4l to 4l + 3. -/
def fillHalf (t : Tile) (b8 hi : Bool) (f : Nat → Nat → Word) : Tile :=
  let at0 := fun (o : Nat) => tilePlace b8 o
  let inHalf := fun (o : Nat) => decide (64 ≤ (at0 o).1) == hi
  let new := fun (o : Nat) => (f ((at0 o).1 % 64) ((at0 o).2 / 4)).extractLsb' (8 * ((at0 o).2 % 4)) 8
  let os := List.range 32768
  { t with data := (tileBytes t).zipWith (fun b o => if inHalf o then new o else b) os,
           pois := (tilePois t).zipWith (fun p o => p && !inHalf o) os }

/-- TFILL. DEDUCED (log 55). -/
def execTfill (c : Ctl) (slot : Fin 16) (b : Src) (hi bc b8 : Bool) (s : State) :=
  let ub := useB b (if bc then 1 else 64)
  issueG s c false [ub] [] [(6, ub)]
    (fun k s g _ x =>
      let t := tileAt s k.core slot.val
      if t.claim.isNone then .trap (slotTrap k [slot.val])
      else if x ≠ 0 ∧ x ≠ liveMask g then .trap ⟨tcPartialMask, k.lanes, 0⟩
      else if !t.full || t.locks != 0 then .park (.tile (slotMask [slot.val]) true)
      else .ok s)
    fun k s g _ x =>
      let s := if x = 0 then s else modTile s k.core slot.val fun t =>
        fillHalf t b8 hi fun r l => (laneVal s k g l b.o (if bc then 0 else r)).1
      .ok (modGroup s k.core k.slot fun g => { g with dph := g.dph + 1 })

/-! ### The licence (R179, R379, R380) -/

/-- This core holds the licence. -/
def holdsLic (s : State) (c : Nat) : Bool := (podAt s (podOf c)).lic == .held (isUpper c)

/-- Sets a core's request flag (R179). -/
def requestLic (s : State) (c : Nat) : State :=
  modPod s (podOf c) fun p => if isUpper c then { p with reqUp := true } else { p with reqLo := true }

/-- A complete round of the core waits for the licence: it requests it. -/
def roundRequest (s : State) (c : Nat) : State :=
  if (coreAt s c).rounds.any (fun r => !r.fired) && !holdsLic s c then requestLic s c else s

/-- The holder begins to hand over. -/
def startHandover (s : State) (p : Nat) (up : Bool) : State :=
  let c := if up then p + 96 else p
  let busy := (coreAt s c).rounds.any (·.fired)
  roundRequest (modPod s p fun q => { q with lic := .handover up, drainAt := if busy then none else some (podClock s p) }) c

/-- MLIC. -/
def execMlic (c : Ctl) (p : Fin 8) (s : State) :=
  issueG s c false [] [] [] noOwn fun k s _ _ x =>
    if x = 0 then .ok s
    else
      let h := holdsLic s k.core
      let s := if h then s else requestLic s k.core
      .ok (modGroup s k.core k.slot fun g => setPred g p.val x (allMask h) 0)

/-- MLREL. -/
def execMlrel (c : Ctl) (s : State) :=
  issueG s c false [] [] [] noOwn fun k s _ _ x =>
    if x = 0 then .ok s
    else
      let up := isUpper k.core
      let s := modPod s (podOf k.core) fun p => if up then { p with reqUp := false } else { p with reqLo := false }
      .ok (if holdsLic s k.core then startHandover s (podOf k.core) up else roundRequest s k.core)

/-! ### The latch (R176, R177, R382) -/

/-- Size that a shape asks for, and the slots that it reads. -/
def shapeSize : MShape → Nat
  | .g2lo | .g2hi => 2
  | .g4 => 4
  | .g6 => 6

def mmaSlots (a b : Fin 16) (b2 : Option (Fin 16)) : List Nat :=
  ([a.val, b.val] ++ (match b2 with | some t => [t.val] | none => [])).eraseDups

/-- Two MMAs agree on slots, type, shape and row block (R176). -/
def agrees (e f : LatchEntry) : Bool :=
  e.a == f.a && e.b == f.b && e.b2 == f.b2 && e.ty == f.ty && e.shape == f.shape

/-- Takes a group's MMA out of the latch: names that it reserved are unmapped, its complete round waits no longer.
DEDUCED (log 62). -/
def unlatch (s : State) (c slot : Nat) : State :=
  match groupAt s c slot with
  | none => s
  | some g => match g.latch with
    | none => s
    | some e =>
      let s := setGroup s c slot { freeRegs g e.names with latch := none }
      modCore s c fun x => { x with rounds := x.rounds.filter fun r => r.fired || !r.members.contains slot }

/-- The gang of a list of members is dissolved, those that stand evicted included, with the fault that its members in the latch
raise (R177). -/
def dissolve (s : State) (c : Nat) (slots : List Nat) (code : BitVec 8) : State :=
  let s := slots.foldl (fun s n => modGroup s c n fun g =>
    { g with gangr := g.gangr &&& 0x7FFFFFFF, gangFault := if g.latch.isSome then some code else g.gangFault }) s
  let out := fun (g : Group) => if slots.contains (evictedName g) then { g with gangr := g.gangr &&& 0x7FFFFFFF } else g
  modCore s c fun x => { x with evicted := x.evicted.map fun (n, g, cs) => (n, out g, cs) }

/-- A gang whose members all hold an MMA in the latch forms a complete round (R176). -/
def completeRound (s : State) (c : Nat) (gang : List Nat) : State :=
  let gs := gang.filterMap fun n => groupAt s c n
  let es := gs.filterMap fun g => g.latch
  if es.length = gang.length then
    let r : Round := { id := s.nid, lead := gang.headD 0, members := gang, gids := gs.map (·.gid), entries := es, since := s.now }
    roundRequest (modCore { s with nid := s.nid + 1 } c fun x => { x with rounds := x.rounds ++ [r] }) c
  else s

/-- An MMA enters the latch. It meets the MMAs there of the members that its group's list names, and of those whose lists name its
group (R177, R354). -/
def enterLatch (s : State) (k : Cur) (g : Group) (e : LatchEntry) : Own :=
  let s := modGroup s k.core k.slot fun g => { g with latch := some e }
  let meets := fun (n : Nat) (h : Group) => n != k.slot && h.latch.isSome && h.launch == g.launch && h.set == g.set
    && (g.gang.contains n || h.gang.contains k.slot)
  let others := ((coreAt s k.core).groups.filter fun e => meets e.1 e.2).map (·.2)
  if others.any fun h => h.gang != g.gang || (match h.latch with | some f => !agrees e f | none => false) then
    let all := (g.gang ++ others.flatMap (·.gang)).eraseDups
    let s := unlatch s k.core k.slot
    .trapIn ⟨tcGangMismatch, k.lanes, 0⟩ (dissolve s k.core all tcGangMismatch)
  else
    .done (completeRound (parkSet k s k.lanes .latch) k.core g.gang)

/-- MMA, up to its place in the latch. -/
def execMma (c : Ctl) (d : Opd) (a b : Fin 16) (b2 : Option (Fin 16)) (ty : MTy) (shape : MShape) (z : Bool) (s : State) :=
  let d0 := match d with | .v n => n.val | _ => 0
  let ns := mmaSlots a b b2
  let names := (List.range 64).map fun i => d0 + i
  issueG s c false [] [{ o := d, n := 64 }] []
    (fun k s g _ x =>
      if x = 0 then .ok s
      else
        let miss := names.filter fun n => (vreg? g n).isNone
        match (if z then none else miss.head?) with
        | some n => .trap ⟨tcUnmappedRead, k.lanes, BitVec.ofNat 64 n⟩
        | none =>
          if ns.any fun n => (tileAt s k.core n).claim.isNone then .trap (slotTrap k ns)
          else if x ≠ liveMask g then .trap ⟨tcPartialMask, k.lanes, 0⟩
          else match g.gangFault with
          | some code =>
            .trapIn ⟨code, k.lanes, 0⟩ (modGroup (unlatch s k.core k.slot) k.core k.slot fun g =>
              { g with gangFault := none, gangr := g.gangr &&& 0x7FFFFFFF })
          | none =>
            if !g.gangr.getLsbD 31 || g.formed || g.gangr.extractLsb' 24 3 != BitVec.ofNat 3 (shapeSize shape) then
              .trap ⟨tcGangMismatch, k.lanes, 0⟩
            else if ns.any fun n => !(tileAt s k.core n).full then .park (.tile (slotMask ns) false)
            else .ok s)
    (fun k s g _ x =>
      if x = 0 then .ok s
      else
        -- the names that this issue has mapped carry tags from after its number
        let fresh := names.filter fun n => match vreg? (groupNow s k g) n with | some r => decide (k.op < r.tag) | none => false
        enterLatch s k g
          { a := a.val, b := b.val, b2 := b2.map (·.val), ty := ty, shape := shape, z := z, d := d0, lanes := x, sb := c.sb,
            next := k.next, last := k.last, word := k.word, names := fresh })
    fun x => if x = 0 then 0 else BitVec.allOnes 64

/-! ### The twin link (R184, R185, R434 to R437) -/

/-- Pushes an entry on its way to the outbound FIFO. -/
def pushFifo (s : State) (c q : Nat) (v : List Word) : State := pushLink s c q (.fifo v)

/-- Lanes of an entry: those outside X are sent as 0. -/
def fifoEntry (s : State) (k : Cur) (g : Group) (x : Mask) (a : Src) : List Word :=
  lanes64 fun l => if x.getLsbD l then val s k g l a else 0

/-- TWSEND. -/
def execTwsend (c : Ctl) (a : Src) (s : State) :=
  issueG s c true [useA a] [] [(5, useA a)]
    (fun k s _ _ x => if x ≠ 0 ∧ outFree (coreAt s k.core) = 0 then .park .fifo else .ok s)
    fun k s g _ x => .ok (if x = 0 then s else pushFifo s k.core (k.slot / 32) (fifoEntry s k g x a))
/-- TWSEND.nb. -/
def execTwsendNb (c : Ctl) (p : Fin 8) (a : Src) (s : State) :=
  issueG s c true [useA a] [] [(5, useA a)] noOwn fun k s g _ x =>
    if x = 0 then .ok s
    else
      let room := decide (0 < outFree (coreAt s k.core))
      let s := if room then pushFifo s k.core (k.slot / 32) (fifoEntry s k g x a) else s
      .ok (modGroup s k.core k.slot fun g => setPred g p.val x (allMask room) 0)

/-- The oldest TWRECV of a core that has issued and not popped. -/
def oldestRecv (x : Core) : Option Item :=
  (x.items.filter fun i => match i.body with | .twrecv .. => true | _ => false).foldl (fun r i => match r with
    | some j => if i.id < j.id then some i else some j
    | none => some i) none

/-- Pops entries for the TWRECVs of a core while there are both, in issue order (R185). `fuel` bounds them. -/
def popTwin (s : State) (c : Nat) : Nat → State
  | 0 => s
  | n + 1 =>
    match (coreAt s (twinOf c)).fifo, oldestRecv (coreAt s c) with
    | e :: r, some i =>
      let s := modCore s (twinOf c) fun x => { x with fifo := r }
      let s := match i.body with
        | .twrecv dst m => match dst with
          | some t => (lanesOf m).foldl (fun s l => landIn s c i.slot i.gid (.v t l) (e.getD l 0) false) s
          | none => s
        | _ => s
      popTwin (endItem s c i.id) c n
    | _, _ => s

/-- TWRECV. -/
def execTwrecv (c : Ctl) (d : Opd) (s : State) :=
  let dst : DstUse := { o := d, queued := true }
  issueG s c true [] [dst] [] noOwn fun k s g _ x =>
    if x = 0 then .ok s
    else
      let s := addItem (markEmpty s k x dst) k g (lowLane x) 0 (.twrecv (tagOf (groupNow s k g) d 0) x)
      .ok (popTwin s k.core 8)

/-- TWFREE. -/
def execTwfree (c : Ctl) (d : Opd) (s : State) :=
  issueG s c true [] [{ o := d }] [] noOwn fun k s _ act x =>
    .ok (writeDst s { k with lanes := act } c x d 0 fun _ => (BitVec.ofNat 32 (freeBefore s k.core), false))

/-- A core arrives at TWBAR n. The arrival does not pass items that wait for the link (R168). -/
def twArrive (s : State) (c q n : Nat) : State :=
  let s := modCore s c fun x => { x with twb := tset x.twb n (tget x.twb n 0 + 1) }
  if (coreAt s c).link.isEmpty then s else pushLink s c q (.bar n)

/-- Count that a lane waits for. -/
def twWaits (g : Group) (l : Nat) : Option Word :=
  match (threadAt g l).park with
  | .twbar _ c => some c
  | _ => none

/-- TWBAR. -/
def execTwbar (c : Ctl) (n : Fin 4) (s : State) :=
  issueG s c true [] [] []
    (fun k s g _ x =>
      if x = 0 then .ok s
      else
        let new := maskOf fun l => x.getLsbD l && !(threadAt g l).arrived
        let s := if new = 0 then s else twArrive s k.core (k.slot / 32) n.val
        let mine := tget (coreAt s k.core).twb n.val 0
        let cs := (lanesOf x).map fun l => if new.getLsbD l then mine else (twWaits g l).getD mine
        let s := modGroup s k.core k.slot fun g => modThreads g new fun t => { t with arrived := true }
        let t := twinArrivals s k.core n.val
        -- the latest of the counts that the lanes wait for
        let top := cs.foldl (fun (a b : Word) => if (b - a).msb then a else b) (cs.headD mine)
        if cs.all fun w => !(t - w).msb then .ok s else .parkIn (.twbar n.val top) s)
    fun _ s _ _ _ => .ok s

end Sys2Proof.Machine
end

