-- ==== Sys2Proof/Machine/EvHome.lean ====
section
/-! DEFINITION. EvHome.lean: events of the home slices, of the channels and of messages that reach a core (R101, R113 to
R124, R134, R140 to R142). An event that does not stand ready changes nothing. -/
namespace Sys2Proof.Machine

/-! ### Home slices -/

/-- HOME_READ_MISS (R141). -/
def execHomeReadMiss (n : Nat) (s : State) : Host.Outcome State Fault Refusal :=
  .next (homeStep s n fun k => match k with | .read => true | _ => false)
/-- HOME_RANKED_WRITE (R141). -/
def execHomeRankedWrite (n : Nat) (s : State) : Host.Outcome State Fault Refusal :=
  .next (homeStep s n fun k => match k with | .ranked .. => true | _ => false)
/-- HOME_UNRANKED_WRITE (R141), that of a peer's copy among them (R152). -/
def execHomeUnrankedWrite (n : Nat) (s : State) : Host.Outcome State Fault Refusal :=
  .next (homeStep s n fun k => match k with | .unranked _ | .copied .. => true | _ => false)
/-- HOME_REGISTRATION (R141). -/
def execHomeRegistration (n : Nat) (s : State) : Host.Outcome State Fault Refusal :=
  .next (homeStep s n fun k => match k with | .register => true | _ => false)
/-- HOME_RANK_CLEAR (R134). -/
def execHomeRankClear (n : Nat) (s : State) : Host.Outcome State Fault Refusal :=
  .next (homeStep s n fun k => match k with | .rankClear => true | _ => false)
/-- HOME_ATOMIC (R136, R141). -/
def execHomeAtomic (n : Nat) (s : State) : Host.Outcome State Fault Refusal := .next (homeStep s n isAtomic)
/-- RECALL (R142). -/
def execRecall (n : Nat) (s : State) : Host.Outcome State Fault Refusal := .next (recallStep s n)

/-! ### Messages that reach a core -/

/-- Nothing that a core's work waits for carries this number any longer. -/
def settleId (s : State) (c n : Nat) : State :=
  progress (modItems s c fun xs => xs.map fun i => { i with body := i.body.without n }) c

/-- REGISTRATION_ACK (R134). -/
def execRegistrationAck (n : Nat) (s : State) : Host.Outcome State Fault Refusal :=
  .next (match s.acks.find? fun a => a.id == n with
    | some a => settleId { s with acks := s.acks.filter fun b => b.id != n } a.core n
    | none => s)

/-- L1_FILL (R101): a word from its home, or one that the L1 held (log 106). -/
def execL1Fill (core n : Nat) (s : State) : Host.Outcome State Fault Refusal :=
  .next (match s.resps.find? fun r => r.id == n && r.core == core && !r.eng && (r.acc == 0 || r.hit) with
    | some r =>
      let s := { s with resps := s.resps.filter fun q => q.id != n }
      resendWaiting (if r.hit then answerItem s core r.acc r.ins n r.w r.mw r.corrected
        else fillWord s core n r.w r.mw r.corrected) core
    | none => s)

/-! ### In-memory operations (R123, R124) -/

/-- The home slice forces a sector's words home, and writes its dirty words back to memory. -/
def forceSector (s : State) (sec : Nat) : State :=
  let s := drainWord ((wordsOfSector sec).foldl (fun s w => (l2Read (recallNow s w) w).2) s) (sec * 16)
  let held := ((wordsOfSector sec).map fun w => (w, homeAt s w)).filter fun e => e.2.v && e.2.d
  let sector := held.any fun e => e.2.sector || e.2.key != 0
  let s := if held.isEmpty then s
    else storeWords s sec ((held.map (·.2.key)).foldl max 0) sector (held.map fun e => (e.1, e.2.mw))
  held.foldl (fun s e => setHome s e.1 { homeAt s e.1 with d := false }) s

/-- The L2 drops a sector's words, and no message keeps what it has fetched of them. -/
def dropSector (s : State) (sec : Nat) : State :=
  forget ((wordsOfSector sec).foldl (fun s w => setHome s w { homeAt s w with v := false, d := false }) s) (wordsOfSector sec)

/-- The result of a comparison so far: the lower of two places. -/
def lowerFound (a b : Option DWord) : Option DWord :=
  match a, b with
  | some x, some y => if (y.extractLsb' 0 63).toNat < (x.extractLsb' 0 63).toNat then some y else some x
  | some x, none => some x
  | none, r => r

/-- One sector is performed: op 0 MZERO, 1 MCOPY, 2 MCMP; `p` is the destination and the source, `base` the first word of
the run. What MCOPY and MCMP read corrected counts in no CECNT. DEDUCED (log 50). DESIGN CHOICE (log 112). -/
def inmemSector (s : State) (op base : Nat) (p : Nat × Nat) (found : Option DWord) : State × Option DWord :=
  let s := forceSector s p.1
  let s := if op = 0 then s else forceSector s p.2
  match op with
  | 0 => (dropSector (storeWords s p.1 0 true ((wordsOfSector p.1).map fun w => (w, {}))) p.1, found)
  | 1 =>
    let r := fetchSector s p.2 0 srcInMem
    let s := drainWord r.2 (p.1 * 16)
    (dropSector (storeWords s p.1 0 true ((wordsOfSector p.1).map fun w => (w, (r.1.getD (w % 16) ({}, false)).1))) p.1, found)
  | _ =>
    let x := fetchSector s p.1 0 srcInMem
    let y := fetchSector x.2 p.2 0 srcInMem
    (y.2, (List.range 16).foldl (fun a j =>
      let i := p.1 * 16 + j - base
      let u := (x.1.getD j ({}, false)).1
      let v := (y.1.getD j ({}, false)).1
      lowerFound a (if u.pois || v.pois then some (BitVec.ofNat 64 (2 ^ 63 + i))
        else if u.data != v.data || u.tag != v.tag then some (BitVec.ofNat 64 i) else none)) found)

/-- Channel of a sector. -/
def sectorChan (sec : Nat) : Nat := chanOf (sec * 16)

/-- The oldest item that has a sector to do at a channel, of any core. -/
def inmemNext (s : State) (k : Nat) : Option (Nat × Item × (Nat × Nat)) :=
  s.cores.foldl (fun r (c, x) => x.items.foldl (fun (r : Option (Nat × Item × (Nat × Nat))) i => match i.body with
    | .inmem _ secs _ _ => match secs.find? fun p => sectorChan p.1 == k with
      | some p => match r with
        | some (_, j, _) => if i.id < j.id then some (c, i, p) else r
        | none => some (c, i, p)
      | none => r
    | _ => r) r) none

/-- Every sector of every lane of an instruction is done: MCMP results are written, lanes ascending, and it completes. -/
def finishInmem (s : State) (c op : Nat) : State :=
  let its := (coreAt s c).items.filter fun i => i.op == op && i.body.isInmem
  if its.any fun i => match i.body with | .inmem _ (_ :: _) _ _ => true | _ => false then s
  else
    let s := its.foldl (fun s i =>
      let s := match i.body with
        | .inmem _ _ _ (some r) => modSpad s r.launch r.set fun t => spadWrite t r.off (bytesOfWord (r.found.getD (BitVec.allOnes 64)))
        | _ => s
      endItem s c i.id) s
    progress s c

/-- One sector of an in-memory operation at a channel. -/
def inmemStep (s : State) (k : Nat) : State :=
  match inmemNext s k with
  | none => s
  | some (c, i, p) => match i.body with
    | .inmem op secs base res =>
      let r := inmemSector s op base p (res.bind (·.found))
      let s := modItem r.1 c i.id fun _ => .inmem op (secs.erase p) base (res.map fun x => { x with found := r.2 })
      finishInmem s c i.op
    | _ => s

/-- BURST_SLOT (R113 to R115). A burst and a sector of an in-memory operation compete for the slot; which one goes first
is open. DEDUCED (log 63). -/
def execBurstSlot (chan : Nat) (s : State) : Host.Outcome State Fault Refusal :=
  .next (match (chanAt s chan).pend, inmemNext s chan with
    | [], _ => inmemStep s chan
    | _, none => burstStep s chan
    | _, some _ =>
      let s' := { s with fresh := s.fresh + 1 }
      if Config.victim 2 s.fresh % 2 = 0 then burstStep s' chan else inmemStep s' chan)

/-- REFRESH (R113): the channel's rows are closed. -/
def execRefresh (chan : Nat) (s : State) : Host.Outcome State Fault Refusal :=
  .next (modChan s chan fun c => { c with rows := [] })

/-- SCRUB (R118, R120): a read of a word of memory that nothing asked for, with its sector in a tier that moves
sectors (R23). -/
def execScrub (tier word : Nat) (s : State) : Host.Outcome State Fault Refusal :=
  .next (if tier < 2 ∧ word < 2 ^ (if tier = 0 then 36 else 37) then let w := wkey tier (8 * word)
    (memWordNow s w 0 (secOf w 0) srcScrub).2.2 else s)

/-- SCRATCHPAD_READ_COMPLETE (R363, R364): an LDS lands. -/
def execScratchpadReadComplete (core n : Nat) (s : State) : Host.Outcome State Fault Refusal :=
  .next (match itemAt s core n with
    | some it => match it.body with
      | .lds set launch off size dsts acq =>
        let old := match setAt s launch set with | some x => x.spad | none => []
        let (t, cor) := spadRewrite old off size
        let s := modSet s launch set fun x => if x.done then x else { x with spad := t }
        let s := (List.range cor).foldl (fun s _ => countCe s core it.slot it.gid) s
        let bs := spadRead t off size
        let v := (List.range dsts.length).map fun i =>
          (wordOfBytes ((bs.drop (4 * i)).take 4 ++ List.replicate 4 0)).extractLsb' 0 32
        let s := landAll s core it dsts v (spadPois t off size)
        progress (endItem (if acq then acquire s core else s) core n) core
      | _ => s
    | none => s)

/-- TOPK_COMPLETE (R432, R433): both registers of every lane land together. -/
def execTopkComplete (core n : Nat) (s : State) : Host.Outcome State Fault Refusal :=
  .next (match itemAt s core n with
    | some it => match it.body with
      | .topk dI dV res =>
        let land := fun (s : State) (d : Option Nat) (l : Nat) (w : Word) => match d with
          | some t => landIn s core it.slot it.gid (.v t l) w false
          | none => s
        endItem (res.foldl (fun s (l, i, v) => land (land s dI l i) dV l v) s) core n
      | _ => s
    | none => s)

end Sys2Proof.Machine
end

