-- ==== Sys2Proof/Machine/EvCopy.lean ====
section
/-! DEFINITION. EvCopy.lean: events of the copy engines and of the task table (R152 to R165, R204, R425). A unit of a copy
is one destination word. The front ends' own copies (R195) go through the same units: they are named as core 192 + n with
the number of the started command in place of the queue. -/
namespace Sys2Proof.Machine

/-! ### Tasks (R204) -/

/-- TASK_DECREMENT: the front end accepts the oldest TKSIG on its way (R431). -/
def execTaskDecrement (fn : Nat) (s : State) : Host.Outcome State Fault Refusal :=
  let oldest := s.cores.foldl (fun (r : Option (Nat × Nat × Nat)) (c, x) => x.items.foldl (fun r i => match i.body with
    | .taskDec f n => if f ≠ fn then r else match r with
      | some (_, j, _) => if i.id < j then some (c, i.id, n) else r
      | none => some (c, i.id, n)
    | _ => r) r) none
  .next (match oldest with
    | some (c, i, n) => feTry fn (fun s => endItem (decTask s fn n) c i) s
    | none => s)

/-! ### Commands and units -/

/-- The queue's head command. -/
def headCmd (s : State) (c q : Nat) : Option CopyCmd := (tget (coreAt s c).cq q []).head?

def cmdUnits : CopyCmd → List CopyUnit
  | .cmd _ _ _ _ _ _ _ us _ _ => us
  | .fence .. => []

/-- Changes unit n of the head command of a queue. -/
def modUnit (s : State) (c q n : Nat) (f : CopyUnit → CopyUnit) : State :=
  modCore s c fun x => { x with cq := match tget x.cq q [] with
    | .cmd id g sl l st fn op us rs rp :: r => tset x.cq q (.cmd id g sl l st fn op (us.modify n f) rs rp :: r)
    | _ => x.cq }

/-- Command `id` of a queue, wherever it stands. -/
def cmdOf (s : State) (c q id : Nat) : Option CopyCmd := (tget (coreAt s c).cq q []).find? fun e => cmdNum e == id

/-- Changes unit n of command `id` of a queue. -/
def modCmdUnit (s : State) (c q id n : Nat) (f : CopyUnit → CopyUnit) : State :=
  let g := fun (e : CopyCmd) => match e with
    | .cmd i g sl l st fn op us rs rp => if i = id then CopyCmd.cmd i g sl l st fn op (us.modify n f) rs rp else e
    | .fence .. => e
  modCore s c fun x => { x with cq := tset x.cq q ((tget x.cq q []).map g) }

/-- Every lane of the group has stopped (R220, R233). -/
def groupStopped (s : State) (g : Group) : Bool :=
  g.hard || contained s g || ((groupSets s g).any fun n => match setAt s g.launch n with | some x => x.stop == .hard | none => false)
    || (g.threads.any (fun t => t.stopped) && g.threads.all fun t => !t.live || t.stopped)

/-- A release that has been issued waits for the command, and has to complete before a save (R137, R155). -/
def awaited (x : Core) (id launch : Nat) (rs : List CopyRun) : Bool :=
  x.items.any fun i => i.launch == launch && decide (id < i.id) && (match i.body with | .release .. => true | _ => false)
    && rs.any fun r => r.wid == i.wid && !r.done

/-- The engine sends nothing more for the head command of a queue, whose group has stopped (R162). What a release waits for goes
on. DEDUCED (log 121). -/
def copyHeld (s : State) (c q : Nat) : Bool :=
  match headCmd s c q with
  | some (.cmd id gid slot launch _ _ _ _ rs _) => match groupAt s c slot with
    | none => false
    | some g => g.gid == gid && groupStopped s g && !awaited (coreAt s c) id launch rs
  | _ => false

/-- No earlier unit of the command has still to write the same place. -/
def unitFirst (us : List CopyUnit) (n : Nat) (u : CopyUnit) : Bool :=
  (us.take n).all fun v => v.dst != u.dst || v.skip || v.written || v.landed

/-- The unit reads a source word. -/
def readsSrc (op : CopyOp) (u : CopyUnit) : Bool := !u.pad && !u.skip && (match op with | .acpr _ => false | _ => true)

/-- Sends a unit's request to a peer, for a function and launch. -/
def sendUnit (s : State) (c slot gid fn launch id n lane : Nat) (write : Bool) (w : Nat) (op : BitVec 6) (mask : BitVec 8)
    (d : DWord) : State :=
  let it : Item := { id := s.nid, op := 0, gid := gid, slot := slot, lane := lane, fn := fn, launch := launch,
                     body := .copyUnit id n write }
  let acc := s.nid
  sendRemote (modItems { s with nid := s.nid + 1 } c fun xs => xs ++ [it]) c slot lane acc w op mask d none

/-- The coalescer asks for the source words of the head command of a queue, each once. Eight or more words of a sector, and words
of pages in sector mode, go as requests for the sector (R153, R164). A source word that misses fills no line of the L2. DESIGN CHOICE
(log 142). -/
def askSources (s : State) (c q : Nat) : State :=
  match headCmd s c q with
  | some (.cmd id gid slot launch st fn op us rs rp) =>
    let wants := fun (u : CopyUnit) => readsSrc op u && !u.asked && !u.landed
    let firsts := ((us.zip (List.range us.length)).filter fun e => wants e.1)
    let ws := (firsts.map (·.1.srcW)).eraseDups
    let vs := us.map fun u => if wants u then { u with asked := true } else u
    let e := CopyCmd.cmd id gid slot launch st fn op vs rs rp
    let s := modCore s c fun x => { x with cq := tset x.cq q (e :: (tget x.cq q []).drop 1) }
    ws.foldl (fun s w => match firsts.find? fun e => e.1.srcW == w with
      | none => s
      | some (u, n) =>
        if tierOf w = 3 then sendUnit s c slot gid fn launch id n (((rs[u.run]?).map (·.lane)).getD 0) false w opRead 0xFF 0
        else
          let many := decide (8 ≤ (ws.filter fun v => sectorOf v == sectorOf w).length)
          sendMsg s { id := 0, src := .engine c, fn := fn, w := w, kind := .read, key := u.key, sector := u.sec || many,
                      alloc := .bypass, acc := id }) s
  | _ => s

/-- Byte mask of a place in a word. -/
def placeMask (off size : Nat) : BitVec 8 := BitVec.ofNat 8 ((2 ^ size - 1) * 2 ^ off)

/-- Data of a source placed for its destination. -/
def placeData (mw : MWord) (srcOff off size : Nat) : DWord :=
  ((mw.data >>> (8 * srcOff)) &&& BitVec.ofNat 64 (2 ^ (8 * size) - 1)) <<< (8 * off)

/-- An operation of ACPR at a word's home, as a RED does it (R152, R165, R314). -/
def homeReduce (s : State) (w key fn : Nat) (sector : Bool) (op : AOp) (off : Nat) (b : DWord) : State :=
  let s := recallNow (serveFirst s w) w
  let (old, _, s) := homeVal s w key sector none false
  homePut s w fn .normal key sector { old with data := atomicWord op old.data b 0 off } fun h =>
    { h with rank := none, by_ := [], owner := none }

/-- A unit's write of a host word goes to its home as a message, which may have to wait there for the host's word, as a RED's does
(R93, R141, R152). -/
def sendUnitHome (s : State) (c id n fn w : Nat) (u : CopyUnit) (kind : MsgKind) : State :=
  sendMsg s { id := 0, src := .engine c, fn := fn, w := w, kind := kind, key := u.dkey, sector := u.dsec, acc := id, unit := some n }

/-- A unit of ACPR is applied at its word's home, or goes there as a message (R152, R165). -/
def applyUnit (s : State) (c q id n : Nat) : State :=
  match cmdOf s c q id with
  | some (.cmd _ gid slot launch _ fn (.acpr o) us rs _) =>
    match us[n]? with
    | none => s
    | some u =>
      let out := modCmdUnit s c q id n fun u => { u with sent := true }
      match u.dst with
      | .home w off size =>
        if u.written || u.sent || u.landed then s
        else if tierOf w = 3 then
          sendUnit out c slot gid fn launch id n (((rs[u.run]?).map (·.lane)).getD 0) true w (opRed o) (placeMask off size) u.data
        else if tierOf w = 2 then sendUnitHome out c id n fn w u (.atomic o u.data 0 off)
        else
          let s := homeReduce s w u.dkey fn u.dsec o off u.data
          modCmdUnit s c q id n fun u => { u with written := true, pois := (homeAt s w).mw.pois }
      | _ => s
  | _ => s

/-- HOME_COPY_WRITE for a unit of a core's command: its source is asked for; once it has come, its word is written at home
(R152, R153, R160). DEDUCED (log 43). -/
def copyWrite (s : State) (c q n : Nat) : State :=
  match headCmd s c q with
  | some (.cmd id gid slot launch _ fn op us rs _) =>
    match us[n]? with
    | none => s
    | some u =>
      let peer := fun (w : Nat) (o : BitVec 6) (mask : BitVec 8) (d : DWord) =>
        sendUnit (modUnit s c q n fun u => { u with sent := true }) c slot gid fn launch id n (((rs[u.run]?).map (·.lane)).getD 0)
          true w o mask d
      let host := fun (w : Nat) (kind : MsgKind) =>
        sendUnitHome (modUnit s c q n fun u => { u with sent := true }) c id n fn w u kind
      if u.written || u.sent || u.landed then s
      else if readsSrc op u && !u.asked then (if copyHeld s c q then s else askSources s c q)
      else match u.dst with
      | .home w off size =>
        if !unitFirst us n u then s
        else if u.skip then modUnit s c q n fun u => { u with written := true }
        else match op, u.got with
        | .acpr _, _ =>
          if copyHeld s c q then s
          else applyUnit (u.lead.foldl (fun s e => applyUnit s c q (id + e.1) e.2) s) c q id n
        | _, some mw =>
          let d := placeData mw u.srcOff off size
          let new : MWord := { data := d, pois := mw.pois, tagd := false }
          if tierOf w = 3 then peer w (opCopy mw.pois) (placeMask off size) d
          else if tierOf w = 2 then host w (.copied (placeMask off size) new)
          else
            let s := homeWrite s w u.dkey fn u.dsec (placeMask off size) new
            modUnit s c q n fun u => { u with written := true, pois := (homeAt s w).mw.pois }
        | _, none => s
      | _ => s
  | _ => s

/-! ### Tile slots (R163, R316) -/

/-- Elements of a unit of ACPT written into a slot. -/
def slotWrite (t : Tile) (lit : AcptLit) (phi : BitVec 4) (row col n : Nat) (mw : MWord) (srcOff : Nat) (pad : Bool) : Tile :=
  let e := styBytes lit.sty
  let b8 := lit.dty.is8
  (List.range n).foldl (fun t i =>
    let code := mw.data.toNat / 2 ^ (8 * (srcOff + e * i)) % 2 ^ (8 * e)
    let r := if lit.trn then col + i else row
    let k := if lit.trn then row else col + i
    let v := if pad then 0
      else if styTy lit.sty = dtyTy lit.dty then code
      else (convertFrom (styTy lit.sty) (dtyTy lit.dty) ⟨lit.rm, ditherAt (k + phi.toNat)⟩ lit.sat code).1
    let bs : List Byte := if b8 then [BitVec.ofNat 8 v] else [BitVec.ofNat 8 v, BitVec.ofNat 8 (v / 256)]
    tileWrite t (tileOff b8 r k) bs (!pad && mw.pois)) t

/-! ### Landing (R158, R161) -/

/-- A run whose words have all landed makes its arrival. ACPT arrives once, at its completion (R317). -/
def landRun (s : State) (c q r : Nat) : State :=
  match headCmd s c q with
  | some (.cmd id gid slot launch set fn op us rs rp) =>
    match rs[r]? with
    | none => s
    | some run =>
      let mine := us.filter fun u => u.run == r
      if run.done || mine.any fun u => !u.landed then s
      else
        let s := modCore s c fun x => { x with cq := match tget x.cq q [] with
          | _ :: rest => tset x.cq q (.cmd id gid slot launch set fn op us (rs.modify r fun y => { y with done := true }) rp :: rest)
          | [] => x.cq }
        match op, run.comp with
        | .acpt .., _ => s
        | _, .sync st off => copyArrive s fn launch st off (BitVec.ofNat 32 run.bytes) (mine.any (·.pois))
        | _, .task _ => s
  | _ => s

/-- COPY_WRITE_ACK for a unit of a core's command. -/
def copyAck (s : State) (c q n : Nat) : State :=
  match headCmd s c q with
  | some (.cmd _ _ _ launch _ _ op us _ _) =>
    match us[n]? with
    | none => s
    | some u =>
      let land := fun (s : State) (p : Bool) =>
        progress (landRun (modUnit s c q n fun u => { u with landed := true, written := true, pois := p }) c q u.run) c
      if u.landed then s
      else match u.dst with
      | .home .. => if u.written then land s u.pois else s
      | .spad st off size =>
        if u.skip then land s false
        else if !unitFirst us n u then s
        else match u.got with
        | none => s
        | some mw =>
          let bs := (bytesOfWord (placeData mw u.srcOff 0 size)).take size
          let s := modSpad s launch st fun t =>
            let t := spadWrite t off bs
            if mw.pois then tset t (off / 8) { spadAt t (off / 8) with pois := true } else t
          land s (match setAt s launch st with | some x => spadPois x.spad off size | none => false)
      | .slot sl row col cnt =>
        if (tileAt s c sl).locks != 0 || (u.pad && copyHeld s c q) then s
        else match op, (if u.pad then some {} else u.got) with
        | .acpt lit _ _ phi, some mw =>
          land (modTile s c sl fun t => slotWrite t lit phi row col cnt mw u.srcOff u.pad) mw.pois
        | _, _ => s
  | _ => s

/-! ### Completion (R158, R159, R317) -/

/-- The head command of a queue completes, if every word has landed. DEDUCED (log 56). -/
def completeCmd (s : State) (c q : Nat) : State :=
  match headCmd s c q with
  | some (.cmd _ gid slot launch _ fn op us rs _) =>
    if us.any (fun u => !u.landed) || rs.any (fun r => !r.done) then s
    else
      let s := modCore s c fun x => { x with cq := tset x.cq q ((tget x.cq q []).drop 1) }
      let s := match op with
        | .acpt _ _ sl _ =>
          let s := modTile s c sl fun t => { t with full := true }
          let s := modGroup s c slot fun g => if g.gid = gid then { g with dph := g.dph + 1 } else g
          match rs with
          | r :: _ => match r.comp with
            | .sync st off => copyArrive s fn launch st off (BitVec.ofNat 32 (256 * rs.length)) (us.any (·.pois))
            | .task _ => s
          | [] => s
        | _ => s
      let s := match rs with
        | r :: _ => match r.comp with
          | .task n => decTask (noReplay s launch) fn n
          | .sync .. => s
        | [] => s
      progress s c
  | _ => s

/-! ### Copies of front ends (R195) -/

/-- A started copy of a front end. DESIGN CHOICE (log 66). -/
def feUnit (s : State) (fn n u : Nat) : Option CopyUnit :=
  match tget? (fnAt s fn).started n with
  | some (.copy _ _ us _ _) => us[u]?
  | _ => none

def modFeUnit (s : State) (fn n u : Nat) (f : CopyUnit → CopyUnit) : State :=
  modFn s fn fun x => { x with started := x.started.map fun (k, y) => (k, if k = n then (match y with
    | .copy q tag us t p => .copy q tag (us.modify u f) t p
    | z => z) else y) }

def modFeUnits (s : State) (fn n : Nat) (f : CopyUnit → CopyUnit) : State :=
  modFn s fn fun x => { x with started := x.started.map fun (k, y) => (k, if k = n then (match y with
    | .copy q tag us t p => .copy q tag (us.map f) t p
    | z => z) else y) }

/-- A front end asks the host, or a peer, for a source word, once for every unit of its copy that names it (R153). -/
def askFeSource (s : State) (fn n u : Nat) (x : CopyUnit) : State :=
  let s := modFeUnits s fn n fun y => if y.srcW = x.srcW then { y with asked := true } else y
  if tierOf x.srcW = 3 then sendUnit s (192 + fn) 0 0 fn 0 n u 0 false x.srcW opRead 0xFF 0
  else sendMsg s { id := 0, src := .engine (192 + fn), fn := fn, w := x.srcW, kind := .read, key := x.key, sector := x.sec,
                   alloc := .bypass, acc := n }

/-- The source word of a unit of a front end's copy: what has come, or what is read at its home (log 66). `none` where it is still to
come from the host or a peer. -/
def feSource (s : State) (x : CopyUnit) : Option MWord × State :=
  match x.got with
  | some mw => (some mw, s)
  | none =>
    if 2 ≤ tierOf x.srcW then (none, s)
    else let r := homeRead s x.srcW x.key x.sec; (some r.1, r.2.2)

/-- One destination word of a front end's copy is written at home, or sent to the host or a peer. -/
def feWrite (s : State) (fn n u : Nat) : State :=
  match feUnit s fn n u with
  | some x =>
    if x.written || x.sent || x.landed then s
    else match x.dst with
    | .home w off size =>
      match feSource s x with
      | (none, s) => if x.asked then s else askFeSource s fn n u x
      | (some mw, s) =>
        let d := placeData mw x.srcOff off size
        let new : MWord := { data := d, pois := mw.pois, tagd := false }
        let out := modFeUnit s fn n u fun x => { x with sent := true }
        if tierOf w = 3 then sendUnit out (192 + fn) 0 0 fn 0 n u 0 true w (opCopy mw.pois) (placeMask off size) d
        else if tierOf w = 2 then sendUnitHome out (192 + fn) n u fn w x (.copied (placeMask off size) new)
        else
          let s := homeWrite s w x.dkey fn x.dsec (placeMask off size) new
          modFeUnit s fn n u fun x => { x with written := true }
    | _ => s
  | none => s

/-! ### The events -/

/-- A source word reaches a copy engine, for every unit of its command that names it (R153). -/
def giveSource (s : State) (c id w : Nat) (mw : MWord) : State :=
  let get := fun (u : CopyUnit) => if u.asked && u.srcW == w && u.got.isNone then { u with got := some mw } else u
  let take := fun (e : CopyCmd) => match e with
    | .cmd i g sl l st fn op us rs rp => if i = id then .cmd i g sl l st fn op (us.map get) rs rp else e
    | .fence .. => e
  if 192 ≤ c then modFeUnits s (c - 192) id get
  else modCore s c fun x => { x with cq := x.cq.map fun (q, es) => (q, es.map take) }

/-- The units of a copy get an answer: the word read, for every unit that names it, or that a write was applied, with the poison that
the word then has (R153, R158). -/
def copyAnswer (s : State) (c cmd unit w : Nat) (write : Bool) (mw : MWord) : State :=
  let f := fun (u : CopyUnit) => { u with sent := false, written := true, pois := mw.pois }
  if !write then giveSource s c cmd w mw
  else if 192 ≤ c then modFeUnit s (c - 192) cmd unit f
  else (List.range 4).foldl (fun s q => if (cmdOf s c q cmd).isSome then modCmdUnit s c q cmd unit f else s) s

/-- HOME_RESPONSE_RECEIVE: an answer reaches the access of a lane (R127, R319), or the copy engine (R152). -/
def execHomeResponseReceive (core n : Nat) (s : State) : Host.Outcome State Fault Refusal :=
  .next (match s.resps.find? fun r => r.id == n && r.core == core && (r.acc != 0 || r.eng) && !r.hit with
    | some r =>
      let s := { s with resps := s.resps.filter fun q => q.id != n }
      if r.eng then copyAnswer s core r.acc (r.unit.getD 0) r.w r.unit.isSome r.mw
      else resendWaiting (answerItem s core r.acc r.ins n r.w r.mw r.corrected) core
    | none => s)

/-- HOME_COPY_WRITE. -/
def execHomeCopyWrite (core q unit : Nat) (s : State) : Host.Outcome State Fault Refusal :=
  .next (if core < 192 then copyWrite s core q unit else feWrite s (core - 192) q unit)
/-- COPY_WRITE_ACK. -/
def execCopyWriteAck (core q unit : Nat) (s : State) : Host.Outcome State Fault Refusal :=
  .next (if core < 192 then copyAck s core q unit
    else match feUnit s (core - 192) q unit with
      | some x => if x.written then modFeUnit s (core - 192) q unit fun x => { x with landed := true } else s
      | none => s)

/-- QUEUE_FENCE_COMPLETE (R157): the fence heads every queue that holds it; then it acts as FENCE.acq. DEDUCED (log 70). -/
def execQueueFenceComplete (core id : Nat) (s : State) : Host.Outcome State Fault Refusal :=
  let isIt := fun (e : CopyCmd) => match e with | .fence f _ _ _ => f == id | _ => false
  let qs := (List.range 4).filter fun q => (tget (coreAt s core).cq q []).any isIt
  .next (if qs.isEmpty || qs.any (fun q => !((tget (coreAt s core).cq q []).head?.map isIt).getD false) then s
    else
      -- the fence of a group that has stopped stands among its descriptors
      let drop := fun (g : Group) => { g with descs := g.descs.filter fun i => i.id != id }
      let s := modCore s core fun x => { x with
        cq := qs.foldl (fun t q => tset t q ((tget t q []).drop 1)) x.cq, groups := x.groups.map fun e => (e.1, drop e.2) }
      progress (endItem (acquire s core) core id) core)

end Sys2Proof.Machine
end

