-- ==== Sys2Proof/Machine/Flow.lean ====
section
/-! DEFINITION. Flow.lean: flow and system instructions (R283): branches and calls (R327 to R330, R407), exit (R342), meets
(R53, R359, R372), melding (R60, R373, R396), regions (R387), traps (R326, R419, R341), WAITE, RDCYC, and the system
registers (R218, R376 to R378). -/
namespace Sys2Proof.Machine

/-- The target that OFF names (R263). -/
def offTarget (k : Cur) (off : BitVec 30) : DWord := k.pc + off.signExtend 64 <<< (3 : Nat)

/-- An instruction without operands: `f` applies its effect for the executing lanes. -/
def issuePlain (s : State) (c : Ctl) (f : State → Cur → Mask → State) : Host.Outcome State Fault Refusal :=
  issueG s c false [] [] [] noOwn fun k s _ _ x => .ok (f s k x)

/-- Changes the issuing group. -/
def modCur (s : State) (k : Cur) (f : Group → Group) : State := modGroup s k.core k.slot f

/-- Lanes of x that jump to a target, the others falling through (R328). -/
def jumpLanes (k : Cur) (x : Mask) (t : Nat → DWord) (l : Nat) : DWord := if x.getLsbD l then t l else k.next

/-! ### Branches, calls, exit -/

/-- NOP (R386). -/
def execNop (c : Ctl) (s : State) := issuePlain s c fun s _ _ => s
/-- BRA (R328). -/
def execBra (c : Ctl) (off : BitVec 30) (s : State) :=
  issueG s c false [] [] [] noOwn fun k s _ _ x => .jump s (jumpLanes k x fun _ => offTarget k off)

/-- The condition of BRC over the executing lanes (R328). -/
def brcHolds (cond : BrCond) (p x : Mask) : Bool :=
  match cond with
  | .any => p != 0
  | .all => p == x
  | .none => p == 0

/-- BRC (R328). -/
def execBrc (c : Ctl) (p : Fin 8) (cond : BrCond) (off : BitVec 30) (s : State) :=
  issueG s c false [] [] []
    (fun _ s g _ x =>
      let bad := maskOf fun l => x.getLsbD l && predPois g p.val l
      if bad ≠ 0 then .trap ⟨tcPoison, bad, addrInfo 2 0⟩ else .ok s)
    fun k s g _ x =>
      let pm := maskOf fun l => x.getLsbD l && predBit g p.val l
      .jump s fun _ => if brcHolds cond pm x then offTarget k off else k.next
/-- BRX (R328). -/
def execBrx (c : Ctl) (a : Src) (s : State) :=
  issueG s c false [useA a 2] [] [(2, useA a 2)] noOwn fun k t g _ x =>
    .jump t (jumpLanes k x fun l => val64 s k g l a)

/-- The link address: the next clause header (R330). -/
def linkAddr (k : Cur) : DWord := k.run.addr + BitVec.ofNat 64 (8 * (1 + k.run.hdr.cnt))

/-- The common effect of CALL and CALLX (R330). -/
def doCall (c : Ctl) (d : Opd) (target : Cur → Group → Nat → DWord) (k : Cur) (s : State) (g : Group) (act x : Mask) :
    Own :=
  let targets := target k g
  let k' := { k with lanes := act }
  let s := writeDst s k' c x d 0 fun _ => ((linkAddr k).extractLsb' 0 32, false)
  let s := writeDst s k' c x d 1 fun _ => ((linkAddr k).extractLsb' 32 32, false)
  .jump (modCur s k fun g => modThreads g x fun t => { t with depth := t.depth + 1 }) (jumpLanes k x targets)

/-- CALL (R330). -/
def execCall (c : Ctl) (d : Opd) (off : BitVec 30) (s : State) :=
  issueG s c false [] [{ o := d, n := 2 }] [] noOwn (doCall c d fun k _ _ => offTarget k off)
/-- CALLX (R330). -/
def execCallx (c : Ctl) (d : Opd) (a : Src) (s : State) :=
  issueG s c false [useA a 2] [{ o := d, n := 2 }] [(2, useA a 2)] noOwn (doCall c d fun k g l => val64 s k g l a)
/-- RET (R407). -/
def execRet (c : Ctl) (a : Src) (s : State) :=
  issueG s c false [useA a 2] [] [(2, useA a 2)] noOwn fun k t g _ x =>
    let targets := fun l => val64 s k g l a
    .jump (modCur t k fun g => modThreads g x fun t => { t with depth := t.depth - 1 }) (jumpLanes k x targets)
/-- EXIT (R342). -/
def execExit (c : Ctl) (s : State) :=
  issueG s c false [] [] [] noOwn fun k s _ act x =>
    let s := exitLanes s k.core k.slot x
    .done (retireWith s k c ⟨k.op, [], []⟩ (act &&& ~~~x) 0 .no (fun _ => k.next) true)

/-! ### Meets (R53, R359, R372) -/

/-- MEET: also with no executing lane (R372). -/
def execMeet (c : Ctl) (n : Fin 8) (off : BitVec 30) (s : State) :=
  issuePlain s c fun s k x => modCur s k fun g =>
    modThreads { g with jms := tset g.jms n.val ⟨x, 0⟩ } x fun t =>
      { t with meeta := offTarget k off, meetj := BitVec.ofNat 32 n.val }
/-- JARR (R53). -/
def execJarr (c : Ctl) (n : Fin 8) (s : State) :=
  issuePlain s c fun s k x => modCur s k fun g =>
    let j := jmaskAt g n.val
    { g with jms := tset g.jms n.val { j with a := j.a ||| (x &&& j.e) } }
/-- JLEAVE (R53). -/
def execJleave (c : Ctl) (n : Fin 8) (s : State) :=
  issuePlain s c fun s k x => modCur s k fun g =>
    let j := jmaskAt g n.val
    modThreads { g with jms := tset g.jms n.val ⟨j.e &&& ~~~x, j.a &&& ~~~x⟩ } x fun t =>
      if t.meetj.toNat % 8 = n.val then { t with meeta := 0 } else t

/-! ### Melding (R60, R373 to R375, R396) -/

/-- The paths of the lanes of x are set, and the predicates of .wp written, k of them. -/
def setPaths (g : Group) (x : Mask) (p : Nat → BitVec 2) (wp : Option (Fin 8)) (n : Nat) : Group :=
  let g := mapThreads g fun l t => if x.getLsbD l then { t with path := p l } else t
  match wp with
  | none => g
  | some b => (List.range n).foldl (fun g i =>
      setPred g (b.val + i) x (maskOf fun l => x.getLsbD l && (p l).toNat == i) 0) g

/-- MELD (R374). -/
def execMeld (c : Ctl) (sel : MeldSel) (wp : Option (Fin 8)) (s : State) :=
  match sel with
  | .pred p => issueG s c false [] [] []
      (fun _ s g _ x =>
        let bad := maskOf fun l => x.getLsbD l && predPois g p.val l
        if bad ≠ 0 then .trap ⟨tcPoison, bad, addrInfo 2 0⟩ else .ok s)
      fun k s g _ x => .ok (modCur s k fun h => setPaths h x (fun l => if predBit g p.val l then 1 else 0) wp 2)
  | .q4 a => issueG s c false [useA a] [] [(2, useA a)] noOwn
      fun k t g _ x => .ok (modCur t k fun h => setPaths h x (fun l => (val s k g l a).extractLsb' 0 2) wp 4)
/-- MELDX (R375). -/
def execMeldx (c : Ctl) (s : State) :=
  issuePlain s c fun s k x => if x = 0 then s else modCur s k fun g =>
    modThreads g (maskOf fun l => (threadAt g l).present) fun t => { t with path := 0 }
/-- PTAB (R396). -/
def execPtab (c : Ctl) (p : Fin 4) (hi : Bool) (lit : DWord) (s : State) :=
  issuePlain s c fun s k x => if x = 0 then s else modCur s k fun g =>
    { g with ptabs := (List.range 8).foldl (fun t i =>
        tset t (p.val * 16 + (if hi then 8 else 0) + i) (lit.extractLsb' (8 * i) 8)) g.ptabs }

/-! ### Regions (R222, R387) -/

/-- NPB. DEDUCED (log 44). -/
def execNpb (c : Ctl) (s : State) :=
  issueG s c false [] [] []
    (fun _ s g _ x => if x ≠ 0 ∧ (hdrOf s g).npok = false then .trap ⟨tcProtection, x, addrInfo 9 0⟩ else .ok s)
    fun k s g act x =>
      let opens := maskOf fun l => x.getLsbD l && !(threadAt g l).npIn
      .done (modCur (retire s k c [] [] act 0 .no) k fun g =>
        modThreads g opens fun t => { t with npIn := true, npCnt := 0 })
/-- NPE. DEDUCED (log 52). -/
def execNpe (c : Ctl) (s : State) :=
  issuePlain s c fun s k x => modCur s k fun g => modThreads g x fun t => { t with npIn := false }

/-! ### Traps of the second class (R209, R326, R419) and the return (R341) -/

/-- An instruction retires and then raises its trap in the executing lanes. -/
def softTrap (s : State) (c : Ctl) (code : BitVec 8) (imm : BitVec 22) : Host.Outcome State Fault Refusal :=
  issueG s c false [] [] [] noOwn fun k s _ act x =>
    if x = 0 then .ok s
    else
      let s := retireWith s k c ⟨k.op, [], []⟩ act 0 .no (fun _ => k.pc) k.last
      .done (takeTrap s k.core k.slot act k.next k.run.addr (some k.run) ⟨code, x, imm.zeroExtend 64⟩)

/-- TRAP. -/
def execTrap (c : Ctl) (imm : BitVec 22) (s : State) := softTrap s c tcSwTrap imm
/-- BKPT. -/
def execBkpt (c : Ctl) (imm : BitVec 22) (s : State) := softTrap s c tcBreakpoint imm
/-- SVC. -/
def execSvc (c : Ctl) (imm : BitVec 22) (s : State) := softTrap s c tcSvc imm

/-- ERET (R341). -/
def execEret (c : Ctl) (s : State) :=
  issueG s c false [] [] []
    (fun k s g _ _ => if g.tactive then .ok s else .trap ⟨tcIllegalOp, k.lanes, k.word⟩)
    fun k s _ act x =>
      let s := modCur s k fun g => modThreads g x countIssue
      let s := retireWith s k c ⟨k.op, [], []⟩ (act &&& ~~~x) 0 .no (fun _ => k.next) true
      .done (modCur s k fun g => releaseMeets (returnTo g x))

/-! ### WAITE, RDCYC -/

/-- WAITE (R440). -/
def execWaite (c : Ctl) (mask : BitVec 8) (s : State) :=
  issueG s c false [] [] []
    (fun _ s g _ x =>
      if x ≠ 0 ∧ (List.range 8).any (fun i => mask.getLsbD i && (tget? g.sb i).isSome) then .park (.waite mask) else .ok s)
    fun _ s _ _ _ => .ok s
/-- RDCYC (R400). -/
def execRdcyc (c : Ctl) (d : Opd) (s : State) := issueAlu64 s c d [] fun s k _ _ => cycleOf s k.core

/-! ### System registers (R218) -/

/-- LICST (R181), as the reading core sees it. -/
def licst (s : State) (c : Nat) : Word :=
  let p := podAt s (podOf c)
  let up := isUpper c
  let st : BitVec 2 := match p.lic with
    | .free => 0
    | .held u => if u = up then 1 else 2
    | .handover _ => 3
  (BitVec.ofBool (if up then p.priorUp else p.priorLo) ++ BitVec.ofBool (if up then p.reqLo else p.reqUp)
    ++ BitVec.ofBool (if up then p.reqUp else p.reqLo) ++ st).zeroExtend 32

/-- TWST (R187): the link state of the reading core, whichever group of the core reads it. DESIGN CHOICE (log 146). -/
def twst (s : State) (c : Nat) : Word :=
  let x := coreAt s c
  let n := fun (i : Nat) => (tget x.twb i 0).extractLsb' 0 4
  let gate : BitVec 1 := BitVec.ofBool (!isUpper c && (podAt s (podOf c)).upst != 0)
  n 3 ++ n 2 ++ n 1 ++ n 0 ++ (0 : BitVec 6) ++ gate ++ (0 : BitVec 1)
    ++ BitVec.ofNat 4 (coreAt s (twinOf c)).fifo.length ++ BitVec.ofNat 4 (outFree x)

/-- Die quadrant of a core, 0 to 7 (R254). -/
def quadrantOf (c : Nat) : Nat := c / 96 * 4 + c % 96 / 24

/-- The value of a system register for a lane (R377). -/
def sysRead (s : State) (k : Cur) (g : Group) (l n : Nat) : DWord :=
  let t := threadAt g l
  let p := podAt s (podOf k.core)
  let w : Word := match n with
    | 0x000 => BitVec.ofBool g.tactive ++ (0 : BitVec 23) ++ g.tcode
    | 0x008 => g.fflags
    | 0x009 => g.dph.zeroExtend 32
    | 0x00B => t.meetj
    | 0x00C => t.depth
    | 0x010 => g.gangr
    | 0x011 => licst s k.core
    | 0x012 => twst s k.core
    | 0x013 => t.spcnt
    | 0x014 => BitVec.ofBool t.npIn ++ (0 : BitVec 20) ++ t.npCnt.extractLsb' 0 11
    | 0x040 => p.tup ++ p.tlo
    | 0x041 => (coreAt s k.core).vmin ++ (coreAt s k.core).vnow
    | 0x042 => tget s.rosc (quadrantOf k.core) 0
    | 0x080 => g.jlost
    | 0x081 => g.cecnt
    | 0x100 => (p.upst ++ BitVec.ofBool p.gate).zeroExtend 32
    | 0x102 => p.licq
    | 0x104 => p.limit ++ p.move
    | 0x141 => s.einjc
    | _ => if 0x180 ≤ n then (fnAt s (n - 0x180)).l2mask.zeroExtend 32 else 0
  match n with
  | 0x001 => g.tpc
  | 0x002 => g.tinfo
  | 0x003 => g.tlanes
  | 0x00A => t.meeta
  | 0x140 => s.einja
  | _ => w.zeroExtend 64

/-- Writable bits of EINJC (R125). -/
def einjcMask : Word := 0x80FF7F03

/-- A value reaches a system register that is not per thread (R378). -/
def sysWrite (s : State) (k : Cur) (n : Nat) (v : DWord) : State :=
  let w : Word := v.extractLsb' 0 32
  let p := podOf k.core
  match n with
  | 0x000 => modCur s k fun g => { g with tcode := w.extractLsb' 0 8 }
  | 0x001 => modCur s k fun g => { g with tpc := v }
  | 0x002 => modCur s k fun g => { g with tinfo := v }
  | 0x003 => modCur s k fun g => { g with tlanes := v }
  | 0x008 => modCur s k fun g => { g with fflags := w &&& 0x1F }
  | 0x009 => modCur s k fun g => { g with dph := w.extractLsb' 0 4 }
  | 0x080 => modCur s k fun g => { g with jlost := w }
  | 0x081 => modCur s k fun g => { g with cecnt := w }
  | 0x100 => writeGate s p (w.getLsbD 0)
  | 0x102 => modPod s p fun q => { q with licq := w }
  | 0x104 =>
    let limit := w.extractLsb' 16 16
    let move := w.extractLsb' 0 16
    if move.toNat < limit.toNat then modPod s p fun q => { q with limit := limit, move := move } else s
  | 0x140 => { s with einja := v &&& 0x1FFFFFFFFFFFF }
  | 0x141 => { s with einjc := w &&& einjcMask }
  | _ => if 0x180 ≤ n then modFn s (n - 0x180) fun f => { f with l2mask := w.extractLsb' 0 16 } else s

/-- Scope and width of a register number. -/
def sysScope (n : Nat) : SysScope := match sysInfo n with | some i => i.scope | none => .group
def sysWidth (n : Nat) : Nat := match sysInfo n with | some i => if i.wide then 2 else 1 | none => 1

/-- A privileged register outside the physical function (R211 reason 5). -/
def privFault (k : Cur) (g : Group) (n : Nat) : Option TrapReq :=
  if 0x100 ≤ n ∧ g.fn ≠ 0 then some ⟨tcProtection, k.lanes, addrInfo 5 0⟩ else none

/-- MFS (R376, R377). A v destination takes each lane's own thread's value, with U as well. -/
def execMfs (c : Ctl) (d : Opd) (n : BitVec 9) (s : State) :=
  issueG s c false [] [{ o := d, n := sysWidth n.toNat }] []
    (fun k s g _ _ => match privFault k g n.toNat with
      | some t => .trap t
      | none => .ok s)
    fun k t g act x =>
      let k' := { k with lanes := act }
      let c' := { c with u := false }
      let s' := writeDst t k' c' x d 0 fun l => ((sysRead s k g l n.toNat).extractLsb' 0 32, false)
      .ok (if sysWidth n.toNat = 2 then
        writeDst s' k' c' x d 1 fun l => ((sysRead s k g l n.toNat).extractLsb' 32 32, false) else s')

/-- Source value of MTS. -/
def mtsVal (s : State) (k : Cur) (g : Group) (l : Nat) (a : Src) (n : Nat) : DWord :=
  if sysWidth n = 2 then val64 s k g l a else (val s k g l a).zeroExtend 64

/-- A thread register takes a value. -/
def threadWrite (t : Thread) (n : Nat) (v : DWord) : Thread :=
  if n = 0x00A then { t with meeta := v } else { t with meetj := (v &&& 7).extractLsb' 0 32 }

/-- The source of MTS, whose m operands resolve to what the row admits (R61). -/
def mtsUse (a : Src) (n : BitVec 9) : SrcUse := { useA a (sysWidth n.toNat) with role := okMts }

/-- MTS (R376, R378). -/
def execMts (c : Ctl) (a : Src) (n : BitVec 9) (s : State) :=
  let u := mtsUse a n
  let thread := sysScope n.toNat == .thread
  let from_ := fun (act x : Mask) => if c.u then lowLane act else lowLane x
  issueG s c false [u] [] (if thread then [(1, u)] else [])
    (fun k s g act x =>
      if !thread && x != 0 && srcPois s k g (from_ act x) u then
        .trap ⟨tcPoison, laneBit (from_ act x), addrInfo 1 0⟩
      else match privFault k g n.toNat with
        | some t => .trap t
        | none => .ok s)
    fun k t g act x =>
      if x = 0 then .ok t
      else if thread then
        .ok (modCur t k fun h => mapThreads h fun l t =>
          if x.getLsbD l then threadWrite t n.toNat (mtsVal s k g (if c.u then lowLane act else l) a n.toNat) else t)
      else .ok (sysWrite t k n.toNat (mtsVal s k g (from_ act x) a n.toNat))

end Sys2Proof.Machine
end

