-- ==== Sys2Proof/Machine/Saving.lean ====
section
/-! DEFINITION. Saving.lean: room on a core (R35, R44, R108), and what taking a group off its core and bringing it back
have in common (R162, R177, R185, R217, R224, R225, R424). -/
namespace Sys2Proof.Machine

/-! ### Room on a core (R35, R44, R108) -/

/-- Registers that groups of a core hold or have reserved. -/
def regsUsed (x : Core) : Nat := x.groups.foldl (fun n e => n + e.2.rb + poolHeld e.2) 0

/-- Granules in use for n registers, and for n scratchpad units. -/
def regGranules (n : Nat) : Nat := (n + 511) / 512
def spadGranules (n : Nat) : Nat := (n + 31) / 32

/-- Slot for a new group (R35): `pair` asks for two in one quarter. -/
def freeSlot (x : Core) (pair : Bool) : Option (Nat × Nat) :=
  let taken := fun n => (tget? x.groups n).isSome
  let free := fun (q : Nat) => ((List.range 32).map fun i => 32 * q + i).filter fun n => !taken n
  let cnt := fun (q : Nat) => 32 - (free q).length
  let qs := (List.range 4).filter fun q => (if pair then 2 else 1) ≤ (free q).length
  match qs with
  | [] => none
  | q0 :: r =>
    let q := r.foldl (fun a b => if cnt b < cnt a then b else a) q0
    match free q with
    | a :: b :: _ => some (a, b)
    | [a] => some (a, a)
    | [] => none

/-- The registers of a fresh group (R6, R38). -/
def startRegs (params : DWord) : Tbl SReg :=
  [(0, { val := params.extractLsb' 0 32 }), (1, { val := params.extractLsb' 32 32 })]

/-- Puts a group into a slot, with its shadow where there is one. -/
def placeGroup (s : State) (c : Nat) (g : Group) (shadow : Bool) : Option State :=
  match freeSlot (coreAt s c) shadow with
  | none => none
  | some (a, b) =>
    let g := { g with gid := s.nid, born := s.now, since := s.now, shadow := if shadow then some b else none }
    let s := setGroup { s with nid := s.nid + 1 } c a g
    if shadow then
      some (setGroup { s with nid := s.nid + 1 } c b
        { g with gid := s.nid, shadow := none, shadowOf := some a, threads := List.replicate 64 {} })
    else some s

/-- Scratchpad units in use on a core. -/
def unitsUsed (s : State) (c : Nat) : Nat :=
  s.sets.foldl (fun n x => if x.core == some c && !x.done then n + x.units else n) 0

/-! ### Taking a group off its core -/

/-- Work of a group. -/
def groupItems (x : Core) (gid : Nat) : List Item := x.items.filter fun i => i.gid == gid

/-- A long-latency producer is outstanding: a value is still to land. -/
def Body.isProducer : Body → Bool
  | .load .. | .lds .. | .atomic .. | .twrecv .. | .topk .. | .mma _ => true
  | .release (.atomic _ _ _ _ _ _ _ _ ret) _ _ => ret
  | _ => false

/-- Takes a group's copy commands and queue fences out of the queues, in queue order. -/
def takeCmds (x : Core) (gid : Nat) : List (Nat × CopyCmd) × Core :=
  let mine := fun (e : CopyCmd) => match e with | .cmd _ g .. => g == gid | .fence _ g .. => g == gid
  (x.cq.flatMap fun (q, es) => (es.filter mine).map fun e => (q, e),
    { x with cq := x.cq.map fun (q, es) => (q, es.filter fun e => !mine e) })

/-- Requests that a group's copies have sent and that are not written and acknowledged (R162). -/
def copiesSent (x : Core) (gid : Nat) : Bool :=
  x.cq.any fun e => e.2.any fun
    | .cmd _ g _ _ _ _ _ us _ _ => g == gid && us.any fun u => !u.landed && (u.asked || u.sent || u.written) && !u.skip
    | .fence .. => false

/-- An entry as it is replayed, under a new slot and number of its group: words that have not landed read their sources again
(R162), and a replayed ACPT rewrites every element of its slot (R163). -/
def replayCmd (slot gid : Nat) (e : CopyCmd) : CopyCmd :=
  match e with
  | .cmd id _ _ l st fn op us rs _ =>
    let all := match op with | .acpt .. => true | _ => false
    CopyCmd.cmd id gid slot l st fn op
      (us.map fun u => if u.landed && !all then u
        else { u with landed := false, written := false, sent := false, asked := false, got := none })
      (if all then rs.map fun r => { r with done := false } else rs) true
  | .fence f _ _ m => .fence f gid slot m

/-- Journal entries are accepted again, in their order (R162). -/
def giveCmds (s : State) (c slot gid : Nat) (cs : List (Nat × CopyCmd)) : State :=
  cs.foldl (fun s (q, e) => acceptCmd s c q (replayCmd slot gid e)) s

/-- The copy queues of a core have room for journal entries (R154). A group waits for it before it resumes. DESIGN CHOICE
(log 122). -/
def cmdRoom (x : Core) (cs : List (Nat × CopyCmd)) : Bool :=
  (List.range 4).all fun q => queueRoom x q (cs.filter fun e => e.1 == q).length

/-- A group's gang names the slots of its members: slots that change are renamed, and with them GANGR.LEAD. DEDUCED (log 67). -/
def renameGang (f : Nat → Nat) (g : Group) : Group :=
  if g.gang.isEmpty then g
  else
    let lead := f (g.gang.headD 0)
    { g with gang := g.gang.map f,
             gangr := if lead < 128 then (g.gangr &&& 0xFFFFFF80) ||| BitVec.ofNat 32 lead else g.gangr }

/-- Renames a member in every gang of a set. -/
def remapGang (x : Core) (launch set old new : Nat) : Core :=
  let f := fun (g : Group) => if g.launch = launch ∧ g.set = set then renameGang (fun n => if n = old then new else n) g else g
  { x with groups := x.groups.map fun (n, g) => (n, f g), evicted := x.evicted.map fun (n, g, cs) => (n, f g, cs) }

/-- A resumed thread: it counts instructions from here (R221) and waits again for what it waited for. One
parked on a fault record runs its instruction again, which reports anew (R217). DEDUCED (log 68). -/
def resumeThread (t : Thread) : Thread :=
  { t with spcnt := 0, stopped := false, stopLive := none,
           park := match t.park with
             | .twbar n c => .twbar n c
             | .bar i => .bar i
             | .waite m => .waite m
             | .split w => .split w
             | .src w => .src w
             | .contained m => .contained m
             | _ => .no }

/-- What a pre-emption discards (loads) or withdraws, and the save image keeps: R220, R185, R350, R424. -/
def Body.withdrawn : Body → Bool
  | .load .. | .lds .. | .twrecv .. | .swwait .. | .qfence _ => true
  | _ => false

/-- What a light pre-emption withdraws: it waits for loads. -/
def Body.isLoad : Body → Bool
  | .load .. | .lds .. => true
  | _ => false

/-- An issued release waits for the access, and has to complete before a save (R137). -/
def releaseWaits (x : Core) (i : Item) : Bool :=
  x.items.any fun j => decide (i.id < j.id) && (match j.body with | .release .. => true | _ => false)
    && (j.of i.launch i.wid || i.also.any fun w => j.of i.launch w)

/-- An item that a pre-emption of the group takes out: its own work, and the waits of its threads, from before REGROUP moved them as
well (R424). -/
def Item.outOf (i : Item) (x : Core) (g : Group) : Bool :=
  i.body.withdrawn && !releaseWaits x i && (i.gid == g.gid || match i.body with
    | .swwait .. => g.threads.any fun t => t.live && i.of g.launch t.wid
    | _ => false)

/-- Moves work of a group into its descriptors. -/
def withdraw (s : State) (c slot : Nat) (loads : Bool) : State :=
  match groupAt s c slot with
  | none => s
  | some g =>
    let x := coreAt s c
    let out := fun (i : Item) => i.outOf x g && (loads || !i.body.isLoad)
    let s := setGroup s c slot { g with descs := g.descs ++ x.items.filter out }
    modItems s c fun xs => xs.filter fun i => !out i

/-- An item is work of the group, or an access of one of its threads from before REGROUP moved it (R137). -/
def groupWork (g : Group) (i : Item) : Bool :=
  i.gid == g.gid || ((i.body.isAccess || i.body.isInmem) && g.threads.any fun t => t.live && i.of g.launch t.wid)

/-- Everything of a group that drains has drained (R137, R162, R220). -/
def drained (x : Core) (g : Group) : Bool :=
  (x.items.all fun i => !groupWork g i || i.outOf x g) && !copiesSent x g.gid

/-- The group's work is withdrawn as its kind of pre-emption asks. -/
def stopGroup (s : State) (c slot : Nat) (loads : Bool) : State :=
  unlatch (withdraw (freeQuarter s c slot) c slot loads) c slot

/-- Fault records of a group are forgotten: its lanes run their instructions again on resume (R217). -/
def dropToks (s : State) (fn gid : Nat) : State :=
  modFn s fn fun f => { f with toks := f.toks.filter fun t => t.gid != gid }

/-- Takes a group with its shadow off its core: the group with its descriptors, and its copy journal. -/
def takeOut (s : State) (c slot : Nat) (g : Group) : Group × List (Nat × CopyCmd) × State :=
  let s := unlatch (withdraw s c slot true) c slot
  let g := (groupAt s c slot).getD g
  let (cs, x) := takeCmds (coreAt s c) g.gid
  let s := dropToks (freeQuarter (setCore s c x) c slot) g.fn g.gid
  (g, cs, modCore s c fun x =>
    { x with groups := match g.shadow with | some k => tdel (tdel x.groups slot) k | none => tdel x.groups slot })

/-! ### Bringing it back -/

/-- Registers that a saved group takes: RB and its names beyond RB, and those of its shadow (R225). -/
def groupNeed (g : Group) : Nat := g.rb + poolHeld g + (if g.shadow.isSome then g.rb else 0)

/-- Puts a saved group into slot a, with its shadow in slot b. -/
def putBack (s : State) (c a b : Nat) (g : Group) : State :=
  let g := { g with threads := g.threads.map resumeThread, since := s.now, shadow := g.shadow.map fun _ => b, hard := false }
  let s := setGroup s c a g
  if g.shadow.isSome then
    setGroup { s with nid := s.nid + 1 } c b
      { g with gid := s.nid, shadow := none, shadowOf := some a, threads := List.replicate 64 {}, regs := [], descs := [], lvq := [] }
  else s

/-- A lane stands parked at its FENCE.q until the restored entries have passed, if nothing else parks it (R350). -/
def parkFence (s : State) (c slot : Nat) (i : Item) : State :=
  modGroup s c slot fun g => modThread g i.lane fun t =>
    if t.live && t.wid == i.wid && t.park == .no then { t with park := .order (laneBit i.lane) } else t

/-- A descriptor becomes work again. A load is a new one, which no fill from before the acquire serves (R135). -/
def descItem (s : State) (c slot : Nat) (i : Item) : State :=
  let i := { i with slot := slot }
  let s := match i.body with | .qfence _ => parkFence s c slot i | _ => s
  if i.body.isLoad then
    let n := s.nid
    let s := pushItem s c i
    match itemAt s c n with
    | some i => resendLoad s c i
    | none => s
  else modItems s c fun xs => xs ++ [i]

/-- The core performs an acquire for the group, loads are sent again, and what was withdrawn waits again (R225). -/
def sendAgain (s : State) (c slot : Nat) : State :=
  match groupAt s c slot with
  | none => s
  | some g =>
    let s := resendWaiting (g.descs.foldl (fun s i => descItem s c slot i) (acquire s c)) c
    wakeSw (popTwin (modCore (modGroup s c slot fun g => { g with descs := [] }) c clearSlots) c 8) c

end Sys2Proof.Machine
end

