-- ==== Sys2Proof/Machine/EvCore.lean ====
section
/-! DEFINITION. EvCore.lean: events of a core: clauses (R41), fault answers (R216), eviction (R46,
R225), granules (R108),
table walks and translation (R88 to R93, R103 to R105, R242), regrouping (R64, R65, R207), scoreboard repair (R231),
snapshots and containment (R232, R233), clock gating (R28) and debugger reads (R226). -/
namespace Sys2Proof.Machine

/-- CLAUSE_START. -/
def execClauseStart (core q : Nat) (s : State) : Host.Outcome State Fault Refusal := .next (startClause s core q)

/-- CLOCK_GATING (R28): the cycle counter holds while gated or at retention voltage. -/
def execClockGating (core : Nat) (gated retention : Bool) (s : State) : Host.Outcome State Fault Refusal :=
  .next (modCore (rebaseCycle s core) core fun x => { x with gated := gated, retention := retention })

/-! ### Fault answers (R216, R217) -/

/-- Answers an outstanding fault: the token is spent. -/
def answerFault (s : State) (fn : Nat) (token : Word) (f : State → FaultTok → State) : State :=
  match (fnAt s fn).toks.find? fun t => BitVec.ofNat 32 t.token == token with
  | some t =>
    let s := modFn s fn fun x => { x with toks := x.toks.filter fun u => u.token != t.token }
    match groupAt s t.core t.slot with
    | some g => if g.gid = t.gid then f s t else s
    | none => s
  | none => s

/-- The lanes come back to the instruction, which checks and translates again. -/
def retryFault (s : State) (fn : Nat) (token : Word) : State :=
  answerFault s fn token fun s t => modGroup s t.core t.slot fun g =>
    modThreads g t.lanes fun th => { th with park := .no }

/-- The PAGE_FAULT goes to the handler, or the group halts (R212, R213). -/
def deliverFault (s : State) (fn : Nat) (token : Word) : State :=
  answerFault s fn token fun s t =>
    match groupAt s t.core t.slot with
    | none => s
    | some g =>
      let h := (hdrOf s g).handler
      if g.tactive ∨ h = 0 then haltGroup s t.core t.slot tcPageFault t.tpc
      else
        let run := match t.run with | some r => some r | none => (threadAt g (lowLane t.lanes)).run
        let clause := match run with | some r => r.addr | none => t.tpc
        setGroup s t.core t.slot (releaseMeets (deliver g t.lanes h t.tpc clause run ⟨tcPageFault, t.tlanes, t.tinfo⟩))

/-- The group halts. -/
def haltFault (s : State) (fn : Nat) (token : Word) : State :=
  answerFault s fn token fun s t => haltGroup s t.core t.slot tcPageFault t.tpc

/-- FRESP_RETRY. -/
def execFrespRetry (fn : Nat) (token : Word) (s : State) : Host.Outcome State Fault Refusal := .next (retryFault s fn token)
/-- FRESP_DELIVER. -/
def execFrespDeliver (fn : Nat) (token : Word) (s : State) : Host.Outcome State Fault Refusal := .next (deliverFault s fn token)
/-- FRESP_HALT. -/
def execFrespHalt (fn : Nat) (token : Word) (s : State) : Host.Outcome State Fault Refusal := .next (haltFault s fn token)

/-! ### Register-pressure eviction (R46, R225) -/

/-- A lane of the group is parked on the pool. -/
def onPool (g : Group) : Bool := g.threads.any fun t => t.live && (match t.park with | .pool .. => true | _ => false)

/-- The group to evict: one whose eviction has begun, or the youngest one parked on the pool where every group is parked and
nothing is to land. -/
def evictChoice (s : State) (c : Nat) : Option (Nat × Group) :=
  let x := coreAt s c
  let gs := x.groups.filter fun e => e.2.shadowOf.isNone
  match gs.find? fun e => e.2.hard && onPool e.2 && !stopPending s e.2 with
  | some e => some e
  | none =>
    if (gs.any fun e => !allParked s c e.1 e.2) || (x.items.any fun i => i.body.isProducer) then none
    else (gs.filter fun e => onPool e.2).foldl (fun (r : Option (Nat × Group)) e => match r with
      | some f => if f.2.born < e.2.born ∨ (f.2.born = e.2.born ∧ f.1 < e.1) then some e else r
      | none => some e) none

/-- REGISTER_PRESSURE_EVICTION: the group stops, and leaves once its stores and copies have drained. -/
def execRegisterPressureEviction (core : Nat) (s : State) : Host.Outcome State Fault Refusal :=
  .next (match evictChoice s core with
    | none => s
    | some (slot, g) =>
      let s := stopGroup (modGroup s core slot fun g => { g with hard := true }) core slot true
      if !drained (coreAt s core) g then s
      else
        let (g, cs, s) := takeOut s core slot g
        modCore s core fun x => remapGang { x with evicted := x.evicted ++ [(slot, g, cs)] } g.launch g.set slot (evictedName g))

/-- EVICTED_GROUP_RESUME: the group that has waited longest resumes once it fits, in its old slot where that is free. Groups parked
on the pool are served before it (R44). -/
def execEvictedGroupResume (core : Nat) (s : State) : Host.Outcome State Fault Refusal :=
  let x := coreAt s core
  .next (match x.evicted with
    | [] => s
    | (slot, g, cs) :: rest =>
      let place := if (tget? x.groups slot).isNone && g.shadow.isNone then some (slot, slot) else freeSlot x g.shadow.isSome
      match place with
      | none => s
      | some (a, b) =>
        if 512 * x.regGran < regsUsed x + groupNeed g || (x.groups.any fun e => onPool e.2) || !cmdRoom x cs then s
        else
          let s := modCore s core fun x => { x with evicted := rest }
          let s := putBack s core a b g
          let s := modCore s core fun x => remapGang x g.launch g.set (evictedName g) a
          sendAgain (giveCmds s core a g.gid cs) core a)

/-! ### Granules (R18, R108) -/

/-- Takes n granules from the L1, whose ways are written back and invalidated. -/
def startConversion (s : State) (c n : Nat) (spad : Bool) : State :=
  if n = 0 then s
  else
    let ways := l1Ways (coreAt s c)
    let lost := ((coreAt s c).l1Lines.filter fun e => decide (ways - n ≤ e.1 % 24)).map (·.1)
    let s := lost.foldl (fun s f => evictL1 s c f) s
    modCore s c fun x => { x with conv := x.conv ++ [⟨n, spad⟩] }

/-- A conversion is done. -/
def endConversion (s : State) (c : Nat) (v : GranConv) : State :=
  modCore s c fun x => { x with conv := x.conv.erase v, regGran := if v.spad then x.regGran else x.regGran + v.n,
                                spadGran := if v.spad then x.spadGran + v.n else x.spadGran }

/-! ### Walks and translations (R88 to R93, R103, R242) -/

/-- Adds an entry to the shared TLB of a core's die, which holds 65,536. -/
def sharedAdd (s : State) (c : Nat) (e : TlbEntry) : State :=
  let t := if isUpper c then s.tlbUp else s.tlbLo
  let t := t.filter fun f => !(f.fn == e.fn && f.proc == e.proc && f.large == e.large && f.vpn == e.vpn)
  let r := if t.length < 65536 then (e :: t, s)
    else (e :: t.eraseIdx (Config.victim t.length s.fresh % t.length), { s with fresh := s.fresh + 1 })
  if isUpper c then { r.2 with tlbUp := r.1 } else { r.2 with tlbLo := r.1 }

/-- An address of a page. -/
def pageVa (vpn : Nat) : DWord := BitVec.ofNat 64 (vpn * 2 ^ 16)

def modWalk (s : State) (n : Nat) (f : Walk → Walk) : State :=
  { s with walks := s.walks.map fun w => if w.id = n then f w else w }

/-- The prefetches of an instruction whose pages are known now are made together (R101, R395). -/
def servePrefetch (s : State) (c : Nat) (p : Nat × Bool × Nat) : State :=
  let its := (coreAt s c).items.filterMap fun i => match i.body with
    | .prefetch va l2 ins => match lookup s c i.fn (launchProc s i.launch) va false with
      | .hit e => if (i.fn, l2, ins) = p then some (i.id, va, e) else none
      | _ => none
    | _ => none
  its.foldl (fun s e => endItem s c e.1) (prefHits s c p.1 p.2.1 (its.map (·.2)))

/-- Prefetches of a core, and loads sent again, whose page is known now, or known not to be there, go on (R225, R395). -/
def serveWalks (s : State) (c : Nat) : State :=
  let its := (coreAt s c).items
  let keys := (its.filterMap fun i => match i.body with | .prefetch _ l2 ins => some (i.fn, l2, ins) | _ => none).eraseDups
  resendWaiting (its.foldl (fun s i => match i.body with
    | .prefetch va .. => if lookup s c i.fn (launchProc s i.launch) va false matches .fault _ then endItem s c i.id else s
    | .load .. => if i.walk then resendLoad s c i else s
    | _ => s) (keys.foldl (fun s p => servePrefetch s c p) s)) c

/-- A walk's entry reaches the TLBs, and the walk is over. -/
def walkDone (s : State) (w : Walk) (e : TlbEntry) : State :=
  serveWalks (tlbAdd (sharedAdd { s with walks := s.walks.filter fun v => v.id != w.id } w.core e) w.core e) w.core

/-- An instruction waits for a walk: a lane set that is to fetch, or one that keeps its quarter. -/
def walkAwaited (x : Core) (w : Walk) : Bool :=
  (x.groups.any fun e => e.2.fn == w.fn && e.2.threads.any fun t => t.live && !t.mid && pageOf t.pc false == w.vpn)
    || x.quarters.any fun q => match tget? x.groups q.2.1 with | some g => g.fn == w.fn | none => false

/-- A walk ends in PAGE_FAULT, which the instruction that waits for it reports. Prefetches and loads sent again report none. -/
def walkFailed (s : State) (w : Walk) (reason : Nat) : State :=
  let s := serveWalks (modWalk s w.id fun v => { v with st := 2, reason := reason }) w.core
  if w.core ≥ 192 || (w.pri && walkAwaited (coreAt s w.core) w) then s
  else { s with walks := s.walks.filter fun v => v.id != w.id }

/-- PAGE_WALK_COMPLETE: the shared TLB answers, or the walk runs. A host page waits for its ATS translation. -/
def execPageWalkComplete (n : Nat) (s : State) : Host.Outcome State Fault Refusal :=
  .next (match s.walks.find? fun w => w.id == n && w.st == 0 with
    | none => s
    | some w =>
      if inTransit s w.fn w.proc w.vpn then s
      else
        let shared := if isUpper w.core then s.tlbUp else s.tlbLo
        match shared.find? fun e => tlbMatch w.fn w.proc (pageVa w.vpn) e && (!w.write || e.d || !e.w) with
        | some e => walkDone s w e
        | none => match walkPage s w.fn w.proc w.vpn w.write with
          | (.bad r, s) => walkFailed s w r
          | (.leaf e _ _, s) =>
            if e.tier = 2 ∧ (fnAt s w.fn).ats then modWalk s n fun w => { w with st := 3 } else walkDone s w e)

/-- ATS_TRANSLATION_RESPONSE: the answer is cached, or a PRI request goes out, of which 256 may be outstanding. No prefetch asks
PRI (R395). -/
def execAtsTranslationResponse (n : Nat) (ok : Bool) (pa : DWord) (s : State) : Host.Outcome State Fault Refusal :=
  .next (match s.walks.find? fun w => w.id == n && w.st == 3 && w.token == 0 with
    | none => s
    | some w =>
      if !ok then
        if !w.pri then walkFailed s w 1
        else if (s.walks.filter fun v => v.st == 3 && v.token != 0).length < 256 then
          modWalk { s with nid := s.nid + 1 } n fun w => { w with token := s.nid }
        else s
      else match walkPage s w.fn w.proc w.vpn w.write with
        | (.bad r, s) => walkFailed s w r
        | (.leaf e _ _, s) => walkDone s w { e with
            vpn := w.vpn, large := false, ppn := (pa.extractLsb' 16 36).toNat,
            ats := some (e.ppn + if e.large then w.vpn % 1024 else 0) })

/-- PRI_RESPONSE: the instruction replays, or gets PAGE_FAULT, NOT_VALID. -/
def execPriResponse (fn : Nat) (token : Word) (ok : Bool) (s : State) : Host.Outcome State Fault Refusal :=
  .next (match s.walks.find? fun w => w.fn == fn && w.st == 3 && w.token != 0 && BitVec.ofNat 32 w.token == token with
    | none => s
    | some w =>
      if ok then modWalk s w.id fun w => { w with st := 0, token := 0 }
      else walkFailed s w 1)

/-! ### Invalidation (R104) -/

/-- An entry translates a page of a list. -/
def coversPage (fn proc : Nat) (pages : List Nat) (e : TlbEntry) : Bool :=
  e.fn == fn && e.proc == proc && pages.any fun p => e.vpn == (if e.large then p / 2 ^ 10 else p)

/-- Every TLB drops the entries that satisfy a test. -/
def dropEntries (s : State) (f : TlbEntry → Bool) : State :=
  { s with cores := s.cores.map fun (c, x) => (c, { x with tlb := x.tlb.filter fun e => !f e }),
           tlbLo := s.tlbLo.filter fun e => !f e, tlbUp := s.tlbUp.filter fun e => !f e }

/-- Numbers of a function's commands in a list of entries. -/
def cmdsOf (fn : Nat) (es : List CopyCmd) : List Nat :=
  es.filterMap fun e => match e with
    | .cmd id _ _ _ _ f _ _ _ _ => if f = fn then some id else none
    | .fence .. => none

/-- Copies of a function that have been accepted and have not completed, by number: in the queues, in journals, and those of its
front end, as core 192 + n (R151). -/
def copiesOf (s : State) (fn : Nat) : List (Nat × Nat) :=
  let queued := s.cores.flatMap fun e => e.2.cq.flatMap fun q => cmdsOf fn q.2
  let put := s.cores.flatMap fun e => e.2.evicted.flatMap fun g => cmdsOf fn (g.2.2.map (·.2))
  let saved := s.sets.flatMap fun x => match x.saved with | some i => cmdsOf fn (i.cmds.map (·.2)) | none => []
  ((queued ++ put ++ saved).map fun n => (0, n)) ++ (fnAt s fn).started.filterMap fun (n, y) => match y with
    | .copy .. => some (192 + fn, n)
    | _ => none

/-- Starts an invalidation. Instructions retire in the step that translates for them, so copies alone are waited for,
every accepted one of the function (log 21). -/
def startInval (s : State) (fn proc : Nat) (pages : List Nat) : Nat × State :=
  let s := dropEntries s (coversPage fn proc pages)
  (s.nid, { s with nid := s.nid + 1, invals := s.invals ++ [⟨s.nid, fn, proc, pages, [], copiesOf s fn⟩] })

/-- The invalidation waits for nothing any longer. -/
def invalReady (s : State) (v : Inval) : Bool := v.cmds.all fun p => !(copiesOf s v.fn).contains p

/-- TRANSLATION_INVALIDATE. -/
def execTranslationInvalidate (fn proc : Nat) (pages : List Nat) (s : State) : Host.Outcome State Fault Refusal :=
  .next (startInval s fn proc pages).2
/-- TRANSLATION_INVALIDATE_DONE. -/
def execTranslationInvalidateDone (n : Nat) (s : State) : Host.Outcome State Fault Refusal :=
  .next (match s.invals.find? fun v => v.id == n with
    | some v => if invalReady s v then { s with invals := s.invals.filter fun u => u.id != n } else s
    | none => s)
/-- HOST_ATS_INVALIDATE (R242): entries of host pages, in every process of the function. -/
def execHostAtsInvalidate (fn : Nat) (pages : List Nat) (s : State) : Host.Outcome State Fault Refusal :=
  .next (let s := dropEntries s fun e => e.fn == fn && match e.ats with | some p => pages.contains p | none => false
    { s with nid := s.nid + 1, invals := s.invals ++ [⟨s.nid, fn, 0, pages, [], copiesOf s fn⟩] })

/-! ### Migration (R105) -/

/-- The leaf of a page: its word and value. -/
def leafOf (s : State) (fn proc vpn : Nat) : Option (Nat × DWord × TlbEntry) × State :=
  let p := tget (fnAt s fn).procs proc {}
  match walkFrom s fn proc vpn 3 (p.root.extractLsb' 16 36).toNat p.tier with
    | (.leaf e w v, s) => (some (w, v, e), s)
    | (.bad _, s) => (none, s)

/-- MIGRATION_START: the page is marked, and its translations are invalidated. -/
def execMigrationStart (fn proc page : Nat) (tier : Nat) (ppn : Nat) (s : State) : Host.Outcome State Fault Refusal :=
  .next (if s.migration.isSome || 2 ≤ tier then s
    else match leafOf s fn proc page with
      | (some (w, v, e), s') =>
        if e.large || !v.getLsbD 23 || 2 ≤ e.tier || e.tier = tier then s
        else
          let r := startInval s' fn proc [page]
          { r.2 with migration := some ⟨fn, proc, page, tierOf w, w, tier, ppn, r.1⟩ }
      | (none, _) => s)

/-- Sectors of a 64 KiB page of a tier. -/
def pageSectors (tier ppn : Nat) : List Nat := (List.range 512).map fun i => sectorOf (wkey tier (ppn * 2 ^ 16)) + i

/-- Words that a piece of work will still write or read where they lie. -/
def itemWords (i : Item) : List Nat :=
  match i.body with
  | .merge p .. => [p.w]
  | .release (.store ps ..) .. => ps.map (·.w)
  | .release (.atomic _ w ..) .. | .atomic w .. => [w]
  | .inmem _ secs _ _ => secs.flatMap fun p => [p.1 * 16, p.2 * 16]
  | .load _ ws _ _ _ => ws
  | _ => []

/-- Nothing on its way concerns a page's words. -/
def pageQuiet (s : State) (region : Nat) : Bool :=
  (s.net.all fun m => regionOf m.w != region) && (s.recalls.all fun r => regionOf r.w != region)
    && (s.resps.all fun r => regionOf r.w != region)
    && (s.acks.all fun a => regionOf a.w != region) && (s.chans.all fun e => e.2.pend.all fun r => regionOf r.w != region)
    && s.cores.all fun e => (e.2.items.all fun i => (itemWords i).all fun w => regionOf w != region)
        && e.2.mshrs.all fun m => regionOf (m.sector * 16) != region

/-- Every core's words of a region go home, dirty ones first (log 22). -/
def flushRegion (s : State) (region : Nat) : State :=
  s.cores.foldl (fun s (c, x) =>
    ((x.l1.filter fun e => regionOf e.1 == region).foldl (fun s (w, y) =>
      let s := if y.d || y.o then
          homeAct s { writeBackMsg s c w y with fill := false }
        else s
      l1Drop s c w) s)) s

/-- One sector of a page moves: values, tags and poison, under the same key. -/
def moveSector (s : State) (key : Nat) (sector : Bool) (old new : Nat) : State :=
  let ws := wordsOfSector old
  let s := ws.foldl recallNow (drainWord s (old * 16))
  let r := ws.foldl (fun (a : List MWord × State) w =>
    let x := homeVal a.2 w key sector none false
    (a.1 ++ [x.1], x.2.2)) ([], s)
  let s := storeWords (drainWord (drainWord r.2 (old * 16)) (new * 16)) new key sector ((wordsOfSector new).zip r.1)
  let s := ws.foldl (fun s w => setHome s w {}) s
  (wordsOfSector new).foldl (fun s w => setHome s w { homeAt s w with v := false, d := false }) s

/-- MIGRATION_COMPLETE: words are forced home and copied, the leaf is rewritten, the mark is cleared. -/
def execMigrationComplete (s : State) : Host.Outcome State Fault Refusal :=
  .next (match s.migration with
    | none => s
    | some m =>
      match s.invals.find? fun v => v.id == m.inval with
      | some v =>
        match leafOf s m.fn m.proc m.page with
        | (some (w, v', e), s') =>
          let region := regionOf (wkey e.tier (e.ppn * 2 ^ 16))
          if !invalReady s v || !pageQuiet s region then s
          else
            let s := flushRegion s' region
            let s := ((pageSectors e.tier e.ppn).zip (pageSectors m.tier m.ppn)).foldl (fun s (a, b) =>
              moveSector s e.key (wholeSector s e.sector) a b) s
            let leaf := (v' &&& 0x000000000FFFFFCF) ||| (BitVec.ofNat 64 m.ppn <<< (28 : Nat)) ||| (BitVec.ofNat 64 m.tier <<< (4 : Nat))
            let s := homeWrite s w 0 m.fn (secOf w 0) 0xFF { data := leaf, tagd := false }
            { s with migration := none, invals := s.invals.filter fun u => u.id != m.inval }
        | (none, s) => { s with migration := none, invals := s.invals.filter fun u => u.id != m.inval }
      | none => { s with migration := none })

/-! ### Regrouping (R64, R65, R207) -/

/-- An entry's key is due to form (R64). `timeoutOnly` asks for the second condition alone. -/
def keyDue (s : State) (c : Nat) (timeoutOnly : Bool) (e : RegroupEntry) : Bool :=
  let x := coreAt s c
  let mine := x.regroup.filter fun f => f.launch == e.launch && f.key == e.key
  let old := mine.any fun f => decide (1024 ≤ (cycleOf s c - f.since).toNat)
  old || (!timeoutOnly && (decide (64 ≤ mine.length) ||
    !(x.groups.any fun g => g.2.launch == e.launch && g.2.shadowOf.isNone && g.2.threads.any fun t => t.live)))

/-- The threads of a new group, in order of entry (R65). What R65 does not name goes with the thread, the counts of R221 and R222
as well. DEDUCED (log 34). -/
def regroupThread (e : RegroupEntry) : Thread :=
  { present := true, wid := e.wid, pc := e.pc, depth := e.depth, spcnt := e.spcnt, npIn := e.npIn, npCnt := e.npCnt,
    wb := e.wb, wg := e.wg, wrote := e.wrote, wroteHome := e.wroteHome }

/-- Carried values in their new lanes. -/
def regroupRegs (s : State) (es : List RegroupEntry) : Tbl VReg × State :=
  let names := ((es.flatMap fun e => e.carried.map (·.1)).eraseDups)
  let ls := es.zip (List.range es.length)
  names.foldl (fun (a : Tbl VReg × State) n =>
    let r := ls.foldl (fun r (e, l) => match e.carried.find? fun v => v.1 == n with
      | some (_, w, p) => writeLane r l w p
      | none => r) (freshReg a.2.nid)
    (tset a.1 n r, { a.2 with nid := a.2.nid + 1 })) (([] : Tbl VReg), s)

/-- The entries of a key form a group, if a slot and registers are free. -/
def formKey (s : State) (c launch : Nat) (key : Word) : Option State :=
  let x := coreAt s c
  let es := (x.regroup.filter fun f => f.launch == launch && f.key == key).take 64
  match launchAt s launch, es with
  | some l, e :: _ =>
    if l.stopping || 512 * x.regGran < regsUsed x + l.hdr.rb * (if l.hdr.shadow then 2 else 1) then none
    else
      let (regs, s1) := regroupRegs s es
      let ts := es.map regroupThread
      let g : Group := { gid := 0, launch := launch, set := e.set, fn := l.fn, rb := l.hdr.rb, rx := l.hdr.rx,
                         threads := ts ++ List.replicate (64 - ts.length) {}, regs := regs, sregs := startRegs l.hdr.params,
                         formed := true }
      (placeGroup s1 c g l.hdr.shadow).map fun s =>
        let s := modCore s c fun y => { y with regroup := y.regroup.filter fun f => !es.contains f }
        ((coreAt s c).groups.map (·.1)).foldl (fun s slot => match groupAt s c slot with
          | some h => if h.launch = launch ∧ h.shadowOf = none then retireGroup s c slot else s
          | none => s) s
  | _, _ => none

/-- Of the keys that are due, the one whose oldest entry entered first and for which there is room forms a group (R64). -/
def formGroup (s : State) (c : Nat) (timeoutOnly : Bool) : State :=
  ((((coreAt s c).regroup.filter (keyDue s c timeoutOnly)).map fun e => (e.launch, e.key)).eraseDups.findSome? fun k =>
    formKey s c k.1 k.2).getD s

/-- GROUP_FORM. -/
def execGroupForm (core : Nat) (s : State) : Host.Outcome State Fault Refusal := .next (formGroup s core false)
/-- REGROUP_TIMEOUT. -/
def execRegroupTimeout (core : Nat) (s : State) : Host.Outcome State Fault Refusal := .next (formGroup s core true)

/-! ### Scoreboard repair (R231) -/

/-- SCOREBOARD_REPAIR (R231): the copies of a group's scoreboard disagree. The group waits for it. -/
def execScoreboardRepair (core slot : Nat) (s : State) : Host.Outcome State Fault Refusal :=
  .next (match groupAt s core slot with
    | none => s
    | some g =>
      if g.sb = g.sb2 then s else repairBoard s core slot g)

/-! ### Snapshots (R232) -/

/-- Words of a region. -/
def regionWords (r : Nat) : List Nat := (List.range 8192).map fun i => r * 8192 + i

/-- The copy of a region is written to its place in the arena, where a page maps it. -/
def arenaWrite (s : State) (fn proc place : Nat) (ws : List (Nat × MWord)) : State :=
  let va := (tget (fnAt s fn).procs proc {}).arena + BitVec.ofNat 64 place
  match feTrans s fn proc va true with
  | (some e, s) => (List.range 8192).foldl (fun s i =>
      homeWrite s (wkey e.tier (physOf e va) + i) e.key fn e.sector 0xFF
        (((ws.find? fun p => p.1 % 8192 == i).map (·.2)).getD {})) s
  | (none, s) => s

/-- A region is copied to the arena as it stands at its homes. Words that are zero, clean and untagged are not listed. -/
def copyRegion (y : Launch) (z : Snapshot) (s : State) : State :=
  let r := (regionWords z.region).foldl (fun (a : List (Nat × MWord) × State) w =>
    let (mw, _, s) := homeRead a.2 w z.key z.sector
    (if mw.data = 0 ∧ mw.tag = 0 ∧ mw.pois = false then a.1 else a.1 ++ [(w, mw)], s)) (([] : List (Nat × MWord)), s)
  let s := arenaWrite r.2 y.fn y.proc z.place r.1
  modLaunch s y.id fun y => { y with snaps := y.snaps.map fun u =>
    if u.id = z.id then { u with done := true, words := r.1 } else u }

/-- SNAPSHOT_COPY_DONE. -/
def execSnapshotCopyDone (n : Nat) (s : State) : Host.Outcome State Fault Refusal :=
  .next (match s.launches.findSome? fun y => (y.snaps.find? fun z => z.id == n && !z.done).map fun z => (y, z) with
    | none => s
    | some (y, z) => feTry y.fn (copyRegion y z) s)

/-! ### Debugger (R226) -/

/-- A debugger's view of a window register: of a power-gated core, the gating image. -/
def dbgWindow (s : State) (core n lane : Nat) : Word :=
  let p := podAt s (podOf core)
  let t := if isUpper core && p.upst == 2 then (match p.image with | some (w, _) => w | none => []) else (coreAt s core).win
  (tget t n []).getD lane 0

/-- TWBAR count n of a core: of a power-gated core, the gating image's. -/
def dbgTwbar (s : State) (core n : Nat) : Word :=
  let p := podAt s (podOf core)
  let t := if isUpper core && p.upst == 2 then (match p.image with | some (_, b) => b | none => []) else (coreAt s core).twb
  tget t n 0

/-- Slot n of a core: of a power-gated core, that of a set that gating saved. -/
def dbgTile (s : State) (core n : Nat) : Tile :=
  if isUpper core && (podAt s (podOf core)).upst == 2 then
    (s.sets.findSome? fun x => if x.causes.contains (causeGating, podOf core) then x.saved.bind fun i => tget? i.tiles n else none).getD {}
  else tileAt s core n

/-- A barrier of a lane's set. -/
def dbgBarrier (s : State) (g : Group) (lane n field : Nat) : Option DWord :=
  (setAt s g.launch (laneSet s g lane)).map fun x =>
    let b := tget x.bars n {}
    match field with
    | 0 => b.gen.zeroExtend 64
    | 1 => BitVec.ofNat 64 b.arr
    | _ => BitVec.ofNat 64 b.target

/-- A group as the debugger sees it: of a power-gated core, in the images of the sets that gating saved. -/
def dbgGroup (s : State) (core slot : Nat) : Option Group :=
  if isUpper core && (podAt s (podOf core)).upst == 2 then
    s.sets.findSome? fun x => if x.causes.contains (causeGating, podOf core) then
      x.saved.bind fun i => (i.groups.find? fun e => e.1 == slot).map (·.2) else none
  else groupAt s core slot

/-- The issue of a lane set that does nothing, for reading a core's registers. -/
def dbgCur (core slot : Nat) : Cur :=
  { core := core, slot := slot, lanes := 0, pc := 0, word := 0, lit := 0, next := 0, last := false, op := 0,
    run := ⟨0, ⟨false, false, false, false, false, 0, 0, false, 0⟩, []⟩ }

/-- What a debugger reads. A memory word that is wrong is read as every reader reads it, and counts, repairs and records nothing: R226
over R118. DESIGN CHOICE (log 143). -/
def dbgRead (s : State) (t : DbgTarget) : Option DWord :=
  match t with
  | .memory tier word =>
    let w := wkey tier (8 * word)
    some (homeRead s w (homeAt s w).key (homeAt s w).sector).1.data
  | .register core slot name lane =>
    ((dbgGroup s core slot).bind fun g => vreg? g name).map fun r => (r.val.getD lane 0).zeroExtend 64
  | .uniform core slot name => (dbgGroup s core slot).map fun g => (sregAt g name).val.zeroExtend 64
  | .pc core slot lane => (dbgGroup s core slot).map fun g => (threadAt g lane).pc
  | .window core n lane => some ((dbgWindow s core n lane).zeroExtend 64)
  | .full core slot name => ((dbgGroup s core slot).bind fun g => vreg? g name).map (·.full)
  | .poison core slot name => ((dbgGroup s core slot).bind fun g => vreg? g name).map (·.pois)
  | .predicate core slot n => (dbgGroup s core slot).map fun g => maskOf fun l => predBit g n l
  | .join core slot n => (dbgGroup s core slot).map fun g => (jmaskAt g n).a
  | .scoreboard core slot => (dbgGroup s core slot).map fun g => maskOf fun i => (tget? g.sb i).isSome
  | .system core slot lane n => (dbgGroup s core slot).map fun g => sysRead s (dbgCur core slot) g lane n
  | .scratch core slot lane off => (dbgGroup s core slot).bind fun g => (setAt s g.launch (laneSet s g lane)).map fun x =>
      (spadAt x.spad (off / 8)).data
  | .tile core n off => some (wordOfBytes (((dbgTile s core n).data.drop (8 * off)).take 8))
  | .pathCode core slot path n => (dbgGroup s core slot).map fun g => (tget g.ptabs (path * 16 + n) 0xC0).zeroExtend 64
  | .path core slot lane => (dbgGroup s core slot).map fun g => (threadAt g lane).path.zeroExtend 64
  | .expected core slot n => (dbgGroup s core slot).map fun g => (jmaskAt g n).e
  | .held core slot => (dbgGroup s core slot).map fun g => maskOf (heldAny g)
  | .parked core slot => (dbgGroup s core slot).map fun g => maskOf fun l => (threadAt g l).live && (threadAt g l).park != .no
  | .fifo core i lane => ((coreAt s core).fifo[i]?).map fun v => (v.getD lane 0).zeroExtend 64
  | .twbar core n => some ((dbgTwbar s core n).zeroExtend 64)
  | .barrier core slot lane n field => (dbgGroup s core slot).bind fun g => dbgBarrier s g lane n field

/-- DEBUG_READ: the answer is set down, and nothing else changes. -/
def execDebugRead (t : DbgTarget) (s : State) : Host.Outcome State Fault Refusal := .next { s with dbg := dbgRead s t }

end Sys2Proof.Machine
end

