-- ==== Sys2Proof/Machine/EvPreempt.lean ====
section
/-! DEFINITION. EvPreempt.lean: where work may be placed (R18, R33, R108, R198, R225, R236, R237, R249); pre-emption, save
images and restore (R137, R171, R180, R188, R220 to R225, R350, R424); containment (R229 to R235). -/
namespace Sys2Proof.Machine

/-! ### Partitions and windows (R198, R236, R237) -/

/-- Physical cluster of a logical one, and back. -/
def physCluster (s : State) (l : Nat) : Nat := tget s.cmap l l
def logCluster (s : State) (p : Nat) : Nat := ((List.range 24).find? fun l => physCluster s l == p).getD 0

/-- A function's partition includes a physical cluster. -/
def ownsCluster (s : State) (fn p : Nat) : Bool :=
  let f := fnAt s fn
  f.pen && decide (f.pbase ≤ logCluster s p) && decide (logCluster s p ≤ f.plimit)

/-- Functions that share a cluster, ascending (R198). -/
def sharers (s : State) (p : Nat) : List Nat := (List.range (s.numVfs + 1)).filter fun n => ownsCluster s n p

/-- Function that holds a cluster now. With time left in the period after the last window, none does (log 24). -/
def windowHolder (s : State) (p : Nat) : Option Nat :=
  match sharers s p with
  | [] => none
  | [f] => some f
  | fs => fs[(tget s.windows p {}).holder]?

/-- A core that is there, and in a function's partition and window. -/
def coreOwned (s : State) (fn c : Nat) : Bool :=
  decide (c < 192) && (s.full || decide (c < 96)) && (!isUpper c || (podAt s (podOf c)).upst == 0)
    && ownsCluster s fn (clusterOf c) && windowHolder s (clusterOf c) == some fn

/-- The core's cluster is being swapped (R238). -/
def inSwap (s : State) (c : Nat) : Bool :=
  match s.defSwap with
  | some (a, b, _) => clusterOf c == physCluster s a || clusterOf c == physCluster s b
  | none => false

/-- A core that a function may use now. -/
def coreUsable (s : State) (fn c : Nat) : Bool := coreOwned s fn c && !inSwap s c

/-! ### Room (R18, R108) -/

/-- Whether a core has room: now, after a conversion of L1 granules to register and scratchpad storage, or not. -/
inductive Room where
  | ready
  | convert (reg spad : Nat)
  | full
deriving DecidableEq, Repr

/-- Room on a core for registers and scratchpad units. DEDUCED (log 78). -/
def roomFor (s : State) (c regs units : Nat) : Room :=
  let x := coreAt s c
  let r := regGranules (regsUsed x + regs)
  let p := spadGranules (unitsUsed s c + units)
  if r ≤ x.regGran ∧ p ≤ x.spadGran then .ready
  else if r ≤ 12 ∧ p ≤ 8 ∧ max r x.regGran + max p x.spadGran ≤ 22 then .convert (r - x.regGran) (p - x.spadGran)
  else .full

/-- Starts the conversions that a waiting set needs, beyond those under way. -/
def convertFor (s : State) (c r p : Nat) : State :=
  let under := fun (b : Bool) => (coreAt s c).conv.foldl (fun n v => if v.spad = b then n + v.n else n) 0
  startConversion (startConversion s c (r - under false) false) c (p - under true) true

/-! ### VF reset, its start (R243) -/

/-- Takes the commands of a function's groups out of the copy queues, with their journals. -/
def dropCopies (s : State) (fn : Nat) : State :=
  let gids := s.cores.flatMap fun e => e.2.groups.filterMap fun g => if g.2.fn = fn then some g.2.gid else none
  let keep := fun (e : CopyCmd) => match e with
    | .cmd _ _ _ _ _ f _ _ _ _ => f != fn
    | .fence _ g _ _ => !gids.contains g
  { s with cores := s.cores.map fun (c, x) => (c, { x with cq := x.cq.map fun (q, es) => (q, es.filter keep) }) }

/-- A reset starts: the front end reads nothing more, and every started launch of it is to end ABORTED, reason 4. -/
def beginReset (s : State) (fn : Nat) : State :=
  let s := modFn s fn fun f => { f with
    resetting := true, resetAsked := false, toks := [], chosen := none
    started := f.started.filter fun e => match e.2 with | .copy .. => false | _ => true }
  let stopL := fun (l : Launch) => if l.fn = fn then { l with stopping := true, aborted := some 4 } else l
  let s := { s with launches := s.launches.map stopL }
  let here := s.cores.flatMap fun (e : Nat × Core) =>
    (e.2.groups.filter fun g => g.2.fn == fn && g.2.shadowOf.isNone).map fun g => (e.1, g.1)
  dropCopies (here.foldl (fun s (c, slot) => unlatch (withdraw (freeQuarter s c slot) c slot true) c slot) s) fn

/-! ### Swapping clusters (R238) -/

/-- A swap moves on: with both clusters empty CMAP is exchanged, and with every set restored the swap is over.
DEDUCED (log 85). -/
def swapStep (s : State) : State :=
  let s := match s.defSwap with
    | some (a, b, false) =>
      let pa := physCluster s a
      let pb := physCluster s b
      if s.cores.any fun e => (clusterOf e.1 == pa || clusterOf e.1 == pb) && (!e.2.groups.isEmpty || !e.2.evicted.isEmpty) then s
      else { s with defSwap := some (a, b, true), cmap := tset (tset s.cmap a pb) b pa,
                    windows := tset (tset s.windows pa (tget s.windows pb {})) pb (tget s.windows pa {}) }
    | _ => s
  match s.defSwap with
  | some (_, _, true) =>
    if s.sets.any fun x => x.saved.isSome && x.causes.any fun c => c.1 == causeDefrag then s
    else
      let waits := (s.fns.filter fun e => e.2.resetAsked).map (·.1)
      waits.foldl beginReset { s with defSwap := none }
  | _ => s

/-! ### Sets that go together -/

/-- Sets whose threads share a group formed by REGROUP with a set of the list are saved and restored with it (log 25). -/
def linkedSets (groupsOf : List (Nat × Group)) (sets : Group → List Nat) (fuel : Nat) (ns : List Nat) : List Nat :=
  match fuel with
  | 0 => ns
  | n + 1 =>
    let more := (groupsOf.filter fun e => e.2.formed && (sets e.2).any ns.contains).flatMap fun e => sets e.2
    linkedSets groupsOf sets n (ns ++ more).eraseDups

/-- Groups of a launch on a core, those evicted there included, shadows left out. -/
def launchGroups (x : Core) (launch : Nat) : List (Nat × Group) :=
  (x.groups.filter fun e => e.2.launch == launch && e.2.shadowOf.isNone)
    ++ (x.evicted.map fun e => (e.1, e.2.1)).filter fun e => e.2.launch == launch

/-- Sets of the threads that a group still runs. -/
def liveSets (s : State) (g : Group) : List Nat :=
  if g.formed then ((g.threads.filter fun t => t.live).map fun t => setOfWid (hdrOf s g) t.wid).eraseDups else [g.set]

/-- The sets that are saved with a set on its core. -/
def saveUnit (s : State) (launch set c : Nat) : List Nat :=
  linkedSets (launchGroups (coreAt s c) launch) (liveSets s) 64 [set]

/-- Groups of sets on a core. -/
def unitGroups (s : State) (launch c : Nat) (ns : List Nat) : List (Nat × Group) :=
  (launchGroups (coreAt s c) launch).filter fun e => (liveSets s e.2).any ns.contains

/-! ### Stopping (R220) -/

/-- The group stops at its next instruction boundary. -/
def hardGroup (s : State) (g : Group) : Bool :=
  g.hard || (groupSets s g).any fun n => match setAt s g.launch n with | some x => x.stop == .hard | none => false

/-- A lane that counts as stopped under light pre-emption: it stands at a safe point, is held at a meet, is in a parked
split set, parked at a WAITE (R440), waits at a barrier (R323, R435), stands in the latch, from which its MMA is withdrawn (log 26), or is kept from
issuing by the handler, at whose safe points the group stops (R212, R213). -/
def lightStop (g : Group) (l : Nat) : Bool :=
  let t := threadAt g l
  t.stopped || heldAny g l || (g.tactive && !g.handler.getLsbD l) || match t.park with
    | .split .. | .waite _ | .bar _ | .twbar .. | .latch => true
    | _ => false

/-- Groups of sets in slots of a core. -/
def unitSlots (s : State) (launch c : Nat) (ns : List Nat) : List (Nat × Group) :=
  ((coreAt s c).groups.filter fun e => e.2.launch == launch && e.2.shadowOf.isNone).filter fun e => (liveSets s e.2).any ns.contains

/-- HARD_PREEMPTION: groups that a request stops hard let their quarter go, loads are discarded, and MMAs in the latch,
TWRECV, SWWAIT and queue fences are withdrawn. -/
def execHardPreemption (launch set : Nat) (s : State) : Host.Outcome State Fault Refusal :=
  .next (match (setAt s launch set).bind (·.core) with
    | none => s
    | some c => (unitSlots s launch c [set]).foldl (fun s (slot, g) =>
        if hardGroup s g then stopGroup s c slot true else s) s)

/-- LIGHT_PREEMPTION: a group whose lanes have all come to a stop, none inside a region, stays stopped. -/
def execLightPreemption (launch set : Nat) (s : State) : Host.Outcome State Fault Refusal :=
  .next (match setAt s launch set with
    | none => s
    | some x => match x.core with
      | none => s
      | some c =>
        if x.stop != .light then s
        else (unitSlots s launch c [set]).foldl (fun s (slot, g) =>
          if hardGroup s g || inRegion g || (lanesOf (liveMask g)).any (fun l => !lightStop g l) then s
          else stopGroup (setGroup s c slot (modThreads g (liveMask g) fun t => { t with stopped := true })) c slot false) s)

/-! ### Saving (R171, R180, R188, R224) -/

/-- A group is ready for its save image. Under light pre-emption loads are waited for. -/
def groupSavable (s : State) (c : Nat) (g : Group) : Bool :=
  groupStopped s g && drained (coreAt s c) g
    && (hardGroup s g || (groupItems (coreAt s c) g.gid).all fun i => !i.body.isLoad)

/-- Names that a save image holds: those of the LIVE masks where every lane stopped at a safe point (R220). -/
def keepLive (g : Group) : Group :=
  let ts := g.threads.filter (·.live)
  if ts.all fun t => t.stopLive.isSome then
    let m := ts.foldl (fun m t => m ||| t.stopLive.getD 0) (0 : BitVec 32)
    { g with regs := g.regs.filter fun e => m.getLsbD (e.1 / 4) }
  else g

/-- Poison of a slot as an image holds it, per unit of 2 bytes. -/
def pairPoison : List Bool → List Bool
  | a :: b :: r => (a || b) :: (a || b) :: pairPoison r
  | r => r

/-- Commands of a list in the order in which they were accepted. -/
def byNumber (cs : List (Nat × CopyCmd)) : List (Nat × CopyCmd) :=
  cs.foldl (fun r e =>
    (r.takeWhile fun f => decide (cmdNum f.2 ≤ cmdNum e.2)) ++ e :: (r.dropWhile fun f => decide (cmdNum f.2 ≤ cmdNum e.2))) []

/-- A core that holds the licence and no group any longer hands over (R179). -/
def leaveLicence (s : State) (c : Nat) : State :=
  if holdsLic s c && (coreAt s c).groups.isEmpty then startHandover s (podOf c) (isUpper c) else s

/-- Takes the groups of a save unit off their core, evicted ones included. -/
def takeGroups (s : State) (c : Nat) (gs : List (Nat × Group)) : List (Nat × Group) × List (Nat × CopyCmd) × State :=
  gs.foldl (fun (a : List (Nat × Group) × List (Nat × CopyCmd) × State) (slot, g) =>
    match (coreAt a.2.2 c).evicted.find? fun e => e.2.1.gid == g.gid with
    | some (_, _, cs) =>
      (a.1 ++ [(evictedName g, g)], a.2.1 ++ cs,
        modCore a.2.2 c fun x => { x with evicted := x.evicted.filter fun e => e.2.1.gid != g.gid })
    | none =>
      let (g, cs, s) := takeOut a.2.2 c slot g
      (a.1 ++ [(slot, keepLive g)], a.2.1 ++ cs, s)) (([] : List (Nat × Group)), ([] : List (Nat × CopyCmd)), s)

/-- Bytes that a group takes in a save image, its shadow beside it (R224). -/
def groupBytes (g : Group) : Nat :=
  let loads := g.descs.filter fun i => i.body.isLoad
  let waits := g.descs.filter fun i => match i.body with | .swwait .. => true | _ => false
  let own := 256 * g.regs.length + 2048 + g.staged.foldl (fun n r => n + 4 * r.words.length) 0
    + 32 * (g.threads.filter (·.present)).length
  own * (if g.shadow.isSome then 2 else 1) + 16 * ((loads.map (·.op)).eraseDups).length + 8 * loads.length + 16 * waits.length

/-- Bytes of a set's image (R224). -/
def imageBytes (units : Nat) (i : SavedSet) : Nat :=
  i.groups.foldl (fun n e => n + groupBytes e.2) 0 + 4096 * units + 32768 * i.tiles.length + 1024
    + i.regroup.foldl (fun n e => n + 32 + 4 * e.carried.length) 0
    + i.cmds.foldl (fun n e => n + 64 + 8 * (((cmdUnits e.2).length + 63) / 64)) 0

/-- A dirty word that the core does not own goes home with its rank, and is clean from then on. -/
def sendDirty (s : State) (c w : Nat) : State :=
  match l1At (coreAt s c) w with
  | none => s
  | some x =>
    if !x.d || x.o then s
    else
      let s := homeAct (recallNow (serveFirst (drainNet s c w) w) w) (writeBackMsg s c w x)
      match l1At (coreAt s c) w with
      | some x => l1Set! s c w { l1Dirty x with d := false, rank := none, by_ := [] }
      | none => s

/-- The stores of a save unit's threads drain to their homes, where their ranks stay with the words: the threads may resume on another
core, and read there what they wrote (R131, R137, R220). DEDUCED (log 144). -/
def drainStores (s : State) (l : Launch) (c : Nat) (ns : List Nat) : State :=
  let own := (unitGroups s l.id c ns).flatMap fun e => e.2.threads.flatMap fun t => if t.present then t.wrote else []
  let kept := ((coreAt s c).regroup.filter fun r => r.launch == l.id && ns.contains r.set).flatMap (·.wrote)
  ((own ++ kept).eraseDups).foldl (fun s w => sendDirty s c w) s

/-- The saved link state of a pod set counts in the image of the set that was saved last, 12,320 bytes (R224). -/
def countLink (s : State) (l : Launch) (n : Nat) : State :=
  if s.savedLinks.any fun e => e.1 == (l.id, podSetOf l.hdr n) then
    modSet s l.id n fun y => { y with saved := y.saved.map fun i => { i with size := i.size + 12320 } }
  else s

/-- Writes the image of a save unit, and frees what it held. The image stands as a record of its set: the spec gives no place in
memory and no key for it. DESIGN CHOICE (log 126). -/
def saveSets (s : State) (l : Launch) (c : Nat) (ns : List Nat) : State :=
  let held := holdsLic s c
  let s := drainStores s l c ns
  let (gs, cs, s) := takeGroups s c (unitGroups s l.id c ns)
  let s := ns.foldl (fun s n =>
    let x := coreAt s c
    let mine := gs.filter fun e => (liveSets s e.2).headD e.2.set == n
    let img : SavedSet :=
      { groups := mine
        tiles := (x.tiles.filter fun e => e.2.claim == some (l.id, n)).map fun (k, t) => (k, { t with pois := pairPoison t.pois })
        cmds := byNumber (cs.filter fun e => mine.any fun g => g.2.gid == cmdGid e.2)
        regroup := x.regroup.filter fun r => r.launch == l.id && r.set == n
        held := held }
    let s := modCore s c fun x =>
      releaseTiles { x with regroup := x.regroup.filter fun r => !(r.launch == l.id && r.set == n) } (podClock s (podOf c)) fun _ t => t.claim == some (l.id, n)
    modSet s l.id n fun y =>
      { y with core := none, stop := .none, saved := some { img with size := imageBytes y.units img } }) s
  leaveLicence (ns.foldl (fun s n =>
    let t := saveLink s l c (podSetOf l.hdr n)
    if t.savedLinks.length = s.savedLinks.length then t else countLink t l n) s) c

/-- A thermal move is under way on a core of a pod. -/
def thermalPending (s : State) (p : Nat) : Bool :=
  s.sets.any fun x => (x.core == some p || x.core == some (p + 96)) && x.causes.contains (causeThermal, p)

/-- Sets a pod's clock divider, with the cycle counters taken over. -/
def setThrottle (s : State) (p n : Nat) : State :=
  modPod (rebaseCycle (rebaseCycle s p) (p + 96)) p fun q => { q with throttle := n, clk := podClock s p, clkAt := s.now }

/-- A sensor of the pod stands at the limit or above. DEDUCED (log 75). -/
def overLimit (q : Pod) : Bool := decide ((q.limit.toNat : Int) ≤ q.tup.toInt) || decide ((q.limit.toNat : Int) ≤ q.tlo.toInt)

/-- The full clock returns once the move is complete and the sensors read below the limit (R223). -/
def unthrottle (s : State) (p : Nat) : State :=
  if (podAt s p).throttle != 0 && !overLimit (podAt s p) && !thermalPending s p then setThrottle s p 0 else s

/-- SAVE_IMAGE_COMPLETE: the groups have stopped and drained. -/
def execSaveImageComplete (launch set : Nat) (s : State) : Host.Outcome State Fault Refusal :=
  .next (match launchAt s launch, (setAt s launch set).bind (·.core) with
    | some l, some c =>
      let ns := saveUnit s launch set c
      let asked := ns.all fun n => match setAt s launch n with | some x => x.stop != .none && x.core == some c | none => false
      if l.stopping || !asked || (l.hdr.twin && !(coreAt s c).link.isEmpty)
          || ((coreAt s c).groups.any fun e => e.2.launch == launch && e.2.shadowOf.isNone && (liveSets s e.2).any ns.contains
                && !groupSavable s c e.2) then s
      else swapStep (unthrottle (saveSets s l c ns) (podOf c))
    | _, _ => s)

/-! ### Restoring (R171, R180, R188, R225) -/

/-- Saved groups of a launch. -/
def savedGroups (s : State) (launch : Nat) : List (Nat × Group) :=
  s.sets.flatMap fun x => if x.launch = launch then (match x.saved with | some i => i.groups | none => []) else []

/-- The sets that are restored with a set onto its core. -/
def restoreUnit (s : State) (launch set : Nat) : List Nat :=
  linkedSets (savedGroups s launch) (liveSets s) 64 [set]

/-- The causes of a set's pre-emption let it resume on a core (R220, R225, R238). -/
def causesAllow (s : State) (l : Launch) (x : CoSet) (c : Nat) : Bool :=
  x.causes.all fun (k, v) =>
    if k = causeThermal then podOf c != v
    else if k = causeDefrag then c == v
    else if k = causeGating ∧ l.hdr.twin ∧ (podAt s v).holder = some (l.id, podSetOf l.hdr x.set) then c == v + 96
    else true

/-- A core's pod can take a set of a TWIN launch: the right side, and the pod that its pod set holds, or a free one. -/
def twinAllows (s : State) (l : Launch) (set c : Nat) : Bool :=
  !l.hdr.twin || (isUpper c == (set % 2 == 1) &&
    (let me := some (l.id, podSetOf l.hdr set)
     (podAt s (podOf c)).holder == me || ((podAt s (podOf c)).holder.isNone && s.pods.all fun p => p.2.holder != me)))

/-- Saved images of sets. -/
def imagesOf (s : State) (launch : Nat) (ns : List Nat) : List (CoSet × SavedSet) :=
  (s.sets.filter fun x => x.launch == launch && ns.contains x.set).filterMap fun x => x.saved.map fun i => (x, i)

/-- Registers and units that images need. -/
def imageRegs (is : List (CoSet × SavedSet)) : Nat :=
  is.foldl (fun n e => n + e.2.groups.foldl (fun n g => n + groupNeed g.2) 0) 0
def imageUnits (is : List (CoSet × SavedSet)) : Nat := is.foldl (fun n e => n + e.1.units) 0

/-- The swap that a core's cluster takes part in brings the set back to this core. -/
def swapBack (s : State) (x : CoSet) (c : Nat) : Bool :=
  (match s.defSwap with | some (_, _, done) => done | none => false) && x.causes.contains (causeDefrag, c)

/-- Everything but room lets sets come back to a core. -/
def mayRestore (s : State) (l : Launch) (ns : List Nat) (c : Nat) : Bool :=
  let is := imagesOf s l.id ns
  !l.stopping && coreOwned s l.fn c && (!inSwap s c || is.all fun e => swapBack s e.1 c) && is.length == ns.length
    && (is.all fun (x, i) => causesAllow s l x c && twinAllows s l x.set c && i.tiles.all fun (n, _) =>
      (tileAt s c n).claim.isNone && !(tileAt s c n).clearing)
    && cmdRoom (coreAt s c) (is.flatMap fun e => e.2.cmds)

/-- Groups come back to free slots of a core; `none` where they do not fit. Answers old and new slots. -/
def placeSaved (s : State) (c : Nat) (gs : List (Nat × Group)) : Option (List (Nat × Nat) × State) :=
  gs.foldl (fun (a : Option (List (Nat × Nat) × State)) (slot, g) => a.bind fun (m, s) =>
    (freeSlot (coreAt s c) g.shadow.isSome).map fun (p, q) => (m ++ [(slot, p)], putBack s c p q g)) (some ([], s))

/-- Sets of a unit come back to a core, if their groups find slots. -/
def restoreSets (s : State) (l : Launch) (ns : List Nat) (c : Nat) : Option State :=
  let is := imagesOf s l.id ns
  let gs := is.flatMap fun e => e.2.groups
  (placeSaved s c gs).map fun (m, s) =>
    let slotOf := fun (n : Nat) => ((m.find? fun e => e.1 == n).map (·.2)).getD n
    let s := is.foldl (fun s (x, i) =>
      let s := modSet s l.id x.set fun y => { y with core := some c, saved := none, stop := .none, causes := [] }
      let s := i.tiles.foldl (fun s (n, t) => modTile s c n fun _ => t) s
      let s := modCore s c fun y => { y with regroup := y.regroup ++ i.regroup }
      let s := if i.held then modPod s (podOf c) fun p => if isUpper c then { p with priorUp := true } else { p with priorLo := true }
        else s
      i.cmds.foldl (fun s (q, e) =>
        let slot := ((gs.find? fun g => g.2.gid == cmdGid e).map fun g => slotOf g.1).getD 0
        giveCmds s c slot (cmdGid e) [(q, e)]) s) s
    gs.foldl (fun s (n, _) => sendAgain (modGroup s c (slotOf n) (renameGang slotOf)) c (slotOf n)) s

/-- Writes a saved link state into a pod (R188). -/
def restoreLink (s : State) (l : Launch) (p ps : Nat) : State :=
  match s.savedLinks.find? fun e => e.1 == (l.id, ps) with
  | none => s
  | some (_, k) =>
    let put := fun (c : Nat) (w : Tbl (List Word)) (f : List (List Word)) (b : Tbl Word) (s : State) =>
      modCore s c fun x => { x with win := w, crossed := w, fifo := f, twb := b, link := [] }
    let s := put (p + 96) k.winUp k.fifoUp k.twbUp (put p k.winLo k.fifoLo k.twbLo s)
    modPod { s with savedLinks := s.savedLinks.filter fun e => e.1 != (l.id, ps) } p fun q => { q with holder := some (l.id, ps) }

/-- The units that come back together: under TWIN, with a saved link state, both halves of the pod set. -/
def restorePlan (s : State) (l : Launch) (set c : Nat) : List (List Nat × Nat) :=
  let ps := podSetOf l.hdr set
  if l.hdr.twin && s.savedLinks.any fun e => e.1 == (l.id, ps) then
    let halves := s.sets.filter fun x => x.launch == l.id && podSetOf l.hdr x.set == ps && x.saved.isSome
    halves.map fun x => ([x.set], if x.set % 2 = set % 2 then c else twinOf c)
  else [(restoreUnit s l.id set, c)]

/-- Sets can come back to a core now. -/
def canRestore (s : State) (l : Launch) (set c : Nat) : Bool :=
  (restorePlan s l set c).all fun (ns, c) =>
    mayRestore s l ns c && roomFor s c (imageRegs (imagesOf s l.id ns)) (imageUnits (imagesOf s l.id ns)) == .ready
      && (placeSaved s c ((imagesOf s l.id ns).flatMap fun e => e.2.groups)).isSome

/-- RESTORE: a saved set, or pod set, resumes on a core. Where granules have to be converted first, that starts. -/
def execRestore (launch set core : Nat) (s : State) : Host.Outcome State Fault Refusal :=
  .next (match launchAt s launch with
    | none => s
    | some l =>
      let plan := restorePlan s l set core
      if canRestore s l set core then
        swapStep ((plan.foldl (fun (a : Option State) (ns, c) => a.bind fun s => restoreSets s l ns c)
          (some (restoreLink s l (podOf core) (podSetOf l.hdr set)))).getD s)
      else plan.foldl (fun s (ns, c) =>
        if !mayRestore s l ns c then s
        else match roomFor s c (imageRegs (imagesOf s launch ns)) (imageUnits (imagesOf s launch ns)) with
          | .convert r p => convertFor s c r p
          | _ => s) s)

/-! ### Containment (R233, R234, R235) -/

/-- A copy command of a launch. -/
def cmdLaunchOf : CopyCmd → Option Nat
  | .cmd _ _ _ l .. => some l
  | .fence .. => none

/-- Nothing of a stopped launch is on its way any longer: its stores, atomics, in-memory operations and sent copies. -/
def launchDrained (s : State) (n : Nat) : Bool :=
  (s.net.all fun m => !m.launch.contains n) && s.cores.all fun (_, x) =>
    (x.items.all fun i => i.launch != n || i.body.withdrawn)
      && (x.groups.all fun e => e.2.launch != n || !copiesSent x e.2.gid)
      && x.evicted.all fun e => e.2.1.launch != n || !copiesSent x e.2.1.gid

/-- Takes everything of a launch off the device: groups, work, journals, slots, link states, images. Nothing of it runs
again unless the launch is replayed. -/
def clearLaunch (s : State) (n : Nat) : State :=
  let gids := (s.cores.flatMap fun e => (e.2.groups.map fun g => g.2) ++ e.2.evicted.map fun e => e.2.1).filterMap fun g =>
    if g.launch = n then some g.gid else none
  let hit := s.cores.filterMap fun e => if e.2.groups.any fun g => g.2.launch == n then some e.1 else none
  let s := hit.foldl (fun s c => ((coreAt s c).groups.map (·.1)).foldl (fun s slot =>
    match groupAt s c slot with
    | some g => if g.launch = n then unlatch (freeQuarter s c slot) c slot else s
    | none => s) s) s
  let s := { s with cores := s.cores.map fun (c, x) =>
    let x := releaseTiles x (podClock s (podOf c)) fun _ t => match t.claim with | some (l, _) => l == n | none => false
    (c, { x with
      groups := x.groups.filter fun e => e.2.launch != n
      evicted := x.evicted.filter fun e => e.2.1.launch != n
      regroup := x.regroup.filter fun r => r.launch != n
      items := x.items.filter fun i => i.launch != n
      cq := x.cq.map fun (e : Nat × List CopyCmd) =>
        (e.1, e.2.filter fun c => cmdLaunchOf c != some n && !gids.contains (cmdGid c)) }) }
  let s := s.pods.foldl (fun (s : State) (e : Nat × Pod) => match e.2.holder with
    | some (l, _) => if l = n then clearLink s e.1 else s
    | none => s) s
  let drop := fun (f : Fn) => { f with toks := f.toks.filter fun t => !gids.contains t.gid }
  let s := { s with sets := s.sets.filter fun x => x.launch != n, savedLinks := s.savedLinks.filter fun e => e.1.1 != n,
                    fns := s.fns.map fun e => (e.1, drop e.2) }
  hit.foldl leaveLicence s

/-- A snapshot goes back to its region: no copy of a word stays valid anywhere or comes to be, and ranks and owners are
cleared. -/
def putSnapshot (s : State) (z : Snapshot) : State :=
  let inR := fun (w : Nat) => regionOf w == z.region
  let late := fun (m : Mshr) => if inR (m.sector * 16) then
    { m with asks := m.asks.map fun a => { a with ro := false, stale := some (a.stale.getD s.nid) } } else m
  let l1 := fun (x : Core) => { x with l1 := x.l1.filter fun e => !inR e.1, mshrs := x.mshrs.map late }
  let pend := fun (c : Chan) => { c with pend := c.pend.filter fun r => !(inR r.w && !r.wr.isEmpty) }
  let s := { s with cores := s.cores.map fun e => (e.1, l1 e.2), home := s.home.filter fun e => !inR e.1,
                    chans := s.chans.map fun e => (e.1, pend e.2),
                    net := s.net.map fun m => if inR m.w then { m with mem := none, ask := 0 } else m }
  (List.range 512).foldl (fun s i =>
    let sec := z.region * 512 + i
    storeWords s sec z.key true ((wordsOfSector sec).map fun w =>
      (w, ((z.words.find? fun e => e.1 == w).map (·.2)).getD {}))) s

/-- Regions of the arena go back when a launch's snapshots are freed (R232). -/
def freeSnaps (s : State) (l : Launch) : State :=
  modLaunch (l.snaps.foldl (fun s z => arenaGive s l.fn l.proc (z.place, 65536)) s) l.id fun l => { l with snaps := [] }

/-- Completion TAG of a launch: its command's, 0 for one without. -/
def launchTag (l : Launch) : DWord := match l.origin with | .cmd _ tag => tag | _ => 0

/-- Why a launch cannot be rolled back (R233). -/
def abortReason (l : Launch) : Option Nat :=
  if !l.hdr.replay then some 1 else if l.nonReplay then some 2 else if 2 ≤ l.replays then some 3 else none

/-- A containment record (R234). -/
def containRecord (l : Launch) (core slot src : Nat) (lanes : Mask) : FaultRec :=
  let code := if src = 1 then 0x0A else 0
  let out := if (abortReason l).isSome then 2 else 1
  ⟨BitVec.ofNat 64 (3 + code * 2 ^ 8 + src * 2 ^ 16 + out * 2 ^ 24 + l.replays * 2 ^ 26), launchTag l, lanes,
    BitVec.ofNat 64 (core * 2 ^ 32 + slot * 2 ^ 40)⟩

/-- CONTAINMENT. The launch stops; once everything it sent has drained, the record is written and the launch is rolled
back or aborted. DEDUCED (log 69). -/
def execContainment (launch core slot src : Nat) (lanes : Mask) (s : State) : Host.Outcome State Fault Refusal :=
  .next (match launchAt s launch with
    | none => s
    | some l =>
      if l.aborted.isSome || !l.contain.contains (core, slot, src, lanes) then s
      else
        let s := modLaunch s launch fun l => { l with stopping := true }
        if !launchDrained s launch then s
        else
          let s := queueRecord s l.fn (containRecord l core slot src lanes)
          let s := modCore s core fun x => { x with contn := satInc x.contn }
          let s := clearLaunch s launch
          match abortReason l with
          | some r => swapStep (modLaunch s launch fun l => { l with aborted := some r, stopping := false, contain := [] })
          | none =>
            let s := l.snaps.foldl (fun s z => if z.done then putSnapshot s z else s) s
            swapStep (modLaunch s launch fun l => { l with
              stopping := false, contain := [], replays := l.replays + 1, halted := none }))

end Sys2Proof.Machine
end

