-- ==== Sys2Proof/Machine/EvFront.lean ====
section
/-! DEFINITION. EvFront.lean: events of the front ends: arbitration (R198), commands (R193 to R195), admission (R33, R35,
R108), completion (R136, R196), graph replays (R205, R206), batches (R203), windows (R197, R198). -/
namespace Sys2Proof.Machine

/-! ### Commands (R194) -/

/-- A command, by its eight words. -/
structure Cmd where
  ws : List DWord
deriving DecidableEq, Repr

def Cmd.w (c : Cmd) (i : Nat) : DWord := c.ws.getD i 0
def Cmd.typ (c : Cmd) : Nat := bitsOf (c.w 0) 0 8
/-- MOD[8], the one bit of MOD that some types use. -/
def Cmd.mod (c : Cmd) : Bool := (c.w 0).getLsbD 8
def Cmd.a (c : Cmd) : DWord := c.w 1
def Cmd.b (c : Cmd) : DWord := c.w 2
def Cmd.len (c : Cmd) : Nat := bitsOf (c.w 3) 0 32
def Cmd.tk (c : Cmd) : Nat := bitsOf (c.w 3) 32 12
def Cmd.tag (c : Cmd) : DWord := c.w 4

/-- A command that R194 lets start: nothing is set that is reserved, or that the table gives no use of for the command's type.
DEDUCED (log 128). -/
def Cmd.ok (c : Cmd) : Bool :=
  bitsOf (c.w 0) 9 55 == 0 && bitsOf (c.w 3) 44 20 == 0 && (c.ws.drop 5).all (fun x => x == 0) && c.ws.length == 8 &&
  match c.typ with
  | 1 => !c.mod && c.a.toNat % 128 == 0 && c.b == 0 && c.len == 0 && c.tk == 0
  | 2 => !c.mod && c.len == 0
  | 3 => c.len != 0 && c.len % 8 == 0
  | 4 => c.a == 0 && c.b == 0
  | 5 => !c.mod && c.b == 0 && c.len == 0 && c.tk == 0
  | _ => false

/-- The command at a queue's head. One that cannot be read is a bad command with TAG 0 (log 30). -/
def headOf (s : State) (fn q : Nat) : Cmd × State :=
  let x := queueAt s fn q
  let r := procReads s fn x.proc (x.base + BitVec.ofNat 64 (64 * (x.head.toNat % 2 ^ x.log2n))) 8
  (⟨r.1.getD []⟩, r.2)

/-! ### Graph objects (R205, R206) -/

/-- NTASK, CONC, PBLK, PSIZE of a graph object, and counter and header of each task. -/
structure GraphObj where
  n : Nat
  conc : Bool
  pblk : DWord
  psize : Nat
  tasks : List (Word × DWord)
deriving DecidableEq, Repr

def readGraph (s : State) (fn proc : Nat) (va : DWord) : Option GraphObj × State :=
  match procReads s fn proc va 4 with
  | (none, s) => (none, s)
  | (some h, s) =>
    let n := bitsOf (h.getD 0 0) 0 12
    match procReads s fn proc (va + 32) (2 * n) with
    | (none, s) => (none, s)
    | (some ws, s) =>
      (some ⟨n, (h.getD 0 0).getLsbD 16, h.getD 1 0, bitsOf (h.getD 2 0) 0 32,
        (List.range n).map fun t => ((ws.getD (2 * t) 0).extractLsb' 0 32, ws.getD (2 * t + 1) 0)⟩, s)

/-- A replay that can be made at all (log 30). -/
def graphOk (c : Cmd) (g : GraphObj) : Bool :=
  c.a.toNat % 64 == 0 && decide (0 < g.n) && decide (c.tk + g.n ≤ 4096)
    && (c.b == 0 || (g.psize % 8 == 0 && decide (g.psize ≤ 65536)))

/-- A replay waits before it starts: for an earlier one of its object, for one whose range overlaps, or for the arena. -/
def replayWaits (s : State) (fn proc : Nat) (c : Cmd) (g : GraphObj) : Bool :=
  ((fnAt s fn).started.any fun e => match e.2 with
    | .replay _ _ ob _ b n _ _ p _ => (ob == c.a && p == proc && !g.conc) || (decide (b < c.tk + g.n) && decide (c.tk < b + n))
    | _ => false)
  || (c.b != 0 && (arenaFit s fn proc g.psize 8).isNone)

/-! ### What may start (R193, R195, R196) -/

/-- The front end may start commands. -/
def fnLive (s : State) (fn : Nat) : Bool :=
  decide (fn ≤ s.numVfs) && (fnAt s fn).pen && !(fnAt s fn).resetting && !s.recov

/-- The head of a queue is startable. -/
def startable (s : State) (fn q : Nat) : Bool :=
  let x := queueAt s fn q
  fnLive s fn && x.en && (tget (fnAt s fn).procs x.proc {}).v && x.head != x.tail && x.fenced.isNone && cqRoom x &&
  (let c := (headOf s fn q).1
   if !c.ok then true
   else if c.typ = 1 then
     let r := (readHeader s fn x.proc c.a).1
     r.2 == 8 || cqRoom (queueAt s fn r.1.cq)
   else if c.typ = 2 then
     match (readGraph s fn x.proc c.a).1 with
     | some g => !graphOk c g || !replayWaits s fn x.proc c g
     | none => true
   else true)

/-- A launch that has executed ENQ for the node runs. -/
def fed (s : State) (fn node : Nat) : Bool :=
  s.launches.any fun l => l.fn == fn && l.proc == (nodeAt s fn node).proc && l.enqNodes.contains node

/-- Since when a node's next batch has been startable without being chosen (R198, R203). -/
def batchSince (s : State) (fn node : Nat) : Nat :=
  let y := nodeAt s fn node
  let old := y.times.headD s.now
  let due := match y.times[2 ^ y.blog - 1]? with
    | some t => t
    | none => if fed s fn node then old + 65536 else min (old + 65536) (max y.idleAt old)
  max y.waitFrom due

/-- Records of a node's next batch: a full region, or what it holds once it has waited long enough or no launch that may
add to it runs (R203). -/
def batchSize (s : State) (fn node : Nat) (timeout : Bool) : Option Nat :=
  let y := nodeAt s fn node
  let k := y.wr - y.rd
  let old := match y.times with | t :: _ => decide (t + 65536 ≤ s.now) | [] => false
  if !y.en || k = 0 then none
  else if 2 ^ y.blog ≤ k then some (2 ^ y.blog)
  else if (timeout && old) || !fed s fn node then some k
  else none

/-- The template of a node's launches. -/
def nodeHeader (s : State) (fn node : Nat) : LHeader := (readHeader s fn (nodeAt s fn node).proc (nodeAt s fn node).hdr).1.1

def effOf (prio waited : Nat) : Nat := min 15 (prio + waited / 2 ^ 20)

/-- eff of a queue's startable head (R198). -/
def queueEff (s : State) (x : Queue) : Nat := effOf x.prio (x.waited + (s.now - x.waitFrom))

/-- What of a process may start, each with its eff. What would write into a full completion ring does not (R196). DEDUCED
(log 99). -/
def candidatesOf (s : State) (fn p : Nat) : List (Nat × Pick) :=
  let f := fnAt s fn
  let room := fun (h : LHeader) => cqRoom (queueAt s fn h.cq)
  ((f.queues.filter fun e => e.2.proc == p && startable s fn e.1).map fun e => (queueEff s e.2, Pick.queue e.1))
  ++ (if fnLive s fn then
      (f.tasks.filterMap fun e => match e.2.due with
        | d :: _ => if d.proc = p ∧ (room d.h || !(queueAt s fn d.h.cq).en) then some (effOf d.h.prio (s.now - d.since), Pick.task e.1)
          else none
        | [] => none)
      ++ (f.nodes.filter fun e => e.2.proc == p && (batchSize s fn e.1 true).isSome && room (nodeHeader s fn e.1)).map fun e =>
        (effOf (nodeHeader s fn e.1).prio (s.now - batchSince s fn e.1), Pick.batch e.1)
    else [])

/-- The heads that one step has made startable count their wait from now on, and those that it has stopped keep what they have
waited (R198). -/
def rewait (old s : State) (fn : Nat) : State :=
  ((fnAt s fn).queues.map (·.1)).foldl (fun s q =>
    match startable old fn q, startable s fn q with
    | false, true => modQueue s fn q fun x => { x with waitFrom := s.now }
    | true, false => modQueue s fn q fun x =>
        if x.head = (queueAt old fn q).head then { x with waited := x.waited + (s.now - x.waitFrom), waitFrom := s.now } else x
    | _, _ => s) s

/-- The one of highest eff. Among queues at one level the turn goes round from the queue after the last one chosen there;
tasks and batches come behind queues (log 31). -/
def bestOf (s : State) (fn : Nat) (cs : List (Nat × Pick)) : Option (Nat × Pick) :=
  let top := cs.foldl (fun m e => max m e.1) 0
  let last := tget (fnAt s fn).lastQ top 63
  let key : Nat × Pick → Nat := fun (e : Nat × Pick) => match e.2 with
    | .queue q => (q + 63 - last) % 64
    | .task n => 64 + n
    | .batch n => 8192 + n
    | .placing n => 16384 + n
  (cs.filter fun e => e.1 == top).foldl (fun (r : Option (Nat × Pick)) e => match r with
    | some f => if key e < key f then some e else r
    | none => some e) none

/-! ### Launches that await room (R33, R35, R108, R198) -/

/-- Sets of a launch that have been admitted. -/
def admittedCount (s : State) (l : Launch) : Nat := (s.sets.filter fun x => x.launch == l.id).length

def awaiting (s : State) (l : Launch) : Bool :=
  l.aborted.isNone && !l.stopping && decide (admittedCount s l < setTotal l.hdr)

/-- The lowest set that has not been admitted. -/
def nextSet (s : State) (l : Launch) : Nat :=
  ((List.range (admittedCount s l + 1)).find? fun n => (setAt s l.id n).isNone).getD 0

/-- Where the sets placed together with a set go. -/
def admitPlan (l : Launch) (set c : Nat) : List (List Nat × Nat) :=
  if l.hdr.twin then
    [(sideSets l.hdr (podSets l.hdr set) false, podOf c), (sideSets l.hdr (podSets l.hdr set) true, podOf c + 96)].filter fun e =>
      !e.1.isEmpty
  else [([set], c)]

/-- The group at a place of a set, as it starts (R6, R30, R31, R38). -/
def newGroup (l : Launch) (set i : Nat) : Group :=
  let wid := fun (lane : Nat) => set * l.hdr.per + 64 * i + lane
  { gid := 0, launch := l.id, set := set, fn := l.fn, rb := l.hdr.rb, rx := l.hdr.rx, sregs := startRegs l.hdr.params,
    threads := (List.range 64).map fun lane =>
      if wid lane < l.hdr.n then { present := true, wid := BitVec.ofNat 64 (wid lane), pc := l.hdr.entry } else {} }

/-- Groups of sets take slots of a core in ascending wid order; `none` where slots are lacking. -/
def placeSets (s : State) (l : Launch) (ns : List Nat) (c : Nat) : Option State :=
  (ns.flatMap fun n => (List.range (setGroupCount l.hdr n)).map fun i => newGroup l n i).foldl (fun (a : Option State) g =>
    a.bind fun s => placeGroup s c g l.hdr.shadow) (some s)

/-- A core's twin runs a launch with MATRIX set. -/
def twinMatrix (s : State) (c : Nat) : Bool :=
  (coreAt s (twinOf c)).groups.any fun e => (hdrOf s e.2).matrix

/-- Everything but registers and scratchpad lets a launch's sets go to a core (and its twin). DEDUCED (log 77). -/
def mayAdmit (s : State) (l : Launch) (set c : Nat) : Bool :=
  awaiting s l && decide (set < setTotal l.hdr) && (podSets l.hdr set).all (fun n => (setAt s l.id n).isNone)
    && (!l.hdr.twin || (podAt s (podOf c)).holder.isNone)
    && (admitPlan l set c).all fun (ns, d) => coreUsable s l.fn d && (coreAt s d).evicted.isEmpty && (placeSets s l ns d).isSome

/-- Room for a plan: on all its cores, or after conversions. -/
def planRoom (s : State) (l : Launch) (set c : Nat) (now : Bool) : Bool :=
  (admitPlan l set c).all fun (ns, d) => match roomFor s d (regsNeed l.hdr ns) (unitsNeed l.hdr ns) with
    | .ready => true
    | .convert .. => !now
    | .full => false

/-- A launch can place a set on a core, granules to be converted included. -/
def canPlace (s : State) (l : Launch) (c : Nat) : Bool := mayAdmit s l (nextSet s l) c && planRoom s l (nextSet s l) c false

/-- The launch of a process that awaits room and comes first: highest eff, earliest started. -/
def topWaiting (s : State) (fn p : Nat) : Option Launch :=
  (s.launches.filter fun l => l.fn == fn && l.proc == p && awaiting s l).foldl (fun (r : Option Launch) l => match r with
    | some m => if m.eff < l.eff ∨ (m.eff = l.eff ∧ (l.started < m.started ∨ (l.started = m.started ∧ l.id < m.id))) then some l
      else r
    | none => some l) none

/-! ### Arbitration (R198) -/

/-- The process has work: it belongs to P. -/
def hasWork (s : State) (fn p : Nat) : Bool := (topWaiting s fn p).isSome || !(candidatesOf s fn p).isEmpty

/-- Processes of P in the order of their VT. Background processes count only where no other has work. -/
def processOrder (s : State) (fn : Nat) : List Nat :=
  let ps := (List.range 16).filter (hasWork s fn)
  let at0 := fun p => tget (fnAt s fn).procs p {}
  let ps := if ps.any fun p => 0 < (at0 p).weight then ps.filter fun p => 0 < (at0 p).weight else ps
  ps.foldl (fun r p =>
    (r.takeWhile fun q => decide ((at0 q).vt ≤ (at0 p).vt)) ++ p :: (r.dropWhile fun q => decide ((at0 q).vt ≤ (at0 p).vt))) []

/-- A core that the function may use has room: a free group slot, and registers for the smallest group. DEDUCED (log 99). -/
def hasRoom (s : State) (fn c : Nat) : Bool :=
  coreUsable s fn c && (freeSlot (coreAt s c) false).isSome && roomFor s c 8 0 != .full

/-- What the front end does next, where `place` says which launch can place a set. A process whose launch cannot passes its
turn on. Answers the level with it. -/
def pickWith (s : State) (fn : Nat) (place : Launch → Bool) : Option (Nat × Pick) :=
  if !(List.range 192).any (hasRoom s fn) then none
  else (processOrder s fn).findSome? fun p => match topWaiting s fn p with
    | some l => if place l then some (l.eff, .placing l.id) else none
    | none => bestOf s fn (candidatesOf s fn p)

def pick (s : State) (fn : Nat) : Option (Nat × Pick) := pickWith s fn fun l => (List.range 192).any (canPlace s l)

/-- A process that had no work and has some now joins P at the least VT of the others (R198). -/
def joinP (s : State) (fn : Nat) : State :=
  let ps := (List.range 16).filter (hasWork s fn)
  let vt := fun p => (tget (fnAt s fn).procs p {}).vt
  (List.range 16).foldl (fun s p =>
    let x := tget (fnAt s fn).procs p {}
    let now := ps.contains p
    if x.inP = now then s
    else
      let others := (ps.filter fun q => q != p).map vt
      let v := match others with | [] => x.vt | a :: r => max x.vt (r.foldl min a)
      modFn s fn fun f => { f with procs := tset f.procs p { x with inP := now, vt := if now then v else x.vt } }) s

/-- A launch that cannot place a set asks for the light pre-emption of groups of lower PRIO, one set of the function at a time:
lowest PRIO first, then the launch started last, then the youngest group (R198). DEDUCED (log 76). -/
def priorityStop (s : State) (fn : Nat) (l : Launch) : State :=
  if s.sets.any fun x => x.stop != .none && x.causes.contains (causePriority, 0)
      && (match launchAt s x.launch with | some l => l.fn == fn | none => false) then s
  else
    let gs := (List.range 192).flatMap fun c => ((coreAt s c).groups.filter fun e => e.2.fn == fn && e.2.shadowOf.isNone
        && decide ((hdrOf s e.2).prio < l.hdr.prio)
        && (match setAt s e.2.launch e.2.set with | some x => x.stop == .none | none => false)).map fun e => (e.1, e.2)
    let key := fun (e : Nat × Group) => match launchAt s e.2.launch with
      | some m => (m.hdr.prio, m.started, m.id, e.2.born, e.1)
      | none => (16, 0, 0, 0, 0)
    let before := fun (a b : Nat × Nat × Nat × Nat × Nat) =>
      if a.1 ≠ b.1 then decide (a.1 < b.1) else if a.2.1 ≠ b.2.1 then decide (b.2.1 < a.2.1)
      else if a.2.2.1 ≠ b.2.2.1 then decide (b.2.2.1 < a.2.2.1)
      else if a.2.2.2.1 ≠ b.2.2.2.1 then decide (b.2.2.2.1 < a.2.2.2.1) else decide (b.2.2.2.2 < a.2.2.2.2)
    match gs.foldl (fun (r : Option (Nat × Group)) e => match r with
      | some f => if before (key e) (key f) then some e else r
      | none => some e) none with
    | some (_, g) => requestStop s g.launch g.set false (causePriority, 0)
    | none => s

/-- Launches that cannot place a set, of every process that has work, ask for room. -/
def priorityStops (s : State) (fn : Nat) : State :=
  ((processOrder s fn).filterMap (topWaiting s fn)).foldl (fun s l =>
    if (List.range 192).any (canPlace s l) then s else priorityStop s fn l) s

/-- What has become startable begins to wait, and processes that have work now join P, while those that have none leave it (R198). -/
def madeWork (old s : State) (fn : Nat) : State := joinP (rewait old s fn) fn

/-- A turn of a front end: processes that have work join P, before what it does and after it, and heads that it makes startable begin to
wait. -/
def feTurn (fn : Nat) (f : State → State) (s : State) : State := madeWork s (f (joinP s fn)) fn

/-- A front end takes its turn, which waits whole where a translation or a word is missing. -/
def feStep (fn : Nat) (f : State → State) (s : State) : State := feTry fn (feTurn fn f) s

/-- Notes the choice of a queue at its level, and lets its head go. -/
def headDone (s : State) (fn q eff : Nat) : State :=
  let s := modQueue s fn q fun x => { x with head := x.head + 1, waitFrom := s.now, waited := 0 }
  modFn { s with booted := true } fn fun f => { f with chosen := none, lastQ := tset f.lastQ eff q }

/-- The oldest due launch of a task starts. -/
def startTask (s : State) (fn n eff : Nat) : State :=
  let t := tget (fnAt s fn).tasks n {}
  match t.due with
  | d :: rest =>
    let s := modFn { s with booted := true } fn fun f => { f with tasks := tset f.tasks n { t with due := rest }, chosen := none }
    startLaunch s fn d.proc d.hdr d.h (.task n d.replay) eff
  | [] => s

/-- The choice that stands: the last arbitration's while it holds, or a new one. -/
def choice (s : State) (fn : Nat) : Option (Nat × Pick) :=
  match (fnAt s fn).chosen with
  | some (.queue q) => if startable s fn q then some (queueEff s (queueAt s fn q), .queue q) else pick s fn
  | _ => pick s fn

/-- Starts the head of the chosen queue, if it is of a kind. A bad command gets its entry, and the queue moves on. -/
def startHead (fn : Nat) (kind : Cmd → Bool) (act : State → Nat → Queue → Cmd → Nat → State) (s : State) : State :=
  match choice s fn with
  | some (eff, .queue q) =>
    let x := queueAt s fn q
    let (c, s') := headOf s fn q
    if !kind c then s
    else
      let s := headDone s' fn q eff
      if !c.ok then sendEntry s fn { q := q, tag := c.tag, status := stBadCommand } else act s q x c eff
  | _ => s

/-! ### Commands that start -/

/-- A launch command starts. A TYPE that is reserved is turned away here too. -/
def launchWork (fn : Nat) : State → State :=
  startHead fn (fun c => c.typ == 1 || c.typ == 0 || decide (5 < c.typ)) fun s q x c eff =>
    let ((h, r), s) := readHeader s fn x.proc c.a
    if r ≠ 0 then rejectLaunch s fn c.a h (.cmd q c.tag) r
    else startLaunch s fn x.proc c.a h (.cmd q c.tag) eff

/-- CMD_LAUNCH (R37, R195). -/
def execCmdLaunch (fn : Nat) (s : State) : Host.Outcome State Fault Refusal := .next (feStep fn (launchWork fn) s)

/-- A parameter block is copied to the arena, and the patch list applied to the copy (R205). What a patch would write beyond the
block is left out. DEDUCED (log 127). -/
def patchBlock (s : State) (fn proc : Nat) (g : GraphObj) (list at0 : DWord) : State :=
  let s := match procReads s fn proc g.pblk (g.psize / 8) with
    | (some ws, s) => procWrites s fn proc at0 ws
    | (none, s) => s
  match procRead s fn proc list with
  | (none, s) => s
  | (some n, s) => (List.range n.toNat).foldl (fun s i =>
      match procReads s fn proc (list + BitVec.ofNat 64 (8 + 16 * i)) 2 with
      | (some [off, v], s) => if off.toNat + 8 ≤ g.psize then procPatch s fn proc (at0 + off) v else s
      | (_, s) => s) s

/-- A replay starts: its task entries are loaded, launches of theirs that are due already stay due (R204), and tasks whose counter starts
at zero are due. -/
def replayStart (fn : Nat) : State → State :=
  startHead fn (fun c => c.typ == 2) fun s q x c _ =>
    match readGraph s fn x.proc c.a with
    | (some g, s) =>
      if !graphOk c g then sendEntry s fn { q := q, tag := c.tag, status := stBadCommand }
      else
        let id := s.nid
        let s := { s with nid := s.nid + 1 }
        let u := if c.b = 0 then none else (arenaFit s fn x.proc g.psize 8).map fun o => (o, g.psize)
        let block := match u with
          | some (o, _) => (tget (fnAt s fn).procs x.proc {}).arena + BitVec.ofNat 64 o
          | none => g.pblk
        let s := match u with
          | some e => patchBlock (arenaTake s fn x.proc e) fn x.proc g c.b block
          | none => s
        let ix := List.range g.n
        let s := modFn s fn fun f =>
          { f with started := tset f.started id (.replay q c.tag c.a g.conc c.tk g.n (ix.map fun t => c.tk + t) u x.proc block),
                   tasks := (g.tasks.zip ix).foldl (fun ts (e, t) =>
                     tset ts (c.tk + t) { counter := e.1, hdr := e.2, proc := x.proc, replay := some id,
                                          due := (tget ts (c.tk + t) {}).due }) f.tasks }
        (g.tasks.zip ix).foldl (fun s (e, t) => if e.1 = 0 then taskDue s fn (c.tk + t) else s) s
    | (none, s) => sendEntry s fn { q := q, tag := c.tag, status := stBadCommand }

/-- CMD_GRAPH_REPLAY (R205, R206). -/
def execCmdGraphReplay (fn : Nat) (s : State) : Host.Outcome State Fault Refusal := .next (feStep fn (replayStart fn) s)

/-- The pieces of a front end's copy, each inside one source word and one destination word. -/
def copyPieces (fn proc : Nat) : Nat → DWord → DWord → Nat → State → Option (List CopyUnit) × State
  | 0, _, _, _, s => (some [], s)
  | fuel + 1, src, dst, len, s =>
    if len = 0 then (some [], s)
    else
      let so := src.toNat % 8
      let d0 := dst.toNat % 8
      let n := min len (min (8 - so) (8 - d0))
      match feTrans s fn proc src false with
      | (none, s) => (none, s)
      | (some a, s) => match feTrans s fn proc dst true with
        | (none, s) => (none, s)
        | (some b, s) =>
          if !b.w then (none, s)
          else
            let u : CopyUnit := { dst := .home (wkey b.tier (physOf b dst)) d0 n, srcW := wkey a.tier (physOf a src), srcOff := so,
                                  run := 0, key := a.key, sec := a.sector, dkey := b.key, dsec := b.sector }
            match copyPieces fn proc fuel (src + BitVec.ofNat 64 n) (dst + BitVec.ofNat 64 n) (len - n) s with
            | (some us, s) => (some (u :: us), s)
            | (none, s) => (none, s)

/-- A copy starts. One whose addresses do not translate is a bad command (log 30). -/
def copyStart (fn : Nat) : State → State :=
  startHead fn (fun c => c.typ == 3) fun s q x c _ =>
    match copyPieces fn x.proc c.len c.a c.b c.len s with
    | (some us, s) =>
      modFn { s with nid := s.nid + 1 } fn fun f =>
        { f with started := tset f.started s.nid (.copy q c.tag us (if c.mod then some c.tk else none) x.proc) }
    | (none, s) => sendEntry s fn { q := q, tag := c.tag, status := stBadCommand }

/-- CMD_COPY (R195). -/
def execCmdCopy (fn : Nat) (s : State) : Host.Outcome State Fault Refusal := .next (feStep fn (copyStart fn) s)

/-- A signal command starts, and is over: it counts a task entry down, or sets it. -/
def signalWork (fn : Nat) (sets : Bool) : State → State :=
  startHead fn (fun c => c.typ == 4 && c.mod == sets) fun s q _ c _ =>
    sendEntry (if sets then setTask s fn c.tk (BitVec.ofNat 32 c.len) else decTask s fn c.tk) fn { q := q, tag := c.tag, status := stDone }

/-- CMD_SIGNAL_DECREMENT and CMD_SIGNAL_SET (R194, R204). -/
def execCmdSignalDecrement (fn : Nat) (s : State) : Host.Outcome State Fault Refusal := .next (feStep fn (signalWork fn false) s)
def execCmdSignalSet (fn : Nat) (s : State) : Host.Outcome State Fault Refusal := .next (feStep fn (signalWork fn true) s)

/-- Commands of the queues of a mask that have started and not completed. -/
def openOf (s : State) (fn : Nat) (mask : DWord) : List Nat :=
  (s.launches.filterMap fun l => match l.origin with
    | .cmd q _ => if l.fn = fn ∧ mask.getLsbD q then some l.id else none
    | _ => none)
  ++ (fnAt s fn).started.filterMap fun e => match e.2 with
    | .copy q .. | .replay q .. | .fence q .. => if mask.getLsbD q then some e.1 else none

/-- A fence starts: it waits for what stands open in its queues, and its own queue waits for it. -/
def fenceStart (fn : Nat) : State → State :=
  startHead fn (fun c => c.typ == 5) fun s q _ c _ =>
    let before := openOf s fn (c.a ||| (1 : DWord) <<< q)
    let s := modFn { s with nid := s.nid + 1 } fn fun f =>
      { f with started := tset f.started s.nid (.fence q c.tag c.a before) }
    modQueue s fn q fun x => { x with fenced := some (s.nid - 1) }

/-- CMD_FENCE (R195). -/
def execCmdFence (fn : Nat) (s : State) : Host.Outcome State Fault Refusal := .next (feStep fn (fenceStart fn) s)

/-! ### Completion -/

/-- A started command is over. -/
def endStarted (s : State) (fn n : Nat) : State := modFn s fn fun f => { f with started := tdel f.started n }

/-- A fence is over once what it waits for is. -/
def endFence (fn n : Nat) (s : State) : State :=
  match tget? (fnAt s fn).started n with
  | some (.fence q tag _ before) =>
    if before.any fun i => (launchAt s i).isSome || (tget? (fnAt s fn).started i).isSome then s
    else sendEntry (modQueue (endStarted s fn n) fn q fun x => { x with fenced := none }) fn
      { q := q, tag := tag, status := stDone }
  | _ => s

/-- CMD_FENCE_COMPLETE. -/
def execCmdFenceComplete (fn n : Nat) (s : State) : Host.Outcome State Fault Refusal := .next (feStep fn (endFence fn n) s)

/-- A replay is over once its tasks are. -/
def endReplay (fn n : Nat) (s : State) : State :=
  match tget? (fnAt s fn).started n with
  | some (.replay q tag _ _ _ _ [] u p _) =>
    let s := match u with | some u => arenaGive s fn p u | none => s
    sendEntry (endStarted s fn n) fn { q := q, tag := tag, status := stDone }
  | _ => s

/-- GRAPH_REPLAY_COMPLETE. -/
def execGraphReplayComplete (fn n : Nat) (s : State) : Host.Outcome State Fault Refusal := .next (feStep fn (endReplay fn n) s)

/-- The function of a queue's head command. -/
def headFn (s : State) (c q : Nat) : Nat :=
  match headCmd s c q with
  | some (.cmd _ _ _ _ _ fn _ _ _ _) => fn
  | _ => 0

/-- A front end's copy is over: every word has landed. -/
def endCopy (s : State) (fn n : Nat) : State :=
  match tget? (fnAt s fn).started n with
  | some (.copy k tag us t _) =>
    if us.any fun u => !u.landed then s
    else
      let s := endStarted s fn n
      let s := match t with | some n => decTask s fn n | none => s
      sendEntry s fn { q := k, tag := tag, status := stDone }
  | _ => s

/-- COPY_COMPLETE: of a core's command (R158, R159, R317), or of a front end's (R195). -/
def execCopyComplete (core q : Nat) (s : State) : Host.Outcome State Fault Refusal :=
  .next (if core < 192 then feStep (headFn s core q) (fun s => completeCmd s core q) s
    else feStep (core - 192) (fun s => endCopy s (core - 192) q) s)

/-- Every set of a launch has ended, or it was aborted. A containment that is due comes first. -/
def launchOver (s : State) (l : Launch) : Bool :=
  !l.stopping && (l.aborted.isSome || (l.contain.isEmpty &&
    (admittedCount s l == setTotal l.hdr && s.sets.all fun x => x.launch != l.id || x.done)))

/-- Nothing of a launch is on its way: its messages, its work in cores, its copies. -/
def launchQuiet (s : State) (n : Nat) : Bool :=
  (s.net.all fun m => !m.launch.contains n) && s.cores.all fun (_, x) =>
    (x.items.all fun i => i.launch != n) && x.cq.all fun e => e.2.all fun c => cmdLaunchOf c != some n

/-- Words of peers that a launch's stores wrote are settled there by rank clears, which the front end sends (R136, R147). -/
def clearRemote (s : State) (l : Launch) : State :=
  modLaunch (l.remote.foldl (fun s w =>
    if lostWord s w then s
    else
      let c := 192 + l.fn
      let it : Item := { id := s.nid, op := 0, gid := 0, slot := 0, lane := 0, fn := l.fn, launch := l.id, body := .homeStore w }
      sendRemote (modItems { s with nid := s.nid + 1 } c fun xs => xs ++ [it]) c 0 0 it.id w opWrite 0 0 none) s) l.id fun l =>
    { l with remote := [] }

/-- The words that a launch dirtied go home, those of other launches among them (R136). -/
def flushLaunch (s : State) (n : Nat) : State :=
  s.cores.foldl (fun s (c, x) => (x.l1.filter fun e => e.2.by_.contains n).foldl (fun s (w, y) =>
    l1Set! (writeBack s c w y) c w { l1Dirty y with d := false, o := false, rank := none, by_ := [] }) s) s

/-- The words that a launch's writes left at home are settled: no rank stays, and host words reach the host (R93). -/
def settleLaunch (s : State) (n : Nat) : State :=
  (s.home.filter fun e => e.2.by_.contains n).foldl (fun s e =>
    hostSettle (setHome s e.1 { homeAt s e.1 with rank := none, by_ := [] }) e.1) s

/-- STATUS, REASON and INFO of a launch's entry (R196, R213, R233). -/
def launchStatus (l : Launch) : Nat × Nat × DWord :=
  match l.aborted, l.halted with
  | some r, _ => (stAborted, r, 0)
  | none, some (code, pc) => (stFault, 0, code ++ pc.extractLsb' 0 56)
  | none, none => (stDone, 0, 0)

/-- What the completion of a launch sets off. -/
def finishLaunch (s : State) (l : Launch) : State :=
  let (st, r, info) := launchStatus l
  let s := freeSnaps s l
  let s := { s with launches := s.launches.filter fun m => m.id != l.id, sets := s.sets.filter fun x => x.launch != l.id }
  let s := l.enqNodes.foldl (fun s n => modNode s l.fn n fun y => { y with idleAt := s.now }) s
  let entry := fun (tag : DWord) (s : State) => sendEntry s l.fn { q := l.hdr.cq, tag := tag, status := st, reason := r, info := info }
  let s := match l.origin with
    | .cmd _ tag => entry tag s
    | .task n rep =>
      let s := if (queueAt s l.fn l.hdr.cq).en then entry 0 s else s
      match rep with
      | none => s
      | some i => modFn s l.fn fun f => { f with started := f.started.map fun e => (e.1, if e.1 = i then (match e.2 with
          | .replay q t ob c b k left a p pb => .replay q t ob c b k (left.filter fun m => m != n) a p pb
          | y => y) else e.2) }
    | .batch node region => modNode (entry 0 s) l.fn node fun y => { y with busy := y.busy.filter fun b => b != region }
  if l.hdr.ctv then decTask s l.fn l.hdr.ctask else s

/-! ### VF reset, its end (R243) -/

/-- A launch of a function in reset is taken off the device once it has drained, and what it dirtied goes home. -/
def abortLaunch (s : State) (l : Launch) : State :=
  if launchDrained s l.id then flushLaunch (clearLaunch s l.id) l.id else s

/-- A launch of a function in reset ends: settled, with its entry where its ring has room. -/
def abortEntry (s : State) (l : Launch) : State :=
  let s := freeSnaps (settleLaunch s l.id) l
  let s := { s with launches := s.launches.filter fun m => m.id != l.id }
  let x := queueAt s l.fn l.hdr.cq
  let tells := match l.origin with | .task .. => x.en | _ => true
  if tells && cqRoom x && !((fnAt s l.fn).entries.any fun e => e.q == l.hdr.cq) then
    putEntry s l.fn { q := l.hdr.cq, tag := launchTag l, status := stAborted, reason := 4 }
  else s

/-- The registers that the PF and the host set for a function, which its reset leaves. DEDUCED (log 87). -/
def Fn.keep (f : Fn) : Fn :=
  { period := f.period, quantum := f.quantum, qraised := f.qraised, qsum := f.qsum, qzero := f.qzero, pen := f.pen,
    pbase := f.pbase, plimit := f.plimit, pbad := f.pbad, cmask := f.cmask, l2mask := f.l2mask, ats := f.ats }

/-- A reset moves on. With every launch quiet, every remote operation answered or dropped and no page of the function in
migration, the notices go out, the launches end, and the front end returns to its reset values. -/
def resetStep (s : State) (fn : Nat) : State :=
  if !(fnAt s fn).resetting then s
  else
    let mine := fun (s : State) => s.launches.filter fun l => l.fn == fn
    let s := swapStep ((mine s).foldl abortLaunch s)
    if (mine s).any (fun l => !launchDrained s l.id || !launchQuiet s l.id) || (s.rreqs.any fun r => r.fn == fn)
        || (match s.migration with | some m => m.fn == fn | none => false) then s
    else feTry fn (fun s =>
      let s := (List.range 64).foldl (fun s d => if d = s.devid then s
        else sendTo s d 0 4 [BitVec.ofNat 64 fn, (1 : DWord) <<< (63 : Nat) ||| 1, 0]) s
      let s := (mine s).foldl abortEntry s
      modFn { s with walks := s.walks.filter fun w => w.fn != fn } fn Fn.keep) s

/-- A front end chooses what starts next. Entries that were held back for a translation go out, the due launch of a task starts when it is
chosen, and launches that cannot place a set ask for room. -/
def arbitrate (fn : Nat) (s : State) : State :=
  let s := priorityStops (pumpEntries s fn (fnAt s fn).entries []) fn
  match pick s fn with
  | some (eff, .task n) => startTask s fn n eff
  | some (_, p) => modFn s fn fun f => { f with chosen := some p }
  | none => s

/-- FRONT_END_ARBITRATE. A reset moves on. -/
def execFrontEndArbitrate (fn : Nat) (s : State) : Host.Outcome State Fault Refusal :=
  .next (if (fnAt s fn).resetting then resetStep s fn else feStep fn (arbitrate fn) s)

/-- A launch whose sets are over is settled, and completes. -/
def endLaunch (l : Launch) (s : State) : State := finishLaunch (settleLaunch s l.id) l

/-- LAUNCH_COMPLETE (R136). What the launch dirtied goes home first; with that done it is settled, and the launch completes. -/
def execLaunchComplete (launch : Nat) (s : State) : Host.Outcome State Fault Refusal :=
  .next (match launchAt s launch with
    | none => s
    | some l =>
      if (fnAt s l.fn).resetting then resetStep s l.fn
      else if !launchOver s l || !launchQuiet s launch then s
      else
        let s := flushLaunch (clearRemote s l) launch
        if !launchQuiet s launch then s else feStep l.fn (endLaunch l) s)

/-! ### Admission -/

/-- A saved set that priority pre-empted, of the launch's PRIO or above, could come back to this core first (R198). -/
def savedAhead (s : State) (l : Launch) (c : Nat) : Bool :=
  s.sets.any fun x => x.saved.isSome && x.causes.contains (causePriority, 0) && match launchAt s x.launch with
    | some m => m.fn == l.fn && decide (l.hdr.prio ≤ m.hdr.prio) && canRestore s m x.set c
    | none => false

/-- MATRIX places sets preferably on pods whose twin runs no MATRIX launch (R36). A TWIN launch, whose own halves are twins, has no
such preference. DESIGN CHOICE (log 129). -/
def matrixOk (s : State) (l : Launch) (set c : Nat) : Bool :=
  !l.hdr.matrix || l.hdr.twin || !twinMatrix s c ||
    (List.range 192).all fun d => twinMatrix s d || !mayAdmit s l set d || !planRoom s l set d false

/-- SET_ADMISSION. Where granules have to be converted first, that starts. DESIGN CHOICE (log 105). -/
def execSetAdmission (launch set core : Nat) (s : State) : Host.Outcome State Fault Refusal :=
  .next (match launchAt s launch with
    | none => s
    | some l =>
      let s := joinP s l.fn
      let turn := (pickWith s l.fn fun m => canPlace s m core || (m.id == launch && mayAdmit s l set core)).map (·.2)
      if turn != some (.placing launch) || !mayAdmit s l set core || savedAhead s l core || !matrixOk s l set core then s
      else if planRoom s l set core true then
        let plan := admitPlan l set core
        let s := if l.hdr.twin then
            modPod (clearLink s (podOf core)) (podOf core) fun q => { q with holder := some (launch, podSetOf l.hdr set) }
          else s
        joinP (plan.foldl (fun s (ns, d) =>
          let s := { s with sets := s.sets ++ ns.map fun n => { launch := launch, set := n, core := some d, units := l.hdr.spad } }
          acquire ((placeSets s l ns d).getD s) d) s) l.fn
      else (admitPlan l set core).foldl (fun s (ns, d) => match roomFor s d (regsNeed l.hdr ns) (unitsNeed l.hdr ns) with
        | .convert r p => convertFor s d r p
        | _ => s) s)

/-! ### Granules that go back (R108) -/

/-- A set waits that a core could take: to be admitted, to come back, or an evicted group of the core. -/
def granWanted (s : State) (c : Nat) : Bool :=
  !(coreAt s c).evicted.isEmpty
    || (s.launches.any fun l => awaiting s l && coreUsable s l.fn c)
    || s.sets.any fun x => x.saved.isSome && match launchAt s x.launch with | some l => coreOwned s l.fn c | none => false

/-- Empty granules, of `gran` that hold `used` places of `per` each: the spec gives contents no places, so that they lie together or
apart is the device's own. Log 123. -/
def emptyGran (gran used per fresh : Nat) : Nat :=
  let least := gran - min gran used
  let most := gran - min gran ((used + per - 1) / per)
  least + Config.victim (most - least + 1) fresh % (most - least + 1)

/-- GRANULE_CONVERSION_DONE: the oldest conversion to a use is done, or empty granules of the use that no waiting set needs go back
to the L1. -/
def execGranuleConversionDone (core : Nat) (spad : Bool) (s : State) : Host.Outcome State Fault Refusal :=
  let x := coreAt s core
  .next (match x.conv.find? fun v => v.spad == spad with
    | some v => endConversion s core v
    | none =>
      if granWanted s core then s
      else
        let t := { s with fresh := s.fresh + 1 }
        if spad then
          let n := emptyGran x.spadGran (unitsUsed s core) 32 s.fresh
          modCore t core fun x => { x with spadGran := x.spadGran - n }
        else
          let n := emptyGran x.regGran (regsUsed x) 512 s.fresh
          modCore t core fun x => { x with regGran := x.regGran - n })

/-! ### Batches (R203) -/

/-- A batch of a node is launched from its template. A region launched in part takes all of its slots. -/
def launchBatch (s : State) (fn node eff k : Nat) : State :=
  let y := nodeAt s fn node
  let region := y.rd / 2 ^ y.blog % 2 ^ (y.qlog - y.blog)
  let first := y.rd
  let next := (y.rd / 2 ^ y.blog + 1) * 2 ^ y.blog
  let s := modNode s fn node fun y =>
    { y with rd := next, wr := max y.wr next, commit := y.commit - BitVec.ofNat 32 k, times := y.times.drop k, waitFrom := s.now }
  let s := modFn { s with booted := true } fn fun f => { f with chosen := none }
  match procReads s fn y.proc y.hdr 16 with
  | (none, s) => rejectLaunch s fn y.hdr (parseHeader []) (.batch node region) 8
  | (some ws, s) =>
    let at0 := y.ring + BitVec.ofNat 64 (4 * y.rwords * (first % 2 ^ y.qlog))
    let ws := (ws.set 4 (BitVec.ofNat 64 k)).set 1 at0
    let r := headerReason s.full ws
    if r ≠ 0 then rejectLaunch s fn y.hdr (parseHeader ws) (.batch node region) r
    else startLaunch (modNode s fn node fun y => { y with busy := y.busy ++ [first / 2 ^ y.blog] }) fn y.proc y.hdr (parseHeader ws)
      (.batch node (first / 2 ^ y.blog)) eff

/-- A node's region becomes a launch when it is chosen. -/
def batchWork (fn node : Nat) (late : Bool) (s : State) : State :=
  match choice s fn, batchSize s fn node late with
  | some (eff, .batch n), some k => if n = node then launchBatch s fn node eff k else s
  | _, _ => s

/-- BATCH_LAUNCH: of a full region, or of what is left when no launch adds to it any longer. -/
def execBatchLaunch (fn node : Nat) (s : State) : Host.Outcome State Fault Refusal := .next (feStep fn (batchWork fn node false) s)
/-- BATCH_TIMEOUT: of a region in part. -/
def execBatchTimeout (fn node : Nat) (s : State) : Host.Outcome State Fault Refusal := .next (feStep fn (batchWork fn node true) s)

/-! ### Virtual time and windows (R197, R198) -/

/-- Group slots that a process occupies. -/
def slotsOf (s : State) (fn p : Nat) : Nat :=
  s.cores.foldl (fun n e => n + (e.2.groups.filter fun g => g.2.fn == fn && procOf s g.2 == p).length) 0

/-- VT_UPDATE, every 1,024 cycles. -/
def execVtUpdate (fn : Nat) (s : State) : Host.Outcome State Fault Refusal :=
  let s := joinP s fn
  let add := fun (p : Nat × Proc) => p.2.vt + slotsOf s fn p.1 * 1024 / max 1 p.2.weight
  let ps := (fnAt s fn).procs
  let least := match ps with | [] => 0 | p :: r => r.foldl (fun m q => min m q.2.vt) p.2.vt
  let cut := if ps.any fun p => 2 ^ 63 < add p then least else 0
  .next (modFn s fn fun f => { f with procs := f.procs.map fun p => (p.1, { p.2 with vt := add p - cut }) })

/-- Cycles of a microsecond: the clock runs at 1.25 GHz, in early service at half of that (R249). -/
def usCycles (s : State) : Nat := if s.full then 1250 else 625

/-- A function has a resident group on a cluster, or work that wants one. -/
def wantsCluster (s : State) (fn cl : Nat) : Bool :=
  ((List.range 192).any fun c => clusterOf c == cl && (coreAt s c).groups.any fun g => g.2.fn == fn)
    || (List.range 16).any (hasWork s fn)
    || s.sets.any fun x => x.saved.isSome && match launchAt s x.launch with | some l => l.fn == fn | none => false

/-- The groups of a function on a cluster are hard-pre-empted. -/
def stopOnCluster (s : State) (cluster f : Nat) : State :=
  ((List.range 192).filter fun c => clusterOf c == cluster).foldl (fun s c =>
    ((setsOn s c).filter fun e => match launchAt s e.1 with | some l => l.fn == f | none => false).foldl (fun s e =>
      requestStop s e.1 e.2 true (causeQuantum, 0)) s) s

/-- QUANTUM_WINDOW_END: a window is over, or its holder has nothing to do and gives up the rest of it to the next function,
the first after the last (log 24). -/
def execQuantumWindowEnd (cluster : Nat) (s : State) : Host.Outcome State Fault Refusal :=
  let fs := sharers s cluster
  let w := tget s.windows cluster {}
  let put := fun (s : State) (v : Window) => { s with windows := tset s.windows cluster v }
  let span := fs.foldl (fun m f => max m (fnAt s f).period.toNat) 0 * usCycles s
  .next (if fs.length ≤ 1 then s
    else match fs[w.slot]?, fs[w.holder]? with
      | some f, some h =>
        let fin := w.start + (fnAt s f).quantum.toNat * usCycles s
        if fin ≤ s.now then
          let s' := put s ⟨w.slot + 1, w.slot + 1, fin, w.period⟩
          if fs[w.slot + 1]? != some h && fs.any fun g => g != h && wantsCluster s g cluster then stopOnCluster s' cluster h else s'
        else if !wantsCluster s h cluster && fs.any fun g => wantsCluster s g cluster then
          put s { w with holder := (w.holder + 1) % fs.length }
        else s
      | _, _ => if s.now < w.period + span then s else put s ⟨0, 0, w.period + span, w.period + span⟩)

end Sys2Proof.Machine
end

