-- ==== Sys2Proof/Machine/EvPod.lean ====
section
/-! DEFINITION. EvPod.lean: heat and supply (R223, R252 to R254), the licence (R179), rounds of matrix products (R84, R85,
R174 to R177, R383), slots (R170), the register link (R184), and power gating (R189, R190). -/
namespace Sys2Proof.Machine

/-! ### Heat and supply -/

/-- The groups on a core are to move (R223, R252). -/
def thermalMove (s : State) (c : Nat) : State :=
  (setsOn s c).foldl (fun s e => requestStop s e.1 e.2 false (causeThermal, podOf c)) s

/-- A supply reading of a core that has power enters VMIN (R254). -/
def lowSupply (s : State) (c : Nat) (mv : BitVec 16) : State :=
  if isUpper c && (podAt s (podOf c)).upst == 2 then s
  else modCore s c fun x => { x with vmin := if mv.toNat < x.vmin.toNat then mv else x.vmin }

/-- A core's supply monitor takes a sample. -/
def sampleSupply (s : State) (c : Nat) (mv : BitVec 16) : State := modCore (lowSupply s c mv) c fun x => { x with vnow := mv }

/-- A quadrant's ring oscillator is sampled, once every 4,096 cycles, whichever of its pods' samples brings the count (R254). Its
cycles are counted in model time. DEDUCED (log 149). -/
def sampleRing (s : State) (n : Nat) (v : Word) : State :=
  match tget? s.roscAt n with
  | some t => if s.now < t + 4096 then s else { s with rosc := tset s.rosc n v, roscAt := tset s.roscAt n s.now }
  | none => { s with rosc := tset s.rosc n v, roscAt := tset s.roscAt n s.now }

/-- SENSOR_SAMPLE (R252, R254), once every 4,096 cycles. -/
def execSensorSample (pod : Nat) (tup tlo vup vlo : BitVec 16) (rup rlo : Word) (s : State) : Host.Outcome State Fault Refusal :=
  let now := podClock s pod
  .next (if 96 ≤ pod || (match (podAt s pod).sampledAt with | some t => decide (now < t + 4096) | none => false) then s
    else
      let hot := overLimit { podAt s pod with tup := tup, tlo := tlo }
      let s := modPod s pod fun q => { q with tup := tup, tlo := tlo, sampledAt := some now,
                                              overSince := if hot then some (q.overSince.getD now) else none }
      let s := sampleSupply (sampleSupply s pod vlo) (pod + 96) vup
      let s := sampleRing (sampleRing s (quadrantOf pod) rlo) (quadrantOf (pod + 96)) rup
      let q := podAt s pod
      let s := if (q.move.toNat : Int) ≤ tlo.toInt then thermalMove s pod else s
      let s := if (q.move.toNat : Int) ≤ tup.toInt then thermalMove s (pod + 96) else s
      if hot && q.throttle == 0 then setThrottle s pod 1 else unthrottle s pod)

/-- THERMAL_THROTTLE_STEP (R223): 8,192 cycles over the limit since the last halving. -/
def execThermalThrottleStep (pod : Nat) (s : State) : Host.Outcome State Fault Refusal :=
  let q := podAt s pod
  .next (match q.overSince with
    | some t =>
      if q.throttle = 0 ∨ 3 ≤ q.throttle ∨ podClock s pod < t + 8192 then s
      else modPod (setThrottle s pod (q.throttle + 1)) pod fun q => { q with overSince := some (podClock s pod) }
    | none => s)

/-- SUPPLY_DROOP and SUPPLY_RECOVERY (R253). -/
def execSupplyDroop (core : Nat) (mv : BitVec 16) (s : State) : Host.Outcome State Fault Refusal :=
  .next (if mv.toNat < 570 then modCore (lowSupply s core mv) core fun x => { x with stretched := true } else s)
def execSupplyRecovery (core : Nat) (mv : BitVec 16) (s : State) : Host.Outcome State Fault Refusal :=
  .next (if 570 ≤ mv.toNat then modCore s core fun x => { x with stretched := false } else s)

/-! ### The licence (R179, R180, R297) -/

/-- A core is granted the licence. -/
def grantLic (s : State) (p : Nat) (up : Bool) : State :=
  modPod s p fun q =>
    { q with lic := .held up, last := some up, grantAt := podClock s p, fireAt := podClock s p, drainAt := none,
             reqUp := q.reqUp && !up, reqLo := q.reqLo && up, priorUp := q.priorUp && !up, priorLo := q.priorLo && up }

/-- Which of two cores that request together is granted. -/
def tieUp (q : Pod) : Bool :=
  if q.priorUp != q.priorLo then q.priorUp
  else match q.last with
    | some u => !u
    | none => false

/-- LICENCE_GRANT. -/
def execLicenceGrant (pod : Nat) (s : State) : Host.Outcome State Fault Refusal :=
  let q := podAt s pod
  .next (if q.lic != .free then s
    else match q.reqLo, q.reqUp with
      | true, true => grantLic s pod (tieUp q)
      | true, false => grantLic s pod false
      | false, true => grantLic s pod true
      | false, false => s)

/-- LICENCE_IDLE_EXPIRY: 256 cycles after the last round fired, or after the grant. -/
def execLicenceIdleExpiry (pod : Nat) (s : State) : Host.Outcome State Fault Refusal :=
  let q := podAt s pod
  .next (match q.lic with
    | .held up => if q.fireAt + 256 ≤ podClock s pod then startHandover s pod up else s
    | _ => s)

/-- LICENCE_HOLD_EXPIRY. -/
def execLicenceHoldExpiry (pod : Nat) (s : State) : Host.Outcome State Fault Refusal :=
  let q := podAt s pod
  .next (match q.lic with
    | .held up =>
      if q.grantAt + max 1024 q.licq.toNat ≤ podClock s pod ∧ (if up then q.reqLo else q.reqUp) then startHandover s pod up else s
    | _ => s)

/-- HANDOVER_END. -/
def execHandoverEnd (pod : Nat) (s : State) : Host.Outcome State Fault Refusal :=
  let q := podAt s pod
  .next (match q.lic, q.drainAt with
    | .handover up, some t =>
      if podClock s pod < t + 48 then s
      else if (if up then q.reqLo else q.reqUp) then grantLic s pod (!up)
      else if (if up then q.reqUp else q.reqLo) then grantLic s pod up
      else modPod s pod fun q => { q with lic := .free, drainAt := none }
    | _, _ => s)

/-! ### Rounds -/

/-- Row block, column block and source slot of a member (R175). -/
def memberPlace (e : LatchEntry) (m : Nat) : Nat × Nat × Nat :=
  match e.shape with
  | .g2lo => (0, m, e.b)
  | .g2hi => (1, m, e.b)
  | .g4 => (m / 2, m % 2, e.b)
  | .g6 => if m % 3 = 2 then (m / 3, 0, e.b2.getD e.b) else (m / 3, m % 3, e.b)

/-- The type reads slots in the 8-bit shape; its depth (R173). -/
def mtyB8 : MTy → Bool
  | .bf16 | .f16 => false
  | _ => true
def mtyDepth (t : MTy) : Nat := if mtyB8 t then 256 else 128

/-- An element of 64 rows of a slot is poisoned. -/
def blockPois (t : Tile) (b8 : Bool) (blk : Nat) : Bool :=
  let p := t.pois.toArray
  !t.pois.isEmpty && (List.range 64).any fun r => (List.range (if b8 then 256 else 128)).any fun k =>
    let o := tileOff b8 (64 * blk + r) k
    p.getD o false || (!b8 && p.getD (o + 1) false)

/-- A member reads a poisoned element or accumulator (R177). -/
def memberPois (s : State) (c : Nat) (g : Group) (e : LatchEntry) (m : Nat) : Bool :=
  let (rho, gam, src) := memberPlace e m
  blockPois (tileAt s c e.a) (mtyB8 e.ty) rho || blockPois (tileAt s c src) (mtyB8 e.ty) gam ||
    (!e.z && (List.range 64).any fun r => match vreg? g (e.d + r) with
      | some v => v.pois &&& e.lanes != 0
      | none => false)

/-- Slots that a round reads. -/
def roundSlots (r : Round) : List Nat :=
  match r.entries with
  | e :: _ => ([e.a, e.b] ++ e.b2.toList).eraseDups
  | [] => []

/-- The complete round that is first to fire (R176). One of whose slots an ACPT has emptied since waits (R163). -/
def nextRound (x : Core) : Option Round :=
  (x.rounds.filter fun r => !r.fired && (roundSlots r).all fun n => (tget x.tiles n {}).full).foldl (fun (a : Option Round) r => match a with
    | some b => if r.since < b.since ∨ (r.since = b.since ∧ r.lead < b.lead) then some r else a
    | none => some r) none

/-- A member's MMA issues: its fragment is marked empty and its lanes pass on. DEDUCED (log 71). DEDUCED (log 72). -/
def fireMember (s : State) (c round slot : Nat) (e : LatchEntry) : State :=
  match groupAt s c slot with
  | none => s
  | some g =>
    let op := s.nid
    let it : Item := { id := s.nid + 1, op := op, gid := g.gid, slot := slot, lane := 64, word := e.word, launch := g.launch,
                       fn := g.fn, set := g.set, body := .mma round }
    let s := modItems { s with nid := s.nid + 2 } c fun xs => xs ++ [it]
    let g := (List.range 64).foldl (fun g r => modReg g (e.d + r) fun v => { v with full := 0 }) g
    let g := passTo (modThreads g e.lanes countIssue) e.lanes e.next e.last
    setGroup s c slot (releaseMeets (pointSlot { g with latch := none } e.sb op))

/-- ROUND_FIRE (R176, R177). -/
def execRoundFire (core : Nat) (s : State) : Host.Outcome State Fault Refusal :=
  let x := coreAt s core
  .next (match nextRound x with
    | none => s
    | some r =>
      if !holdsLic s core || x.rounds.any (·.fired) then s
      else
        let ms := r.members.zip (r.entries.zip (List.range r.members.length))
        let bad := ms.any fun (slot, e, m) => match groupAt s core slot with
          | some g => memberPois s core g e m
          | none => false
        if bad then
          ms.foldl (fun s (slot, e, _) =>
            takeTrap (unlatch s core slot) core slot e.lanes (threadAt ((groupAt s core slot).getD
              { gid := 0, launch := 0, set := 0, fn := 0, rb := 0, rx := 0, threads := [] }) (lowLane e.lanes)).pc 0 none
              ⟨tcPoison, e.lanes, addrInfo 6 0⟩) s
        else
          let frag := ms.map fun (slot, e, _) => match groupAt s core slot with
            | some g => (List.range 64).map fun i => ((vreg? g (e.d + i)).map (·.tag)).getD 0
            | none => []
          let s := modCore s core fun x => { x with rounds := x.rounds.map fun q =>
            if q.id = r.id then { q with fired := true, firedAt := podClock s (podOf core), frag := frag } else q }
          let s := ms.foldl (fun s (slot, e, _) => fireMember s core r.id slot e) s
          let s := (roundSlots r).foldl (fun s n => modTile s core n fun t => { t with locks := t.locks + 1 }) s
          modPod s (podOf core) fun q => { q with fireAt := podClock s (podOf core) })

/-- The element codes of a row of a slot. -/
def rowCodes (t : Tile) (ty : MTy) (i : Nat) : List Nat :=
  let a := t.data.toArray
  (List.range (mtyDepth ty)).map fun k =>
    let o := tileOff (mtyB8 ty) i k
    if mtyB8 ty then (a.getD o 0).toNat else (a.getD o 0).toNat + 2 ^ 8 * (a.getD (o + 1) 0).toNat

/-- Element type of a float product. -/
def mtyTy : MTy → Ty
  | .bf16 => .bf16
  | .f16 => .f16
  | .e4m3 => .e4m3
  | .e5m2 => .e5m2
  | _ => .i8

/-- One element of a fragment, from a row of A and a row of the B source on top of c (R84, R85, R73, R383). -/
def dotSlots (ty : MTy) (a b : List Nat) (c : Word) : Word × Flg :=
  let sum := fun (f : Nat → Int) => (c + BitVec.ofInt 32 ((a.zipWith (fun x y => f x * (BitVec.ofNat 8 y).toInt) b).foldl (· + ·) 0),
    (0 : Flg))
  match ty with
  | .i8 => sum fun x => (BitVec.ofNat 8 x).toInt
  | .sp8 => sum sp8Units
  | _ =>
    let v := fun n => tyVal (mtyTy ty) n
    lane32 (dotRuns (if mtyB8 ty then 32 else 16) 16 c.toNat (a.zipWith (fun x y => mulF (v x) (v y)) b))

/-- A member's fragment is written. The lanes that executed the MMA raise flags (R83). DEDUCED (log 71). -/
def landFragment (s : State) (c slot gid : Nat) (e : LatchEntry) (m : Nat) (frag : List Nat) : State :=
  match groupAt s c slot with
  | none => s
  | some g =>
    if g.gid ≠ gid then s
    else
      let (rho, gam, src) := memberPlace e m
      let a := (List.range 64).map fun i => rowCodes (tileAt s c e.a) e.ty (64 * rho + i)
      let b := (List.range 64).map fun l => rowCodes (tileAt s c src) e.ty (64 * gam + l)
      let r := (List.range 64).foldl (fun (q : Group × Flg) i =>
        let tag := frag.getD i 0
        let old := (q.1.regs.find? fun v => v.2.tag == tag).map fun v => v.2
        let vs := (List.range 64).map fun l =>
          dotSlots e.ty (a.getD i []) (b.getD l []) (if e.z then 0 else (old.map fun v => v.val.getD l 0).getD 0)
        (modTag q.1 tag fun v => writeLanes v (BitVec.ofNat 64 (2 ^ 64 - 1)) (fun l => ((vs.map (·.1)).getD l 0)) fun _ => false,
          ((vs.zip (List.range 64)).filter fun v => e.lanes.getLsbD v.2).foldl (fun f v => f ||| v.1.2) q.2)) (g, (0 : Flg))
      orFlags (setGroup s c slot r.1) c slot r.2

/-- Cycles that a fired round takes (R173). -/
def roundCycles (r : Round) : Nat :=
  (if r.entries.any fun e => e.ty == .sp8 then 32 else 64) * r.members.length / 4

/-- MMA_ROUND_COMPLETE (R176): fragments land, read locks are dropped, scoreboard slots clear. A hand-over that waited for
the round goes on. -/
def execMmaRoundComplete (core : Nat) (s : State) : Host.Outcome State Fault Refusal :=
  .next (match (coreAt s core).rounds.find? (·.fired) with
    | none => s
    | some r =>
      if podClock s (podOf core) < r.firedAt + roundCycles r then s else
      let ms := (r.members.zip r.gids).zip ((r.entries.zip r.frag).zip (List.range r.members.length))
      let s := ms.foldl (fun s ((slot, gid), (e, frag), m) => landFragment s core slot gid e m frag) s
      let s := (roundSlots r).foldl (fun s n => modTile s core n fun t => { t with locks := t.locks - 1 }) s
      let s := modCore s core fun x => { x with rounds := x.rounds.filter fun q => q.id != r.id }
      let mine := (coreAt s core).items.filter fun i => i.body == .mma r.id
      let s := mine.foldl (fun s i => endItem s core i.id) s
      modPod s (podOf core) fun q => if q.lic = .handover (isUpper core) then { q with drainAt := some (podClock s (podOf core)) } else q)

/-- SLOT_CLEAR_DONE (R170), after 16 cycles. -/
def execSlotClearDone (core slot : Nat) (s : State) : Host.Outcome State Fault Refusal :=
  .next (if (tileAt s core slot).clearing && decide ((tileAt s core slot).clearAt + 16 ≤ podClock s (podOf core)) then modTile s core slot fun t => { t with clearing := false } else s)

/-! ### The register link (R184) -/

/-- Arrivals that stand first on the link need no crossing of their own. -/
def dropBars : List LinkSlot → List LinkSlot
  | e :: r => match e.item with
    | .bar _ => dropBars r
    | _ => e :: r
  | [] => []

/-- LINK_ITEM_CROSS: one item each cycle, none in the cycle that produced it. The event stands where the cycle in which the item
crosses ends. -/
def execLinkItemCross (core : Nat) (s : State) : Host.Outcome State Fault Refusal :=
  let x := coreAt s core
  let t := podClock s (podOf core)
  .next (match dropBars x.link with
    | [] => setCore s core { x with link := [] }
    | e :: r =>
      if t ≤ e.since || (match x.crossAt with | some u => decide (t ≤ u) | none => false) then s
      else
        let x := { x with link := dropBars r, crossAt := some t }
        match e.item with
        | .window n v m =>
          let old := tget x.crossed n []
          let new := lanes64 fun l => if m.getLsbD l then v.getD l 0 else old.getD l 0
          setCore s core { x with crossed := tset x.crossed n new }
        | .fifo v => popTwin (setCore s core { x with fifo := x.fifo ++ [v] }) (twinOf core) 8
        | .bar _ => setCore s core x)

/-! ### Power gating (R28, R189, R190) -/

/-- PODCTL_GATE and PODCTL_UNGATE. -/
def execPodctlGate (pod : Nat) (s : State) : Host.Outcome State Fault Refusal := .next (writeGate s pod true)
def execPodctlUngate (pod : Nat) (s : State) : Host.Outcome State Fault Refusal := .next (writeGate s pod false)

/-- A core that loses its power writes its L1 home and drops what it caches (log 27). -/
def emptyCaches (s : State) (c : Nat) : State :=
  let s := (coreAt s c).l1.foldl (fun s (w, y) => if y.d || y.o then sendMsg s (writeBackMsg s c w y) else s) s
  modCore s c fun x => { x with l1 := [], l1Lines := [], tlb := [] }

/-- GATING_COMPLETE: no group is left on the upper core, and its hold of the licence is over. -/
def execGatingComplete (pod : Nat) (s : State) : Host.Outcome State Fault Refusal :=
  let c := pod + 96
  let x := coreAt s c
  let q := podAt s pod
  .next (if q.upst != 1 || !x.groups.isEmpty || !x.evicted.isEmpty || !x.items.isEmpty || !x.link.isEmpty || !x.mshrs.isEmpty
        || q.lic == .held true || q.lic == .handover true then s
    else
      let s := emptyCaches s c
      let s := modPod s pod fun q => { q with upst := 2, image := some (x.win, x.twb) }
      let s := modCore s c fun x => { x with win := [], crossed := [], twb := [] }
      if q.gate then s else startUngating s pod)

/-- Sets of TWIN launches that gating of a pod saved and that resume on its upper core. -/
def gatedSets (s : State) (p : Nat) : List (Launch × Nat) :=
  s.sets.filterMap fun x => match launchAt s x.launch with
    | some l => if l.hdr.twin && x.saved.isSome && x.causes.contains (causeGating, p)
        && (podAt s p).holder == some (l.id, podSetOf l.hdr x.set) then some (l, x.set) else none
    | none => none

/-- UNGATING_COMPLETE: the cycle counter restarts, windows and counts come back, and with them the sets of TWIN launches. -/
def execUngatingComplete (pod : Nat) (s : State) : Host.Outcome State Fault Refusal :=
  let c := pod + 96
  let q := podAt s pod
  .next (if q.upst != 3 then s
    else
      let img := q.image.getD ([], [])
      let s := modPod s pod fun q => { q with upst := 0, image := none }
      let s := modCore s c fun x =>
        { x with cyc := 0, cycAt := s.now, vmin := 0xFFFF, win := img.1, crossed := img.1, twb := img.2 }
      let s := (gatedSets s pod).foldl (fun s (l, n) => if canRestore s l n c then (restoreSets s l [n] c).getD s else s) s
      if q.gate then startGating s pod else s)

end Sys2Proof.Machine
end

