-- ==== Sys2Proof/Machine/EvHost.lean ====
section
/-! DEFINITION. EvHost.lean: writes of the host to the BAR registers (R192 to R201, R215, R236 to R251), resets (R243,
R249), keys (R248), firmware and attestation (R255 to R258), and completions of host reads (R93, R242). Offsets are those of
a function's BAR. Registers that the spec names without an offset stand at offsets of the model's own from 2^20 on
(log 14). -/
namespace Sys2Proof.Machine

/-! ### Queues and rings (R192, R193, R201) -/

/-- A function answers the host: it exists, and outside recovery or as the PF (R241, R256). -/
def fnThere (s : State) (fn : Nat) : Bool := decide (fn ≤ s.numVfs) && (!s.recov || fn == 0)

/-- A field out of its range: the register stays, and an error record names it (R201). -/
def badField (s : State) (fn off : Nat) : State := errorRecord s fn (BitVec.ofNat 64 off) 0 0

/-- Commands written and not started are too many for the ring. -/
def overfull (x : Queue) : Bool := decide (2 ^ x.log2n < (x.tail - x.head).toNat)

/-- An overfull queue is disabled, with an entry. There is no command to name: TAG is 0. DEDUCED (log 79). -/
def queueError (s : State) (fn q : Nat) : State :=
  sendEntry (modQueue s fn q fun x => { x with en := false }) fn { q := q, tag := 0, status := stQueueError }

/-- QTAIL (R193). -/
def writeTail (s : State) (fn q : Nat) (v : Word) : State :=
  let t := modQueue s fn q fun x => { x with tail := v }
  madeWork s (if overfull (queueAt t fn q) then queueError t fn q else t) fn

/-- QCTL (R192, R193, R201). -/
def writeQctl (s : State) (fn q : Nat) (v : Word) : State :=
  let n := (v.extractLsb' 0 5).toNat
  if n < 6 ∨ 16 < n then badField s fn (0x10008 + 64 * q)
  else
    let t := modQueue s fn q fun x =>
      { x with en := v.getLsbD 31, prio := (v.extractLsb' 24 4).toNat, proc := (v.extractLsb' 16 4).toNat, log2n := n }
    madeWork s (if (queueAt t fn q).en && overfull (queueAt t fn q) then queueError t fn q else t) fn

/-- CQHEAD (R196): entries that were held back go out. -/
def writeCqHead (s : State) (fn q : Nat) (v : Word) : State :=
  let t := modQueue s fn q fun x => { x with cqHead := v }
  madeWork s (pumpEntries t fn (fnAt t fn).entries []) fn

/-- FRHEAD (R215): records that were held back go out. -/
def writeFrHead (s : State) (fn : Nat) (v : Word) : State :=
  let s := modFn s fn fun f => { f with frHead := v }
  pumpRecords s fn (fnAt s fn).held

/-- CQLOG2N and FRLOG2N. What was held back goes out where the ring has room now. -/
def writeCqLog (s : State) (fn q : Nat) (v : DWord) : State :=
  let n := bitsOf v 0 5
  if n < 6 ∨ 16 < n then badField s fn (0x10028 + 64 * q)
  else
    let t := modQueue s fn q fun x => { x with cqLog2n := n }
    madeWork s (pumpEntries t fn (fnAt t fn).entries []) fn
def writeFrLog (s : State) (fn : Nat) (v : DWord) : State :=
  let n := bitsOf v 0 5
  if n < 6 ∨ 16 < n then badField s fn 0x50008
  else
    let s := modFn s fn fun f => { f with frLog2n := n }
    pumpRecords s fn (fnAt s fn).held

/-- A register of a work-graph node, or of a ring (R200, R201). -/
def writeNode (s : State) (fn off : Nat) (v : DWord) : State :=
  let i := (off - 0x40000) / 32
  match off % 32 with
  | 0 => modNode s fn i fun y => { y with hdr := v &&& ~~~(0x7F : DWord) }
  | 8 => modNode s fn i fun y => { y with ring := v &&& ~~~(0x3F : DWord) }
  | 16 =>
    let qlog := bitsOf v 22 5
    let rwords := bitsOf v 17 5
    let blog := bitsOf v 0 4
    if qlog < 6 ∨ 16 < qlog ∨ rwords < 1 ∨ 16 < rwords ∨ 12 < blog ∨ qlog < blog then badField s fn off
    else modNode s fn i fun y =>
      { y with en := v.getLsbD 31, proc := bitsOf v 27 4, qlog := qlog, rwords := rwords, blog := blog }
  | 24 => modNode s fn i fun y => { y with drop := y.drop &&& ~~~(v.extractLsb' 32 32) }
  | _ => s

/-- The rings' size fields and the node table. -/
def writeSized (s : State) (fn off : Nat) (v : DWord) : State :=
  if 0x40000 ≤ off ∧ off < 0x42000 then writeNode s fn off v
  else if off = 0x50008 then writeFrLog s fn v
  else if 0x10000 ≤ off ∧ off < 0x11000 ∧ off % 64 = 0x28 then writeCqLog s fn ((off - 0x10000) / 64) v
  else s

/-- A process context (R192, R198, R199). -/
def writeProc (s : State) (fn off : Nat) (v : DWord) : State :=
  let n := (off - 0x20000) / 32
  let set := fun (f : Proc → Proc) => modFn s fn fun x => { x with procs := tset x.procs n (f (tget x.procs n {})) }
  madeWork s (match off % 32 with
    | 0 => set fun p => { p with root := v &&& 0x000FFFFFFFFF0000, tier := bitsOf v 4 2 }
    | 8 => set fun p =>
        { p with v := v.getLsbD 31, weight := bitsOf v 0 8, vt := if v.getLsbD 31 && !p.v then 0 else p.vt }
    | 16 => set fun p => { p with arena := v &&& ~~~(0xFFFF : DWord) }
    | 24 => set fun p => { p with arenaSz := bitsOf v 0 16 }
    | _ => s) fn

/-! ### Slices of time (R197, R199) -/

/-- The functions that share some cluster ask for more than its period. DEDUCED (log 80). -/
def sliceOver (s : State) (fn : Nat) : Bool :=
  (List.range 24).any fun c =>
    let fs := sharers s c
    fs.contains fn && decide (1 < fs.length) &&
      decide (fs.foldl (fun m f => max m (fnAt s f).period.toNat) 0 < fs.foldl (fun n f => n + (fnAt s f).quantum.toNat) 0)

/-- PERIOD and QUANTUM of a function. W_save is 46.49 µs (R208), and in early service 92.98 µs (R250). DEDUCED (log 81). DEDUCED
(log 82). DEDUCED (log 150). -/
def writeSlice (s : State) (fn : Nat) (v : DWord) : State :=
  let period : Word := v.extractLsb' 32 32
  let q0 : Word := v.extractLsb' 0 32
  if period = 0 ∨ q0 = 0 then modFn s fn fun f => { f with qraised := false, qsum := false, qzero := true }
  else
    let raise := decide (q0.toNat ≤ if s.full then 46 else 92)
    let t := modFn s fn fun f =>
      { f with period := period, quantum := if raise then (if s.full then 57 else 103) else q0, qraised := raise, qsum := false, qzero := false }
    if sliceOver t fn then modFn s fn fun f => { f with qraised := false, qsum := true, qzero := false } else t

/-! ### Partitions and swaps (R236 to R238) -/

/-- Groups of a function on clusters that it has lost are pre-empted; windows of clusters that change hands start anew. -/
def leaveClusters (old s : State) (fn : Nat) : State :=
  let lost := (List.range 24).filter fun c => ownsCluster old fn c && !ownsCluster s fn c
  let s := (List.range 192).foldl (fun s c =>
    if !lost.contains (clusterOf c) then s
    else ((setsOn s c).filter fun e => match launchAt s e.1 with | some l => l.fn == fn | none => false).foldl (fun s e =>
      requestStop s e.1 e.2 true (causePartition, 0)) s) s
  (List.range 24).foldl (fun s c =>
    if ownsCluster old fn c == ownsCluster s fn c then s else { s with windows := tset s.windows c ⟨0, 0, s.now, s.now⟩ }) s

/-- A word of a function's partition block. DEDUCED (log 83). -/
def writePart (s : State) (fn off : Nat) (v : DWord) : State :=
  match off with
  | 0 =>
    let base := bitsOf v 8 5
    let limit := bitsOf v 16 5
    if limit < base ∨ 23 < limit then modFn s fn fun f => { f with pbad := true }
    else
      let t := modFn s fn fun f => { f with pen := v.getLsbD 31, pbase := base, plimit := limit, pbad := false }
      madeWork s (leaveClusters s t fn) fn
  | 8 =>
    if bitsOf v 0 8 = 0 then modFn s fn fun f => { f with pbad := true }
    else modFn s fn fun f => { f with cmask := v.extractLsb' 0 8, pbad := false }
  | _ => s

/-- The core at the same place of the other cluster of a swap. -/
def swapCore (s : State) (a b c : Nat) : Nat :=
  let dest := if clusterOf c = physCluster s a then physCluster s b else physCluster s a
  4 * dest + podOf c % 4 + (if isUpper c then 96 else 0)

/-- DEFRAG. A swap of a number that names no cluster does not start. DEDUCED (log 84). -/
def writeDefrag (s : State) (v : Word) : State :=
  let a := (v.extractLsb' 0 5).toNat
  let b := (v.extractLsb' 8 5).toNat
  let go := v.getLsbD 31
  if go && s.defSwap.isSome then s
  else
    let s := { s with defA := a, defB := b }
    if !go || decide (24 ≤ a) || decide (24 ≤ b) then s
    else
      let cs := (List.range 192).filter fun c => clusterOf c == physCluster s a || clusterOf c == physCluster s b
      swapStep (cs.foldl (fun s c => (setsOn s c).foldl (fun s e =>
        requestSet s e.1 e.2 true (causeDefrag, swapCore s a b c)) s) { s with defSwap := some (a, b, false) })

/-! ### Resets (R243, R249) -/

/-- A reset of a VF is asked for. It waits for a swap of clusters; a second one is ignored. -/
def resetVf (s : State) (fn : Nat) : State :=
  if fn = 0 ∨ s.numVfs < fn ∨ (fnAt s fn).resetting then s
  else if s.defSwap.isSome then modFn s fn fun f => { f with resetAsked := true }
  else resetStep (beginReset s fn) fn

/-- Bytes of the host's memory, which a reset of the module leaves: data and side bytes of words of tier 2 (log 7). -/
def hostCells (m : Memory) : Memory :=
  m.filter fun e => (decide (2 ^ 54 ≤ e.1) && decide (e.1 < 3 * 2 ^ 53))
    || (decide (sideKey (2 * 2 ^ 50) ≤ e.1) && decide (e.1 < sideKey (3 * 2 ^ 50)))

/-! ### Collective barrier objects (R247) -/

/-- A peer of an object is marked lost. -/
def peerGone (s : State) (o : Coll) : Bool := (lanesOf o.peers).any (peerLost s)

/-- EN and LOCAL. DEDUCED (log 94). -/
def writeCollEn (s : State) (fn k : Nat) (v : Word) : State :=
  let n : BitVec 16 := v.extractLsb' 0 16
  if v.getLsbD 31 then
    if n = 0 then s else modColl s fn k fun o => { o with en := true, local_ := n, lost := o.lost || peerGone s o }
  else modColl s fn k fun o => { o with en := false, local_ := n, gen := 0, count := 0, lost := false, got := 0, gotNext := 0 }

/-- PEERS. -/
def writePeers (s : State) (fn k : Nat) (v : DWord) : State :=
  modColl s fn k fun o => { o with peers := v, lost := o.lost || peerGone s { o with peers := v } }

/-! ### Keys (R248) -/

/-- KEYCTL as it reads after an operation. -/
def keyWord (kid owner : BitVec 8) (op st : Nat) : Word :=
  BitVec.ofNat 32 (kid.toNat + owner.toNat * 2 ^ 8 + op * 2 ^ 16 + st * 2 ^ 30)

/-- Loads KEYDAT as a key, or rejects it. DEDUCED (log 90). -/
def loadKey (s : State) (kid owner : BitVec 8) : State :=
  let d := (List.range 64).map fun i => s.keydat.getD i 0
  if kid = 0 ∨ 128 < kid.toNat ∨ d.take 32 = d.drop 32 then { s with keyctl := keyWord kid owner 1 2 }
  else { s with keyctl := keyWord kid owner 1 0,
                keys := tset s.keys kid.toNat { owner := owner.toNat, k1 := d.take 32, k2 := d.drop 32 } }

/-- A key's words leave the L2: what waits for memory and what is dirty is written under the key, and none stays valid. -/
def flushKey (s : State) (k : Nat) : State :=
  let waits := s.chans.flatMap fun e => (e.2.pend.filter fun r => r.key == k).map (·.w)
  let s := waits.foldl drainWord s
  (((s.home.filter fun e => e.2.v && e.2.key == k).map fun e => sectorOf e.1).eraseDups).foldl (fun s sec =>
    drainWord (evictSector s sec) (sec * 16)) s

/-- Unloads a key. -/
def unloadKey (s : State) (kid : BitVec 8) : State :=
  let s := flushKey (dropEntries s fun e => e.key == kid.toNat && e.key != 0) kid.toNat
  { s with keys := tdel s.keys kid.toNat, keyctl := keyWord kid ((s.keyctl.extractLsb' 8 8)) 2 0 }

/-! ### Firmware and attestation (R255 to R258) -/

def fixLen (n : Nat) (bs : List Byte) : List Byte := (List.range n).map fun i => bs.getD i 0

/-- A measurement register. -/
def measAt (s : State) (i : Nat) : List Byte := fixLen 64 (tget s.meas i [])

/-- Mi takes in a measurement (R255). -/
def extendMeas (s : State) (i : Nat) (m : List Byte) : State := { s with meas := tset s.meas i (shake256 (measAt s i ++ m)) }

/-- DEVST as it reads (R251). -/
def devst (s : State) : Word :=
  (if s.badsw then 0x40000000 else 0) ||| ((s.trained.zeroExtend 32 : Word) <<< (16 : Nat)) ||| (if s.recov then 2 else 0)
    ||| (if s.full then 1 else 0)

/-- The partition block of a function as it reads (R237). -/
def partBlock (f : Fn) : List DWord :=
  [BitVec.ofNat 64 ((if f.pen then 2 ^ 31 else 0) + f.plimit * 2 ^ 16 + f.pbase * 2 ^ 8),
    BitVec.ofNat 64 ((if f.pbad then 2 ^ 31 else 0) + f.cmask.toNat)]

/-- A report (R258): keys by ascending KID, the rest of their field zero. DEDUCED (log 92). -/
def report (s : State) (nonce : List Byte) (fn : Nat) : List Byte :=
  let keys := (s.keys.filter fun e => e.2.owner == fn).flatMap fun e =>
    ([BitVec.ofNat 8 e.1, BitVec.ofNat 8 e.2.owner] : List Byte)
  let body := fixLen 64 nonce ++ (List.range 8).flatMap (measAt s) ++ (bytesOfWord ((devst s).zeroExtend 64)).take 4
    ++ (partBlock (fnAt s fn)).flatMap bytesOfWord ++ fixLen 256 keys
  body ++ (List.range 114).map fun i => (Config.ed448Sign Config.idSeed body).extractLsb' (8 * i) 8

/-- Bytes go to the host's memory at an address. -/
def hostBytes (s : State) (at0 : DWord) (bs : List Byte) : State :=
  let o := at0.toNat % 8
  (List.range ((o + bs.length + 7) / 8)).foldl (fun s i =>
    let inside := fun (j : Nat) => decide (o ≤ 8 * i + j) && decide (8 * i + j < o + bs.length)
    let d := wordOfBytes ((List.range 8).map fun j => if inside j then bs.getD (8 * i + j - o) 0 else 0)
    let m := (List.range 8).foldl (fun m j => if inside j then m + 2 ^ j else m) 0
    hostWrite s (wkey 2 (at0.toNat % 2 ^ 52) + i) d (BitVec.ofNat 8 m)) s

/-- A report is written, and DONE is set. -/
def attest (s : State) (r : List Byte × Nat × DWord) : State :=
  { hostBytes s r.2.2 (report s r.1 r.2.1) with attDone := true }

/-! ### Registers without a behaviour of their own -/

/-- KEYDAT, one of its eight words. -/
def writeKeydat (s : State) (i : Nat) (v : DWord) : State :=
  let d := fixLen 64 s.keydat
  { s with keydat := d.take (8 * i) ++ bytesOfWord v ++ d.drop (8 * i + 8) }

/-- A queue's block. -/
def writeQueue (s : State) (fn off : Nat) (v : DWord) : State :=
  let q := (off - 0x10000) / 64
  match off % 64 with
  | 0x00 => modQueue s fn q fun x => { x with base := v &&& ~~~(0x3F : DWord) }
  | 0x08 => writeQctl s fn q (v.extractLsb' 0 32)
  | 0x10 => writeTail s fn q (v.extractLsb' 0 32)
  | 0x20 => modQueue s fn q fun x => { x with cqBase := v &&& ~~~(0x1F : DWord) }
  | 0x28 => writeSized s fn off v
  | 0x38 => writeCqHead s fn q (v.extractLsb' 0 32)
  | _ => s

/-- Bits of a counter at which 1 is written are cleared. -/
def clearOnes (c : Word) (v : DWord) : Word := c &&& ~~~(v.extractLsb' 0 32)

/-- Counters of a core (R235). -/
def writeCoreCount (s : State) (off : Nat) (v : DWord) : State :=
  modCore s (off / 32) fun x => match off % 32 with
    | 0 => { x with sbfix := clearOnes x.sbfix v }
    | 8 => { x with mirmm := clearOnes x.mirmm v }
    | 16 => { x with shdmm := clearOnes x.shdmm v }
    | _ => { x with contn := clearOnes x.contn v }

/-- Counters of a channel (R126). -/
def writeChanCount (s : State) (off : Nat) (v : DWord) : State :=
  modChan s (off / 32) fun c => match off % 32 with
    | 0 => { c with cech := clearOnes c.cech v }
    | 8 => { c with uech := clearOnes c.uech v }
    | 16 => { c with pwch := clearOnes c.pwch v }
    | _ => c

/-- Registers that only the PF has (R126, R235, R236, R241, R246, R248). -/
def writePf (s : State) (off : Nat) (v : DWord) : State :=
  if 0x30000 ≤ off ∧ off < 0x30000 + 16 * 33 ∧ off % 16 = 0 then writeSlice s ((off - 0x30000) / 16) v
  else if 0x60000 ≤ off ∧ off < 0x60000 + 32 * 192 then writeCoreCount s (off - 0x60000) v
  else if 0x62000 ≤ off ∧ off < 0x62000 + 32 * 129 then writeChanCount s (off - 0x62000) v
  else if 0x71000 ≤ off ∧ off < 0x71000 + 16 * 33 then writePart s ((off - 0x71000) / 16) (off % 16) v
  else if off = 0x70200 then writeDefrag s (v.extractLsb' 0 32)
  else if off = 0x70300 then (lanesOf v).foldl resetVf s
  else if off = 0x70400 then { s with devid := bitsOf v 0 6, linkEn := v.extractLsb' 16 16 }
  else if 0x70500 ≤ off ∧ off < 0x70700 then { s with froute := tset s.froute ((off - 0x70500) / 8) (v.extractLsb' 0 16) }
  else if off = 0x90000 then
    (match bitsOf v 16 2 with
      | 1 => loadKey s (v.extractLsb' 0 8) (v.extractLsb' 8 8)
      | 2 => unloadKey s (v.extractLsb' 0 8)
      | _ => { s with keyctl := v.extractLsb' 0 18 |>.zeroExtend 32 })
  else if 0x90100 ≤ off ∧ off < 0x90140 then writeKeydat s ((off - 0x90100) / 8) v
  else if off = 0x100000 then { s with numVfs := if v.toNat ≤ 32 then v.toNat else s.numVfs }
  else if off = 0x100010 then { s with lost := s.lost.filter fun d => !v.getLsbD d, lostFns := s.lostFns.filter fun e => !v.getLsbD e.1 }
  else if 0x101000 ≤ off ∧ off < 0x101200 then
    let w := tget s.impWins ((off - 0x101000) / 32) {}
    { s with impWins := tset s.impWins ((off - 0x101000) / 32) (match off % 32 with
        | 0 => { w with base := v }
        | 8 => { w with size := v }
        | 16 => { w with devs := v }
        | _ => w) }
  else s

/-- A write of 8 bytes to a BAR at a multiple of 8 (R192, R200, R215, R241, R247). -/
def writeBar (s : State) (fn off : Nat) (v : DWord) : State :=
  if !fnThere s fn || off % 8 != 0 then s
  else if 0x10000 ≤ off ∧ off < 0x11000 then writeQueue s fn off v
  else if 0x20000 ≤ off ∧ off < 0x20200 then writeProc s fn off v
  else if 0x40000 ≤ off ∧ off < 0x42000 then writeSized s fn off v
  else if off = 0x50000 then modFn s fn fun f => { f with frBase := v &&& ~~~(0x3F : DWord) }
  else if off = 0x50008 then writeSized s fn off v
  else if off = 0x50018 then writeFrHead s fn (v.extractLsb' 0 32)
  else if off = 0x50020 then
    (match bitsOf v 0 2 with
      | 1 => retryFault s fn (v.extractLsb' 32 32)
      | 2 => deliverFault s fn (v.extractLsb' 32 32)
      | 3 => haltFault s fn (v.extractLsb' 32 32)
      | _ => s)
  else if 0x80000 ≤ off ∧ off < 0x80800 then
    (match off % 32 with
      | 0 => writePeers s fn ((off - 0x80000) / 32) v
      | 8 => writeCollEn s fn ((off - 0x80000) / 32) (v.extractLsb' 0 32)
      | _ => s)
  else if off = 0x100008 then modFn s fn fun f => { f with ats := v.getLsbD 0 }
  else if fn = 0 then writePf s off v
  else s

/-! ### Reads of the host (R241) -/

/-- Bits of a register by place. -/
def bitAt (b : Bool) (i : Nat) : DWord := if b then (1 : DWord) <<< i else 0
def numAt (n i : Nat) : DWord := BitVec.ofNat 64 (n * 2 ^ i)
def pairOf (hi lo : Word) : DWord := hi ++ lo

/-- A queue's block (R192). -/
def readQueue (x : Queue) (off : Nat) : DWord :=
  match off with
  | 0x00 => x.base
  | 0x08 => bitAt x.en 31 ||| numAt x.prio 24 ||| numAt x.proc 16 ||| numAt x.log2n 0
  | 0x10 => x.tail.zeroExtend 64
  | 0x18 => x.head.zeroExtend 64
  | 0x20 => x.cqBase
  | 0x28 => numAt x.cqLog2n 0
  | 0x30 => x.cqTail.zeroExtend 64
  | _ => x.cqHead.zeroExtend 64

/-- A process's block (R192). -/
def readProc (p : Proc) (off : Nat) : DWord :=
  match off with
  | 0 => p.root ||| numAt p.tier 4
  | 8 => bitAt p.v 31 ||| numAt p.weight 0
  | 16 => p.arena
  | _ => numAt p.arenaSz 0

/-- A node's block (R200). -/
def readNode (y : Node) (off : Nat) : DWord :=
  match off with
  | 0 => y.hdr
  | 8 => y.ring
  | 16 => bitAt y.en 31 ||| numAt y.proc 27 ||| numAt y.qlog 22 ||| numAt y.rwords 17 ||| numAt y.blog 0
  | _ => pairOf y.drop y.commit

/-- The fault ring's block (R215). FRESP is write only. -/
def readFault (f : Fn) (off : Nat) : DWord :=
  match off with
  | 0 => f.frBase
  | 8 => numAt f.frLog2n 0
  | 16 => f.frTail.zeroExtend 64
  | 24 => f.frHead.zeroExtend 64
  | _ => 0

/-- A collective barrier object (R247). -/
def readColl (o : Coll) (off : Nat) : DWord :=
  match off with
  | 0 => o.peers
  | 8 => bitAt o.en 31 ||| bitAt o.lost 30 ||| o.local_.zeroExtend 64
  | 16 => o.gen.zeroExtend 64
  | _ => o.count.zeroExtend 64

/-- Counters of a core and of a channel (R126, R235). -/
def readCoreCount (x : Core) (off : Nat) : DWord :=
  ((match off with | 0 => x.sbfix | 8 => x.mirmm | 16 => x.shdmm | _ => x.contn) : Word).zeroExtend 64
def readChanCount (c : Chan) (off : Nat) : DWord :=
  ((match off with | 0 => c.cech | 8 => c.uech | 16 => c.pwch | _ => 0) : Word).zeroExtend 64

/-- Registers that only the PF has. -/
def readPf (s : State) (off : Nat) : DWord :=
  if 0x30000 ≤ off ∧ off < 0x30000 + 16 * 33 then
    let f := fnAt s ((off - 0x30000) / 16)
    if off % 16 = 0 then pairOf f.period f.quantum else bitAt f.qraised 2 ||| bitAt f.qsum 1 ||| bitAt f.qzero 0
  else if 0x60000 ≤ off ∧ off < 0x60000 + 32 * 192 then readCoreCount (coreAt s ((off - 0x60000) / 32)) (off % 32)
  else if 0x62000 ≤ off ∧ off < 0x62000 + 32 * 129 then readChanCount (chanAt s ((off - 0x62000) / 32)) (off % 32)
  else if 0x70000 ≤ off ∧ off < 0x70000 + 8 * 24 then numAt (physCluster s ((off - 0x70000) / 8)) 0
  else if 0x70100 ≤ off ∧ off < 0x70180 then
    wordOfBytes ((List.range 8).map fun i => BitVec.ofNat 8 (tget s.smap (off - 0x70100 + i) (off - 0x70100 + i)))
  else if off = 0x70200 then bitAt s.defSwap.isSome 30 ||| numAt s.defB 8 ||| numAt s.defA 0
  else if off = 0x70400 then numAt s.linkEn.toNat 16 ||| numAt s.devid 0
  else if 0x70500 ≤ off ∧ off < 0x70700 then (tget s.froute ((off - 0x70500) / 8) 0).zeroExtend 64
  else if 0x71000 ≤ off ∧ off < 0x71000 + 16 * 33 then
    (partBlock (fnAt s ((off - 0x71000) / 16))).getD (off % 16 / 8) 0
  else if off = 0x90000 then s.keyctl.zeroExtend 64
  else if off = 0xA0000 then (devst s).zeroExtend 64
  else if 0xA0200 ≤ off ∧ off < 0xA0240 then (Config.idPub >>> (8 * (off - 0xA0200))).setWidth 64
  else if off = 0xA0300 then bitAt s.attDone 0
  else 0

/-- What a read of 8 bytes of a function's BAR answers, at a multiple of 8. In a VF the PF-only offsets read 0 (R241). -/
def readBar (s : State) (fn off : Nat) : DWord :=
  let f := fnAt s fn
  if !fnThere s fn || off % 8 != 0 then 0
  else if 0x10000 ≤ off ∧ off < 0x11000 then readQueue (queueAt s fn ((off - 0x10000) / 64)) (off % 64)
  else if 0x20000 ≤ off ∧ off < 0x20200 then readProc (tget f.procs ((off - 0x20000) / 32) {}) (off % 32)
  else if 0x40000 ≤ off ∧ off < 0x42000 then readNode (nodeAt s fn ((off - 0x40000) / 32)) (off % 32)
  else if 0x50000 ≤ off ∧ off < 0x50028 then readFault f (off - 0x50000)
  else if 0x80000 ≤ off ∧ off < 0x80800 then readColl (tget f.colls ((off - 0x80000) / 32) {}) (off % 32)
  else if fn = 0 then readPf s off
  else 0

/-! ### The events -/

/-- QTAIL_WRITE (R193). -/
def execQtailWrite (fn q : Nat) (v : Word) (s : State) : Host.Outcome State Fault Refusal :=
  .next (if fnThere s fn && decide (q < 64) then writeTail s fn q v else s)
/-- QCTL_WRITE (R193). -/
def execQctlWrite (fn q : Nat) (v : Word) (s : State) : Host.Outcome State Fault Refusal :=
  .next (if fnThere s fn && decide (q < 64) then writeQctl s fn q v else s)
/-- CQHEAD_WRITE (R196). -/
def execCqheadWrite (fn q : Nat) (v : Word) (s : State) : Host.Outcome State Fault Refusal :=
  .next (if fnThere s fn && decide (q < 64) then writeCqHead s fn q v else s)
/-- FRHEAD_WRITE (R215). -/
def execFrheadWrite (fn : Nat) (v : Word) (s : State) : Host.Outcome State Fault Refusal :=
  .next (if fnThere s fn then writeFrHead s fn v else s)
/-- SLICE_BLOCK_WRITE (R199): the PF sets PERIOD and QUANTUM of function `fn`. -/
def execSliceBlockWrite (fn : Nat) (v : DWord) (s : State) : Host.Outcome State Fault Refusal :=
  .next (if fn ≤ 32 then writeSlice s fn v else s)
/-- NODE_CONFIG_WRITE (R200, R201). -/
def execNodeConfigWrite (fn off : Nat) (v : DWord) (s : State) : Host.Outcome State Fault Refusal :=
  .next (if fnThere s fn && off % 8 == 0 then writeSized s fn off v else s)
/-- PROCESS_CONTEXT_WRITE (R192, R198, R199). -/
def execProcessContextWrite (fn off : Nat) (v : DWord) (s : State) : Host.Outcome State Fault Refusal :=
  .next (if fnThere s fn && off % 8 == 0 && decide (0x20000 ≤ off) && decide (off < 0x20200) then writeProc s fn off v else s)
/-- PARTITION_WRITE (R237). -/
def execPartitionWrite (off : Nat) (v : DWord) (s : State) : Host.Outcome State Fault Refusal :=
  .next (if 0x71000 ≤ off ∧ off < 0x71000 + 16 * 33 ∧ off % 8 = 0 then
    writePart s ((off - 0x71000) / 16) (off % 16) v else s)
/-- DEFRAG_GO (R238). -/
def execDefragGo (v : Word) (s : State) : Host.Outcome State Fault Refusal := .next (writeDefrag s v)
/-- VFRST_WRITE (R243): bit n resets VF n. DEDUCED (log 98). -/
def execVfrstWrite (v : DWord) (s : State) : Host.Outcome State Fault Refusal := .next ((lanesOf v).foldl resetVf s)
/-- FLR (R243). DEDUCED (log 86). -/
def execFlr (fn : Nat) (s : State) : Host.Outcome State Fault Refusal := .next (resetVf s fn)
/-- COLLECTIVE_EN_WRITE (R247). -/
def execCollectiveEnWrite (fn k : Nat) (v : Word) (s : State) : Host.Outcome State Fault Refusal :=
  .next (if fnThere s fn && decide (k < 64) then writeCollEn s fn k v else s)
/-- KEYCTL_LOAD (R248). -/
def execKeyctlLoad (kid owner : BitVec 8) (s : State) : Host.Outcome State Fault Refusal := .next (loadKey s kid owner)
/-- KEYCTL_UNLOAD (R248). -/
def execKeyctlUnload (kid : BitVec 8) (s : State) : Host.Outcome State Fault Refusal := .next (unloadKey s kid)

/-- An upper core powers up: its counter starts at zero, and VMIN anew (R28, R254). -/
def powerUp (s : State) (p : Nat) : State :=
  modCore (modPod s p fun q => { q with upst := 0 }) (p + 96) fun x => { x with cyc := 0, cycAt := s.now, vmin := 0xFFFF, vnow := 0 }

/-- DEVST_GOFULL (R251). DEDUCED (log 53). -/
def execDevstGofull (s : State) : Host.Outcome State Fault Refusal :=
  .next (if s.trained ≠ 0xFF ∨ s.launches ≠ [] then { s with badsw := true }
    else
      let s := { s with badsw := false, full := true, booted := true }
      (List.range 96).foldl (fun s p => if (podAt s p).upst == 2 && !(podAt s p).gate then powerUp s p else s) s)
/-- STACK_TRAINING_COMPLETE (R251). -/
def execStackTrainingComplete (k : Nat) (s : State) : Host.Outcome State Fault Refusal :=
  .next (if k < 8 then { s with trained := s.trained ||| (1 : BitVec 8) <<< k } else s)
/-- MODULE_RESET (R249, R251): the state after reset. The host's memory stands outside the module. Model time starts
anew, so that the cycle counters, to which R28 gives no value then, stand at 0. DEDUCED (log 89). DESIGN CHOICE (log 114). -/
def execModuleReset (s : State) : Host.Outcome State Fault Refusal :=
  .next { State.reset with agenda := s.agenda, turn := s.turn, nid := s.nid, fresh := s.fresh,
                           mem := hostCells s.mem, hout := s.hout }

/-- FIRMWARE_IMAGE_VERIFY (R255, R256): at boot, an image that the boot ROM has measured and verified extends its register. One
that does not verify does not run, and the device is in recovery. The register is the one that the image's header names, whatever
number comes with the event. DESIGN CHOICE (log 4). DEDUCED (log 91). -/
def execFirmwareImageVerify (_reg : Nat) (image sig : List Byte) (s : State) : Host.Outcome State Fault Refusal :=
  .next (if s.recov || s.booted then s
    else if Config.ed448Verify image sig then extendMeas s (Config.imageReg image).val (shake256 image) else { s with recov := true })
/-- FIRMWARE_UPDATE (R255, R258): a verified image is being applied; the next event of this kind ends the update, which
extends M7 and lets reports go that have waited. -/
def execFirmwareUpdate (image sig : List Byte) (s : State) : Host.Outcome State Fault Refusal :=
  .next (match s.updating with
    | none => if Config.ed448Verify image sig then { s with updating := some (shake256 image) } else s
    | some m =>
      let t := extendMeas { s with updating := none, attWait := [] } 7 m
      s.attWait.foldl attest t)
/-- RECOVERY_IMAGE_WRITE (R255, R256): the image is measured and verified, extends the register that its header names, and runs. -/
def execRecoveryImageWrite (image sig : List Byte) (s : State) : Host.Outcome State Fault Refusal :=
  .next (if s.recov && Config.ed448Verify image sig then
      { extendMeas s (Config.imageReg image).val (shake256 image) with recov := false }
    else s)
/-- ATTESTATION_REQUEST (R258). -/
def execAttestationRequest (nonce : List Byte) (fn : Nat) (addr : DWord) (s : State) : Host.Outcome State Fault Refusal :=
  .next (if 32 < fn then s
    else
      let s := { s with attDone := false }
      if s.updating.isSome then { s with attWait := s.attWait ++ [(nonce, fn, addr)] } else attest s (nonce, fn, addr))
/-- BAR_REGISTER_WRITE (R192). -/
def execBarRegisterWrite (fn off : Nat) (v : DWord) (s : State) : Host.Outcome State Fault Refusal := .next (writeBar s fn off v)

/-! ### The host tier (R93, R242) -/

/-- A host read that waits for its completion. -/
def hostMsg (s : State) (n : Nat) : Option HomeMsg :=
  s.net.find? fun m => m.id == n && m.ask != 0 && m.mem.isNone && tierOf m.w == 2

/-- HOST_READ_COMPLETION: the word comes from the host. -/
def execHostReadCompletion (n : Nat) (data : List DWord) (s : State) : Host.Outcome State Fault Refusal :=
  .next (match hostMsg s n with
    | none => s
    | some m =>
      let d := data.headD 0
      modMsg { s with mem := memPut s.mem m.w ⟨d, 0, 0⟩ } n fun m => { m with mem := some { data := d } })

/-- HOST_COMPLETION_TIMEOUT: a read answers with a poisoned zero, a write counts as performed; number 0 stands for a write
that waits for nothing. DEDUCED (log 93). -/
def execHostCompletionTimeout (n : Nat) (s : State) : Host.Outcome State Fault Refusal :=
  .next (match hostMsg s n with
    | none => if n = 0 ∧ s.hout.any (fun r => r.id == 0) then errorRecord s 0 0 0 0 else s
    | some m =>
      let s := { s with net := s.net.filter fun x => x.id != n }
      let s := if needsValue m.kind && !(match m.kind with | .ranked .. | .copied .. => true | _ => false) then
          respond s m { pois := true } false
        else if m.acc = 0 then s else respond s m {} false
      errorRecord s m.fn (BitVec.ofNat 64 (8 * waddrOf m.w)) 0 0)

end Sys2Proof.Machine
end

