-- ==== Sys2Proof/Machine/EvFabric.lean ====
section
/-! DEFINITION. EvFabric.lean: the peer fabric (R146 to R149, R244 to R247): flits that arrive, requests of peers, answers
of peers, barrier flits, and peers that are lost. -/
namespace Sys2Proof.Machine

/-! ### Lost peers (R149) -/

/-- A request is answered, with a word or an acknowledgement: its item moves on, and requests that waited go out. -/
def answerReq (s : State) (r : RemoteReq) (mw : MWord) : State :=
  let s := { s with rreqs := s.rreqs.filter fun q => q.id != r.id }
  let it := itemAt s r.core r.acc
  let s := match it.map (·.body) with
    | some (.copyUnit cmd unit write) => endItem (copyAnswer s r.core cmd unit r.w write mw) r.core r.acc
    | some (.feRead w) =>
      endItem (modFn s ((it.map (·.fn)).getD 0) fun f => { f with fetched := f.fetched ++ [(w, mw)] }) r.core r.acc
    | _ => resendWaiting (answerItem s r.core r.acc r.ins r.id r.w mw false) r.core
  pumpRemote (resetStep s r.fn)

/-- What a request to a lost peer ends with: a poisoned zero where a value is waited for. A store is dropped, and counts as
performed (R149). -/
def lostWord0 (r : RemoteReq) : MWord := if r.op.extractLsb' 4 2 = 0 ∨ r.op.extractLsb' 4 2 = 3 then { pois := true } else {}

/-- A function has a request to a lost word in flight, or an armed object that includes a lost peer d. -/
def concerns (s : State) (fn d : Nat) : Bool :=
  (s.rreqs.any fun r => r.dev == d && lostWord s r.w && r.fn == fn) || (fnAt s fn).colls.any fun e => e.2.en && e.2.peers.getLsbD d

/-- Loads of a core keep nothing of a lost word's instruction lane: every word that has come ends with value 0 and poison (R149). -/
def loseLoads (s : State) (c : Nat) : State :=
  modItems s c fun xs => xs.map fun i => match i.body with
    | .load sh ws got dsts acq =>
      if ws.any (lostWord s) then { i with body := .load sh ws (got.map fun e => (e.1, { pois := true })) dsts acq } else i
    | _ => i

/-- A peer has been marked lost: what is in flight to its lost words ends with poisoned zeros or counts as performed, objects that
include it report it, whether armed or not, and the functions concerned get an error record (R149, R247). -/
def peerDrop (s : State) (d : Nat) : State :=
  let fns := (List.range 33).filter fun n => concerns s n d
  let flag := fun (o : Coll) => if o.peers.getLsbD d then { o with lost := true } else o
  let s := { s with fns := s.fns.map fun (n, f) => (n, { f with colls := f.colls.map fun e => (e.1, flag e.2) }) }
  let s := fns.foldl (fun s n => errorRecord s n (BitVec.ofNat 64 d) 0 0) s
  let gone := s.rreqs.filter fun r => r.dev == d && lostWord s r.w
  let s := ((gone.map (·.core)).eraseDups).foldl loseLoads s
  gone.foldl (fun s r => answerReq s r (lostWord0 r)) s

/-- A peer is marked lost. -/
def markLost (s : State) (d : Nat) : State :=
  if s.lost.contains d then s else peerDrop { s with lost := s.lost ++ [d] } d

/-- A peer is marked lost for the addresses that one of its functions serves (R243). -/
def markLostFn (s : State) (d fn : Nat) : State :=
  if s.lostFns.contains (d, fn) then s else peerDrop { s with lostFns := s.lostFns ++ [(d, fn)] } d

/-- RESET_NOTICE_RECEIVE. The peer is lost for the addresses that the function that was reset served; which those are is the peer's
own matter. DESIGN CHOICE (log 17). -/
def execResetNoticeReceive (dev fn : Nat) (s : State) : Host.Outcome State Fault Refusal :=
  let came := fun (m : FabMsg) => m.kind == 4 && m.dev == dev && m.q0 == BitVec.ofNat 64 fn
  .next (if 64 ≤ dev ∨ dev = s.devid then s else markLostFn { s with rin := s.rin.filter fun m => !came m } dev fn)

/-- FABRIC_LIMIT_EXPIRY: 131,072 cycles after its issue a request is not answered (R245). One of a function in reset, and one to a
peer that is lost already, is dropped (R149, R243). -/
def execFabricLimitExpiry (n : Nat) (s : State) : Host.Outcome State Fault Refusal :=
  .next (match s.rreqs.find? fun r => r.id == n with
    | some r =>
      if (fnAt s r.fn).resetting then answerReq s r (lostWord0 r)
      else if lostWord s r.w then answerReq (errorRecord s r.fn (BitVec.ofNat 64 r.dev) 0 0) r (lostWord0 r)
      else if r.since + 131072 ≤ s.now then markLost s r.dev
      else s
    | none => s)

/-- A link goes down. Peers that no link reaches any longer are lost, and requests find other links (R246). DEDUCED (log 95). -/
def linkDown (s : State) (i : Nat) : State :=
  let was := (List.range 64).filter fun d => d != s.devid && (linkFor s d 0).isSome
  let s := modLink s i fun l => { l with down := true }
  pumpRemote ((was.filter fun d => (linkFor s d 0).isNone).foldl markLost s)

/-- LINK_FAILURE. -/
def execLinkFailure (link : Nat) (s : State) : Host.Outcome State Fault Refusal :=
  .next (if linkUp s link && decide (link < 16) then linkDown s link else s)

/-! ### Flits (R244, R245) -/

/-- A device asks for the resending of flits from a sequence number on (log 16). -/
def askResend (s : State) (i dev : Nat) (seq : BitVec 12) : State :=
  sendFlit s i dev 4 [seq.zeroExtend 64, (1 : DWord) <<< (63 : Nat), 0]

/-- Word k of a flit, and its SEQ. -/
def flitWord (b : List Byte) (k : Nat) : DWord := wordOfBytes ((b.drop (8 * k)).take 8)
def flitSeq (b : List Byte) : BitVec 12 := (flitWord b 0).extractLsb' 0 12

/-- Flits that a link has sent, from a sequence number on, go out again as they were, at most the newest 2,048. -/
def resend (s : State) (i : Nat) (seq : BitVec 12) : State :=
  let mine := s.fout.filter fun e => e.1 == i
  let again := mine.filter fun e => decide ((flitSeq e.2 - seq).toNat < 2048) && decide (((linkAt s i).txSeq - flitSeq e.2).toNat ≤ 2048)
  { s with fout := s.fout ++ again }

/-- An operation takes a second operand (R244). DEDUCED (log 97). -/
def twoOperands (q1 : DWord) : Bool :=
  decide (2 ≤ bitsOf q1 61 2) && (match decAOp ((q1.extractLsb' 57 4)) with | some .cas32 | some .cas64 => true | _ => false)

/-- The messages of a flit's slots. The slot behind an operation of two operands holds the second one. -/
def slotMsgs (kind dev n : Nat) (b : List Byte) : Nat → Nat → List FabMsg
  | 0, _ => []
  | fuel + 1, i =>
    if 10 ≤ i then []
    else
      let q := fun (k : Nat) => flitWord b (1 + 3 * i + k)
      if !(q 1).getLsbD 63 then slotMsgs kind dev n b fuel (i + 1)
      else if kind == 1 && twoOperands (q 1) then
        (if 9 ≤ i then [] else [{ id := n + i, dev := dev, kind := kind, q0 := q 0, q1 := q 1, q2 := q 2, second := q 3 }])
          ++ slotMsgs kind dev n b fuel (i + 2)
      else { id := n + i, dev := dev, kind := kind, q0 := q 0, q1 := q 1, q2 := q 2 } :: slotMsgs kind dev n b fuel (i + 1)

/-- A flit that passes its CRC and stands next in order is taken in. DEDUCED (log 19). -/
def takeFlit (s : State) (i : Nat) (b : List Byte) : State :=
  let h := flitWord b 0
  let dev := bitsOf h 24 6
  let kind := bitsOf h 36 4
  let s := modLink s i fun l => { l with rxSeq := flitSeq b, fails := 0, credits := l.credits + bitsOf h 40 8 }
  let ms := slotMsgs kind dev s.nid b 10 0
  let s := { s with nid := s.nid + 10 }
  match kind with
  | 1 | 2 | 3 => { s with rin := s.rin ++ ms }
  | 4 => ms.foldl (fun s m => if m.q1.getLsbD 0 then { s with rin := s.rin ++ [m] } else resend s i (m.q0.extractLsb' 0 12)) s
  | _ => s

/-- FLIT_RECEIVE. A flit that fails its CRC, or comes ahead of its turn, is discarded and asked for again; with eight failed
resends of one flit the link goes down. One that came before, or is for another device, is discarded. -/
def execFlitReceive (link : Nat) (flit : List Byte) (s : State) : Host.Outcome State Fault Refusal :=
  .next (if 16 ≤ link || !linkUp s link || flit.length != 256 then s
    else
      let l := linkAt s link
      let next := l.rxSeq + 1
      if wordOfBytes (flit.drop 248) != crc64 (flit.take 248) then
        if 8 ≤ l.fails then linkDown s link
        else askResend (modLink s link fun l => { l with fails := l.fails + 1 }) link (bitsOf (flitWord flit 0) 24 6) next
      else if bitsOf (flitWord flit 0) 30 6 ≠ s.devid then s
      else if flitSeq flit = next then takeFlit s link flit
      else if (flitSeq flit - next).toNat < 2048 then askResend s link (bitsOf (flitWord flit 0) 24 6) next
      else s)

/-! ### Messages of peers -/

/-- A message of a kind, if none of its device and kind came before it. -/
def rinAt (s : State) (n kind : Nat) : Option FabMsg :=
  match s.rin.find? fun m => m.id == n && m.kind == kind with
  | some m => if s.rin.any fun x => x.kind == kind && x.dev == m.dev && decide (x.id < m.id) then none else some m
  | none => none

def takeRin (s : State) (n : Nat) : State := { s with rin := s.rin.filter fun m => m.id != n }

/-- A request is inside one of the 16 import windows that take its device (R246). -/
def importOk (s : State) (dev addr : Nat) : Bool :=
  s.impWins.any fun e => decide (e.1 < 16) && decide (e.2.base.toNat ≤ addr) && decide (addr + 8 ≤ e.2.base.toNat + e.2.size.toNat)
    && e.2.devs.getLsbD dev

/-- What a request asks of its home (R147, R244). A write of no bytes is a rank clear, and one with OP[0] set a copy's (log 8). -/
def reqKind (m : FabMsg) : Option MsgKind :=
  let mask : BitVec 8 := m.q1.extractLsb' 49 8
  let rank : Rank := ⟨m.dev, bitsOf m.q2 16 8, bitsOf m.q2 24 7, bitsOf m.q2 31 6⟩
  match bitsOf m.q1 61 2 with
  | 0 => some .read
  | 1 => some (if mask = 0 then .rankClear
      else if m.q1.getLsbD 57 then .copied mask { data := m.q0, pois := m.q1.getLsbD 58, tagd := false }
      else .ranked rank mask { data := m.q0, tagd := false })
  | _ => (decAOp (m.q1.extractLsb' 57 4)).map fun o => .atomic o m.q0 m.second (if mask = 0xF0 then 4 else 0)

/-- REMOTE_REQUEST_RECEIVE: the request goes to its home slice in this device's stacked memory (log 18), or it is refused. -/
def execRemoteRequestReceive (n : Nat) (s : State) : Host.Outcome State Fault Refusal :=
  .next (match rinAt s n 1 with
    | none => s
    | some m =>
      let s := takeRin s n
      let w := bitsOf m.q1 0 49
      let tag : BitVec 16 := m.q2.extractLsb' 0 16
      let refuse := sendTo s m.dev (homeSlice s w) 2
        [0, (tag.zeroExtend 64 : DWord) ||| (3 : DWord) <<< (16 : Nat) ||| (1 : DWord) <<< (63 : Nat), 0]
      match importOk s m.dev (8 * w), reqKind m with
      | true, some k =>
        sendMsg s { id := 0, src := .fabric m.dev tag (bitsOf m.q2 16 8) (bitsOf m.q2 24 7) (bitsOf m.q2 31 6), fn := 0, w := w,
                    kind := k, alloc := .normal, acc := 1 }
      | _, _ => errorRecord refuse 0 (BitVec.ofNat 64 (8 * w)) 0 0)

/-- REMOTE_RESPONSE_RECEIVE: of a refused request a load takes a poisoned zero, and an error record goes out (R246). -/
def execRemoteResponseReceive (n : Nat) (s : State) : Host.Outcome State Fault Refusal :=
  .next (match rinAt s n 2 with
    | none => s
    | some m =>
      let s := takeRin s n
      match s.rreqs.find? fun r => r.sent && r.dev == m.dev && r.id % 65536 == bitsOf m.q1 0 16 with
      | none => s
      | some r =>
        let refused := m.q1.getLsbD 17
        let s := if refused then errorRecord s r.fn (BitVec.ofNat 64 (8 * peerWord r.w)) 0 0 else s
        answerReq s r (if refused then { pois := true } else { data := m.q0, pois := m.q1.getLsbD 16 }))

/-- BARRIER_FLIT_RECEIVE (R247). A flit of the generation after the current one is kept for it. -/
def execBarrierFlitReceive (n : Nat) (s : State) : Host.Outcome State Fault Refusal :=
  .next (match rinAt s n 3 with
    | none => s
    | some m =>
      let s := takeRin s n
      let fn := bitsOf m.q0 6 26
      let i := bitsOf m.q0 0 6
      let o := collAt s fn i
      let gen : Word := m.q1.extractLsb' 0 32
      if 33 ≤ fn then s
      else if !o.peers.getLsbD m.dev then errorRecord s fn (BitVec.ofNat 64 m.dev) 0 0
      else if gen = o.gen then
        modColl s fn i fun o => let o := { o with got := o.got ||| (1 : DWord) <<< m.dev }; if o.en then collSettle o else o
      else if gen = o.gen + 1 then modColl s fn i fun o => { o with gotNext := o.gotNext ||| (1 : DWord) <<< m.dev }
      else s)

end Sys2Proof.Machine
end

