-- ==== Sys2Proof/Machine/Dispatch.lean ====
section
/-! DEFINITION. Dispatch.lean: one arm per row of the opcode table, each one call of that row's meaning. -/
namespace Sys2Proof.Machine

/-- The meaning of a row of the table. -/
def exec (i : Instr) (s : State) : Host.Outcome State Fault Refusal :=
  match i with
  | .nop c => Sys2Proof.Machine.execNop c s
  | .bra c off => Sys2Proof.Machine.execBra c off s
  | .brc c p cond off => Sys2Proof.Machine.execBrc c p cond off s
  | .brx c a => Sys2Proof.Machine.execBrx c a s
  | .call c d off => Sys2Proof.Machine.execCall c d off s
  | .callx c d a => Sys2Proof.Machine.execCallx c d a s
  | .ret c a => Sys2Proof.Machine.execRet c a s
  | .exit c => Sys2Proof.Machine.execExit c s
  | .meet c n off => Sys2Proof.Machine.execMeet c n off s
  | .jarr c n => Sys2Proof.Machine.execJarr c n s
  | .jleave c n => Sys2Proof.Machine.execJleave c n s
  | .meld c sel wp => Sys2Proof.Machine.execMeld c sel wp s
  | .meldx c => Sys2Proof.Machine.execMeldx c s
  | .ptab c k hi lit => Sys2Proof.Machine.execPtab c k hi lit s
  | .npb c => Sys2Proof.Machine.execNpb c s
  | .npe c => Sys2Proof.Machine.execNpe c s
  | .trap c imm => Sys2Proof.Machine.execTrap c imm s
  | .bkpt c imm => Sys2Proof.Machine.execBkpt c imm s
  | .svc c imm => Sys2Proof.Machine.execSvc c imm s
  | .eret c => Sys2Proof.Machine.execEret c s
  | .waite c mask => Sys2Proof.Machine.execWaite c mask s
  | .rdcyc c d => Sys2Proof.Machine.execRdcyc c d s
  | .mfs c d n => Sys2Proof.Machine.execMfs c d n s
  | .mts c a n => Sys2Proof.Machine.execMts c a n s
  | .iadd c d a b md => Sys2Proof.Machine.execIadd c d a b md s
  | .iaddi c d a imm => Sys2Proof.Machine.execIaddi c d a imm s
  | .isub c d a b md => Sys2Proof.Machine.execIsub c d a b md s
  | .imul c d a b => Sys2Proof.Machine.execImul c d a b s
  | .imulh c d a b uns => Sys2Proof.Machine.execImulh c d a b uns s
  | .imad c d a b e => Sys2Proof.Machine.execImad c d a b e s
  | .imin c d a b uns => Sys2Proof.Machine.execImin c d a b uns s
  | .imax c d a b uns => Sys2Proof.Machine.execImax c d a b uns s
  | .iabs c d a sat => Sys2Proof.Machine.execIabs c d a sat s
  | .lop c d a b t => Sys2Proof.Machine.execLop c d a b t s
  | .lopi c d a t b => Sys2Proof.Machine.execLopi c d a t b s
  | .shl c d a b => Sys2Proof.Machine.execShl c d a b s
  | .shr c d a b => Sys2Proof.Machine.execShr c d a b s
  | .sar c d a b => Sys2Proof.Machine.execSar c d a b s
  | .popc c d a => Sys2Proof.Machine.execPopc c d a s
  | .clz c d a => Sys2Proof.Machine.execClz c d a s
  | .brev c d a => Sys2Proof.Machine.execBrev c d a s
  | .bfx c d a b sx => Sys2Proof.Machine.execBfx c d a b sx s
  | .bfi c d a b e => Sys2Proof.Machine.execBfi c d a b e s
  | .icmp c p cc a b => Sys2Proof.Machine.execIcmp c p cc a b s
  | .icmpi c p cc a imm => Sys2Proof.Machine.execIcmpi c p cc a imm s
  | .aadd c d a b scale zx => Sys2Proof.Machine.execAadd c d a b scale zx s
  | .aaddi c d a imm => Sys2Proof.Machine.execAaddi c d a imm s
  | .sel c d a b p neg => Sys2Proof.Machine.execSel c d a b p neg s
  | .mov c d a => Sys2Proof.Machine.execMov c d a s
  | .movi c d imm => Sys2Proof.Machine.execMovi c d imm s
  | .movl c d pair lit => Sys2Proof.Machine.execMovl c d pair lit s
  | .plop c d a b t => Sys2Proof.Machine.execPlop c d a b t s
  | .fadd c d a b rm na nb => Sys2Proof.Machine.execFadd c d a b rm na nb s
  | .fmul c d a b rm na nb => Sys2Proof.Machine.execFmul c d a b rm na nb s
  | .ffma c d a b e rm np nc => Sys2Proof.Machine.execFfma c d a b e rm np nc s
  | .fmin c d a b => Sys2Proof.Machine.execFmin c d a b s
  | .fmax c d a b => Sys2Proof.Machine.execFmax c d a b s
  | .fcmp c p cc a b => Sys2Proof.Machine.execFcmp c p cc a b s
  | .frnd c d a rm => Sys2Proof.Machine.execFrnd c d a rm s
  | .fcls c d a => Sys2Proof.Machine.execFcls c d a s
  | .frcp c d a => Sys2Proof.Machine.execFrcp c d a s
  | .frsq c d a => Sys2Proof.Machine.execFrsq c d a s
  | .fsqt c d a => Sys2Proof.Machine.execFsqt c d a s
  | .fex2 c d a => Sys2Proof.Machine.execFex2 c d a s
  | .flg2 c d a => Sys2Proof.Machine.execFlg2 c d a s
  | .fspi c d a => Sys2Proof.Machine.execFspi c d a s
  | .fcpi c d a => Sys2Proof.Machine.execFcpi c d a s
  | .padd2 c d a b rm bf => Sys2Proof.Machine.execPadd2 c d a b rm bf s
  | .pmul2 c d a b rm bf => Sys2Proof.Machine.execPmul2 c d a b rm bf s
  | .pfma2 c d a b e rm bf => Sys2Proof.Machine.execPfma2 c d a b e rm bf s
  | .dot2f c d a b e bf => Sys2Proof.Machine.execDot2f c d a b e bf s
  | .dot4i c d a b e ua ub => Sys2Proof.Machine.execDot4i c d a b e ua ub s
  | .spdot c d a b e => Sys2Proof.Machine.execSpdot c d a b e s
  | .cvt c d a dst src rm sat el => Sys2Proof.Machine.execCvt c d a dst src rm sat el s
  | .pack2 c d a b => Sys2Proof.Machine.execPack2 c d a b s
  | .unpk2 c d a hi sx => Sys2Proof.Machine.execUnpk2 c d a hi sx s
  | .raybox c d a b => Sys2Proof.Machine.execRaybox c d a b s
  | .raytri c d a b => Sys2Proof.Machine.execRaytri c d a b s
  | .shfl c d a b mode => Sys2Proof.Machine.execShfl c d a b mode s
  | .ballot c d p => Sys2Proof.Machine.execBallot c d p s
  | .vote c d p mode => Sys2Proof.Machine.execVote c d p mode s
  | .matchKeys c d a => Sys2Proof.Machine.execMatchKeys c d a s
  | .compact c d a => Sys2Proof.Machine.execCompact c d a s
  | .reduce c d a op => Sys2Proof.Machine.execReduce c d a op s
  | .scan c d a op excl => Sys2Proof.Machine.execScan c d a op excl s
  | .regroup c key off carry => Sys2Proof.Machine.execRegroup c key off carry s
  | .topk c d a b kind => Sys2Proof.Machine.execTopk c d a b kind s
  | .pchk c p a => Sys2Proof.Machine.execPchk c p a s
  | .ld c d a b kind hint acq off => Sys2Proof.Machine.execLd c d a b kind hint acq off s
  | .st c a b kind hint rel off => Sys2Proof.Machine.execSt c a b kind hint rel off s
  | .ldu c d a b kind ro off => Sys2Proof.Machine.execLdu c d a b kind ro off s
  | .lds c d a kind acq off => Sys2Proof.Machine.execLds c d a kind acq off s
  | .sts c a b kind rel off => Sys2Proof.Machine.execSts c a b kind rel off s
  | .atom c d a b op ord off => Sys2Proof.Machine.execAtom c d a b op ord off s
  | .red c a b op rel off => Sys2Proof.Machine.execRed c a b op rel off s
  | .fence c kind => Sys2Proof.Machine.execFence c kind s
  | .pref c a b l2 off => Sys2Proof.Machine.execPref c a b l2 off s
  | .cctl c a kind off => Sys2Proof.Machine.execCctl c a kind off s
  | .mzero c a n off => Sys2Proof.Machine.execMzero c a n off s
  | .mcopy c a b n off => Sys2Proof.Machine.execMcopy c a b n off s
  | .mcmp c d a b n off => Sys2Proof.Machine.execMcmp c d a b n off s
  | .swinit c a b off => Sys2Proof.Machine.execSwinit c a b off s
  | .swarr c a b off => Sys2Proof.Machine.execSwarr c a b off s
  | .swwait c a b off => Sys2Proof.Machine.execSwwait c a b off s
  | .bar c id cnt => Sys2Proof.Machine.execBar c id cnt s
  | .bara c id cnt => Sys2Proof.Machine.execBara c id cnt s
  | .barw c id => Sys2Proof.Machine.execBarw c id s
  | .acp c d a comp q size g => Sys2Proof.Machine.execAcp c d a comp q size g s
  | .acpt c slot a q hi lit => Sys2Proof.Machine.execAcpt c slot a q hi lit s
  | .acpr c d a b comp q op => Sys2Proof.Machine.execAcpr c d a b comp q op s
  | .acpl c d a b q g size comp => Sys2Proof.Machine.execAcpl c d a b q g size comp s
  | .enq c a b => Sys2Proof.Machine.execEnq c a b s
  | .enqc c => Sys2Proof.Machine.execEnqc c s
  | .tksig c a => Sys2Proof.Machine.execTksig c a s
  | .gang c a b shape => Sys2Proof.Machine.execGang c a b shape s
  | .tclm c p s1 s2 s3 => Sys2Proof.Machine.execTclm c p s1 s2 s3 s
  | .trel c s1 s2 s3 => Sys2Proof.Machine.execTrel c s1 s2 s3 s
  | .tfill c slot b hi bc b8 => Sys2Proof.Machine.execTfill c slot b hi bc b8 s
  | .mma c d a b b2 ty shape z => Sys2Proof.Machine.execMma c d a b b2 ty shape z s
  | .mlic c p => Sys2Proof.Machine.execMlic c p s
  | .mlrel c => Sys2Proof.Machine.execMlrel c s
  | .twsend c a => Sys2Proof.Machine.execTwsend c a s
  | .twsendNb c p a => Sys2Proof.Machine.execTwsendNb c p a s
  | .twrecv c d => Sys2Proof.Machine.execTwrecv c d s
  | .twfree c d => Sys2Proof.Machine.execTwfree c d s
  | .twbar c n => Sys2Proof.Machine.execTwbar c n s
  | .clauseStart core q => Sys2Proof.Machine.execClauseStart core q s
  | .l1Fill core n => Sys2Proof.Machine.execL1Fill core n s
  | .frespRetry fn token => Sys2Proof.Machine.execFrespRetry fn token s
  | .frespDeliver fn token => Sys2Proof.Machine.execFrespDeliver fn token s
  | .frespHalt fn token => Sys2Proof.Machine.execFrespHalt fn token s
  | .registerPressureEviction core => Sys2Proof.Machine.execRegisterPressureEviction core s
  | .evictedGroupResume core => Sys2Proof.Machine.execEvictedGroupResume core s
  | .setAdmission launch set core => Sys2Proof.Machine.execSetAdmission launch set core s
  | .granuleConversionDone core spad => Sys2Proof.Machine.execGranuleConversionDone core spad s
  | .pageWalkComplete n => Sys2Proof.Machine.execPageWalkComplete n s
  | .translationInvalidate fn proc pages => Sys2Proof.Machine.execTranslationInvalidate fn proc pages s
  | .translationInvalidateDone n => Sys2Proof.Machine.execTranslationInvalidateDone n s
  | .migrationStart fn proc page tier ppn => Sys2Proof.Machine.execMigrationStart fn proc page tier ppn s
  | .migrationComplete => Sys2Proof.Machine.execMigrationComplete s
  | .homeReadMiss n => Sys2Proof.Machine.execHomeReadMiss n s
  | .homeRankedWrite n => Sys2Proof.Machine.execHomeRankedWrite n s
  | .homeUnrankedWrite n => Sys2Proof.Machine.execHomeUnrankedWrite n s
  | .homeRegistration n => Sys2Proof.Machine.execHomeRegistration n s
  | .homeRankClear n => Sys2Proof.Machine.execHomeRankClear n s
  | .homeAtomic n => Sys2Proof.Machine.execHomeAtomic n s
  | .homeCopyWrite core q unit => Sys2Proof.Machine.execHomeCopyWrite core q unit s
  | .recall n => Sys2Proof.Machine.execRecall n s
  | .registrationAck n => Sys2Proof.Machine.execRegistrationAck n s
  | .burstSlot chan => Sys2Proof.Machine.execBurstSlot chan s
  | .scoreboardRepair core slot => Sys2Proof.Machine.execScoreboardRepair core slot s
  | .containment launch core slot src lanes => Sys2Proof.Machine.execContainment launch core slot src lanes s
  | .snapshotCopyDone n => Sys2Proof.Machine.execSnapshotCopyDone n s
  | .copyWriteAck core q unit => Sys2Proof.Machine.execCopyWriteAck core q unit s
  | .copyComplete core q => Sys2Proof.Machine.execCopyComplete core q s
  | .queueFenceComplete core id => Sys2Proof.Machine.execQueueFenceComplete core id s
  | .taskDecrement fn => Sys2Proof.Machine.execTaskDecrement fn s
  | .frontEndArbitrate fn => Sys2Proof.Machine.execFrontEndArbitrate fn s
  | .cmdLaunch fn => Sys2Proof.Machine.execCmdLaunch fn s
  | .cmdGraphReplay fn => Sys2Proof.Machine.execCmdGraphReplay fn s
  | .cmdCopy fn => Sys2Proof.Machine.execCmdCopy fn s
  | .cmdSignalDecrement fn => Sys2Proof.Machine.execCmdSignalDecrement fn s
  | .cmdSignalSet fn => Sys2Proof.Machine.execCmdSignalSet fn s
  | .cmdFence fn => Sys2Proof.Machine.execCmdFence fn s
  | .launchComplete launch => Sys2Proof.Machine.execLaunchComplete launch s
  | .cmdFenceComplete fn n => Sys2Proof.Machine.execCmdFenceComplete fn n s
  | .graphReplayComplete fn n => Sys2Proof.Machine.execGraphReplayComplete fn n s
  | .vtUpdate fn => Sys2Proof.Machine.execVtUpdate fn s
  | .quantumWindowEnd cluster => Sys2Proof.Machine.execQuantumWindowEnd cluster s
  | .batchLaunch fn node => Sys2Proof.Machine.execBatchLaunch fn node s
  | .batchTimeout fn node => Sys2Proof.Machine.execBatchTimeout fn node s
  | .groupForm core => Sys2Proof.Machine.execGroupForm core s
  | .regroupTimeout core => Sys2Proof.Machine.execRegroupTimeout core s
  | .hardPreemption launch set => Sys2Proof.Machine.execHardPreemption launch set s
  | .lightPreemption launch set => Sys2Proof.Machine.execLightPreemption launch set s
  | .saveImageComplete launch set => Sys2Proof.Machine.execSaveImageComplete launch set s
  | .restore launch set core => Sys2Proof.Machine.execRestore launch set core s
  | .sensorSample pod tup tlo vup vlo rup rlo => Sys2Proof.Machine.execSensorSample pod tup tlo vup vlo rup rlo s
  | .thermalThrottleStep pod => Sys2Proof.Machine.execThermalThrottleStep pod s
  | .supplyDroop core mv => Sys2Proof.Machine.execSupplyDroop core mv s
  | .licenceGrant pod => Sys2Proof.Machine.execLicenceGrant pod s
  | .licenceIdleExpiry pod => Sys2Proof.Machine.execLicenceIdleExpiry pod s
  | .licenceHoldExpiry pod => Sys2Proof.Machine.execLicenceHoldExpiry pod s
  | .handoverEnd pod => Sys2Proof.Machine.execHandoverEnd pod s
  | .roundFire core => Sys2Proof.Machine.execRoundFire core s
  | .mmaRoundComplete core => Sys2Proof.Machine.execMmaRoundComplete core s
  | .slotClearDone core slot => Sys2Proof.Machine.execSlotClearDone core slot s
  | .linkItemCross core => Sys2Proof.Machine.execLinkItemCross core s
  | .podctlGate pod => Sys2Proof.Machine.execPodctlGate pod s
  | .podctlUngate pod => Sys2Proof.Machine.execPodctlUngate pod s
  | .gatingComplete pod => Sys2Proof.Machine.execGatingComplete pod s
  | .ungatingComplete pod => Sys2Proof.Machine.execUngatingComplete pod s
  | .qtailWrite fn q v => Sys2Proof.Machine.execQtailWrite fn q v s
  | .qctlWrite fn q v => Sys2Proof.Machine.execQctlWrite fn q v s
  | .cqheadWrite fn q v => Sys2Proof.Machine.execCqheadWrite fn q v s
  | .frheadWrite fn v => Sys2Proof.Machine.execFrheadWrite fn v s
  | .sliceBlockWrite fn v => Sys2Proof.Machine.execSliceBlockWrite fn v s
  | .nodeConfigWrite fn off v => Sys2Proof.Machine.execNodeConfigWrite fn off v s
  | .processContextWrite fn off v => Sys2Proof.Machine.execProcessContextWrite fn off v s
  | .partitionWrite off v => Sys2Proof.Machine.execPartitionWrite off v s
  | .defragGo v => Sys2Proof.Machine.execDefragGo v s
  | .vfrstWrite v => Sys2Proof.Machine.execVfrstWrite v s
  | .flr fn => Sys2Proof.Machine.execFlr fn s
  | .collectiveEnWrite fn k v => Sys2Proof.Machine.execCollectiveEnWrite fn k v s
  | .keyctlLoad kid owner => Sys2Proof.Machine.execKeyctlLoad kid owner s
  | .keyctlUnload kid => Sys2Proof.Machine.execKeyctlUnload kid s
  | .devstGofull => Sys2Proof.Machine.execDevstGofull s
  | .stackTrainingComplete k => Sys2Proof.Machine.execStackTrainingComplete k s
  | .moduleReset => Sys2Proof.Machine.execModuleReset s
  | .firmwareImageVerify reg image sig => Sys2Proof.Machine.execFirmwareImageVerify reg image sig s
  | .firmwareUpdate image sig => Sys2Proof.Machine.execFirmwareUpdate image sig s
  | .recoveryImageWrite image sig => Sys2Proof.Machine.execRecoveryImageWrite image sig s
  | .attestationRequest nonce fn addr => Sys2Proof.Machine.execAttestationRequest nonce fn addr s
  | .debugRead t => Sys2Proof.Machine.execDebugRead t s
  | .flitReceive link flit => Sys2Proof.Machine.execFlitReceive link flit s
  | .remoteRequestReceive n => Sys2Proof.Machine.execRemoteRequestReceive n s
  | .remoteResponseReceive n => Sys2Proof.Machine.execRemoteResponseReceive n s
  | .barrierFlitReceive n => Sys2Proof.Machine.execBarrierFlitReceive n s
  | .resetNoticeReceive dev fn => Sys2Proof.Machine.execResetNoticeReceive dev fn s
  | .fabricLimitExpiry n => Sys2Proof.Machine.execFabricLimitExpiry n s
  | .linkFailure link => Sys2Proof.Machine.execLinkFailure link s
  | .priResponse fn token ok => Sys2Proof.Machine.execPriResponse fn token ok s
  | .hostAtsInvalidate fn pages => Sys2Proof.Machine.execHostAtsInvalidate fn pages s
  | .hostCompletionTimeout n => Sys2Proof.Machine.execHostCompletionTimeout n s
  | .barRegisterWrite fn off v => Sys2Proof.Machine.execBarRegisterWrite fn off v s
  | .refresh chan => Sys2Proof.Machine.execRefresh chan s
  | .supplyRecovery core mv => Sys2Proof.Machine.execSupplyRecovery core mv s
  | .topkComplete core n => Sys2Proof.Machine.execTopkComplete core n s
  | .scratchpadReadComplete core n => Sys2Proof.Machine.execScratchpadReadComplete core n s
  | .homeResponseReceive core n => Sys2Proof.Machine.execHomeResponseReceive core n s
  | .scrub tier word => Sys2Proof.Machine.execScrub tier word s
  | .hostReadCompletion n data => Sys2Proof.Machine.execHostReadCompletion n data s
  | .atsTranslationResponse n ok pa => Sys2Proof.Machine.execAtsTranslationResponse n ok pa s
  | .clockGating core gated retention => Sys2Proof.Machine.execClockGating core gated retention s

end Sys2Proof.Machine
end

