-- ==== Sys2Proof/Machine/Silent.lean ====
section
/-! DEFINITION. Silent.lean: particle strikes, and what detects those that the check bits do not cover: idle-lane mirroring (R67) and
shadow groups (R229, R230). The shadow of a group runs each instruction in the step in which its leader does, on values and control
state of its own where a strike has made them others (log 125). A shadow whose lanes have come to stand elsewhere than their leader's
runs no further: the next instruction to be compared finds no match. DEDUCED (log 145). -/
namespace Sys2Proof.Machine

/-! ### Strikes on stored bits (R98, R106, R118, R231) -/

/-- A strike turns a stored bit over, or waits for the results that it hits. What is not there is not hit. DESIGN CHOICE
(log 124). -/
def upset (s : State) : Upset → State
  | .l1 c w b => match l1At (coreAt s c) w with
    | some x => let y := eccFlip x.mw x.syn b; l1Set! s c w { x with mw := y.1, syn := y.2 }
    | none => s
  | .l2 w b =>
    let h := homeAt s w
    if h.v then let y := eccFlip h.mw h.syn b; setHome s w { h with mw := y.1, syn := y.2 } else s
  | .spad launch set n b => modSet s launch set fun x =>
    let v := spadAt x.spad n
    let y := eccFlip { data := v.data } v.syn b
    if n < 512 * x.units ∧ (b < 64 ∨ 68 ≤ b) then { x with spad := tset x.spad n { v with data := y.1.data, syn := y.2 } } else x
  | .mem w b => if tierOf w < 2 then { s with mem := memPut s.mem w (flipBit (memGet s.mem w) b) } else s
  | .board c slot n => modGroup s c slot fun g =>
    { g with sb2 := if (tget? g.sb2 (n % 8)).isSome then tdel g.sb2 (n % 8) else tset g.sb2 (n % 8) 0 }
  | .result c q x => modCore s c fun y => { y with strikes := tset y.strikes (q % 4) x }

/-! ### Results (R67) -/

/-- Opcodes whose results idle lanes recompute. -/
def mirrorOp (op : BitVec 8) : Bool := (0x20#8 ≤ op && op ≤ 0x3B#8) || (0x40#8 ≤ op && op ≤ 0x5A#8)

/-- The opcode decides a predicate. -/
def predOp (op : BitVec 8) : Bool := [0x33#8, 0x34#8, 0x3B#8, 0x45#8].contains op

/-- Lanes of a set that have issued, by the count that every issue advances (R221). -/
def issuedLanes (g h : Group) (m : Mask) : Mask := maskOf fun l => m.getLsbD l && (threadAt h l).spcnt == (threadAt g l).spcnt + 1

/-- The executing lanes of an instruction word among lanes that issue (R275). -/
def guardLanes (g : Group) (f : VF) (m : Mask) : Mask := maskOf fun l => m.getLsbD l && predBit g f.gp.toNat l != f.gn

/-- The register or predicate that an instruction word writes in a lane, and whether its result there is poisoned; `none` where
the result is discarded, or goes into a window. -/
def resultPois (g h : Group) (f : VF) (l : Nat) : Option Bool :=
  if predOp f.op then (if f.d = 0 then none else some (predPois h (f.d.toNat % 8) l))
  else match (decOpd f.d).bind (resolve g l) with
    | some (.v n) => (vreg? h n.val).map fun r => r.pois.getLsbD l
    | some (.s n) => some (sregAt h n.val).pois
    | _ => none

/-- An even register whose pair takes a result that is to be seen: one that is not mapped, where there is one. -/
def probeReg (g : Group) : Nat :=
  (((List.range 64).map (2 * ·)).find? fun n => (vreg? g n).isNone && (vreg? g (n + 1)).isNone).getD 126

/-- The group with a pair of registers at hand for a result. -/
def probeGroup (g : Group) (n : Nat) : Group :=
  let put := fun (g : Group) (n : Nat) =>
    { g with regs := tset g.regs n { (vreg? g n).getD (freshReg n) with full := BitVec.allOnes 64 } }
  put (put g n) (n + 1)

/-- The lanes of a discarded result, or of one that goes into a window, that are poisoned: those of the same operation with another
destination. -/
def probePois (s : State) (k : Cur) (g : Group) (f : VF) : Mask :=
  let n := if predOp f.op then 1 else probeReg g
  let f' := { f with d := BitVec.ofNat 8 n }
  match (Mn.ofOp f.op).map fun m => decodeFields m f' k.lit with
  | some (.ok i) => match exec i (modGroup s k.core k.slot fun g => if predOp f.op then g else probeGroup g n) with
    | .next t => match groupAt t k.core k.slot with
      | some h => maskOf fun l => resultPois h h f' l == some true
      | none => 0
    | _ => 0
  | _ => 0

/-- The bits of a strike that an opcode's results have (R67): one for an opcode that decides a predicate. -/
def strikeBits (f : VF) (bits : Word) : Word := if predOp f.op then bits &&& 1 else bits

/-- Turns bits of an instruction's results over in lanes. -/
def strikeAt (g : Group) (f : VF) (m : Mask) (bits : Word) (h : Group) : Group :=
  if m = 0 then h
  else if predOp f.op then
    if f.d = 0 ∨ !(strikeBits f bits).getLsbD 0 then h
    else { h with preds := tset h.preds (f.d.toNat % 8) { tget h.preds (f.d.toNat % 8) {} with
      val := (tget h.preds (f.d.toNat % 8) {}).val ^^^ m } }
  else (lanesOf m).foldl (fun h l => match (decOpd f.d).bind (resolve g l) with
    | some (.v n) => modReg h n.val fun r => { r with val := r.val.modify l fun w => w ^^^ bits }
    | some (.s n) =>
      if l = lowLane m then { h with sregs := tset h.sregs n.val { sregAt h n.val with val := (sregAt h n.val).val ^^^ bits } } else h
    | _ => h) h

/-- Lanes whose idle partner recomputes another result: one of the two is hit, and neither is poisoned (R67). A result that is
discarded is compared like any other. -/
def mirrorMiss (s : State) (k : Cur) (g h : Group) (f : VF) (x : Mask) (st : Strike) : Mask :=
  if f.u || strikeBits f st.bits == 0 then 0
  else
    let pois := probePois s k g f
    maskOf fun l =>
      let p := (l + 32) % 64
      x.getLsbD l && !x.getLsbD p && (st.lanes.getLsbD l && !st.shadow) != (st.lanes.getLsbD p && !st.shadow)
        && !(resultPois g h f l).getD (pois.getLsbD l)

/-- A silent error: the instruction does not retire, its launch is to be contained, and the core counts it by its source, 2 for
mirroring and 3 for a shadow (R229, R233, R235). -/
def silentError (s : State) (k : Cur) (src : Nat) (lanes : Mask) : State :=
  let s := modCore (freeQuarter s k.core k.slot) k.core fun x =>
    { x with mirmm := if src = 2 then satInc x.mirmm else x.mirmm, shdmm := if src = 3 then satInc x.shdmm else x.shdmm }
  match groupAt s k.core k.slot with
  | none => s
  | some g =>
    let s := modGroup s k.core k.slot fun g => modThreads g k.lanes fun t => { t with park := .contained lanes }
    modLaunch s g.launch fun l => { l with contain := l.contain ++ [(k.core, k.slot, src, lanes)] }

/-! ### Shadows (R230) -/

/-- A register with the shadow's values in the leader's place. -/
def VReg.swap (r : VReg) : VReg :=
  let v := fun (l : Nat) => r.val.getD l 0
  { r with val := lanes64 fun l => ((r.other.find? fun e => e.1 == l).map (·.2)).getD (v l), other := r.other.map fun e => (e.1, v e.1) }

/-- The control state of a lane, and of a group, that a shadow has of its own (R230). -/
def ctlLane (t : Thread) : CtlLane := ⟨t.exited, t.pc, t.depth, t.path, t.meeta, t.meetj⟩
def ctlOf (g : Group) : ShadowCtl := ⟨false, g.threads.map ctlLane, g.jms, g.ptabs, g.fflags, g.jlost⟩

/-- The group with a shadow's control state, of a shadow that goes its leader's way. -/
def withCtl (g : Group) (z : ShadowCtl) : Group :=
  { g with
    threads := (g.threads.zip (List.range 64)).map fun (t, l) => match z.lanes[l]? with
      | some y => { t with depth := y.depth, path := y.path, meeta := y.meeta, meetj := y.meetj }
      | none => t
    jms := z.jms, ptabs := z.ptabs, fflags := z.fflags, jlost := z.jlost }

/-- The group as its shadow sees it. -/
def shadowView (g : Group) : Group :=
  let sreg := fun (r : SReg) => { r with val := r.other.getD r.val, other := r.other.map fun _ => r.val }
  let pred := fun (p : PReg) => { p with val := p.val ^^^ p.other }
  let g := { g with regs := g.regs.map fun (e : Nat × VReg) => (e.1, e.2.swap)
                    sregs := g.sregs.map fun (e : Nat × SReg) => (e.1, sreg e.2)
                    preds := g.preds.map fun (e : Nat × PReg) => (e.1, pred e.2) }
  match g.shadowCtl with
  | some z => withCtl g z
  | none => g

/-- Lanes in which a register or predicate of the group's shadow differs. -/
def otherLanes (g : Group) : Mask :=
  g.regs.foldl (fun m e => e.2.other.foldl (fun m x => m ||| laneBit x.1) m)
    (g.preds.foldl (fun m e => m ||| e.2.other)
      (if g.sregs.any fun e => e.2.other.isSome then BitVec.allOnes 64 else 0))

/-- A lane of the group that is not done stands elsewhere in the shadow, or has exited in one of the two. -/
def strays (g h : Group) : Bool :=
  (List.range 64).any fun l => (threadAt g l).present
    && ((threadAt g l).exited != (threadAt h l).exited || (!(threadAt g l).exited && (threadAt g l).pc != (threadAt h l).pc))

/-- The leader's group with what its shadow's, after the same instruction, holds otherwise. -/
def noteOther (g h : Group) : Group :=
  { g with
    regs := g.regs.map fun e => (e.1, match vreg? h e.1 with
      | some r => { e.2 with other := ((List.range 64).filter fun l => r.val.getD l 0 != e.2.val.getD l 0).map fun l => (l, r.val.getD l 0) }
      | none => e.2)
    sregs := g.sregs.map fun e =>
      (e.1, { e.2 with other := if (sregAt h e.1).val = e.2.val then none else some (sregAt h e.1).val })
    preds := g.preds.map fun e => (e.1, { e.2 with other := e.2.val ^^^ (tget h.preds e.1 {}).val })
    shadowCtl := if ctlOf g = ctlOf h then none else some { ctlOf h with strayed := strays g h } }

/-- The state without what is a group's own beside a shadow's: its registers, and its control state. -/
def blanked (s : State) (k : Cur) : State :=
  modGroup s k.core k.slot fun g => withCtl
    { g with regs := [], sregs := [], preds := [], shadowCtl := none }
    { strayed := false, lanes := List.replicate 64 ⟨false, 0, 0, 0, 0, 0⟩, jms := [], ptabs := [], fflags := 0, jlost := 0 }

/-- What every leader and shadow compare: the trap, its lanes, and the lanes parked on a fault record (R230). -/
def trapView (s : State) (k : Cur) : Option (BitVec 8 × Bool × DWord × Mask × Mask) :=
  (groupAt s k.core k.slot).map fun g => (g.tcode, g.tactive, g.tlanes, g.handler, maskOf fun l => match (threadAt g l).park with
    | .fault _ | .contained _ => true
    | _ => false)

/-- Instructions that the leader holds until the shadow has presented the same addresses, data and operands, and matrix instructions,
whose fields have to match (R230). DEDUCED (log 125). -/
def heldOp : Mn → Bool
  | .st | .sts | .atom | .red | .acp | .acpt | .acpr | .acpl | .enq | .enqc | .tksig | .twsend | .mts
  | .mma | .tfill | .tclm | .trel | .gang
  | .mzero | .mcopy | .mcmp | .swinit | .swarr | .swwait | .regroup | .cctl | .fence | .bar | .bara | .barw | .twbar | .twfree
  | .mlic | .mlrel => true
  | _ => false

/-- The instruction is one that leader and shadow compare in full: one of those, or one that writes a window, which the pod's cores
share. -/
def presented (g : Group) (f : VF) (x : Mask) : Bool :=
  ((Mn.ofOp f.op).map heldOp).getD false
    || (lanesOf x).any fun l => match (decOpd f.d).bind (resolve g l) with | some (.w _) => !predOp f.op | _ => false

/-- Leader and shadow have come to the same: the fields that they compare agree (R230). Arithmetic, cross-lane, control and melding
instructions and loads compare their traps alone. -/
def sameFields (s t : State) (k : Cur) (full : Bool) : Bool :=
  trapView s k == trapView t k && (!full || blanked s k == blanked t k)

/-- What an issue comes to where a strike is due or the group's shadow holds other values: `t` is the leader's outcome. -/
def silentCase (s t : State) (k : Cur) (g : Group) (i : Instr) : State :=
  let f := splitWord k.word
  let h := (groupAt t k.core k.slot).getD g
  let x := guardLanes g f (issuedLanes g h k.lanes)
  let hit : Option Strike := if mirrorOp f.op && x != 0 then tget? (coreAt s k.core).strikes (k.slot / 32) else none
  let st := hit.getD ⟨0, 0, false⟩
  let spent := fun (s : State) => if hit.isSome then modCore s k.core fun y => { y with strikes := tdel y.strikes (k.slot / 32) } else s
  let hits := fun (b : Bool) (s : State) =>
    if st.shadow = b then modGroup s k.core k.slot (strikeAt g f (x &&& st.lanes) st.bits) else s
  let miss := if (hdrOf s g).mirror && hit.isSome then mirrorMiss s k g h f x st else 0
  let full := presented g f (guardLanes g f k.lanes)
  let wrong := fun (_ : Unit) =>
    silentError (spent s) k 3 (if otherLanes g &&& k.lanes = 0 then k.lanes else otherLanes g &&& k.lanes)
  if miss ≠ 0 then silentError (spent s) k 2 miss
  else
    let t1 := hits false (spent t)
    if g.shadow.isNone then t1
    else if (g.shadowCtl.map (·.strayed)).getD false then
      -- the shadow does not come to this instruction: what the leader would present, or its trap, finds no match
      if full || trapView s k != trapView t1 k then wrong () else t1
    else match exec i (modGroup s k.core k.slot shadowView) with
      | .next u =>
        let u := hits true (spent u)
        if !sameFields t1 u k full then wrong ()
        else modGroup t1 k.core k.slot fun h => noteOther h ((groupAt u k.core k.slot).getD h)
      | _ => t1

/-- What an issue from `s` that has come to `t` comes to. -/
def silent (s t : State) (i : Instr) : State :=
  match s.cur with
  | none => t
  | some k => match groupAt s k.core k.slot with
    | none => t
    | some g =>
      if (tget? (coreAt s k.core).strikes (k.slot / 32)).isNone && otherLanes g == 0 && g.shadowCtl.isNone then t else silentCase s t k g i

end Sys2Proof.Machine
end

