-- ==== Sys2Proof/Machine/Step.lean ====
section
/-! DEFINITION. Step.lean: one step of the machine. The spec orders no agents among themselves, so the state holds the
model's own agenda of what moves next (log 2); with nothing on it, one issue quarter moves. -/
namespace Sys2Proof.Machine

/-- The instruction that was issuing in `s` is over, silent errors seen to. -/
def endIssue (s : State) (i : Instr) : Host.Outcome State Fault Refusal → Host.Outcome State Fault Refusal
  | .next t => .next { silent s t i with cur := none }
  | o => o

/-- Quarter q of core c moves (R17, R41). -/
def issue (s : State) (c q : Nat) : Host.Outcome State Fault Refusal :=
  match prepare s c q with
  | .done s => .next s
  | .run i s => endIssue s i (exec i s)

/-- One entry of the agenda. An entry that names an instruction instead of an event is passed over. -/
def turnStep (s : State) : Turn → Host.Outcome State Fault Refusal
  | .tick n => .next { s with now := s.now + n }
  | .issue c q => issue s c q
  | .event i => if i.isInstr then .next s else exec i s
  | .upset u => .next (upset s u)

/-- One step. -/
def step (s : State) : Host.Outcome State Fault Refusal :=
  match s.agenda with
  | [] => issue s (s.turn / 4) (s.turn % 4)
  | t :: r => turnStep { s with agenda := r } t

/-- `s` with an instruction standing next in a clause that quarter 0 of core 0 is running: a resident one-thread group
in slot 0 stands at the words, all engines listed, in full service. It stands for the launch that would bring it there
(log 11). -/
def State.withFetchWord (s : State) (nbits w : Nat) : State :=
  let w0 := BitVec.ofNat 64 (w % 2 ^ nbits)
  let w1 := BitVec.ofNat 64 (w % 2 ^ nbits / 2 ^ 64)
  let n := wordsOf w0
  let run : Run := ⟨0, ⟨true, true, true, true, true, n, 0, false, 0⟩, if n = 2 then [w0, w1] else [w0]⟩
  let t : Thread := { present := true, pc := 8, mid := true, run := some run }
  let g : Group := { gid := 0, launch := 0, set := 0, fn := 0, rb := 128, rx := 0, threads := t :: List.replicate 63 {} }
  let c := coreAt s 0
  { s with agenda := [], turn := 0, full := true,
           cores := tset s.cores 0 { c with groups := tset c.groups 0 g, quarters := tset c.quarters 0 (0, 1) } }

end Sys2Proof.Machine
end

