-- ==== Sys2Proof/Safety.lean ====
section
/-! DEFINITION. Safety.lean: the words that claims use: a run without a stop, an instruction that issues and passes its
checks, what a destination holds after it, and what lies outside the issuing group. -/
namespace Sys2Proof.Machine

/-- The step answers a next state. -/
def Goes (o : Host.Outcome State Fault Refusal) : Prop := ∃ s, o = .next s

/-- The event or instruction `i` completes at `s`, in a state of which `P` holds. -/
def Comes (i : Instr) (s : State) (P : State → Prop) : Prop := ∃ t, exec i s = .next t ∧ P t

/-- The state in which a front end takes its turn: nothing of it waits, and processes that have work have joined P (R198). -/
def frontState (s : State) (fn : Nat) : State := joinP (feBegin s fn) fn

/-- An event of a front end, whose work is `work`, completes in a state of which `P` holds, if the work comes to its end. Where it lacks a
page in transit, the host's translation or word, or a peer's word (R105, R147, R242), it has done nothing but ask for it. -/
def ComesFront (i : Instr) (fn : Nat) (work : State → State) (s : State) (P : State → Prop) : Prop :=
  let t := work (feBegin s fn)
  ((fnAt t fn).stall = false → exec i s = .next t ∧ P t) ∧ ((fnAt t fn).stall = true → exec i s = .next (feKeep s t fn))

/-- A word of opcode `op` that decodes, with whatever stands after it, decodes to an instruction of which `p` holds. -/
def DecodesTo (op : BitVec 8) (p : VF → Instr → Prop) : Prop :=
  ∀ (w lit : DWord) (i : Instr), (splitWord w).op = op → decodeWords [w, lit] = .ok i → p (splitWord w) i

/-- The lane set of `k` is issuing an instruction of group `g`. -/
structure Issuing (s : State) (k : Cur) (g : Group) : Prop where
  cur : s.cur = some k
  grp : groupAt s k.core k.slot = some g

/-- The instruction passes the checks of R280 that every instruction makes, and does not park: lanes `act` go on, lanes
`rest` of a split set stay parked on `p` (R52). `x` are the lanes whose destinations are written: their names are within
the budget, full, and covered by the pool (R43, R44). -/
structure Passes (s : State) (k : Cur) (g : Group) (c : Ctl) (twin : Bool) (srcs : List SrcUse) (dsts : List DstUse)
    (consume : List (Nat × SrcUse)) (act rest : Mask) (p : Park) (x : Mask) : Prop where
  checks : gate s k g c twin srcs dsts consume = .pass act rest p
  room : ∃ a r q, regGate s k g c act x dsts = .pass a r q

/-- The lane whose sources lane l's result comes from: under U the lowest active lane (R274). -/
def fromLane (c : Ctl) (act : Mask) (l : Nat) : Nat := if c.u then lowLane act else l

/-- Register i of destination d holds w with poison p in lane l, and is full there. -/
def Written (g g' : Group) (l : Nat) (d : Opd) (i : Nat) (w : Word) (p : Bool) : Prop :=
  match d with
  | .s n => sregAt g' (n.val + i) = ⟨w, true, p, none⟩
  | _ => match resolve g l d with
    | some (.v n) => ∃ r, vreg? g' (n.val + i) = some r ∧ r.val.getD l 0 = w ∧ r.pois.getLsbD l = p ∧ r.full.getLsbD l = true
    | _ => True

/-- A lane of a v register: value, full bit, poison bit. An unmapped name shows what a new register holds (R44). -/
def laneOf (g : Group) (n l : Nat) : Word × Bool × Bool :=
  match vreg? g n with
  | some r => (r.val.getD l 0, r.full.getLsbD l, r.pois.getLsbD l)
  | none => (0, true, false)

/-- Destination d of cnt registers takes in lane l of name n when the lanes x are written. -/
def takes (g : Group) (x : Mask) (d : Opd) (cnt n l : Nat) : Bool :=
  x.getLsbD l && match resolve g l d with
    | some (.v m) => decide (m.val ≤ n ∧ n < m.val + cnt)
    | _ => false

/-- The s registers that destination d of cnt registers names. -/
def namesS (d : Opd) (cnt n : Nat) : Bool :=
  match d with
  | .s m => decide (m.val ≤ n ∧ n < m.val + cnt)
  | _ => false

/-- What a thread of the group is after an instruction whose issued parts leave `n`: lanes that went on are counted and stand at their
target, lanes of a split set that did not are parked and keep `n`, and lanes of another split set parked at the instruction, `later`,
take its names over (R7, R45, R52, R58, R221, R222). -/
def afterIssue (n : Parts) (later : Nat → Bool) (act rest : Mask) (p : Park) (target : Nat → DWord) (leave : Bool) (l : Nat)
    (t : Thread) : Thread :=
  if act.getLsbD l then
    { countIssue t with pc := target l, mid := !leave, run := if leave then none else t.run }
  else if rest.getLsbD l then { t with park := p, parts := some n, mid := true }
  else if later l then { t with parts := t.parts.map fun q => ⟨q.op, joinNames q.reads n.reads, joinNames q.keeps n.keeps⟩ }
  else t

/-- What an instruction that only works on registers leaves alone: everything outside the cores, the number supply apart;
every other core; everything of its own core but the groups and the quarters; every other group but its scoreboard slots and
its load-value queue, which are cleared as work completes (R42, R230). In particular every byte of memory, every word at its home and in the L1. -/
structure Apart (s t : State) (k : Cur) : Prop where
  outside : { t with cores := s.cores, nid := s.nid } = s
  memory : ∀ a, Memory.read t.mem a = Memory.read s.mem a
  cores : ∀ c, c ≠ k.core → coreAt t c = coreAt s c
  core : { coreAt t k.core with groups := (coreAt s k.core).groups, quarters := (coreAt s k.core).quarters } = coreAt s k.core
  groups : ∀ n, n ≠ k.slot → (groupAt t k.core n).map (fun h => { h with sb := [], sb2 := [], lvq := [] })
    = (groupAt s k.core n).map fun h => { h with sb := [], sb2 := [], lvq := [] }

/-- Lane l stands in another split set at the instruction, of which no lane of this one is left (R58). -/
def laterAt (k : Cur) (g : Group) (act rest : Mask) (l : Nat) : Bool := laterSet g k act rest && awaitsAt g k act rest l

/-- Names that the last-read bits of the sources free when the last lane at the instruction has issued it (R45, R58). -/
def freed (k : Cur) (g : Group) (c : Ctl) (srcs : List SrcUse) (dsts : List DstUse) (act rest : Mask) : List Nat :=
  if rest = 0 && !laterSet g k act rest then (partsNow g k c srcs dsts act).frees else []

/-- A group without what an instruction that works on registers may change: registers, uniform registers, predicates,
FFLAGS, threads, scoreboard slots, the load-value queue, meets and the time since which it waits. -/
def Group.fixed (g : Group) : Group :=
  { g with regs := [], sregs := [], preds := [], fflags := 0, threads := [], sb := [], sb2 := [], lvq := [], jms := [],
           jlost := 0, since := 0 }

/-- Lanes that go on from here: to the next word, or out of the clause from its last one (R7). -/
def goOn (k : Cur) (g : Group) (c : Ctl) (srcs : List SrcUse) (dsts : List DstUse) (act rest : Mask) (p : Park) :
    Nat → Thread → Thread :=
  afterIssue (partsNow g k c srcs dsts act) (laterAt k g act rest) act rest p (fun _ => k.next) k.last

/-- The group `g'` after an instruction, beside the group `g` before: every thread has moved as `mv` says, holds that fell due
by it are released, all at once (R55), and nothing changed that is not named here or by the claim: registers, uniform
registers, predicates, flags. -/
structure Moved (g g' : Group) (mv : Nat → Thread → Thread) : Prop where
  threads : ∀ l, l < 64 → threadAt g' l = mv l (threadAt g l)
  others : g'.fixed = g.fixed
  meets : ∀ n, n < 8 → jmaskAt g' n = if holdDue { g with threads := g'.threads } n then {} else jmaskAt g n
  lost : g'.jlost = g.jlost + BitVec.ofNat 32 ((List.range 8).filter fun n =>
    holdDue { g with threads := g'.threads } n && (jmaskAt g n).e != (jmaskAt g n).a).length

/-- An instruction completes that computes cnt registers of D in the lanes x: `f i l` is the value of register i that lane l
takes, `pz l` its poison, `fl` the flags it raises; the threads move as `mv` says. -/
structure Computes (s t : State) (k : Cur) (g : Group) (fr : List Nat) (x : Mask) (d : Opd) (cnt : Nat)
    (mv : Nat → Thread → Thread) (f : Nat → Nat → Word) (pz : Nat → Bool) (fl : Flg) (g' : Group) : Prop where
  here : groupAt t k.core k.slot = some g'
  apart : Apart s t k
  moved : Moved g g' mv
  result : ∀ l i, i < cnt → x.getLsbD l = true → Written g g' l d i (f i l) (pz l)
  regs : ∀ n l, l < 64 → n ∉ fr → takes g x d cnt n l = false → laneOf g' n l = laneOf g n l
  sregs : ∀ n, namesS d cnt n = false → sregAt g' n = sregAt g n
  preds : g'.preds = g.preds
  flags : g'.fflags = g.fflags ||| fl.zeroExtend 32

/-- An instruction completes that computes predicate q in the lanes x: `f l` is its bit, `pz l` its poison. p0 discards
(R279). -/
structure Decides (s t : State) (k : Cur) (g : Group) (fr : List Nat) (x : Mask) (q : Nat)
    (mv : Nat → Thread → Thread) (f : Nat → Bool) (pz : Nat → Bool) (fl : Flg) (g' : Group) : Prop where
  here : groupAt t k.core k.slot = some g'
  apart : Apart s t k
  moved : Moved g g' mv
  result : ∀ l, x.getLsbD l = true → q ≠ 0 → predBit g' q l = f l ∧ predPois g' q l = pz l
  preds : ∀ j l, l < 64 → j ≠ q ∨ q = 0 ∨ x.getLsbD l = false →
    predBit g' j l = predBit g j l ∧ predPois g' j l = predPois g j l
  regs : ∀ n, n ∉ fr → vreg? g' n = vreg? g n
  sregs : g'.sregs = g.sregs
  flags : g'.fflags = g.fflags ||| fl.zeroExtend 32

/-- An instruction completes that leaves the group `h` when it retires: no register, predicate or flag of `h` changes but
for names that a last-read bit frees. -/
structure Leaves (s t : State) (k : Cur) (h : Group) (fr : List Nat) (mv : Nat → Thread → Thread) (g' : Group) : Prop where
  here : groupAt t k.core k.slot = some g'
  apart : Apart s t k
  moved : Moved h g' mv
  regs : ∀ n, n ∉ fr → vreg? g' n = vreg? h n
  sregs : g'.sregs = h.sregs
  preds : g'.preds = h.preds
  flags : g'.fflags = h.fflags

/-- Register i of destination d is not full in lane l: what a load leaves until its value lands (R43). -/
def Emptied (g g' : Group) (l : Nat) (d : Opd) (i : Nat) : Prop :=
  match d with
  | .s n => (sregAt g' (n.val + i)).full = false
  | _ => match resolve g l d with
    | some (.v n) => ∀ r, vreg? g' (n.val + i) = some r → r.full.getLsbD l = false
    | _ => True

/-- The lanes x of cnt registers of D turn empty, and nothing else of the group changes. -/
structure TurnsEmpty (g g' : Group) (x : Mask) (d : Opd) (cnt : Nat) : Prop where
  emptied : ∀ l i, i < cnt → x.getLsbD l = true → Emptied g g' l d i
  regs : ∀ n l, l < 64 → takes g x d cnt n l = false → laneOf g' n l = laneOf g n l
  values : ∀ n l, (laneOf g' n l).1 = (laneOf g n l).1 ∧ (laneOf g' n l).2.2 = (laneOf g n l).2.2
  sregs : ∀ n, namesS d cnt n = false → sregAt g' n = sregAt g n
  rest : { g' with regs := g.regs, sregs := g.sregs } = g

/-- The work of a core that stands behind what another state of it holds. -/
def workSince (t u : State) (c : Nat) : List Item := (coreAt u c).items.drop (coreAt t c).items.length

/-- Work sets out for lanes of `g`: one piece of work of the core for each of `new`, a lane and what it does, in their order and behind
all that was there. No byte of memory, no word at its home and no other core changes. -/
structure SetsOut (t u : State) (k : Cur) (g : Group) (new : List (Nat × Body)) : Prop where
  before : (coreAt u k.core).items.take (coreAt t k.core).items.length = (coreAt t k.core).items
  added : (workSince t u k.core).map (fun i => (i.lane, i.body)) = new
  owner : ∀ i, i ∈ workSince t u k.core → i.gid = g.gid ∧ i.slot = k.slot ∧ i.launch = g.launch ∧ i.wid = (threadAt g i.lane).wid
  memory : ∀ a, Memory.read u.mem a = Memory.read t.mem a
  home : ∀ w, homeAt u w = homeAt t w
  cores : ∀ c, c ≠ k.core → coreAt u c = coreAt t c

/-- Atomics on their way to their homes: the work that waits for the answer, the word, and what is done there. -/
def atomicsSent (s : State) : List (Nat × Nat × MsgKind) :=
  s.net.filterMap fun m => match m.kind with
    | .atomic .. => some (m.acc, m.w, m.kind)
    | _ => none

/-- Requests to peers: the work that waits for the answer, the word, the operation, its bytes and its operands (R244). -/
def peersAsked (s : State) : List (Nat × Nat × BitVec 6 × BitVec 8 × DWord × Option DWord) :=
  s.rreqs.map fun r => (r.acc, r.w, r.op, r.mask, r.data, r.data2)

/-- Flags of the lanes of x whose sources carry no poison (R83). -/
def flagsOf (x : Mask) (pz : Nat → Bool) (f : Nat → Flg) : Flg :=
  (lanesOf x).foldl (fun a l => if pz l then a else a ||| f l) 0

/-- The state in which the registers that the destinations need in the lanes x are taken, and the place in the load-value queue that
a load of a group with a shadow needs (R44, R230). -/
def taken (s : State) (k : Cur) (g : Group) (c : Ctl) (x : Mask) (dsts : List DstUse) : State :=
  let r := allocRegs s g (newNames g c x dsts)
  setGroup r.1 k.core k.slot (joinQueue r.2 k.op dsts)

/-- As `taken`, in a state that the instruction's own checks have left: the registers that `g` lacked are taken now. -/
def takenIn (s : State) (k : Cur) (g : Group) (c : Ctl) (x : Mask) (dsts : List DstUse) : State :=
  let r := allocRegs s (groupNow s k g) (newNames g c x dsts)
  setGroup r.1 k.core k.slot (joinQueue r.2 k.op dsts)

/-- Poison of a result: a source is poisoned in the lane that the result comes from, or `more` says so (R83, R227). -/
def poisonOf (s : State) (k : Cur) (g : Group) (srcs : List SrcUse) (more : Group → Nat → Bool) (l : Nat) : Bool :=
  more g l || srcs.any fun u => srcPois s k g l u

/-- `i` computes cnt registers of D. Where it passes its checks and `ok` holds, it completes: in the lanes x register r of D
takes `f … r`, its poison is `pz`, the flags `fl` are raised, and nothing else changes but what every completion does. Under U the
value is that of the lowest active lane. `x` is `wl` of the executing lanes. -/
def Computing (i : Instr) (c : Ctl) (twin : Bool) (d : Opd) (cnt : Nat) (srcs : List SrcUse) (consume : List (Nat × SrcUse))
    (wl : Mask → Mask) (ok : State → Cur → Group → Mask → Prop) (f : State → Cur → Group → Mask → Nat → Nat → Word)
    (pz : State → Cur → Group → Mask → Nat → Bool) (fl : State → Cur → Group → Mask → Mask → Flg) : Prop :=
  ∀ (s : State) (k : Cur) (g : Group) (act rest : Mask) (p : Park), Issuing s k g →
    Passes s k g c twin srcs [{ o := d, n := cnt }] consume act rest p (wl (execLanes g c act)) →
    ok s k g (execLanes g c act) →
    ∃ t g', exec i s = .next t ∧
      Computes s t k g (freed k g c srcs [{ o := d, n := cnt }] act rest) (wl (execLanes g c act)) d cnt
        (goOn k g c srcs [{ o := d, n := cnt }] act rest p)
        (fun r l => f s k g (execLanes g c act) (fromLane c act l) r)
        (fun l => pz s k g (execLanes g c act) (fromLane c act l)) (fl s k g act (execLanes g c act)) g'

/-- `i` computes register D of each executing lane from its own sources: value and flags. -/
def Computes1 (i : Instr) (c : Ctl) (d : Opd) (srcs : List SrcUse) (f : State → Cur → Group → Nat → Word × Flg)
    (more : Group → Nat → Bool := fun _ _ => false) : Prop :=
  Computing i c false d 1 srcs [] (fun x => x) (fun _ _ _ _ => True) (fun s k g _ l _ => (f s k g l).1)
    (fun s k g _ l => poisonOf s k g srcs more l)
    fun s k g act x => flagsOf x (fun l => poisonOf s k g srcs more (fromLane c act l)) fun l => (f s k g (fromLane c act l)).2

/-- `i` computes the pair D, D+1 of each executing lane from its own sources, low half first. -/
def Computes2 (i : Instr) (c : Ctl) (d : Opd) (srcs : List SrcUse) (f : State → Cur → Group → Nat → DWord) : Prop :=
  Computing i c false d 2 srcs [] (fun x => x) (fun _ _ _ _ => True)
    (fun s k g _ l r => (f s k g l).extractLsb' (32 * r) 32)
    (fun s k g _ l => poisonOf s k g srcs (fun _ _ => false) l) fun _ _ _ _ _ => 0

/-- `i` computes predicate q of each executing lane from its own sources: bit and flags. -/
def ComputesPred (i : Instr) (c : Ctl) (q : Nat) (srcs : List SrcUse) (f : State → Cur → Group → Nat → Bool × Flg)
    (more : Group → Nat → Bool := fun _ _ => false) : Prop :=
  ∀ (s : State) (k : Cur) (g : Group) (act rest : Mask) (p : Park), Issuing s k g →
    Passes s k g c false srcs [] [] act rest p (execLanes g c act) →
    ∃ t g', exec i s = .next t ∧
      Decides s t k g (freed k g c srcs [] act rest) (execLanes g c act) q (goOn k g c srcs [] act rest p)
        (fun l => (f s k g (fromLane c act l)).1) (fun l => poisonOf s k g srcs more (fromLane c act l))
        (flagsOf (execLanes g c act) (fun l => poisonOf s k g srcs more (fromLane c act l)) fun l =>
          (f s k g (fromLane c act l)).2) g'

/-- `i` completes and makes the group into `h`; the lanes that went on stand at `dest`, and have left the clause where `out`
says so. Nothing outside the group changes, and of the group nothing but what `h` and every completion change. -/
def Runs (i : Instr) (c : Ctl) (srcs : List SrcUse) (consume : List (Nat × SrcUse)) (ok : State → Cur → Group → Mask → Prop)
    (h : State → Cur → Group → Mask → Mask → Group) (dest : State → Cur → Group → Mask → Nat → DWord) (out : Cur → Bool) : Prop :=
  ∀ (s : State) (k : Cur) (g : Group) (act rest : Mask) (p : Park), Issuing s k g →
    Passes s k g c false srcs [] consume act rest p (execLanes g c act) → ok s k g (execLanes g c act) →
    ∃ t g', exec i s = .next t ∧
      Leaves s t k (h s k g act (execLanes g c act)) (freed k (h s k g act (execLanes g c act)) c srcs [] act rest)
        (afterIssue (partsNow (h s k g act (execLanes g c act)) k c srcs [] act) (laterAt k (h s k g act (execLanes g c act)) act rest)
          act rest p (dest s k g (execLanes g c act)) (out k)) g'

/-- `i` completes: where the common checks pass and its own leave the state `s1`, its effect `eff` is applied to the state in
which its registers are taken, and then it retires to the next word, or out of the clause from its last one. -/
def Acts (i : Instr) (c : Ctl) (twin : Bool) (srcs : List SrcUse) (dsts : List DstUse) (consume : List (Nat × SrcUse))
    (wl : Mask → Mask) (own : State → Cur → Group → Mask → Mask → State → Prop)
    (eff : State → Cur → Group → Mask → Mask → State → State) : Prop :=
  ∀ (s s1 : State) (k : Cur) (g : Group) (act rest : Mask) (p : Park), Issuing s k g →
    gate s k g c twin srcs dsts consume = .pass act rest p → own s k g act (execLanes g c act) s1 →
    (∃ a r q, regGate s1 k g c act (wl (execLanes g c act)) dsts = .pass a r q) →
    exec i s = .next (retire
      (eff s1 k g act (execLanes g c act) (takenIn s1 k g c (wl (execLanes g c act)) dsts))
      k c srcs dsts act rest p)

/-- The accesses `as` of lanes `x` pass the checks of R87 with the pages `e`: aligned, canonical, translated, writable for a
write, not `bad`, no lost peer; and neither a fence, an acquire nor a snapshot stands before them. -/
structure Reaches (s : State) (k : Cur) (g : Group) (x : Mask) (wr : Bool) (bad : TlbEntry → Bool) (as : List LaneAcc)
    (e : LaneAcc → TlbEntry) : Prop where
  pages : ∀ a, a ∈ as → a.va.toNat % a.size = 0 ∧ canonical a.va = true ∧ lookup s k.core g.fn (procOf s g) a.va wr = .hit (e a)
  writable : wr = true → ∀ a, a ∈ as → (e a).w = true
  format : ∀ a, a ∈ as → bad (e a) = false
  peers : ∀ a, a ∈ as → lostWord s (accWord a (e a)) = false
  order : anyBlocked (coreAt s k.core) g x = false
  snaps : wr = true → ∀ y, launchAt s g.launch = some y → y.hdr.replay = false

/-- The offsets of lanes `x` lie in their scratchpads and are multiples of the size `z` (R364). -/
def InSpad (s : State) (k : Cur) (g : Group) (x : Mask) (a : Src) (z : Nat) (off : BitVec 6) : Prop :=
  ∀ l, x.getLsbD l = true → ((val s k g l a).toNat + off.toInt * z) % (z : Int) = 0
    ∧ 0 ≤ (val s k g l a).toNat + off.toInt * z ∧ (val s k g l a).toNat + off.toInt * z + z ≤ spadSize s g l

/-- Lanes x have nothing that a release would wait for (R134). -/
def Released (s : State) (k : Cur) (g : Group) (x : Mask) : Prop :=
  ∀ l, x.getLsbD l = true → (threadAt g l).released = true
    ∨ (lanePending (coreAt s k.core) g.launch (threadAt g l).wid s.nid false = false
      ∧ (threadAt g l).wrote = [] ∧ (threadAt g l).wroteHome = [])

/-- The instruction has no check of its own. -/
def Unchecked : State → Cur → Group → Mask → Mask → State → Prop := fun s _ _ _ _ s1 => s1 = s
/-- No lane of x holds a poisoned predicate p (R228). -/
def CleanPred (p : Nat) : State → Cur → Group → Mask → Prop := fun _ _ g x => ∀ l, x.getLsbD l = true → predPois g p l = false

/-- What a vote of the lanes x on predicate p says (R439): some lane holds it, all do, all agree. -/
def votes (mode : VMode) (g : Group) (p : Nat) (x : Mask) : Bool :=
  match mode with
  | .any => (lanesOf x).any fun l => predBit g p l
  | .all => (lanesOf x).all fun l => predBit g p l
  | .eq => ((lanesOf x).all fun l => predBit g p l) || (lanesOf x).all fun l => !predBit g p l

end Sys2Proof.Machine
end

