-- ==== Sys2Proof/Certificates/Slice0/Obligations.lean ====
section
/-! DEFINITION. Certificates/Slice0/Obligations.lean: the statements for the provers. The words they use stand in
Safety.lean. -/
open Sys2Proof Sys2Proof.Machine

/-! ### Instructions that work on registers -/

/-- R355, R356, R358 (with R274, R83): sums, differences, products, minima, maxima and absolute values, from the integers the operands stand
for: each writes its destination, wrapped or clamped, and changes nothing else. Their words have these opcodes and MOD values, and the
reserved MOD of IADD and ISUB is no instruction. -/
def Obligations.IntegerArithmetic : Prop :=
  (∀ c d a b md, okDst c.u d = true → Computes1 (.iadd c d a b md) c d [useA a, useB b] fun s k g l =>
    let x := val s k g l a
    let y := val s k g l b
    ((match md with
      | .wrap => x + y
      | .sat => BitVec.ofInt 32 (max (-(2 ^ 31)) (min (x.toInt + y.toInt) (2 ^ 31 - 1)))
      | .usat => BitVec.ofNat 32 (min (x.toNat + y.toNat) (2 ^ 32 - 1))), 0))
  ∧ (∀ c d a b md, okDst c.u d = true → Computes1 (.isub c d a b md) c d [useA a, useB b] fun s k g l =>
    let x := val s k g l a
    let y := val s k g l b
    ((match md with
      | .wrap => x - y
      | .sat => BitVec.ofInt 32 (max (-(2 ^ 31)) (min (x.toInt - y.toInt) (2 ^ 31 - 1)))
      | .usat => BitVec.ofNat 32 (x.toNat - y.toNat)), 0))
  ∧ (∀ c d a imm, okDst c.u d = true → Computes1 (.iaddi c d a imm) c d [useA a] fun s k g l =>
    (BitVec.ofInt 32 ((val s k g l a).toInt + imm.toInt), 0))
  ∧ (∀ c d a b, okDst c.u d = true → Computes1 (.imul c d a b) c d [useA a, useB b] fun s k g l =>
    (BitVec.ofInt 32 ((val s k g l a).toInt * (val s k g l b).toInt), 0))
  ∧ (∀ c d a b uns, okDst c.u d = true → Computes1 (.imulh c d a b uns) c d [useA a, useB b] fun s k g l =>
    let x := val s k g l a
    let y := val s k g l b
    (if uns then BitVec.ofNat 32 (x.toNat * y.toNat / 2 ^ 32) else BitVec.ofInt 32 (x.toInt * y.toInt / 2 ^ 32), 0))
  ∧ (∀ c d a b e, okDst c.u d = true → Computes1 (.imad c d a b e) c d [useA a, useB b, useC e] fun s k g l =>
    (BitVec.ofInt 32 ((val s k g l a).toInt * (val s k g l b).toInt + (val s k g l e).toInt), 0))
  ∧ (∀ c d a b uns, okDst c.u d = true → Computes1 (.imin c d a b uns) c d [useA a, useB b] fun s k g l =>
    let x := val s k g l a
    let y := val s k g l b
    (if uns then BitVec.ofNat 32 (min x.toNat y.toNat) else BitVec.ofInt 32 (min x.toInt y.toInt), 0))
  ∧ (∀ c d a b uns, okDst c.u d = true → Computes1 (.imax c d a b uns) c d [useA a, useB b] fun s k g l =>
    let x := val s k g l a
    let y := val s k g l b
    (if uns then BitVec.ofNat 32 (max x.toNat y.toNat) else BitVec.ofInt 32 (max x.toInt y.toInt), 0))
  ∧ (∀ c d a sat, okDst c.u d = true → Computes1 (.iabs c d a sat) c d [useA a] fun s k g l =>
    let x := val s k g l a
    (if sat then BitVec.ofInt 32 (min (x.toInt.natAbs : Int) (2 ^ 31 - 1)) else BitVec.ofInt 32 x.toInt.natAbs, 0))
  ∧ DecodesTo 0x20 (fun f i => f.mod.toNat ≤ 2 ∧ ∃ c d a b md, i = .iadd c d a b md ∧ f.mod = encSat md)
  ∧ DecodesTo 0x22 (fun f i => f.mod.toNat ≤ 2 ∧ ∃ c d a b md, i = .isub c d a b md ∧ f.mod = encSat md)
  ∧ DecodesTo 0x21 (fun f i => ∃ c d a, i = .iaddi c d a f.imm)
  ∧ DecodesTo 0x23 (fun f i => f.mod = 0 ∧ ∃ c d a b, i = .imul c d a b)
  ∧ DecodesTo 0x25 (fun f i => f.mod = 0 ∧ ∃ c d a b e, i = .imad c d a b e)
  ∧ DecodesTo 0x24 (fun f i => f.mod.toNat ≤ 1 ∧ ∃ c d a b, i = .imulh c d a b (f.mod.getLsbD 0))
  ∧ DecodesTo 0x26 (fun f i => f.mod.toNat ≤ 1 ∧ ∃ c d a b, i = .imin c d a b (f.mod.getLsbD 0))
  ∧ DecodesTo 0x27 (fun f i => f.mod.toNat ≤ 1 ∧ ∃ c d a b, i = .imax c d a b (f.mod.getLsbD 0))
  ∧ DecodesTo 0x28 (fun f i => f.mod.toNat ≤ 1 ∧ ∃ c d a, i = .iabs c d a (f.mod.getLsbD 0))
  ∧ ∀ (w lit : DWord), (splitWord w).op = 0x20 ∨ (splitWord w).op = 0x22 → (splitWord w).mod.toNat % 4 = 3 →
    decodeWords [w, lit] = .illegalOp

/-- R367, R408, R393, R329, R325: bitwise tables, shifts (by 32 or more they leave 0, or the sign in every bit), counts, reversal and
bit fields. -/
def Obligations.BitwiseShiftsAndFields : Prop :=
  (∀ c d a b t, okDst c.u d = true → Computes1 (.lop c d a b t) c d [useA a, useB b] fun s k g l =>
    (tableOp t (val s k g l a) (val s k g l b), 0))
  ∧ (∀ c d a t b, okDst c.u d = true → Computes1 (.lopi c d a t b) c d [useA a] fun s k g l =>
    (tableOp t (val s k g l a) (BitVec.ofInt 32 b.toInt), 0))
  ∧ (∀ (t : BitVec 4) (x y : Word) (i : Nat), i < 32 → (tableOp t x y).getLsbD i
      = t.getLsbD (2 * (x.getLsbD i).toNat + (y.getLsbD i).toNat))
  ∧ (∀ c d a b, okDst c.u d = true → Computes1 (.shl c d a b) c d [useA a, useB b] fun s k g l =>
    (BitVec.ofNat 32 (if (val s k g l b).toNat < 32 then (val s k g l a).toNat * 2 ^ (val s k g l b).toNat else 0), 0))
  ∧ (∀ c d a b, okDst c.u d = true → Computes1 (.shr c d a b) c d [useA a, useB b] fun s k g l =>
    (BitVec.ofNat 32 (if (val s k g l b).toNat < 32 then (val s k g l a).toNat / 2 ^ (val s k g l b).toNat else 0), 0))
  ∧ (∀ c d a b, okDst c.u d = true → Computes1 (.sar c d a b) c d [useA a, useB b] fun s k g l =>
    (BitVec.ofInt 32 ((val s k g l a).toInt / 2 ^ min (val s k g l b).toNat 32), 0))
  ∧ DecodesTo 0x29 (fun f i => f.mod.toNat < 16 ∧ ∃ c d a b, i = .lop c d a b (f.mod.setWidth 4))
  ∧ DecodesTo 0x2A (fun f i => ∃ c d a, i = .lopi c d a (f.imm.extractLsb' 18 4) (f.imm.setWidth 18))
  ∧ DecodesTo 0x2B (fun f i => f.mod = 0 ∧ ∃ c d a b, i = .shl c d a b)
  ∧ DecodesTo 0x2C (fun f i => f.mod = 0 ∧ ∃ c d a b, i = .shr c d a b)
  ∧ DecodesTo 0x2D (fun f i => f.mod = 0 ∧ ∃ c d a b, i = .sar c d a b)
  ∧ (∀ c d a, okDst c.u d = true → Computes1 (.popc c d a) c d [useA a] fun s k g l =>
    (BitVec.ofNat 32 ((List.range 32).filter fun i => (val s k g l a).toNat.testBit i).length, 0))
  ∧ (∀ c d a, okDst c.u d = true → Computes1 (.clz c d a) c d [useA a] fun s k g l =>
    (BitVec.ofNat 32 (if val s k g l a = 0 then 32 else 31 - (val s k g l a).toNat.log2), 0))
  ∧ (∀ c d a, okDst c.u d = true → Computes1 (.brev c d a) c d [useA a] fun s k g l => (reverseBits (val s k g l a), 0))
  ∧ (∀ (x : Word) (i : Nat), i < 32 → (reverseBits x).getLsbD i = x.getLsbD (31 - i))
  ∧ (∀ c d a b sx, okDst c.u d = true → Computes1 (.bfx c d a b sx) c d [useA a, useB b] fun s k g l =>
    let pos := (val s k g l b).toNat % 32
    let len := if (val s k g l b).toNat / 256 % 32 = 0 then 32 else (val s k g l b).toNat / 256 % 32
    let w := min len (32 - pos)
    let v : Nat := (val s k g l a).toNat / 2 ^ pos % 2 ^ w
    (BitVec.ofInt 32 (if sx ∧ 2 ^ (w - 1) ≤ v then (v : Int) - 2 ^ w else v), 0))
  ∧ (∀ c d a b e, okDst c.u d = true → Computes1 (.bfi c d a b e) c d [useA a, useB b, useC e] fun s k g l =>
    (fieldInsert (val s k g l a) (val s k g l b) (val s k g l e), 0))
  ∧ (∀ (x y ctl : Word) (i : Nat), i < 32 → (fieldInsert x y ctl).getLsbD i
      = if (fieldOf ctl).1 ≤ i ∧ i < (fieldOf ctl).1 + (fieldOf ctl).2 then x.getLsbD (i - (fieldOf ctl).1) else y.getLsbD i)
  ∧ (∀ (ctl : Word), let p := ctl.toNat % 32
      let n := ctl.toNat / 256 % 32
      fieldOf ctl = (p, min (if n = 0 then 32 else n) (32 - p)))
  ∧ DecodesTo 0x2E (fun f i => f.mod = 0 ∧ ∃ c d a, i = .popc c d a)
  ∧ DecodesTo 0x2F (fun f i => f.mod = 0 ∧ ∃ c d a, i = .clz c d a)
  ∧ DecodesTo 0x30 (fun f i => f.mod = 0 ∧ ∃ c d a, i = .brev c d a)
  ∧ DecodesTo 0x31 (fun f i => f.mod.toNat ≤ 1 ∧ ∃ c d a b, i = .bfx c d a b (f.mod.getLsbD 0))
  ∧ DecodesTo 0x32 (fun f i => f.mod = 0 ∧ ∃ c d a b e, i = .bfi c d a b e)

/-- R384, R385, R411, R388, R438, R183, R184: moves, selects and pairs of halves; a move into a window register writes the core's outbound
window, and the write sets out over the link. -/
def Obligations.MovesAndSelects : Prop :=
  (∀ c d a, okDst c.u d = true → Computes1 (.mov c d a) c d [useA a] fun s k g l => (val s k g l a, 0))
  ∧ (∀ c d imm, okDst c.u d = true → Computes1 (.movi c d imm) c d [] fun _ _ _ _ => (BitVec.ofInt 32 imm.toInt, 0))
  ∧ (∀ c d lit, okDst c.u d = true → Computes1 (.movl c d false lit) c d [] fun _ _ _ _ => (BitVec.ofNat 32 lit.toNat, 0))
  ∧ (∀ c d a b p neg, okDst c.u d = true → Computes1 (.sel c d a b p neg) c d [useA a, useB b]
      (fun s k g l => (if predBit g p.val l = !neg then val s k g l a else val s k g l b, 0)) fun g l => predPois g p.val l)
  ∧ (∀ c d a b, okDst c.u d = true → Computes1 (.pack2 c d a b) c d [useA a, useB b] fun s k g l =>
      (BitVec.ofNat 32 ((val s k g l a).toNat % 2 ^ 16 + 2 ^ 16 * ((val s k g l b).toNat % 2 ^ 16)), 0))
  ∧ (∀ c d a hi sx, okDst c.u d = true → Computes1 (.unpk2 c d a hi sx) c d [useA a] fun s k g l =>
      let h : Nat := (val s k g l a).toNat / (if hi then 2 ^ 16 else 1) % 2 ^ 16
      (BitVec.ofInt 32 (if sx ∧ 2 ^ 15 ≤ h then (h : Int) - 2 ^ 16 else h), 0))
  ∧ (∀ c n a, Acts (.mov c (.w n) a) c false [useA a] [{ o := .w n }] [(5, useA a)] (fun x => x) Unchecked
    fun s k g act x t => if x = 0 then t else writeWindow t k.core (k.slot / 32) n.val x fun l => val s k g (fromLane c act l) a)
  ∧ (∀ c n imm, Acts (.movi c (.w n) imm) c false [] [{ o := .w n }] [] (fun x => x) Unchecked
    fun _ k _ _ x t => if x = 0 then t else writeWindow t k.core (k.slot / 32) n.val x fun _ => BitVec.ofInt 32 imm.toInt)
  ∧ (∀ c n lit, Acts (.movl c (.w n) false lit) c false [] [{ o := .w n }] [] (fun x => x) Unchecked
    fun _ k _ _ x t => if x = 0 then t else writeWindow t k.core (k.slot / 32) n.val x fun _ => BitVec.ofNat 32 lit.toNat)
  ∧ ∀ (t : State) (c q n : Nat) (x : Mask) (f : Nat → Word) (l : Nat), l < 64 →
    (tget (coreAt (writeWindow t c q n x f) c).win n []).getD l 0
      = if x.getLsbD l then f l else (tget (coreAt t c).win n []).getD l 0

/-- R307, R385, R400, R278: results in a register pair. -/
def Obligations.PairResults : Prop :=
  (∀ c d a b sc zx, okDstRun c.u 2 d = true → Computes2 (.aadd c d a b sc zx) c d [useA a 2, useB b] fun s k g l =>
    let y := val s k g l b
    BitVec.ofInt 64 ((val64 s k g l a).toInt + (if zx then (y.toNat : Int) else y.toInt) * 2 ^ sc.val))
  ∧ (∀ c d a imm, okDstRun c.u 2 d = true → Computes2 (.aaddi c d a imm) c d [useA a 2] fun s k g l =>
    BitVec.ofInt 64 ((val64 s k g l a).toInt + imm.toInt))
  ∧ (∀ c d lit, okDstRun c.u 2 d = true → Computes2 (.movl c d true lit) c d [] fun _ _ _ _ => lit)
  ∧ (∀ c d, okDstRun c.u 2 d = true → Computes2 (.rdcyc c d) c d [] fun s k _ _ => cycleOf s k.core)
  ∧ DecodesTo 0x15 (fun f i => f.mod = 0 ∧ ∃ c d, i = .rdcyc c d)

/-- R357, R279, R346, R392: compares and predicate tables write a predicate, p0 excepted, and no register; conditions 10 to 15
of a compare are no instruction. -/
def Obligations.PredicateResults : Prop :=
  (∀ c p cc a b, ComputesPred (.icmp c p cc a b) c p.val [useA a, useB b] fun s k g l =>
    let x := val s k g l a
    let y := val s k g l b
    ((match cc with
      | .eq => decide (x.toNat = y.toNat)
      | .ne => decide (x.toNat ≠ y.toNat)
      | .lt => decide (x.toInt < y.toInt)
      | .le => decide (x.toInt ≤ y.toInt)
      | .gt => decide (y.toInt < x.toInt)
      | .ge => decide (y.toInt ≤ x.toInt)
      | .ltu => decide (x.toNat < y.toNat)
      | .leu => decide (x.toNat ≤ y.toNat)
      | .gtu => decide (y.toNat < x.toNat)
      | .geu => decide (y.toNat ≤ x.toNat)), 0))
  ∧ (∀ c p cc a imm, ComputesPred (.icmpi c p cc a imm) c p.val [useA a] fun s k g l =>
    (icmpHolds cc (val s k g l a) (BitVec.ofInt 32 imm.toInt), 0))
  ∧ (∀ c p cc a b, ComputesPred (.fcmp c p cc a b) c p.val [useA a, useB b] fun s k g l =>
    fcmpHolds cc (f32Of (val s k g l a)) (f32Of (val s k g l b)))
  ∧ (∀ c d a b t, ComputesPred (.plop c d a b t) c d.val []
    (fun _ _ g l => (t.getLsbD ((predBit g a.val l).toNat * 2 + (predBit g b.val l).toNat), 0))
    fun g l => predPois g a.val l || predPois g b.val l)
  ∧ (∀ cc x y, icmpHolds cc x y = match cc with
      | .eq => decide (x.toNat = y.toNat)
      | .ne => decide (x.toNat ≠ y.toNat)
      | .lt => decide (x.toInt < y.toInt)
      | .le => decide (x.toInt ≤ y.toInt)
      | .gt => decide (y.toInt < x.toInt)
      | .ge => decide (y.toInt ≤ x.toInt)
      | .ltu => decide (x.toNat < y.toNat)
      | .leu => decide (x.toNat ≤ y.toNat)
      | .gtu => decide (y.toNat < x.toNat)
      | .geu => decide (y.toNat ≤ x.toNat))
  ∧ DecodesTo 0x33 (fun f i => f.mod = 0 ∧ ∃ c p cc a b, i = .icmp c p cc a b ∧ f.d.toNat = p.val + 8 * (encICC cc).toNat)
  ∧ DecodesTo 0x34 (fun f i => ∃ c p cc a, i = .icmpi c p cc a f.imm ∧ f.d.toNat = p.val + 8 * (encICC cc).toNat)
  ∧ ∀ (w lit : DWord), (splitWord w).op = 0x33 ∨ (splitWord w).op = 0x34 → 10 ≤ (splitWord w).d.toNat / 8 % 16 →
    decodeWords [w, lit] = .illegalOp

/-- R343, R344, R351, R352, R345: float sums, products, extremes, roundings and classes, with the flags they raise. -/
def Obligations.FloatResults : Prop :=
  (∀ c d a b rm na nb, okDst c.u d = true → Computes1 (.fadd c d a b rm na nb) c d [useA a, useB b] fun s k g l =>
    lane32 (fAdd fp32 rm ((f32Of (val s k g l a)).neg? na) ((f32Of (val s k g l b)).neg? nb)))
  ∧ (∀ c d a b rm na nb, okDst c.u d = true → Computes1 (.fmul c d a b rm na nb) c d [useA a, useB b] fun s k g l =>
    lane32 (fMul fp32 rm ((f32Of (val s k g l a)).neg? na) ((f32Of (val s k g l b)).neg? nb)))
  ∧ (∀ c d a b e rm np nc, okDst c.u d = true → Computes1 (.ffma c d a b e rm np nc) c d [useA a, useB b, useC e] fun s k g l =>
    lane32 (fFma fp32 rm np (f32Of (val s k g l a)) (f32Of (val s k g l b)) ((f32Of (val s k g l e)).neg? nc)))
  ∧ (∀ c d a b, okDst c.u d = true → Computes1 (.fmin c d a b) c d [useA a, useB b] fun s k g l =>
    lane32 (minmaxF false (val s k g l a).toNat (val s k g l b).toNat))
  ∧ (∀ c d a b, okDst c.u d = true → Computes1 (.fmax c d a b) c d [useA a, useB b] fun s k g l =>
    lane32 (minmaxF true (val s k g l a).toNat (val s k g l b).toNat))
  ∧ (∀ c d a rm, okDst c.u d = true → Computes1 (.frnd c d a rm) c d [useA a] fun s k g l => lane32 (fRnd rm (val s k g l a).toNat))
  ∧ ∀ c d a, okDst c.u d = true → Computes1 (.fcls c d a) c d [useA a] fun s k g l => (classOf (val s k g l a), 0)

/-- R347, R82: the special functions, with the flags they raise. -/
def Obligations.SpecialFunctions : Prop :=
  ∀ c d a, okDst c.u d = true →
    Computes1 (.frcp c d a) c d [useA a] (fun s k g l => lane32 (fRcp (f32Of (val s k g l a))))
    ∧ Computes1 (.frsq c d a) c d [useA a] (fun s k g l => lane32 (fRsq (f32Of (val s k g l a))))
    ∧ Computes1 (.fsqt c d a) c d [useA a] (fun s k g l => lane32 (fSqt (f32Of (val s k g l a))))
    ∧ Computes1 (.fex2 c d a) c d [useA a] (fun s k g l => lane32 (fEx2 (f32Of (val s k g l a))))
    ∧ Computes1 (.flg2 c d a) c d [useA a] (fun s k g l => lane32 (fLg2 (f32Of (val s k g l a))))
    ∧ Computes1 (.fspi c d a) c d [useA a] (fun s k g l => lane32 (fSpi (f32Of (val s k g l a))))
    ∧ Computes1 (.fcpi c d a) c d [useA a] (fun s k g l => lane32 (fCpi (f32Of (val s k g l a))))

/-- R389, R390, R337, R414, R334, R335, R397 to R399: packed pairs, dot products, conversions and ray tests.
The model's own choices and readings in it: logs 32, 147. -/
def Obligations.PackedDotsConversionsRays : Prop :=
  (∀ c d a b rm bf, okDst c.u d = true → Computes1 (.padd2 c d a b rm bf) c d [useA a, useB b] fun s k g l =>
    packed2 bf (fun f => fAdd f rm) (val s k g l a) (val s k g l b))
  ∧ (∀ c d a b rm bf, okDst c.u d = true → Computes1 (.pmul2 c d a b rm bf) c d [useA a, useB b] fun s k g l =>
    packed2 bf (fun f => fMul f rm) (val s k g l a) (val s k g l b))
  ∧ (∀ c d a b e rm bf, okDst c.u d = true → Computes1 (.pfma2 c d a b e rm bf) c d [useA a, useB b, useC e] fun s k g l =>
    packed3 bf rm (val s k g l a) (val s k g l b) (val s k g l e))
  ∧ (∀ c d a b e bf, okDst c.u d = true → Computes1 (.dot2f c d a b e bf) c d [useA a, useB b, useC e] fun s k g l =>
    dot2f bf (val s k g l a) (val s k g l b) (val s k g l e))
  ∧ (∀ c d a b e ua ub, okDst c.u d = true → Computes1 (.dot4i c d a b e ua ub) c d [useA a, useB b, useC e] fun s k g l =>
    let p := fun i => (if ua then ((byteOf (val s k g l a) i).toNat : Int) else (byteOf (val s k g l a) i).toInt)
      * (if ub then ((byteOf (val s k g l b) i).toNat : Int) else (byteOf (val s k g l b) i).toInt)
    (BitVec.ofInt 32 ((val s k g l e).toInt + (p 0 + p 1 + p 2 + p 3)), 0))
  ∧ (∀ c d a b e, okDst c.u d = true → Computes1 (.spdot c d a b e) c d [useA a, useB b, useC e] fun s k g l =>
    let p := fun i => sp8Units (byteOf (val s k g l a) i).toNat * (byteOf (val s k g l b) i).toInt
    (BitVec.ofInt 32 ((val s k g l e).toInt + (p 0 + p 1 + p 2 + p 3)), 0))
  ∧ (∀ c d a dt st rm sat el, okDst c.u d = true → Computes1 (.cvt c d a dt st rm sat el) c d [useA a] fun s k g l =>
    lane32 (convertTo dt ⟨rm, ditherAt (l + g.dph.toNat)⟩ sat (tyVal st (tyElem st (val s k g l a) el.val))))
  ∧ (∀ c d a b, (okV d || d == .zero) = true → Computes1 (.raybox c d a b) c d [useA a 8, useB b 6] fun s k g l =>
    (BitVec.ofNat 32 (rayBox (blockVal s k g l a) (blockVal s k g l b)), 0))
  ∧ ∀ c d a b, okDstRun false 2 d = true → Computes2 (.raytri c d a b) c d [useA a 8, useB b 9] fun s k g l =>
    BitVec.ofNat 64 ((rayTri (blockVal s k g l a) (blockVal s k g l b)).1
      + 2 ^ 32 * (rayTri (blockVal s k g l a) (blockVal s k g l b)).2)

/-! ### Cross-lane instructions -/

/-- R412, R413, R333, R62: SHFL takes each lane's value from the lane its mode names, where that one executes; COMPACT puts the
executing lanes' values into the lowest lanes.
The model's own choices and readings in it: logs 101, 103. -/
def Obligations.ShufflesAndCompaction : Prop :=
  (∀ c d a b mode, okDst c.u d = true → Computing (.shfl c d a b mode) c false d 1 [useA a, useB b] [] (fun x => x)
    (fun s k g x => ∀ l, x.getLsbD l = true → (laneVal s k g l b.o 0).2 = false
      ∧ (shflFrom s k g x mode b l ≠ l → (laneVal s k g (shflFrom s k g x mode b l) a.o 0).2 = false))
    (fun s k g x l _ => (laneVal s k g (shflFrom s k g x mode b l) a.o 0).1)
    (fun s k g x l => (laneVal s k g (shflFrom s k g x mode b l) a.o 0).2) fun _ _ _ _ _ => 0)
  ∧ (∀ s k g x b l, l < 64 → ∀ mode, shflFrom s k g x mode b l =
    let n := (val s k g l b).toNat
    let j := match mode with
      | .idx => n % 64
      | .up => if n ≤ l then l - n else l
      | .down => if l + n ≤ 63 then l + n else l
      | .xor => l ^^^ n % 64
    if x.getLsbD j then j else l)
  ∧ ∀ c d a (s : State) (k : Cur) (g : Group) (act rest : Mask) (p : Park), okDst c.u d = true → c.u = false → Issuing s k g →
    Passes s k g c false [useA a] [{ o := d, low := true }] [] act rest p (lowLanes (execLanes g c act)) →
    let x := execLanes g c act
    let src := fun i => (lanesOf x).getD i 64
    (∀ l, x.getLsbD l = true → (laneVal s k g l a.o 0).2 = true → src l = l) →
    ∃ t g', exec (.compact c d a) s = .next t ∧
      Computes s t k g (freed k g c [useA a] [{ o := d, low := true }] act rest) (lowLanes x) d 1
        (goOn k g c [useA a] [{ o := d, low := true }] act rest p)
        (fun _ i => (laneVal s k g (src i) a.o 0).1) (fun i => (laneVal s k g (src i) a.o 0).2) 0 g'

/-- R321, R439, R368, R369, R62: masks of the executing lanes where a predicate holds, or where the keys are equal; votes.
The model's own choices and readings in it: log 103. -/
def Obligations.BallotsVotesMatches : Prop :=
  (∀ c d p, okDstRun c.u 2 d = true → Computing (.ballot c d p) c false d 2 [] [] (fun x => x) (CleanPred p.val)
    (fun _ _ g x _ r => (maskOf fun l => x.getLsbD l && predBit g p.val l).extractLsb' (32 * r) 32) (fun _ _ _ _ _ => false)
    fun _ _ _ _ _ => 0)
  ∧ (∀ c d a, okDstRun c.u 2 d = true → Computing (.matchKeys c d a) c false d 2 [useKey a] [] (fun x => x)
    (fun s k g x => (∀ l, x.getLsbD l = true → (laneVal s k g l a.o 0).2 = false) ∨ (lanesOf x).length < 2)
    (fun s k g x l r => (maskOf fun j => x.getLsbD j && val s k g j a == val s k g l a).extractLsb' (32 * r) 32)
    (fun s k g _ l => (laneVal s k g l a.o 0).2) fun _ _ _ _ _ => 0)
  ∧ (∀ c n p mode, c.u = true → Computing (.vote c (.reg (.s n)) p mode) c false (.s n) 1 [] [] (fun x => x) (CleanPred p.val)
    (fun _ _ g x _ _ => if votes mode g p.val x then 1 else 0)
    (fun _ _ _ _ _ => false) fun _ _ _ _ _ => 0)
  ∧ (∀ c (q p : Fin 8) mode (s : State) (k : Cur) (g : Group) (act rest : Mask) (w : Park), Issuing s k g →
    Passes s k g c false [] [] [] act rest w (execLanes g c act) → CleanPred p.val s k g (execLanes g c act) →
    ∃ t g', exec (.vote c (.pred q) p mode) s = .next t ∧
      Decides s t k g (freed k g c [] [] act rest) (execLanes g c act) q.val (goOn k g c [] [] act rest w)
        (fun _ => votes mode g p.val (execLanes g c act)) (fun _ => false) 0 g')
  ∧ ∀ c (p : Fin 8) a (s : State) (k : Cur) (g : Group) (act rest : Mask) (w : Park), Issuing s k g →
    Passes s k g c false [useA a] [] [] act rest w (execLanes g c act) →
    ∃ t g', exec (.pchk c p a) s = .next t ∧
      Decides s t k g (freed k g c [useA a] [] act rest) (execLanes g c act) p.val
        (goOn k g c [useA a] [] act rest w)
        (fun l => (laneVal s k g l a.o 0).2) (fun _ => false) 0 g'

/-- R403, R404, R409, R410: a reduction gives every executing lane the accumulation of all their values in lane order, a scan
that of the lanes up to it, or before it from the identity. Poison of an executing lane is consumed before. Under U the last
lane's result goes to all.
The model's own choices and readings in it: log 103. -/
def Obligations.ReductionsAndScans : Prop :=
  (∀ c d a op, okDst c.u d = true → Computing (.reduce c d a op) c false d 1 [useWide a] [(3, useWide a)] (fun x => x)
    (fun _ _ _ _ => True)
    (fun s k g x _ _ => match lanesOf x with
      | [] => 0
      | l :: ls => ls.foldl (fun w j => (redStep op w (val s k g j (pathed g k c a))).1) (val s k g l (pathed g k c a)))
    (fun _ _ _ _ _ => false)
    fun s k g _ x => (reduceVals op ((lanesOf x).map fun l => val s k g l (pathed g k c a))).2)
  ∧ ∀ c d a op excl, okDst c.u d = true → Computing (.scan c d a op excl) c false d 1 [useWide a] [(3, useWide a)] (fun x => x)
    (fun _ _ _ _ => True)
    (fun s k g x l _ =>
      let e := if c.u then (lanesOf x).getLastD 0 else l
      if excl then ((lanesOf x).filter fun j => decide (j < e)).foldl (fun w j =>
        (redStep op w (val s k g j (pathed g k c a))).1) (redIdentity op)
      else match (lanesOf x).filter fun j => decide (j ≤ e) with
        | [] => 0
        | j :: js => js.foldl (fun w j => (redStep op w (val s k g j (pathed g k c a))).1) (val s k g j (pathed g k c a)))
    (fun _ _ _ _ _ => false)
    fun s k g _ x => (scanVals op excl ((lanesOf x).map fun l => val s k g l (pathed g k c a))).2

/-! ### Flow and system instructions -/

/-- R386, R328, R263: NOP goes on. BRA sends its executing lanes to its target, BRX each to its own; the others, and the lanes of
BRC, which go together, pass to the next clause. -/
def Obligations.Branches : Prop :=
  (∀ c, Runs (.nop c) c [] [] (fun _ _ _ _ => True) (fun _ _ g _ _ => g) (fun _ k _ _ _ => k.next) fun k => k.last)
  ∧ (∀ c off, Runs (.bra c off) c [] [] (fun _ _ _ _ => True) (fun _ _ g _ _ => g)
    (fun _ k _ x l => if x.getLsbD l then BitVec.ofInt 64 (k.pc.toInt + 8 * off.toInt) else k.next) fun _ => true)
  ∧ (∀ c p cond off, Runs (.brc c p cond off) c [] [] (CleanPred p.val) (fun _ _ g _ _ => g)
    (fun _ k g x _ =>
      if (match cond with
        | .any => (lanesOf x).any fun l => predBit g p.val l
        | .all => (lanesOf x).all fun l => predBit g p.val l
        | .none => (lanesOf x).all fun l => !predBit g p.val l) then BitVec.ofInt 64 (k.pc.toInt + 8 * off.toInt) else k.next)
    fun _ => true)
  ∧ ∀ c a, Runs (.brx c a) c [useA a 2] [(2, useA a 2)] (fun _ _ _ _ => True) (fun _ _ g _ _ => g)
    (fun s k g x l => if x.getLsbD l then val64 s k g l a else k.next) fun _ => true

/-- R330, R407: a call leaves the address of the next clause header in the pair D, adds one to the depth of its executing
lanes and jumps; a return takes one from it. -/
def Obligations.CallsAndReturns : Prop :=
  (∀ (c : Ctl) (d : Opd) (off : BitVec 30) (s : State) (k : Cur) (g : Group) (act rest : Mask) (p : Park),
    okVBlk 2 d = true → Issuing s k g →
    Passes s k g c false [] [{ o := d, n := 2 }] [] act rest p (execLanes g c act) →
    let x := execLanes g c act
    ∃ t g', exec (.call c d off) s = .next t ∧
      Computes s t k g (freed k g c [] [{ o := d, n := 2 }] act rest) x d 2
        (fun l th => afterIssue (partsNow g k c [] [{ o := d, n := 2 }] act) (laterAt k g act rest) act rest p
          (fun l => if x.getLsbD l then BitVec.ofInt 64 (k.pc.toInt + 8 * off.toInt) else k.next) true l
          (if x.getLsbD l then { th with depth := th.depth + 1 } else th))
        (fun r _ => (linkAddr k).extractLsb' (32 * r) 32) (fun _ => false) 0 g')
  ∧ (∀ (c : Ctl) (d : Opd) (a : Src) (s : State) (k : Cur) (g : Group) (act rest : Mask) (p : Park),
    okVBlk 2 d = true → Issuing s k g →
    Passes s k g c false [useA a 2] [{ o := d, n := 2 }] [(2, useA a 2)] act rest p (execLanes g c act) →
    let x := execLanes g c act
    ∃ t g', exec (.callx c d a) s = .next t ∧
      Computes s t k g (freed k g c [useA a 2] [{ o := d, n := 2 }] act rest) x d 2
        (fun l th => afterIssue (partsNow g k c [useA a 2] [{ o := d, n := 2 }] act) (laterAt k g act rest) act rest p
          (fun l => if x.getLsbD l then val64 s k g l a else k.next) true l
          (if x.getLsbD l then { th with depth := th.depth + 1 } else th))
        (fun r _ => (linkAddr k).extractLsb' (32 * r) 32) (fun _ => false) 0 g')
  ∧ (∀ c a, Runs (.ret c a) c [useA a 2] [(2, useA a 2)] (fun _ _ _ _ => True)
    (fun _ _ g _ x => modThreads g x fun t => { t with depth := t.depth - 1 })
    (fun s k g x l => if x.getLsbD l then val64 s k g l a else k.next) fun _ => true)
  ∧ ∀ k : Cur, linkAddr k = k.run.addr + 8 * (1 + BitVec.ofNat 64 k.run.hdr.cnt)

/-- R342: EXIT ends its executing lanes; the lanes that went on without executing pass to the next clause. While the group has
a live lane left it stays, and the lanes that exited count as exited. -/
def Obligations.Exits : Prop :=
  ∀ (c : Ctl) (s : State) (k : Cur) (g : Group) (act rest : Mask) (p : Park), Issuing s k g →
    Passes s k g c false [] [] [] act rest p (execLanes g c act) →
    exec (.exit c) s = .next (retireWith (exitLanes (taken s k g c (execLanes g c act) []) k.core k.slot (execLanes g c act))
      k c ⟨k.op, [], []⟩ (act &&& ~~~execLanes g c act) 0 .no (fun _ => k.next) true)
    ∧ ((∃ l, l < 64 ∧ (threadAt g l).live = true ∧ (execLanes g c act).getLsbD l = false) →
      ∃ t g', exec (.exit c) s = .next t ∧ groupAt t k.core k.slot = some g'
        ∧ ∀ l, l < 64 → (threadAt g' l).exited = ((threadAt g l).exited || (execLanes g c act).getLsbD l))

/-- R53, R359, R372 to R375, R60, R396: MEET makes its executing lanes the members of a join and names where they meet, JARR marks
members as arrived, JLEAVE takes lanes out; MELD sets the paths of its executing lanes from a predicate or a register's low bits,
MELDX puts every lane of the group on path 0, PTAB writes eight codes of a path's table. -/
def Obligations.MeetsAndMelding : Prop :=
  (∀ c n off, Runs (.meet c n off) c [] [] (fun _ _ _ _ => True)
    (fun _ k g _ x => modThreads { g with jms := tset g.jms n.val ⟨x, 0⟩ } x fun t =>
      { t with meeta := BitVec.ofInt 64 (k.pc.toInt + 8 * off.toInt), meetj := BitVec.ofNat 32 n.val })
    (fun _ k _ _ _ => k.next) fun k => k.last)
  ∧ (∀ c n, Runs (.jarr c n) c [] [] (fun _ _ _ _ => True)
    (fun _ _ g _ x => { g with jms := tset g.jms n.val ⟨(jmaskAt g n.val).e, (jmaskAt g n.val).a ||| (x &&& (jmaskAt g n.val).e)⟩ })
    (fun _ k _ _ _ => k.next) fun k => k.last)
  ∧ (∀ c n, Runs (.jleave c n) c [] [] (fun _ _ _ _ => True)
    (fun _ _ g _ x =>
      modThreads { g with jms := tset g.jms n.val ⟨(jmaskAt g n.val).e &&& ~~~x, (jmaskAt g n.val).a &&& ~~~x⟩ } x fun t =>
        if t.meetj.toNat % 8 = n.val then { t with meeta := 0 } else t)
    (fun _ k _ _ _ => k.next) fun k => k.last)
  ∧ (∀ c p wp, Runs (.meld c (.pred p) wp) c [] [] (CleanPred p.val)
    (fun _ _ g _ x => setPaths g x (fun l => if predBit g p.val l then 1 else 0) wp 2) (fun _ k _ _ _ => k.next) fun k => k.last)
  ∧ (∀ c a wp, Runs (.meld c (.q4 a) wp) c [useA a] [(2, useA a)] (fun _ _ _ _ => True)
    (fun s k g _ x => setPaths g x (fun l => BitVec.ofNat 2 (val s k g l a).toNat) wp 4) (fun _ k _ _ _ => k.next) fun k => k.last)
  ∧ (∀ (g : Group) (x : Mask) (p : Nat → BitVec 2) (b : Fin 8) (n i l : Nat), n ≤ 4 → 1 ≤ b.val → b.val + n ≤ 8 →
    i < n → x.getLsbD l = true → (threadAt (setPaths g x p (some b) n) l).path = p l
      ∧ predBit (setPaths g x p (some b) n) (b.val + i) l = decide ((p l).toNat = i)
      ∧ predPois (setPaths g x p (some b) n) (b.val + i) l = false)
  ∧ (∀ c, Runs (.meldx c) c [] [] (fun _ _ _ _ => True)
    (fun _ _ g _ x => if x = 0 then g else modThreads g (maskOf fun l => (threadAt g l).present) fun t => { t with path := 0 })
    (fun _ k _ _ _ => k.next) fun k => k.last)
  ∧ ∀ c k hi lit, Runs (.ptab c k hi lit) c [] [] (fun _ _ _ _ => True)
    (fun _ _ g _ x => if x = 0 then g else { g with ptabs := (List.range 8).foldl (fun t i =>
      tset t (k.val * 16 + (if hi then 8 else 0) + i) (BitVec.ofNat 8 (lit.toNat / 2 ^ (8 * i)))) g.ptabs })
    (fun _ k _ _ _ => k.next) fun k => k.last

/-- R387, R222, R440: NPB opens a region in the executing lanes that have none, from the next instruction on, where the launch
allows it; NPE closes it; WAITE goes on once its scoreboard slots are clear.
The model's own choices and readings in it: logs 44, 52. -/
def Obligations.RegionsAndWaits : Prop :=
  (∀ (c : Ctl) (s : State) (k : Cur) (g : Group) (act rest : Mask) (p : Park), Issuing s k g →
    Passes s k g c false [] [] [] act rest p (execLanes g c act) → execLanes g c act = 0 ∨ (hdrOf s g).npok = true →
    ∃ t g', exec (.npb c) s = .next t ∧ groupAt t k.core k.slot = some g' ∧ Apart s t k
      ∧ (∀ l, l < 64 → threadAt g' l =
        let th := goOn k g c [] [] act rest p l (threadAt g l)
        if (execLanes g c act).getLsbD l && !(threadAt g l).npIn then { th with npIn := true, npCnt := 0 } else th)
      ∧ g'.regs = g.regs ∧ g'.sregs = g.sregs ∧ g'.preds = g.preds ∧ g'.fflags = g.fflags)
  ∧ (∀ c, Runs (.npe c) c [] [] (fun _ _ _ _ => True) (fun _ _ g _ x => modThreads g x fun t => { t with npIn := false })
    (fun _ k _ _ _ => k.next) fun k => k.last)
  ∧ ∀ c (m : BitVec 8), Runs (.waite c m) c [] []
    (fun _ _ g x => x = 0 ∨ ∀ i, i < 8 → m.getLsbD i = true → tget? g.sb i = none)
    (fun _ _ g _ _ => g) (fun _ k _ _ _ => k.next) fun k => k.last

/-- R376 to R378, R218: MFS gives each executing lane the register's value as its own lane sees it, with U as well, an s register
that of the lowest active lane; a privileged register outside the
physical function is not read. MTS writes a thread register in each executing lane, and any other register once, from the lowest
executing lane, or the lowest active one under U; poison that would reach a register of no lane is consumed before. What a group
register reads as afterwards is what was written, in the bits it has.
The model's own choices and readings in it: log 146. -/
def Obligations.SystemRegisters : Prop :=
  (∀ c d n, (match sysInfo n.toNat with
      | some i => if i.wide then okDstRun c.u 2 d else okDst c.u d
      | none => false) = true →
    ∀ (s : State) (k : Cur) (g : Group) (act rest : Mask) (p : Park), Issuing s k g →
      Passes s k g c false [] [{ o := d, n := sysWidth n.toNat }] [] act rest p (execLanes g c act) → n.toNat < 0x100 ∨ g.fn = 0 →
      ∃ t g', exec (.mfs c d n) s = .next t ∧
        Computes s t k g (freed k g c [] [{ o := d, n := sysWidth n.toNat }] act rest) (execLanes g c act) d (sysWidth n.toNat)
          (goOn k g c [] [{ o := d, n := sysWidth n.toNat }] act rest p)
          (fun r l => (sysRead s k g (match d with | .s _ => lowLane act | _ => l) n.toNat).extractLsb' (32 * r) 32)
          (fun _ => false) 0 g')
  ∧ (∀ (c : Ctl) (d : Opd) (n : BitVec 9) (s : State) (k : Cur) (g : Group) (act rest : Mask) (p : Park), Issuing s k g →
    gate s k g c false [] [{ o := d, n := sysWidth n.toNat }] [] = .pass act rest p → 0x100 ≤ n.toNat → g.fn ≠ 0 →
    exec (.mfs c d n) s = .next (trapFirst k s ⟨tcProtection, k.lanes, addrInfo 5 0⟩))
  ∧ (∀ c a (n : BitVec 9), n = 0x00A ∨ n = 0x00B →
    Runs (.mts c a n) c [mtsUse a n] [(1, mtsUse a n)] (fun _ _ _ _ => True)
      (fun s k g act x => mapThreads g fun l t => if x.getLsbD l then
        (let v := mtsVal s k g (fromLane c act l) a n.toNat
         if n = 0x00A then { t with meeta := v } else { t with meetj := BitVec.ofNat 32 (v.toNat % 8) }) else t)
      (fun _ k _ _ _ => k.next) fun k => k.last)
  ∧ (∀ c a (n : BitVec 9), sysScope n.toNat ≠ .thread →
    Acts (.mts c a n) c false [mtsUse a n] [] [] (fun x => x)
      (fun s k g act x s1 => s1 = s ∧ (n.toNat < 0x100 ∨ g.fn = 0)
        ∧ (x = 0 ∨ srcPois s k g (if c.u then lowLane act else lowLane x) (mtsUse a n) = false))
      fun s k g act x t => if x = 0 then t
        else sysWrite t k n.toNat (mtsVal s k g (if c.u then lowLane act else lowLane x) a n.toNat))
  ∧ ∀ (s : State) (k : Cur) (g : Group) (v : DWord) (n : Nat) (mask : Nat), groupAt s k.core k.slot = some g →
    (n, mask) ∈ [(1, 2 ^ 64), (2, 2 ^ 64), (3, 2 ^ 64), (8, 32), (9, 16), (0x80, 2 ^ 32), (0x81, 2 ^ 32)] →
    ∃ g', groupAt (sysWrite s k n v) k.core k.slot = some g' ∧ ∀ l, sysRead (sysWrite s k n v) k g' l n = BitVec.ofNat 64 (v.toNat % mask)


/-! ### Checks, traps and the return -/

/-- R41, R43, R44, R210, R212, R280: where no operand is an m or a window register, every source is mapped and full in the lanes that are
read, no guard lane is poisoned, no written lane is still empty, and registers are to be had, an instruction passes its checks with
all its lanes. A source with the trap policy that is empty in some lanes raises EMPTY_SOURCE: the lanes stand at the handler with the pc of
the instruction saved, TINFO names the position and TLANES the empty lanes. A name that no register is mapped to raises UNMAPPED_READ for the
whole lane set. An empty source with the block policy parks the lane set, which lets its quarter go and stands where it stood.
The model's own choices and readings in it: logs 108, 115, 118. -/
def Obligations.OperandChecks : Prop :=
  (∀ (s : State) (k : Cur) (g : Group) (c : Ctl) (srcs : List SrcUse) (dsts : List DstUse),
    (∀ u, u ∈ srcs → (∀ n, u.src.o ≠ .m n) ∧ (∀ n, u.src.o ≠ .w n) ∧ u.late = 0
      ∧ ∀ l, l ∈ readLanes g c k.lanes u → ∀ r, r ∈ srcNames g l u → refFull g l r = true ∧ ∀ n, r = .v n → (vreg? g n).isSome = true) →
    (∀ d, d ∈ dsts → (∀ n, d.o ≠ .m n) ∧ ∀ n, d.o ≠ .w n) →
    k.lanes ≠ 0 → (∀ u, u ∈ srcs → u.src.pol = .split → u.xlow = false) → queueFull g dsts = false →
    (∀ l, k.lanes.getLsbD l = true → predPois g c.gp.val l = false) →
    dstEmpty g (execLanes g c k.lanes) dsts = [] →
    mappedCount g + (newNames g c (execLanes g c k.lanes) dsts).length ≤ g.rb →
    ∃ p, Passes s k g c false srcs dsts [] k.lanes 0 p (execLanes g c k.lanes))
  ∧ (∀ (c : Ctl) (d : Opd) (a b : Src) (md : Sat) (na nb : Fin 128) (ra rb : VReg) (s : State) (k : Cur) (g : Group),
    Issuing s k g → okDst c.u d = true → (∀ n, d ≠ .m n) → a.o = .v na → b.o = .v nb → a.pol = .trap → b.pol ≠ .trap → c.u = false →
    vreg? g na.val = some ra → vreg? g nb.val = some rb → k.lanes &&& ~~~ra.full ≠ 0 →
    g.tactive = false → (hdrOf s g).handler ≠ 0 →
    ∃ t g', exec (.iadd c d a b md) s = .next t ∧ groupAt t k.core k.slot = some g'
      ∧ g'.tcode = 0x04 ∧ g'.tactive = true ∧ g'.tpc = k.pc ∧ g'.tinfo = 4 ∧ g'.tlanes = k.lanes &&& ~~~ra.full
      ∧ (∀ l, l < 64 → threadAt g' l = if k.lanes.getLsbD l
          then { threadAt g l with pc := (hdrOf s g).handler, run := none, mid := false, park := .no, parts := none, arrived := false, released := false }
          else threadAt g l)
      ∧ g'.regs = g.regs ∧ g'.sregs = g.sregs ∧ g'.preds = g.preds ∧ g'.fflags = g.fflags
      ∧ ∀ i, Memory.read t.mem i = Memory.read s.mem i)
  ∧ (∀ (c : Ctl) (d : Opd) (a b : Src) (md : Sat) (na : Fin 128) (s : State) (k : Cur) (g : Group),
    Issuing s k g → okDst c.u d = true → (∀ n, d ≠ .m n) → a.o = .v na → (∀ n, b.o ≠ .m n) → (∀ n, b.o ≠ .w n) →
    vreg? g na.val = none → k.lanes ≠ 0 →
    exec (.iadd c d a b md) s = .next (trapFirst k s ⟨0x05, k.lanes, BitVec.ofNat 64 na.val⟩))
  ∧ ∀ (c : Ctl) (d : Opd) (a b : Src) (md : Sat) (na nb : Fin 128) (ra rb : VReg) (s : State) (k : Cur) (g : Group),
    Issuing s k g → okDst c.u d = true → (∀ n, d ≠ .m n) → a.o = .v na → b.o = .v nb → a.pol = .block → b.pol = .block → c.u = false →
    vreg? g na.val = some ra → vreg? g nb.val = some rb → k.lanes &&& ~~~ra.full ≠ 0 →
    ∃ t g', exec (.iadd c d a b md) s = .next t ∧ groupAt t k.core k.slot = some g'
      ∧ (∀ q, tget? (coreAt t k.core).quarters (k.slot / 32) = some q → q.1 ≠ k.slot)
      ∧ (∀ l, l < 64 → (threadAt g' l).pc = (threadAt g l).pc
        ∧ (k.lanes.getLsbD l = true → ∃ ws, (threadAt g' l).park = .src ws ∧ ∀ j, j < 64 → (k.lanes &&& ~~~ra.full).getLsbD j = true →
            (RegRef.v na.val, laneBit j) ∈ ws))
      ∧ g'.regs = g.regs ∧ g'.sregs = g.sregs ∧ g'.preds = g.preds ∧ g'.fflags = g.fflags
      ∧ ∀ i, Memory.read t.mem i = Memory.read s.mem i

/-- R209, R212, R213, R196, R54, R55: taking a trap. Where the launch has a handler and no handler runs, the lane set passes to it; else the
group halts: the launch keeps the first cause, and the group's slot is free unless a lane that has left still carries values. Memory
takes nothing but the error record of PEER_LOST (R149). -/
def Obligations.TrapsEnterTheHandlerOrHalt : Prop :=
  (∀ (s : State) (c slot : Nat) (lanes : Mask) (tpc clause : DWord) (run : Option Run) (r : TrapReq) (g : Group),
    groupAt s c slot = some g → r.code ≠ tcPageFault → r.code ≠ tcPoison → g.tactive = false → (hdrOf s g).handler ≠ 0 →
    ∃ g', groupAt (takeTrap s c slot lanes tpc clause run r) c slot = some g'
      ∧ g'.tcode = r.code ∧ g'.tactive = true ∧ g'.tpc = tpc ∧ g'.tinfo = r.info ∧ g'.tlanes = r.lanes ∧ g'.handler = lanes
      ∧ g'.tclause = clause ∧ g'.trun = run
      ∧ (∀ l, l < 64 → threadAt g' l = if lanes.getLsbD l
          then { threadAt g l with pc := (hdrOf s g).handler, run := none, mid := false, park := .no, parts := none, arrived := false, released := false }
          else threadAt g l)
      ∧ g'.regs = g.regs ∧ g'.sregs = g.sregs ∧ g'.preds = g.preds ∧ g'.fflags = g.fflags ∧ g'.ptabs = g.ptabs
      ∧ (∀ q, tget? (coreAt (takeTrap s c slot lanes tpc clause run r) c).quarters (slot / 32) = some q → q.1 ≠ slot)
      ∧ (takeTrap s c slot lanes tpc clause run r).mem =
        if r.code = tcPeerLost then (errorRecord s g.fn (r.info >>> (57 : Nat)) 0 0).mem else s.mem)
  ∧ ∀ (s : State) (c slot : Nat) (lanes : Mask) (tpc clause : DWord) (run : Option Run) (r : TrapReq) (g : Group) (y : Launch),
    groupAt s c slot = some g → r.code ≠ tcPageFault → r.code ≠ tcPoison → g.tactive = true ∨ (hdrOf s g).handler = 0 →
    launchAt s g.launch = some y →
    (∃ y', launchAt (takeTrap s c slot lanes tpc clause run r) g.launch = some y'
      ∧ y'.halted = match y.halted with | none => some (r.code, tpc) | h => h)
    ∧ ((coreAt s c).regroup = [] → groupAt (takeTrap s c slot lanes tpc clause run r) c slot = none)

/-- R419, R326, R209, R210: TRAP, BKPT and SVC retire, and then their lane set enters the handler with the next pc saved; with no
executing lane they are NOPs. -/
def Obligations.SoftTrapsEnterTheHandler : Prop :=
  ∀ (c : Ctl) (imm : BitVec 22) (i : Instr) (code : BitVec 8), (i, code) ∈ [(.trap c imm, 0x12), (.bkpt c imm, 0x13), (.svc c imm, 0x14)] →
    (∀ (s : State) (k : Cur) (g : Group) (act rest : Mask) (p : Park), Issuing s k g →
      Passes s k g c false [] [] [] act rest p (execLanes g c act) → execLanes g c act ≠ 0 →
      g.tactive = false → (hdrOf s g).handler ≠ 0 →
      ∃ t g', exec i s = .next t ∧ groupAt t k.core k.slot = some g'
        ∧ g'.tcode = code ∧ g'.tactive = true ∧ g'.tpc = k.next ∧ g'.tinfo = BitVec.ofNat 64 imm.toNat
        ∧ g'.tlanes = execLanes g c act ∧ g'.handler = act
        ∧ (∀ l, l < 64 → threadAt g' l = if act.getLsbD l
            then { countIssue (threadAt g l) with pc := (hdrOf s g).handler, run := none, mid := false }
            else afterIssue ⟨k.op, [], []⟩ (laterAt k g act 0) act 0 .no (fun _ => k.pc) k.last l (threadAt g l))
        ∧ g'.regs = g.regs ∧ g'.sregs = g.sregs ∧ g'.preds = g.preds ∧ g'.fflags = g.fflags
        ∧ ∀ i, Memory.read t.mem i = Memory.read s.mem i)
    ∧ ∀ (s : State) (k : Cur) (g : Group) (act rest : Mask) (p : Park), Issuing s k g →
      Passes s k g c false [] [] [] act rest p (execLanes g c act) → execLanes g c act = 0 →
      ∃ t g', exec i s = .next t ∧ Leaves s t k g (freed k g c [] [] act rest) (goOn k g c [] [] act rest p) g'

/-- R214 to R217, R242: a page fault parks its lane set and leaves a token for the answer; consumed poison parks it until containment.
Neither enters the handler. The answer to a token sends its lanes back to their instruction, or delivers the PAGE_FAULT, or halts the group;
the token is spent. A record goes into the ring while it has room and is held back otherwise.
The model's own choice in it: log 74. -/
def Obligations.SystemFaultsAndAnswers : Prop :=
  (∀ (s : State) (c slot : Nat) (lanes : Mask) (tpc clause : DWord) (run : Option Run) (r : TrapReq) (g : Group),
    groupAt s c slot = some g → r.code = tcPageFault ∨ r.code = tcPoison →
    ∃ g', groupAt (takeTrap s c slot lanes tpc clause run r) c slot = some g'
      ∧ (∀ l, l < 64 → threadAt g' l = if lanes.getLsbD l
          then { threadAt g l with park := if r.code = tcPoison then .contained r.lanes else .fault s.nid } else threadAt g l)
      ∧ g'.tactive = g.tactive ∧ g'.tcode = g.tcode ∧ g'.regs = g.regs ∧ g'.preds = g.preds
      ∧ let u := queueRecord s g.fn ⟨r.code.zeroExtend 64 <<< 8 ||| 1, r.info, r.lanes,
          BitVec.ofNat 64 (s.nid % 2 ^ 32 + c * 2 ^ 32 + slot * 2 ^ 40)⟩
        let v := takeTrap s c slot lanes tpc clause run r
        v.mem = u.mem
        ∧ fnAt v g.fn = (if r.code = tcPoison then fnAt u g.fn else
          { fnAt u g.fn with toks := (fnAt s g.fn).toks ++ [⟨s.nid, c, slot, g.gid, lanes, tpc, r.info, r.lanes, run⟩] })
        ∧ ∀ y, launchAt s g.launch = some y → ∃ y', launchAt v g.launch = some y'
          ∧ y'.contain = if r.code = tcPoison then y.contain ++ [(c, slot, 1, r.lanes)] else y.contain)
  ∧ (∀ (s : State) (fn : Nat) (r : FaultRec), (fnAt s fn).held = [] →
    let f := fnAt s fn
    let u := queueRecord s fn r
    if (f.frTail - f.frHead).toNat < 2 ^ f.frLog2n then
      fnAt u fn = { f with frTail := f.frTail + 1 }
      ∧ u.mem = (putRecord s (f.frBase + BitVec.ofNat 64 (32 * (f.frTail.toNat % 2 ^ f.frLog2n))) r).mem
    else fnAt u fn = { f with held := [r] } ∧ u.mem = s.mem)
  ∧ ∀ (s : State) (fn : Nat) (token : Word) (t : FaultTok) (g : Group),
    (fnAt s fn).toks.find? (fun u => BitVec.ofNat 32 u.token == token) = some t → groupAt s t.core t.slot = some g → g.gid = t.gid →
    let spent := fun (u : State) => (fnAt u fn).toks = (fnAt s fn).toks.filter fun v => v.token != t.token
    let halts := fun (i : Instr) => Comes i s fun u => ((coreAt s t.core).regroup = [] → groupAt u t.core t.slot = none)
      ∧ ∀ y, launchAt s g.launch = some y → ∃ y', launchAt u g.launch = some y'
        ∧ y'.halted = match y.halted with | none => some (tcPageFault, t.tpc) | h => h
    Comes (.frespRetry fn token) s (fun u => spent u ∧ ∃ g', groupAt u t.core t.slot = some g' ∧ g'.regs = g.regs ∧ g'.sregs = g.sregs
      ∧ ∀ l, l < 64 → threadAt g' l = if t.lanes.getLsbD l then { threadAt g l with park := .no } else threadAt g l)
    ∧ (g.tactive = false → (hdrOf s g).handler ≠ 0 → Comes (.frespDeliver fn token) s fun u => spent u ∧ ∃ g', groupAt u t.core t.slot = some g'
      ∧ g'.tcode = 0x08 ∧ g'.tactive = true ∧ g'.tpc = t.tpc ∧ g'.tinfo = t.tinfo ∧ g'.tlanes = t.tlanes ∧ g'.handler = t.lanes
      ∧ g'.regs = g.regs ∧ g'.sregs = g.sregs ∧ g'.preds = g.preds
      ∧ ∀ l, l < 64 → threadAt g' l = if t.lanes.getLsbD l
        then { threadAt g l with pc := (hdrOf s g).handler, run := none, mid := false, park := .no, parts := none, arrived := false, released := false }
          else threadAt g l)
    ∧ (g.tactive = true ∨ (hdrOf s g).handler = 0 → halts (.frespDeliver fn token)) ∧ halts (.frespHalt fn token)

/-- R341, R212: ERET sends its executing lanes to TPC, inside the trap clause where TPC names one of its words, once all of its words have
been fetched; ACTIVE clears with
the last handler lane. Outside a handler it raises ILLEGAL_OP. -/
def Obligations.EretReturns : Prop :=
  (∀ (c : Ctl) (s : State) (k : Cur) (g : Group) (act rest : Mask) (p : Park), Issuing s k g →
    Passes s k g c false [] [] [] act rest p (execLanes g c act) → g.tactive = true →
    let x := execLanes g c act
    let inside := ∃ r, g.trun = some r ∧ g.tpc.toNat % 8 = 0 ∧ g.tclause.toNat < g.tpc.toNat
      ∧ g.tpc.toNat < g.tclause.toNat + 8 * (1 + r.hdr.cnt)
    ∃ t g', exec (.eret c) s = .next t ∧ groupAt t k.core k.slot = some g' ∧ Apart s t k
      ∧ (∀ l, l < 64 → x.getLsbD l = true → (threadAt g' l).pc = g.tpc ∧ (threadAt g' l).park = .no
        ∧ (inside → (threadAt g' l).run = g.trun ∧ ((threadAt g' l).mid = true ↔ ∃ r, g.trun = some r ∧ r.hdr.cnt ≤ r.words.length))
        ∧ (¬ inside → (threadAt g' l).mid = false ∧ (threadAt g' l).run = none)
        ∧ (threadAt g' l).depth = (threadAt g l).depth ∧ (threadAt g' l).path = (threadAt g l).path
        ∧ (threadAt g' l).meeta = (threadAt g l).meeta)
      ∧ g'.handler = g.handler &&& ~~~x ∧ (g'.tactive = true ↔ g.handler &&& ~~~x ≠ 0)
      ∧ g'.regs = g.regs ∧ g'.sregs = g.sregs ∧ g'.preds = g.preds ∧ g'.fflags = g.fflags)
  ∧ ∀ (c : Ctl) (s : State) (k : Cur) (g : Group) (act rest : Mask) (p : Park), Issuing s k g →
    gate s k g c false [] [] [] = .pass act rest p → g.tactive = false →
    exec (.eret c) s = .next (trapFirst k s ⟨0x01, k.lanes, k.word⟩)

/-- R41, R280, R250: with nothing on the agenda, a step runs the instruction that the words at the quarter's pc decode to, as `exec` does
at the state that names who issues it: its lane set is those lanes of the quarter's that go on, and the number supply moves on. Where no
strike is due and the group's shadow holds nothing else, the issue is then over. An event on the agenda runs as `exec` does. In early
service a word of MMA, TFILL, TCLM, TREL, MLIC, MLREL, GANG or ACPT raises ILLEGAL_OP with the word (R250).
The model's own choices and readings in it: log 2. -/
def Obligations.StepRunsTheDecodedInstruction : Prop :=
  (∀ (s : State) (c q slot : Nat) (m0 : Mask) (g : Group) (r : Run) (i : Instr) (op : Mn), s.agenda = [] → s.turn = 4 * c + q → q < 4 →
    tget? (coreAt s c).quarters q = some (slot, m0) → groupAt s c slot = some g → mayIssue s g = true → s.full = true →
    let m := maskOf fun l => m0.getLsbD l && (threadAt g l).live && (threadAt g l).mid && !heldAny g l
      && (!(threadAt g l).stopped || inRegion g) && (!g.tactive || g.handler.getLsbD l)
    let t := threadAt g (lowLane m)
    m ≠ 0 → t.run = some r → linkStalls (coreAt s c) q = false → overruns g m = (0, 0) →
    (∀ l, m.getLsbD l = true → (threadAt g l).parts = none) →
    let n := (t.pc.toNat - r.addr.toNat) / 8 - 1
    let w := r.words.getD n 0
    let lit := r.words.getD (n + 1) 0
    Mn.ofOp (splitWord w).op = some op → literalAt r.words n = false →
    (∀ e, engineOf (splitWord w).op = some e → r.hdr.lists e = true) →
    (op.standsLast = true → n + 1 = r.hdr.cnt) → (hasLiteral op (splitWord w) = true → n + 1 < r.hdr.cnt) →
    decodeWords [w, lit] = .ok i →
    let s' := { modCore s c (fun x => { x with quarters := tset x.quarters q (slot, m) }) with
      nid := s.nid + 1
      cur := some {
        core := c, slot := slot, lanes := m, pc := t.pc, word := w, lit := lit,
        next := t.pc + BitVec.ofNat 64 (8 * (if hasLiteral op (splitWord w) then 2 else 1)),
        last := decide (r.hdr.cnt ≤ n + (if hasLiteral op (splitWord w) then 2 else 1)), run := r, op := s.nid } }
    step s = endIssue s' i (exec i s'))
  ∧ (∀ (s t : State) (i : Instr) (k : Cur) (g : Group), s.cur = some k → groupAt s k.core k.slot = some g →
    tget? (coreAt s k.core).strikes (k.slot / 32) = none →
    (∀ e, e ∈ g.regs → e.2.other = []) → (∀ e, e ∈ g.sregs → e.2.other = none) → (∀ e, e ∈ g.preds → e.2.other = 0) → g.shadowCtl = none →
    endIssue s i (.next t) = .next { t with cur := none })
  ∧ (∀ (s : State) (c q slot : Nat) (m0 : Mask) (g : Group) (r : Run), s.agenda = [] → s.turn = 4 * c + q → q < 4 →
    tget? (coreAt s c).quarters q = some (slot, m0) → groupAt s c slot = some g → mayIssue s g = true → s.full = false →
    let m := goingOn g m0
    let t := threadAt g (lowLane m)
    m ≠ 0 → t.run = some r → linkStalls (coreAt s c) q = false → overruns g m = (0, 0) →
    let n := (t.pc.toNat - r.addr.toNat) / 8 - 1
    let w := r.words.getD n 0
    literalAt r.words n = false → (splitWord w).op ∈ [0xA0#8, 0xA1#8, 0xA2#8, 0xA3#8, 0xA4#8, 0xA5#8, 0xA6#8, 0x91#8] →
    ∃ k, k.core = c ∧ k.slot = slot ∧ k.lanes = m ∧ k.pc = t.pc ∧ k.word = w ∧ k.run = r
      ∧ step s = .next (trapFirst k { modCore s c (fun x => { x with quarters := tset x.quarters q (slot, m) }) with nid := s.nid + 1 }
        ⟨0x01, m, w⟩))
  ∧ (∀ (s : State) (n : Nat) (a : List Turn), step { s with agenda := .tick n :: a } = .next { s with agenda := a, now := s.now + n })
  ∧ ∀ (i : Instr) (s : State) (a : List Turn), step { s with agenda := .event i :: a }
    = if i.isInstr then .next { s with agenda := a } else exec i { s with agenda := a }

/-! ### Memory instructions -/

/-- R86, R87, R217, R361, R363, R364, R417: the address of a lane's access is its base plus its index and the offset, each in units of
the access. Misaligned lanes come first, then addresses that are not canonical; where every page is known and allows the access,
every lane has its page. A scratchpad instruction passes where its offsets are multiples of the size and lie in the set's scratchpad,
and otherwise traps; behind a fence or an acquire it parks, once no trap is due. -/
def Obligations.AddressChecks : Prop :=
  (∀ (s : State) (c : Nat) (g : Group) (wr : Bool) (as : List LaneAcc) (more : List (LaneAcc × TlbEntry) → List LaneFault),
    (∃ a, a ∈ as ∧ a.va.toNat % a.size ≠ 0) → (∀ a, a ∈ as → a.lane < 64) →
    ∃ r, checkLanes s c g wr as more = .trap r s ∧ r.code = 0x07
      ∧ ∀ l, r.lanes.getLsbD l = true ↔ ∃ a, a ∈ as ∧ a.lane = l ∧ a.va.toNat % a.size ≠ 0)
  ∧ (∀ (s : State) (c : Nat) (g : Group) (wr : Bool) (as : List LaneAcc) (more : List (LaneAcc × TlbEntry) → List LaneFault),
    (∀ a, a ∈ as → a.va.toNat % a.size = 0 ∧ a.lane < 64) → (∃ a, a ∈ as ∧ canonical a.va = false) →
    ∃ r, checkLanes s c g wr as more = .trap r s ∧ r.code = 0x09 ∧ r.info.toNat / 2 ^ 57 = 1
      ∧ ∀ l, r.lanes.getLsbD l = true ↔ ∃ a, a ∈ as ∧ a.lane = l ∧ canonical a.va = false)
  ∧ (∀ (s : State) (c : Nat) (g : Group) (wr : Bool) (as : List LaneAcc) (more : List (LaneAcc × TlbEntry) → List LaneFault)
    (e : LaneAcc → TlbEntry), (∀ a, a ∈ as → a.va.toNat % a.size = 0 ∧ canonical a.va = true
      ∧ lookup s c g.fn (procOf s g) a.va wr = .hit (e a) ∧ (wr = true → (e a).w = true)) →
    more (as.map fun a => (a, e a)) = [] →
    checkLanes s c g wr as more = .ok (as.map fun a => (a, e a)))
  ∧ (∀ (s : State) (k : Cur) (g : Group) (x : Mask) (wr : Bool) (bad : TlbEntry → Bool) (as : List LaneAcc) (e : LaneAcc → TlbEntry),
    Reaches s k g x wr bad as e → entriesOf s k.core g wr as = as.map fun a => (a, e a))
  ∧ (∀ (s : State) (k : Cur) (g : Group) (a b : Src) (kind : MKind) (off : BitVec 6) (l : Nat), kind.typed = false →
    laneLoad s k g a b kind off l = { acc := ⟨l, BitVec.ofInt 64 ((val64 s k g l a).toInt
      + ((val s k g l b).toInt + off.toInt) * kind.size), kind.size⟩, nib := 0 })
  ∧ ∀ (s : State) (k : Cur) (g : Group) (x : Mask) (a : Src) (z : Nat) (off : BitVec 6), 0 < z →
    (anyBlocked (coreAt s k.core) g x = false → InSpad s k g x a z off → spadOwn s k g x a z off = .ok s)
    ∧ (anyBlocked (coreAt s k.core) g x = true → InSpad s k g x a z off → spadOwn s k g x a z off = .park (.order x))
    ∧ ((∃ l, x.getLsbD l = true ∧ ((val s k g l a).toNat + off.toInt * z) % (z : Int) ≠ 0) →
      ∃ r, spadOwn s k g x a z off = .trap r ∧ r.code = 0x07)
    ∧ ((∀ l, x.getLsbD l = true → ((val s k g l a).toNat + off.toInt * z) % (z : Int) = 0) →
      (∃ l, x.getLsbD l = true ∧ ((val s k g l a).toNat + off.toInt * z < 0
        ∨ spadSize s g l < (val s k g l a).toNat + off.toInt * z + z)) →
      ∃ r, spadOwn s k g x a z off = .trap r ∧ r.code = 0x09 ∧ r.info.toNat / 2 ^ 57 = 4)

/-- R360 to R366, R99, R101, R102, R43, R106: loads. The destination lanes turn empty and each lane's load starts, which lands as its
words come; LDU loads once, for every executing lane. A load's words come from the L1, or are asked for; until then one piece of work of
each lane waits for its words, and no register but the emptied ones changes.
The model's own choices and readings in it: logs 12, 45, 106, 113, 117. -/
def Obligations.LoadsStart : Prop :=
  (∀ c d a b kind hint acq off, Acts (.ld c d a b kind hint acq off) c false [useA a 2, useB b]
    [{ o := d, n := kind.regs, queued := true }] [(2, useA a 2), (2, useB b)] (fun x => x)
    (fun s k g _ x s1 => loadOwn s k g x x a b kind hint off = .ok s1)
    fun _ k g _ x t => startLoads (markEmpty t k x { o := d, n := kind.regs, queued := true }) k g hint acq kind
      ((laneLoads t k g x a b kind off).map fun l =>
        (l, (List.range kind.regs).map fun r => destOf (groupNow t k g) l.acc.lane d r)))
  ∧ (∀ c d a b kind ro off, Acts (.ldu c d a b kind ro off) c false [useA a 2, { useB b with xlow := true }]
    [{ o := d, n := kind.regs, queued := true }] [] (fun x => x)
    (fun s k g act x s1 => (x = 0 ∧ s1 = s) ∨ (x ≠ 0 ∧ srcPois s k g (lowLane act) (useA a 2) = false
      ∧ srcPois s k g (lowLane x) (useB (pathed g k c b)) = false
      ∧ loadOwn s k g (laneBit (lowLane x)) x (pathed g k c a) (pathed g k c b) kind (if ro then .ro else .normal) off = .ok s1))
    fun _ k g _ x t => if x = 0 then t else
      startLoads (markEmpty t k x { o := d, n := kind.regs, queued := true }) k g (if ro then .ro else .normal) false kind
        [(laneLoad t k g (pathed g k c a) (pathed g k c b) kind off (lowLane x), match d with
          | .s _ => (List.range kind.regs).map fun r => destOf (groupNow t k g) (lowLane x) d r
          | _ => (lanesOf x).flatMap fun l => (List.range kind.regs).map fun r => destOf (groupNow t k g) l d r)]
        ((lanesOf x).map fun l => (threadAt g l).wid))
  ∧ (∀ c d a kind acq off, Acts (.lds c d a kind acq off) c false [useA a] [{ o := d, n := kind.regs, queued := true }]
    [(2, useA a)] (fun x => x) (fun s k g _ x s1 => spadOwn s k g x a kind.size off = .ok s1)
    fun _ k g _ x t => (lanesOf x).foldl (fun u l =>
      let o := (spadOff t k g a kind.size off l).toNat
      addItem u k g l (BitVec.ofNat 64 o)
        (.lds (laneSet u g l) g.launch o kind.size ((List.range kind.regs).map fun r => destOf (groupNow t k g) l d r) acq))
      (markEmpty t k x { o := d, n := kind.regs, queued := true }))
  ∧ (∀ (s : State) (k : Cur) (g : Group) (x m : Mask) (a b : Src) (kind : MKind) (hint : Hint) (off : BitVec 6)
    (e : LaneAcc → TlbEntry),
    let as := (laneLoads s k g x a b kind off).map (·.acc)
    Reaches s k g m false (fun e => !loadKindOk e.tier e.fmt e.blk kind) as e →
    (∀ l, x.getLsbD l = true → (laneReach s k g a b kind off l).2 = none) →
    (let n := loadNeed s k.core g.fn hint kind (as.map fun q => (q, e q)); capacityFor (coreAt s k.core) n.1 n.2 = true) →
    loadOwn s k g x m a b kind hint off = .ok s)
  ∧ (∀ (t : State) (k : Cur) (x : Mask) (d : DstUse) (h : Group), groupAt t k.core k.slot = some h → (∀ n, d.o = .m n → d.n = 1) →
    ∃ h', groupAt (markEmpty t k x d) k.core k.slot = some h' ∧ TurnsEmpty h h' x d.o d.n)
  ∧ ∀ (t : State) (k : Cur) (g : Group) (hint : Hint) (acq : Bool) (kind : MKind) (as : List (LaneLoad × List Dest)) (also : List DWord),
    let hits := as.filterMap fun (l, ds) => match lookup t k.core g.fn (procOf t g) l.acc.va false with
      | .hit e => some (l, e, ds)
      | _ => none
    let u := startLoads t k g hint acq kind as also
    SetsOut t u k g (hits.map fun (l, e, ds) =>
      let sh : LoadShape := { kind := kind, fmt := if kind.typed then e.fmt else 0, blk := e.blk, off := l.acc.va.toNat % 8,
                              size := l.acc.size, nib := l.nib }
      (l.acc.lane, .load sh (loadWords sh (accWord l.acc e)) [] ds acq))
    ∧ (coreAt u k.core).groups = (coreAt t k.core).groups
    ∧ ((∀ h, h ∈ hits → h.2.1.tier ≠ 3) → hint = .normal ∨ hint = .ro → ∀ h w, h ∈ hits → w ∈ wordsAt kind h.1.acc h.2.1 →
      (∃ r, r ∈ u.resps ∧ r.core = k.core ∧ r.w = w ∧ r.hit = true ∧ r.ins = k.op)
      ∨ ∃ m a, m ∈ (coreAt u k.core).mshrs ∧ a ∈ m.asks ∧ m.sector = sectorOf w ∧ a.pos = w % 16)

/-- R415 to R418, R127, R132, R134: stores. A plain store's parts go into the L1, past it, or to the scratchpad; a release store
waits as an item of its lane. A store completes where its lanes reach pages that take it, nothing stands before it and the core has room
for the words that it fetches; a scratchpad store where its offsets lie in the scratchpads. A whole word that is clean or absent in the
L1 takes the value and its lane's rank; one that a higher rank has written keeps its value. A release store leaves one piece of work of
each lane, with the lane's parts; a plain store's whole word goes into the L1, or past it as one ranked message to its home.
The model's own choices and readings in it: logs 12, 39, 42, 117, 138. -/
def Obligations.StoresAct : Prop :=
  (∀ c a b kind hint rel off, Acts (.st c a b kind hint rel off) c false [useA a 2, useB b kind.regs] []
    [(2, useA a 2), (1, useB b kind.regs)] (fun x => x)
    (fun s k g _ x s1 => storeOwn s k g x a b kind hint off = .ok s1)
    fun _ k g _ x t => doStore t k g x a b kind hint rel off)
  ∧ (∀ c a b kind rel off, Acts (.sts c a b kind rel off) c false [useA a, useB b kind.regs] []
    [(2, useA a), (1, useB b kind.regs)] (fun x => x)
    (fun s k g _ x s1 => spadOwn s k g x a kind.size off = .ok s1)
    fun _ k g _ x t => progress ((lanesOf x).foldl (fun u l =>
      let o := (spadOff t k g a kind.size off l).toNat
      let bs := dataBytes t k g l b kind.size
      if rel then addItem u k g l 0 (.release (.sts o bs) false [])
      else modSpad u g.launch (laneSet u g l) fun w => spadWrite w o bs) t) k.core)
  ∧ (∀ c a b kind hint rel off (s : State) (k : Cur) (g : Group) (act rest : Mask) (p : Park) (e : LaneAcc → TlbEntry), Issuing s k g →
    let x := execLanes g c act
    let as := storeAccs s k g x a kind off
    let n := storeNeed s k g b kind hint (as.map fun q => (q, e q))
    Passes s k g c false [useA a 2, useB b kind.regs] [] [(2, useA a 2), (1, useB b kind.regs)] act rest p x →
    Reaches s k g x true (fun e => !kindOk e.tier e.fmt e.blk kind) as e →
    (∀ l, x.getLsbD l = true → (laneReach s k g a ⟨.zero, .block, false⟩ kind off l).2 = none) →
    coverFaults s k g b kind (as.map fun q => (q, e q)) = [] → capacityFor (coreAt s k.core) n.1 n.2 = true →
    exec (.st c a b kind hint rel off) s = .next (retire (doStore (takenIn s k g c x []) k g x a b kind hint rel off)
      k c [useA a 2, useB b kind.regs] [] act rest p))
  ∧ (∀ c a b kind (rel : Bool) off (s : State) (k : Cur) (g : Group) (act rest : Mask) (p : Park), Issuing s k g →
    let x := execLanes g c act
    Passes s k g c false [useA a, useB b kind.regs] [] [(2, useA a), (1, useB b kind.regs)] act rest p x →
    InSpad s k g x a kind.size off → anyBlocked (coreAt s k.core) g x = false →
    let t := takenIn s k g c x []
    exec (.sts c a b kind rel off) s = .next (retire (progress ((lanesOf x).foldl (fun u l =>
        let o := (spadOff t k g a kind.size off l).toNat
        let bs := dataBytes t k g l b kind.size
        if rel then addItem u k g l 0 (.release (.sts o bs) false [])
        else modSpad u g.launch (laneSet u g l) fun w => spadWrite w o bs) t) k.core)
      k c [useA a, useB b kind.regs] [] act rest p))
  ∧ (∀ (t : State) (k : Cur) (g : Group) (x : Mask) (a b : Src) (kind : MKind) (hint : Hint) (rel : Bool) (off : BitVec 6),
    let hits := entriesOf t k.core g true (storeAccs t k g x a kind off)
    let parts := storeParts t k g b kind hits
    let u := startStore t k g x a b kind hint rel off
    doStore t k g x a b kind hint rel off = progress u k.core
    ∧ ((∀ p, p ∈ parts → lostWord t p.2.2.w = false) → (∀ i, Memory.read u.mem i = Memory.read t.mem i) ∧ ∀ w, homeAt u w = homeAt t w)
    ∧ (rel = true → SetsOut t u k g ((lanesOf x).filterMap fun l => (hits.find? fun h => h.1.lane == l).map fun h =>
      (l, .release (.store ((parts.filter fun p => p.1 == l).map (·.2.2)) (h.2.key, h.2.sector, hint) (goesPast hint || h.2.tier == 3))
        false []))))
  ∧ (∀ (s : State) (c : Nat) (it : Item) (y : StoreWay) (p : StorePart), lostWord s p.w = false → tierOf p.w ≠ 3 →
    let r := storePart s c it y p
    (goesPast y.hint = false → p.mask = 0xFF →
      r = ([], storeL1 s c (it.slot, it.lane) y.launch y.fn y.key y.sector (y.hint == .ro) p { tagd := false }))
    ∧ (goesPast y.hint = true → ∃ m, r.2.net.getLast? = some m ∧ r.1 = [m.acc] ∧ m.src = .core c ∧ m.w = p.w
      ∧ m.kind = .ranked (fullRank s c (it.slot, it.lane)) p.mask { data := p.data, tag := p.tag.getD 0, tagd := p.tag.isSome }))
  ∧ (∀ (s : State) (c launch fn key : Nat) (r : Nat × Nat) (sector ro : Bool) (p : StorePart) (old : MWord), p.mask = 0xFF →
    (∀ y, l1At (coreAt s c) p.w = some y → y.d = false) →
    ∃ y, l1At (coreAt (storeL1 s c r launch fn key sector ro p old) c) p.w = some y
      ∧ y.mw.data = p.data ∧ y.d = true ∧ y.o = false ∧ y.rank = some r ∧ launch ∈ y.by_)
  ∧ ∀ (s : State) (c launch fn key : Nat) (r q : Nat × Nat) (sector ro : Bool) (p : StorePart) (old : MWord) (y : L1Word),
    p.mask = 0xFF → l1At (coreAt s c) p.w = some y → y.d = true → y.rank = some q → (r.1 < q.1 ∨ (r.1 = q.1 ∧ r.2 < q.2)) →
    storeL1 s c r launch fn key sector ro p old = s

/-- R318 to R320, R401, R402: ATOM and RED turn the destination empty where a value returns and leave one piece of work for each executing
lane, with its word, its place in it and the registers that wait; the atomic with its operands goes to the word's home, or to its peer,
at once, and from a release once its wait is over. Memory, the words at home and every other register stay. Both complete where their
lanes reach pages that take them and the core has room for a word of each lane.
The model's own choices and readings in it: log 117. -/
def Obligations.AtomicsAct : Prop :=
  (∀ c d a b op ord off, Acts (.atom c d a b op ord off) c false [useA a 2, useB b op.bRegs]
    (if d != .zero then [{ o := d, n := op.regs, queued := true }] else []) [(2, useA a 2), (1, useB b op.bRegs)] (fun x => x)
    (fun s k g _ x s1 => atomOwn s k g x a op off = .ok s1)
    fun _ k g _ x t => progress (startAtomics t k g x d b ⟨op, ord == .acq || ord == .ar, ord == .rel || ord == .ar, d != .zero⟩
      (entriesOf t k.core g true (atomAccs t k g x a op off))) k.core)
  ∧ (∀ c a b op rel off, Acts (.red c a b op rel off) c false [useA a 2, useB b op.bRegs] []
    [(2, useA a 2), (1, useB b op.bRegs)] (fun x => x)
    (fun s k g _ x s1 => atomOwn s k g x a op off = .ok s1)
    fun _ k g _ x t => progress (startAtomics t k g x .zero b ⟨op, false, rel, false⟩
      (entriesOf t k.core g true (atomAccs t k g x a op off))) k.core)
  ∧   (∀ c d a b op ord off (s : State) (k : Cur) (g : Group) (act rest : Mask) (p : Park) (e : LaneAcc → TlbEntry), Issuing s k g →
    let x := execLanes g c act
    let ds : List DstUse := if d != .zero then [{ o := d, n := op.regs, queued := true }] else []
    let t := takenIn s k g c x ds
    Passes s k g c false [useA a 2, useB b op.bRegs] ds [(2, useA a 2), (1, useB b op.bRegs)] act rest p x →
    Reaches s k g x true (fun e => e.fmt != 0) (atomAccs s k g x a op off) e →
    capacityFor (coreAt s k.core) 0 (atomAccs s k g x a op off).length = true →
    exec (.atom c d a b op ord off) s = .next (retire (progress
        (startAtomics t k g x d b ⟨op, ord == .acq || ord == .ar, ord == .rel || ord == .ar, d != .zero⟩
          ((atomAccs s k g x a op off).map fun q => (q, e q))) k.core)
      k c [useA a 2, useB b op.bRegs] ds act rest p))
  ∧ (∀ c a b op rel off (s : State) (k : Cur) (g : Group) (act rest : Mask) (p : Park) (e : LaneAcc → TlbEntry), Issuing s k g →
    let x := execLanes g c act
    Passes s k g c false [useA a 2, useB b op.bRegs] [] [(2, useA a 2), (1, useB b op.bRegs)] act rest p x →
    Reaches s k g x true (fun e => e.fmt != 0) (atomAccs s k g x a op off) e →
    capacityFor (coreAt s k.core) 0 (atomAccs s k g x a op off).length = true →
    exec (.red c a b op rel off) s = .next (retire (progress
        (startAtomics (takenIn s k g c x []) k g x .zero b ⟨op, false, rel, false⟩
          ((atomAccs s k g x a op off).map fun q => (q, e q))) k.core)
      k c [useA a 2, useB b op.bRegs] [] act rest p))
  ∧ (∀ (s : State) (k : Cur) (g : Group) (x : Mask) (a : Src) (op : AOp) (off : BitVec 6),
    (atomAccs s k g x a op off).map (·.lane) = lanesOf x
    ∧ ∀ q, q ∈ atomAccs s k g x a op off → q = ⟨q.lane, BitVec.ofInt 64 ((val64 s k g q.lane a).toInt
      + off.toInt * (if op.wide then 8 else 4)), if op.wide then 8 else 4⟩)
  ∧ (∀ (t : State) (k : Cur) (g : Group) (x : Mask) (d : Opd) (b : Src) (o : AtomOp) (hits : List (LaneAcc × TlbEntry)),
    let u := startAtomics t k g x d b o hits
    let reg := fun l n => (laneVal t k g l b.o n).1
    let v := fun (l : Nat) => if o.op.wide then reg l 1 ++ reg l 0 else (reg l 0).zeroExtend 64
    let v2 := fun (l : Nat) => match o.op with
      | .cas32 => (reg l 1).zeroExtend 64
      | .cas64 => reg l 3 ++ reg l 2
      | _ => (0 : DWord)
    let ds := fun (l : Nat) => if o.ret then (List.range o.op.regs).map fun i => destOf (groupNow t k g) l d i else []
    SetsOut t u k g (hits.map fun (q, e) => (q.lane,
      if o.rel then .release (.atomic o.op (accWord q e) (q.va.toNat % 8) (v q.lane) (v2 q.lane) o.acq (ds q.lane) (e.key, e.sector) o.ret)
        false []
      else .atomic (accWord q e) (q.va.toNat % 8) (ds q.lane) o.acq))
    ∧ atomicsSent u = atomicsSent t ++ (if o.rel then [] else
      ((workSince t u k.core).zip hits).filterMap fun (i, q, e) => if tierOf (accWord q e) = 3 then none else
        some (i.id, accWord q e, .atomic o.op (v q.lane) (v2 q.lane) (q.va.toNat % 8)))
    ∧ peersAsked u = peersAsked t ++ (if o.rel then [] else
      ((workSince t u k.core).zip hits).filterMap fun (i, q, e) => if tierOf (accWord q e) ≠ 3 then none else
        some (i.id, accWord q e, (if o.ret then opAtom o.op else opRed o.op),
          (if o.op.wide then 0xFF else if q.va.toNat % 8 = 0 then 0x0F else 0xF0 : BitVec 8), v q.lane,
          if o.op = .cas32 ∨ o.op = .cas64 then some (v2 q.lane) else none))
    ∧ ∀ h, groupAt t k.core k.slot = some h → (∀ n, d = .m n → o.op.regs = 1) →
      ∃ h', groupAt u k.core k.slot = some h' ∧ if o.ret then TurnsEmpty h h' x d o.op.regs else h' = h)
  ∧ ∀ (s : State) (c : Nat) (it : Item) (op : AOp) (w o : Nat) (v v2 : DWord) (acq : Bool) (ds : List Dest) (y : Nat × Bool) (ret : Bool),
    let u := ownAccess s c it (.atomic op w o v v2 acq ds y ret)
    (lostWord s w = false → tierOf w ≠ 3 → atomicsSent u = atomicsSent s ++ [(it.id, w, .atomic op v v2 o)])
    ∧ (lostWord s w = false → ∀ i, i ∈ (coreAt u c).items → i.id = it.id → i.body = .atomic w o ds acq)

/-- R348, R349, R394, R395, R331, R332: FENCE leaves an item per lane, which for FENCE.q places its queue fences once the lane's wait is
over; PREF asks for words without waiting and without a fault, and its lanes on unknown pages leave work for the walk; CCTL
drops clean words of the L1 or writes dirty ones home, which then stand clean.
The model's own choices and readings in it: logs 13, 46, 47, 48, 139. -/
def Obligations.FencesAndCacheControl : Prop :=
  (∀ c kind, Acts (.fence c kind) c false [] [] [] (fun x => x)
    (fun s k g _ x s1 => s1 = s ∧ anyBlocked (coreAt s k.core) g x = false
      ∧ (x = 0 ∨ ∀ m q, kind = .q m → q < 4 → m.getLsbD q = true → queueUsed (coreAt s k.core) q + (lanesOf x).length ≤ 64))
    fun _ k g _ x t => progress ((lanesOf x).foldl (fun s l => addItem s k g l 0 (.release (fenceRel kind) false [])) t) k.core)
  ∧ (∀ (t : State) (k : Cur) (g : Group) (x : Mask) (kind : FenceKind),
    let u := (lanesOf x).foldl (fun s l => addItem s k g l 0 (.release (fenceRel kind) false [])) t
    SetsOut t u k g ((lanesOf x).map fun l => (l, .release (fenceRel kind) false [])) ∧ (coreAt u k.core).groups = (coreAt t k.core).groups)
  ∧ (∀ (s : State) (c : Nat) (it : Item) (m : BitVec 4), let u := ownAccess s c it (.queue m)
    (∀ q, q < 4 → if m.getLsbD q then CopyCmd.fence it.id it.gid it.slot (laneBit it.lane) ∈ tget (coreAt u c).cq q []
      else tget (coreAt u c).cq q [] = tget (coreAt s c).cq q [])
    ∧ ∀ i, i ∈ (coreAt u c).items → i.id = it.id → i.body = .qfence it.id)
  ∧ (∀ c a b l2 off, Acts (.pref c a b l2 off) c false [useA a 2, useB b] [] [(2, useA a 2), (2, useB b)] (fun x => x) Unchecked
    fun _ k g _ x t => prefLanes t k g l2 ((laneLoads t k g x a b .b64 off).map (·.acc.va)))
  ∧ (∀ (t : State) (k : Cur) (g : Group) (l2 : Bool) (vas : List DWord), let u := prefLanes t k g l2 vas
    (coreAt u k.core).items.take (coreAt t k.core).items.length = (coreAt t k.core).items
    ∧ (workSince t u k.core).map (fun i => (i.lane, i.gid, i.body)) =
      ((vas.filter fun va => canonical va && lookup t k.core g.fn (procOf t g) va false == .miss).map fun va =>
        ((64, 0, .prefetch va l2 k.op) : Nat × Nat × Body))
    ∧ (coreAt u k.core).groups = (coreAt t k.core).groups ∧ (∀ c, c ≠ k.core → coreAt u c = coreAt t c)
    ∧ (∀ w, homeAt u w = homeAt t w) ∧ ∀ i, Memory.read u.mem i = Memory.read t.mem i)
  ∧ (∀ (t : State) (k : Cur) (g : Group) (l2 : Bool) (va : DWord),
    canonical va = false ∨ (∃ r, lookup t k.core g.fn (procOf t g) va false = .fault r) → prefLanes t k g l2 [va] = t)
  ∧ (∀ (t : State) (k : Cur) (g : Group) (va : DWord) (e : TlbEntry), canonical va = true →
    lookup t k.core g.fn (procOf t g) va false = .hit e → e.tier ≠ 3 → e.fmt = 0 →
    let w := wkey e.tier (physOf e va)
    (l1At (coreAt t k.core) w = none →
      (let n := capacityNeed t k.core g.fn [(w, e.key, e.sector)] 0; capacityFor (coreAt t k.core) n.1 n.2 = true) →
      ∃ m a, m ∈ (coreAt (prefLanes t k g false [va]) k.core).mshrs ∧ a ∈ m.asks ∧ m.sector = sectorOf w ∧ a.pos = w % 16)
    ∧ (capacityFor (coreAt t k.core) 0 1 = true → ∃ m, (prefLanes t k g true [va]).net.getLast? = some m ∧ m.w = w ∧ m.kind = .read
      ∧ m.src = .core k.core))
  ∧ (∀ c a off, Acts (.cctl c a .invall off) c false [] [] [] (fun x => x)
    (fun s k g _ x s1 => s1 = s ∧ anyBlocked (coreAt s k.core) g x = false)
    fun _ k _ _ x t => if x = 0 then t else modCore t k.core fun y => { y with l1 := y.l1.filter fun e => e.2.d || e.2.o })
  ∧ (∀ c a kind off, kind ≠ .invall → Acts (.cctl c a kind off) c false [useA a 2] [] [(2, useA a 2)] (fun x => x)
    (fun s k g _ x s1 => memOwn s k g x false (cctlAccs s k g x a off) (fun _ => []) (fun _ => (0, 0)) (fun _ => .ok s) = .ok s1)
    fun _ k g _ x t => doCctl t k g (cctlAccs t k g x a off) kind)
  ∧ ∀ (t : State) (k : Cur) (g : Group) (as : List LaneAcc) (w : Nat),
    let mine := (entriesOf t k.core g false as).any fun h => h.2.tier != 3 && sectorOf (accWord h.1 h.2) == sectorOf w
    l1At (coreAt (doCctl t k g as .inv) k.core) w = (match l1At (coreAt t k.core) w with
      | some y => if mine && !y.d && !y.o then none else some y
      | none => none)
    ∧ (∀ y, l1At (coreAt t k.core) w = some y → mine = true → y.d = true →
      (∃ y', l1At (coreAt (doCctl t k g as .wb) k.core) w = some y' ∧ y'.d = false ∧ y'.o = false)
      ∧ ∃ m, m ∈ (doCctl t k g as .wb).net ∧ m.src = .core k.core ∧ m.w = w ∧ m.kind = (writeBackMsg t k.core w y).kind)
    ∧ (mine = false → l1At (coreAt (doCctl t k g as .wb) k.core) w = l1At (coreAt t k.core) w)

/-- R122 to R124, R370, R371: in-memory operations complete where their runs are aligned, lie on pages of local memory without a key and,
of MCOPY and MCMP, are of one colour; they start as one piece of work for each lane they are done for, with the sectors of its runs pair by
pair, and change no register and no memory yet.
The model's own choices and readings in it: log 38. -/
def Obligations.InMemoryOperationsStart : Prop :=
  (∀ c a n off, Acts (.mzero c a n off) c false [useA a 2] [] [(2, useA a 2)] (fun x => x)
    (fun s k g act x s1 => inmemOwn s k g (inmemLanes c act x) true ((lanesOf (inmemLanes c act x)).map (runAcc s k g a n off)) [] []
      = .ok s1)
    fun _ k g act x t =>
      let ds := entriesOf t k.core g true ((lanesOf (inmemLanes c act x)).map (runAcc t k g a n off))
      startInmem (markWrites t g.launch (writtenWords ds)) k g 0 n ds [] fun _ => none)
  ∧ (∀ c a b n off, Acts (.mcopy c a b n off) c false [useA a 2, useB b 2] [] [(2, useA a 2), (2, useB b 2)] (fun x => x)
    (fun s k g act x s1 => inmemOwn s k g (inmemLanes c act x) true ((lanesOf (inmemLanes c act x)).map (runAcc s k g a n off))
      ((lanesOf (inmemLanes c act x)).map (runAcc s k g b n 0)) [] = .ok s1)
    fun _ k g act x t =>
      let ds := entriesOf t k.core g true ((lanesOf (inmemLanes c act x)).map (runAcc t k g a n off))
      let ss := entriesOf t k.core g false ((lanesOf (inmemLanes c act x)).map (runAcc t k g b n 0))
      startInmem (markWrites t g.launch (writtenWords ds)) k g 1 n ds ss fun _ => none)
  ∧ (∀ c d a b n off, Acts (.mcmp c d a b n off) c false [useA a 2, useB b 2, { pos := 3, src := { o := d } }] []
    [(2, useA a 2), (2, useB b 2), (2, { pos := 3, src := { o := d } })] (fun x => x)
    (fun s k g act x s1 => inmemOwn s k g (inmemLanes c act x) false ((lanesOf (inmemLanes c act x)).map (runAcc s k g a n off))
      ((lanesOf (inmemLanes c act x)).map (runAcc s k g b n 0))
      (spadFaults s g 8 8 ((lanesOf (inmemLanes c act x)).map fun l => (l, ((laneVal s k g l d 0).1.toNat : Int)))) = .ok s1)
    fun _ k g act x t =>
      let ds := entriesOf t k.core g false ((lanesOf (inmemLanes c act x)).map (runAcc t k g a n off))
      let ss := entriesOf t k.core g false ((lanesOf (inmemLanes c act x)).map (runAcc t k g b n 0))
      startInmem t k g 2 n ds ss fun l => some { launch := g.launch, set := laneSet t g l, off := (laneVal t k g l d 0).1.toNat })
  ∧ (∀ c a n off (s : State) (k : Cur) (g : Group) (act rest : Mask) (p : Park) (e : LaneAcc → TlbEntry), Issuing s k g →
    let m := inmemLanes c act (execLanes g c act)
    let ds := (lanesOf m).map (runAcc s k g a n off)
    Passes s k g c false [useA a 2] [] [(2, useA a 2)] act rest p (execLanes g c act) →
    Reaches s k g m true (fun e => e.tier != 0 || e.key != 0) ds e →
    let hs := ds.map fun q => (q, e q)
    exec (.mzero c a n off) s = .next (retire
      (startInmem (markWrites (takenIn s k g c (execLanes g c act) []) g.launch (writtenWords hs)) k g 0 n hs [] fun _ => none)
      k c [useA a 2] [] act rest p))
  ∧ (∀ c a b n off (s : State) (k : Cur) (g : Group) (act rest : Mask) (p : Park) (e f : LaneAcc → TlbEntry), Issuing s k g →
    let m := inmemLanes c act (execLanes g c act)
    let ds := (lanesOf m).map (runAcc s k g a n off)
    let ss := (lanesOf m).map (runAcc s k g b n 0)
    Passes s k g c false [useA a 2, useB b 2] [] [(2, useA a 2), (2, useB b 2)] act rest p (execLanes g c act) →
    Reaches s k g m true (fun e => e.tier != 0 || e.key != 0) ds e → Reaches s k g m false (fun e => e.tier != 0 || e.key != 0) ss f →
    (∀ q r, q ∈ ds → r ∈ ss → q.lane = r.lane → colourOf (waddrOf (accWord q (e q))) = colourOf (waddrOf (accWord r (f r)))) →
    let hs := ds.map fun q => (q, e q)
    exec (.mcopy c a b n off) s = .next (retire
      (startInmem (markWrites (takenIn s k g c (execLanes g c act) []) g.launch (writtenWords hs)) k g 1 n hs (ss.map fun q => (q, f q))
        fun _ => none)
      k c [useA a 2, useB b 2] [] act rest p))
  ∧ (∀ c d a b n off (s : State) (k : Cur) (g : Group) (act rest : Mask) (p : Park) (e f : LaneAcc → TlbEntry), Issuing s k g →
    let m := inmemLanes c act (execLanes g c act)
    let ds := (lanesOf m).map (runAcc s k g a n off)
    let ss := (lanesOf m).map (runAcc s k g b n 0)
    let ud : SrcUse := { pos := 3, src := { o := d } }
    let at_ := fun l => (laneVal s k g l d 0).1.toNat
    Passes s k g c false [useA a 2, useB b 2, ud] [] [(2, useA a 2), (2, useB b 2), (2, ud)] act rest p (execLanes g c act) →
    Reaches s k g m false (fun e => e.tier != 0 || e.key != 0) ds e → Reaches s k g m false (fun e => e.tier != 0 || e.key != 0) ss f →
    (∀ q r, q ∈ ds → r ∈ ss → q.lane = r.lane → colourOf (waddrOf (accWord q (e q))) = colourOf (waddrOf (accWord r (f r)))) →
    (∀ l, m.getLsbD l = true → at_ l % 8 = 0 ∧ at_ l + 8 ≤ spadSize s g l) →
    exec (.mcmp c d a b n off) s = .next (retire
      (startInmem (takenIn s k g c (execLanes g c act) []) k g 2 n (ds.map fun q => (q, e q)) (ss.map fun q => (q, f q))
        fun l => some { launch := g.launch, set := laneSet s g l, off := at_ l })
      k c [useA a 2, useB b 2, ud] [] act rest p))
  ∧ (∀ (t : State) (k : Cur) (g : Group) (op : Nat) (n : Fin 10) (ds ss : List (LaneAcc × TlbEntry)) (res : Nat → Option InmemRes),
    let u := startInmem t k g op n ds ss res
    SetsOut t u k g (ds.map fun (q, e) => (q.lane,
      .inmem op (runSectors n (accWord q e) ((ss.find? fun r => r.1.lane == q.lane).map fun r => accWord r.1 r.2)) (accWord q e) (res q.lane)))
    ∧ { coreAt u k.core with items := (coreAt t k.core).items } = coreAt t k.core)
  ∧ (∀ (n : Fin 10) (d w : Nat), (runSectors n d (some w)).length = 2 ^ n.val ∧ (runSectors n d none).length = 2 ^ n.val
    ∧ ∀ i, i < 2 ^ n.val → (runSectors n d (some w))[i]? = some (d / 16 + i, w / 16 + i) ∧ (runSectors n d none)[i]? = some (d / 16 + i, 0))
  ∧ ∀ (s : State) (k : Cur) (g : Group) (a : Src) (n : Fin 10) (off : BitVec 6) (l : Nat), runAcc s k g a n off l
    = ⟨l, BitVec.ofInt 64 ((val64 s k g l a).toInt + off.toInt * (128 * 2 ^ n.val)), 128 * 2 ^ n.val⟩

/-- R420 to R425, R107: SWINIT writes the target and clears the rest of each lane's sync word; SWARR arrives as a release; SWWAIT waits
for the generation to change.
The model's own choices and readings in it: log 51. -/
def Obligations.SyncWordsAct : Prop :=
  (∀ c a b off, Acts (.swinit c a b off) c false [useA a, useB b] [] [(2, useA a), (1, useB b)] (fun x => x)
    (fun s k g _ x s1 => swOwn s k g x a off false = .ok s1)
    fun _ k g _ x t => (lanesOf x).foldl (fun s l => modSpad s g.launch (laneSet t g l) fun w =>
      spadWrite w (swOff t k g a off l) (bytesOfWord (BitVec.ofNat 64 (val t k g l b).toNat) ++ bytesOfWord 0)) t)
  ∧ (∀ c a b off, Acts (.swarr c a b off) c false [useA a, useB b] [] [(2, useA a), (1, useB b)] (fun x => x)
    (fun s k g _ x s1 => swOwn s k g x a off true = .ok s1)
    fun _ k g _ x t => progress ((lanesOf x).foldl (fun s l =>
      addItem s k g l 0 (.release (.swarr (swOff t k g a off l) (val t k g l b)) false [])) t) k.core)
  ∧ (∀ c a b off, Acts (.swwait c a b off) c false [useA a, useB b] [] [(2, useA a), (1, useB b)] (fun x => x)
    (fun s k g _ x s1 => swOwn s k g x a off true = .ok s1)
    fun _ k g _ x t => progress (wakeSw ((lanesOf x).foldl (fun s l =>
      pushItem s k.core { laneItem s k g l (BitVec.ofNat 64 (swOff t k g a off l))
        (.swwait (laneSet t g l) g.launch (swOff t k g a off l) (val t k g l b)) with
          also := (lanesOf x).map fun j => (threadAt g j).wid }) t) k.core) k.core)
  ∧ ∀ (t : Tbl SpadWord) (off : Nat) (b : Word) (pois : Bool), off % 16 = 0 →
    let target := (spadAt t (off / 8)).data.toNat % 2 ^ 32
    let count := (spadAt t (off / 8)).data.toNat / 2 ^ 32
    let sum := (count + b.toNat) % 2 ^ 32
    (b = 0 → swArrive t off b pois = t) ∧ (0 < target → b ≠ 0 →
    (tget (swArrive t off b pois) (off / 8) {}).data = BitVec.ofNat 64 (target + 2 ^ 32 * (sum % target))
    ∧ swGen (swArrive t off b pois) off = swGen t off + BitVec.ofNat 32 (sum / target))

/-- R322 to R324, R131, R134: a barrier's arrival goes with its release; BARW and BAR go on once the generation has moved on. BARA completes
where its lanes have nothing to release: each arrives and stands with the barrier and its generation. BARW completes where no lane's
barrier stands at the generation of its arrival. BAR completes where the arrivals of its lanes fill the barrier of their set, which then
stands empty at the next generation. -/
def Obligations.BarriersAct : Prop :=
  (∀ c id cnt, Acts (.bara c id cnt) c false [] [] [] (fun x => x)
    (fun s k g _ x s1 => arriveOwn s k g x id.toNat cnt.toNat = .ok s1) fun _ _ _ _ _ t => t)
  ∧ (∀ c id, Acts (.barw c id) c false [] [] [] (fun x => x)
    (fun s k g _ x s1 => collTrap s g k.lanes x id.toNat = none ∧ anyBlocked (coreAt s k.core) g x = false
      ∧ waitOwn s k x id.toNat = .ok s1) fun _ _ _ _ _ t => t)
  ∧ (∀ c id cnt, Acts (.bar c id cnt) c false [] [] [] (fun x => x)
    (fun s k g _ x s1 => ∃ s2, arriveOwn s k g x id.toNat cnt.toNat = .ok s2 ∧ waitOwn s2 k x id.toNat = .ok s1)
    fun _ _ _ _ _ t => t)
  ∧ (∀ (live : Nat) (b : Barrier), b.all = false → b.target ≠ 0 →
    (barSettle live b).arr = b.arr % b.target ∧ (barSettle live b).gen = b.gen + BitVec.ofNat 32 (b.arr / b.target))
  ∧ (∀ (live : Nat) (b : Barrier), b.all = true → live ≠ 0 →
    (barSettle live b).arr = b.arr % live ∧ (barSettle live b).gen = b.gen + BitVec.ofNat 32 (b.arr / live))
  ∧ (∀ (c : Ctl) (id : BitVec 7) (cnt : BitVec 15) (s : State) (k : Cur) (g : Group) (act rest : Mask) (p : Park), Issuing s k g →
    let x := execLanes g c act
    Passes s k g c false [] [] [] act rest p x → collTrap s g k.lanes x id.toNat = none →
    (∀ l, x.getLsbD l = true → (threadAt g l).arrived = false) → anyBlocked (coreAt s k.core) g x = false → Released s k g x →
    let s1 := if x = 0 ∧ id.toNat < 64 then s else modGroup (if id.toNat < 64 then arriveNamed s k g id.toNat cnt.toNat x else arriveColl s k g id.toNat x)
      k.core k.slot fun g => modThreads g x fun t => { t with arrived := true }
    exec (.bara c id cnt) s = .next (retire (takenIn s1 k g c x []) k c [] [] act rest p))
  ∧ (∀ (c : Ctl) (id : BitVec 7) (s : State) (k : Cur) (g : Group) (act rest : Mask) (p : Park), Issuing s k g →
    let x := execLanes g c act
    Passes s k g c false [] [] [] act rest p x → collTrap s g k.lanes x id.toNat = none → anyBlocked (coreAt s k.core) g x = false →
    (∀ l, x.getLsbD l = true → (threadAt g l).wb ≠ id.toNat ∨ (barNow s g (threadAt g l) id.toNat).1 ≠ (threadAt g l).wg) →
    exec (.barw c id) s = .next (retire (takenIn (if x = 0 then s else acquire s k.core) k g c x []) k c [] [] act rest p))
  ∧ ∀ (c : Ctl) (id : BitVec 7) (cnt : BitVec 15) (s : State) (k : Cur) (g : Group) (act rest : Mask) (p : Park) (n : Nat) (y : CoSet),
    Issuing s k g →
    let x := execLanes g c act
    Passes s k g c false [] [] [] act rest p x → x ≠ 0 → id.toNat < 64 →
    (∀ l, x.getLsbD l = true → (threadAt g l).arrived = false ∧ laneSet s g l = n) →
    anyBlocked (coreAt s k.core) g x = false → Released s k g x → setAt s g.launch n = some y →
    let b := tget y.bars id.toNat {}
    (b.arr = 0 ∧ cnt ≠ 0 ∧ (lanesOf x).length = cnt.toNat)
      ∨ (b.arr ≠ 0 ∧ b.all = false ∧ b.arr + (lanesOf x).length = b.target) →
    let s1 := modGroup (arriveNamed s k g id.toNat cnt.toNat x) k.core k.slot fun g => modThreads g x fun t => { t with arrived := true }
    exec (.bar c id cnt) s = .next (retire (takenIn (acquire s1 k.core) k g c x []) k c [] [] act rest p)
      ∧ ∃ y', setAt s1 g.launch n = some y' ∧ (tget y'.bars id.toNat {}).arr = 0 ∧ (tget y'.bars id.toNat {}).gen = b.gen + 1

/-! ### Copies, queues and tasks -/

/-- R150 to R154, R308 to R317: copy instructions accept their commands at the tail of their queue; ACPT marks its slot as not full. Accepting puts commands
at the tail of the queue in their order, each under a new number, and changes no other queue and no other core; of two quarters that
accept in one cycle the lower comes first (R154, R309).
The model's own choices and readings in it: logs 54, 59. -/
def Obligations.CopiesAreAccepted : Prop :=
  (∀ c d a comp q size glob, Acts (.acp c d a comp q size glob) c false
    ([useA a 2, useD d (if glob then 2 else 1)] ++ compUse comp) []
    (([useA a 2, useD d (if glob then 2 else 1)] ++ compUse comp).map fun u => (2, u)) (fun x => x)
    (fun s k g _ x s1 =>
      let vs := (lanesOf x).map fun l => (l, compVal s k g comp l)
      copyOwn s k g x q.val (acpSrcs s k g x a (csizeBytes size)) (acpDsts s k g x d (csizeBytes size) glob)
        (spadFaults s g (csizeBytes size) (csizeBytes size) (acpOffs s k g x d glob) ++ compFaults s g vs) false
        (byComp vs).length none = .ok s1)
    fun _ k g _ x t =>
      let vs := (lanesOf x).map fun l => (l, compVal t k g comp l)
      acceptCmds (noteCopy t g (entriesOf t k.core g true (acpDsts t k g x d (csizeBytes size) glob))) k q.val
        (laneCmds t k g .copy (csizeBytes size) vs (acpUnits t k g x d a comp size glob)))
  ∧ (∀ c slot a q hi lit, Acts (.acpt c slot a q hi lit) c false [useA a 2] [] [(2, useA a 2)] (fun x => x)
    (fun s k g _ x s1 =>
      copyOwn s k g x q.val (acpSrcs s k g x a (styBytes lit.sty)) []
        (crossFaults (lit.len.toNat * styBytes lit.sty) (acpSrcs s k g x a (styBytes lit.sty))
          ++ compFaults s g ((lanesOf x).map fun l => (l, lit.comp))) false (if x = 0 then 0 else 1)
        (if (tget (coreAt s k.core).tiles slot.val {}).claim.isNone then some ⟨tcSlotState, k.lanes, (1 : DWord) <<< slot.val⟩
          else none) = .ok s1)
    fun _ k g _ x t => if x = 0 then t else
      acceptCmds (modCore t k.core fun y =>
        { y with tiles := tset y.tiles slot.val { tget y.tiles slot.val {} with full := false } }) k q.val [fun id =>
        .cmd id g.gid k.slot g.launch g.set g.fn (.acpt lit hi slot.val g.dph) (acptRows t k g x slot.val a hi lit)
          ((lanesOf x).map fun l => { lane := l, wid := (threadAt g l).wid, bytes := 256, comp := compRef t g l lit.comp }) false])
  ∧ (∀ c d a b comp q op, Acts (.acpr c d a b comp q op) c false
    (([useD d 2, useA a] ++ compUse comp) ++ [useB b (if op.wide then 2 else 1)]) []
    ((1, useB b (if op.wide then 2 else 1)) :: ([useD d 2, useA a] ++ compUse comp).map fun u => (2, u)) (fun x => x)
    (fun s k g _ x s1 =>
      let vs := (lanesOf x).map fun l => (l, compVal s k g comp l)
      copyOwn s k g x q.val [] (acprAccs s k g x d a (if op.wide then 8 else 4)) (compFaults s g vs) true
        (byComp vs).length none = .ok s1)
    fun _ k g _ x t =>
      let vs := (lanesOf x).map fun l => (l, compVal t k g comp l)
      acceptCmds (noteCopy t g (entriesOf t k.core g true (acprAccs t k g x d a (if op.wide then 8 else 4)))) k q.val
        (laneCmds t k g (.acpr op) (if op.wide then 8 else 4) vs (acprUnits t k g x d a b comp op)))
  ∧ (∀ c d a b q glob size comp, Acts (.acpl c d a b q glob size comp) c false
    [useA a 2, useB b, useD d (if glob then 2 else 1)] []
    [(2, useA a 2), (2, useB b), (2, useD d (if glob then 2 else 1))] (fun x => x)
    (fun s k g act x s1 =>
      let rows := acplRows s k g act x a b (8 * size.toNat)
      let dsts := acplDsts s k g act x d (8 * size.toNat) glob
      copyOwn s k g x q.val rows dsts
        (crossFaults (8 * size.toNat) rows ++ crossFaults (8 * size.toNat) dsts
          ++ spadFaults s g (8 * size.toNat) 8 (acplOffs s k g act x d (8 * size.toNat) glob)
          ++ compFaults s g ((lanesOf x).map fun l => (l, comp))) false (if x = 0 then 0 else 1) none = .ok s1)
    fun _ k g act x t => if x = 0 then t else
      acceptCmds (noteCopy t g (entriesOf t k.core g true (acplDsts t k g act x d (8 * size.toNat) glob))) k q.val [fun id =>
        .cmd id g.gid k.slot g.launch g.set g.fn .acpl (acplUnits t k g act x d a b glob size)
          ((lanesOf x).map fun l => { lane := l, wid := (threadAt g l).wid, bytes := 8 * size.toNat, comp := compRef t g l comp }) false])
  ∧ (∀ (s : State) (k : Cur) (q : Nat) (cs : List (Nat → CopyCmd)),
    (∀ f n, f ∈ cs → cmdNum (f n) = n ∧ cmdSlot (f n) = k.slot) →
    (∀ e, e ∈ tget (coreAt s k.core).cq q [] →
      ((coreAt s k.core).cqCycle = podClock s (podOf k.core) ∧ cmdNum e ∈ (coreAt s k.core).cqNew) ∨ s.nid ≤ cmdNum e →
      cmdSlot e / 32 ≤ k.slot / 32) →
    tget (coreAt (acceptCmds s k q cs) k.core).cq q []
      = tget (coreAt s k.core).cq q [] ++ (cs.zip (List.range cs.length)).map (fun e => e.1 (s.nid + e.2)))
  ∧ (∀ (s : State) (c q : Nat) (e f : CopyCmd), tget (coreAt s c).cq q [] = [f] → (coreAt s c).cqCycle = podClock s (podOf c) →
    cmdNum f ∈ (coreAt s c).cqNew → cmdSlot e / 32 < cmdSlot f / 32 → cmdBegun f = false →
    tget (coreAt (acceptCmd s c q e) c).cq q [] = [e, f])
  ∧ (∀ (s : State) (k : Cur) (q : Nat) (cs : List (Nat → CopyCmd)),
    (∀ j, j ≠ q → tget (coreAt (acceptCmds s k q cs) k.core).cq j [] = tget (coreAt s k.core).cq j [])
    ∧ (∀ c, c ≠ k.core → coreAt (acceptCmds s k q cs) c = coreAt s c)
    ∧ (acceptCmds s k q cs).nid = s.nid + cs.length ∧ ∀ i, Memory.read (acceptCmds s k q cs).mem i = Memory.read s.mem i)
  ∧ (∀ (vs : List (Nat × Word)) (ls : List Nat),
    ls ∈ byComp vs ↔ ∃ e, e ∈ vs ∧ ls = (vs.filter fun f => f.2 == e.2).map (·.1))
  ∧ (∀ (s : State) (k : Cur) (g : Group) (op : CopyOp) (bytes : Nat) (vs : List (Nat × Word)) (units : Nat → Nat → List CopyUnit)
    (i : Nat) (ls : List Nat), (byComp vs)[i]? = some ls → (vs.map (·.1)).Nodup →
    ∃ f, (laneCmds s k g op bytes vs units)[i]? = some f ∧ ∀ n, ∃ (us : List CopyUnit) (rs : List CopyRun), f n = .cmd n g.gid k.slot g.launch g.set g.fn op us rs false
      ∧ us = (ls.zip (List.range ls.length)).flatMap (fun e => units e.1 e.2)
      ∧ rs.length = ls.length
      ∧ ∀ (j l : Nat) (v : Word), ls[j]? = some l → (l, v) ∈ vs →
        ∃ r : CopyRun, rs[j]? = some r ∧ r.lane = l ∧ r.wid = (threadAt g l).wid ∧ r.bytes = bytes ∧ r.comp = compRef s g l v)
  ∧ (∀ (s : State) (k : Cur) (q : Nat) (op : CopyOp) (bytes : Nat) (g : Group) (vs : List (Nat × Word)) (units : Nat → Nat → List CopyUnit),
    (laneCmds s k g op bytes vs units).length = (byComp vs).length
    ∧ (acceptCmds s k q (laneCmds s k g op bytes vs units)).nid = s.nid + (byComp vs).length)
  ∧ (∀ (s : State) (k : Cur) (g : Group) (x : Mask) (d : Opd) (a : Src) (comp : Comp) (size : CSize) (glob : Bool) (l run : Nat)
    (q p : LaneAcc) (e f : TlbEntry), x.getLsbD l = true →
    let z := csizeBytes size
    let sx := entriesOf s k.core g false (acpSrcs s k g x a z)
    let dx := entriesOf s k.core g true (acpDsts s k g x d z glob)
    (q, e) ∈ sx → q.lane = l → (∀ r, r ∈ sx → r.1.lane = l → r = (q, e)) →
    (glob = true → (p, f) ∈ dx ∧ p.lane = l ∧ ∀ r, r ∈ dx → r.1.lane = l → r = (p, f)) →
    (acpUnits s k g x d a comp size glob l run).map (fun u => (u.dst, u.srcW, u.srcOff, u.run)) =
      (List.range (if z = 16 then 2 else 1)).map fun i =>
        (if glob then .home (accWord p f + i) ((val64 s k g l { o := d }).toNat % 8) (min z 8)
          else .spad (laneSet s g l) ((laneVal s k g l d 0).1.toNat + 8 * i) (min z 8),
         accWord q e + i, if z = 16 then 0 else (val64 s k g l a).toNat % 8, run))
  ∧ ∀ (s : State) (k : Cur) (g : Group) (x : Mask) (d : Opd) (a b : Src) (comp : Comp) (op : AOp) (l run : Nat) (q : LaneAcc) (e : TlbEntry),
    x.getLsbD l = true →
    let z := if op.wide then 8 else 4
    let sx := entriesOf s k.core g true (acprAccs s k g x d a z)
    (q, e) ∈ sx → q.lane = l → (∀ r, r ∈ sx → r.1.lane = l → r = (q, e)) →
    ∃ u, acprUnits s k g x d a b comp op l run = [u] ∧ u.run = run
      ∧ u.dst = .home (accWord q e) ((val64 s k g l { o := d } + sext64 (val s k g l a) * BitVec.ofNat 64 z).toNat % 8) z
      ∧ u.data = (if op.wide then (laneVal s k g l b.o 1).1 ++ (laneVal s k g l b.o 0).1 else ((laneVal s k g l b.o 0).1).zeroExtend 64)

/-- R200 to R202, R338 to R340, R431: ENQ stages a record of each executing lane for its node; ENQC, after its release, commits what
the group staged; TKSIG, after its release, sends one decrement of a task entry.
The model's own choices and readings in it: logs 57, 58, 148. -/
def Obligations.QueuesAndTasksAct : Prop :=
  (∀ (c : Ctl) (a b : Src) (s : State) (k : Cur) (g : Group) (act rest : Mask) (p : Park), Issuing s k g →
    let n := (nodeAt s g.fn (enqNode s k g (execLanes g c act) b)).rwords
    let ua : SrcUse := { useA a n with late := (enqRegs s c a b).2 }
    (enqRegs s c a b).1 = n → enqFirst a + n ≤ 128 → execLanes g c act ≠ 0 →
    Passes s k g c false [ua, useB b] [] [] act rest p (execLanes g c act) →
    let x := execLanes g c act
    srcPois s k g (lowLane x) (useB b) = false → (∀ l, x.getLsbD l = true → srcPois s k g l (useA a n) = false) →
    (nodeAt s g.fn (enqNode s k g x b)).en = true → (nodeAt s g.fn (enqNode s k g x b)).proc = procOf s g →
    g.staged.length + (lanesOf x).length ≤ 256 →
    ∃ t g', exec (.enq c a b) s = .next t ∧ groupAt t k.core k.slot = some g'
      ∧ g'.staged = g.staged ++ (lanesOf x).map (fun l => ⟨enqNode s k g x b, (List.range n).map fun r => (laneVal s k g l a.o r).1⟩)
      ∧ (∀ r, r ∉ freed k g c [ua, useB b] [] act rest → vreg? g' r = vreg? g r)
      ∧ g'.sregs = g.sregs ∧ g'.preds = g.preds ∧ g'.fflags = g.fflags ∧ (∀ i, Memory.read t.mem i = Memory.read s.mem i)
      ∧ ∀ l, l < 64 → threadAt g' l = goOn k g c [ua, useB b] [] act rest p l (threadAt g l))
  ∧ (∀ c, Acts (.enqc c) c false [] [] [] (fun x => x)
    (fun s k g _ x s1 => (x = 0 ∧ s1 = s) ∨ (x ≠ 0 ∧ fullNodes s g.fn g.staged = [] ∧ fullNodes s1 g.fn g.staged = []
      ∧ (commitStall s1 g.fn g.staged).1 = false
      ∧ ((releaseFirst s k g x = none ∧ s1 = s) ∨ releaseFirst s k g x = some (.ok s1))))
    fun _ k g _ x t => if x = 0 then t else
      noReplay (modGroup (g.staged.foldl (fun s r => commitRec s g.fn r) t) k.core k.slot fun g => { g with staged := [] }) g.launch)
  ∧ (∀ (s : State) (fn : Nat) (r : StagedRec), let y := nodeAt s fn r.node
    ∃ u, u = (r.words.zip (List.range r.words.length)).foldl (fun s e =>
        procWrite s fn y.proc (y.ring + BitVec.ofNat 64 (4 * y.rwords * (y.wr % 2 ^ y.qlog)) + BitVec.ofNat 64 (4 * e.2)) 4
          (e.1.zeroExtend 64)) s
      ∧ nodeAt (commitRec s fn r) fn r.node = { nodeAt u fn r.node with
          wr := (nodeAt u fn r.node).wr + 1, commit := (nodeAt u fn r.node).commit + 1,
          times := (nodeAt u fn r.node).times ++ [u.now] }
      ∧ (∀ n, n ≠ r.node → nodeAt (commitRec s fn r) fn n = nodeAt u fn n)
      ∧ (∀ w, homeAt (commitRec s fn r) w = homeAt u w) ∧ ∀ i, Memory.read (commitRec s fn r).mem i = Memory.read u.mem i)
  ∧ (∀ (s : State) (fn : Nat) (r : StagedRec), fullNodes s fn [r] = [] ↔
    slotFree (nodeAt s fn r.node) (nodeAt s fn r.node).wr = true)
  ∧ ∀ c a, Acts (.tksig c a) c false [useA a] [] [(2, useA a)] (fun x => x)
    (fun s k g _ x s1 => (x = 0 ∧ s1 = s) ∨ (x ≠ 0
      ∧ ((releaseFirst s k g x = none ∧ s1 = s) ∨ releaseFirst s k g x = some (.ok s1))))
    fun _ k g act x t => if x = 0 then t else
      noReplay (addItem t k g (lowLane x) 0 (.taskDec g.fn ((val t k g (lowLane act) a).toNat % 4096))) g.launch

/-! ### Matrix and twin instructions -/

/-- R353, R354, R178: GANG checks the member's place and records the gang's slots and GANGR.
The model's own choices and readings in it: log 61. -/
def Obligations.GangsForm : Prop :=
  ∀ c a b shape, Acts (.gang c a b shape) c false [useA a, useB b] [] [(3, useA a), (3, useB b)] (fun x => x)
    (fun s k g act x s1 => s1 = s ∧ (x = 0 ∨ (
      let b0 := (val s k g (lowLane act) b).toNat
      let m := (val s k g (lowLane act) a).toNat
      m < gsize shape ∧ b0 + gsize shape ≤ setGroupCount (hdrOf s g) g.set ∧ g.formed = false ∧ groupPos (hdrOf s g) g = b0 + m)))
    fun _ k g act x t => if x = 0 then t else
      let b0 := (val t k g (lowLane act) b).toNat
      let m := (val t k g (lowLane act) a).toNat
      let slots := (List.range (gsize shape)).map fun i => slotOfPos t k.core g (b0 + i)
      modGroup t k.core k.slot fun h =>
        { h with gang := slots.map fun o => (o.map (·.1)).getD 128,
                 gangr := gangrVal (gsize shape) m (((slots.headD none).map (·.2)).getD 0),
                 gangFault := if slots.any (·.isNone) then some 0x0D else none }

/-- R170 to R172, R426 to R430: TCLM claims all its slots or none and says which in a predicate; TREL gives back slots that its set
claims; TFILL writes half a slot and moves the dither phase on.
The model's own choices and readings in it: log 55. -/
def Obligations.TileSlotsAct : Prop :=
  (∀ c p s1 s2 s3, Acts (.tclm c p s1 s2 s3) c false [] [] [] (fun x => x) Unchecked
    fun _ k g _ x t => if x = 0 then t else
      addClaim t k.core ⟨k.slot / 32, k.slot, g.gid, p.val, x, named [s1, s2, s3], (g.launch, g.set), false⟩)
  ∧ (∀ (t : State) (c : Nat) (e : Claim),
    ((coreAt t c).claimCycle = podClock t (podOf c) → ∀ f, f ∈ (coreAt t c).claims → f.quarter ≤ e.quarter) →
    let free := e.names.all fun n => (tileAt t c n).claim.isNone && !(tileAt t c n).clearing
    let u := addClaim t c e
    (∀ n, tileAt u c n = if free = true ∧ n ∈ e.names then { tileAt t c n with claim := some e.owner } else tileAt t c n)
    ∧ (∀ n, groupAt u c n = (groupAt t c n).map fun g =>
      if n = e.slot ∧ g.gid = e.gid then setPred g e.pred e.lanes (allMask free) 0 else g)
    ∧ ∀ i, i ≠ c → coreAt u i = coreAt t i)
  ∧ (∀ (t : State) (c n : Nat) (e f : Claim) (h : Group), (coreAt t c).claimCycle = podClock t (podOf c) →
    (coreAt t c).claims = [f] → f.won = true → e.quarter < f.quarter → e.slot ≠ f.slot → n ∈ e.names → n ∈ f.names →
    (∀ m, m ∈ f.names ∨ m ∈ e.names → (tileAt t c m).clearing = false) →
    (∀ m, m ∈ e.names → m ∉ f.names → (tileAt t c m).claim = none) →
    groupAt t c f.slot = some h → h.gid = f.gid →
    let u := addClaim t c e
    (∀ m, m ∈ e.names → (tileAt u c m).claim = some e.owner) ∧ (∀ m, m ∈ f.names → m ∉ e.names → (tileAt u c m).claim = none)
    ∧ groupAt u c f.slot = some (setPred h f.pred f.lanes 0 0))
  ∧ (∀ c s1 s2 s3, Acts (.trel c s1 s2 s3) c false [] [] [] (fun x => x)
    (fun s k g _ x u => u = s ∧ (x = 0 ∨ ∀ n, n ∈ named [s1, s2, s3] →
      (tileAt s k.core n).claim = some (g.launch, g.set) ∧ (tileAt s k.core n).full = true ∧ (tileAt s k.core n).locks = 0))
    fun _ k _ _ x t => if x = 0 then t else
      modCore t k.core fun y => releaseTiles y (podClock t (podOf k.core)) fun n _ => (named [s1, s2, s3]).contains n)
  ∧ (∀ c slot b hi bc b8, Acts (.tfill c slot b hi bc b8) c false [useB b (if bc then 1 else 64)] []
    [(6, useB b (if bc then 1 else 64))] (fun x => x)
    (fun s k g _ x s1 => s1 = s ∧ (tileAt s k.core slot.val).claim.isSome = true ∧ (x = 0 ∨ x = liveMask g)
      ∧ (tileAt s k.core slot.val).full = true ∧ (tileAt s k.core slot.val).locks = 0)
    fun _ k g _ x t => modGroup (if x = 0 then t else modTile t k.core slot.val fun y =>
        fillHalf y b8 hi fun r l => (laneVal t k g l b.o (if bc then 0 else r)).1) k.core k.slot fun g => { g with dph := g.dph + 1 })
  ∧ ∀ (t : Tile) (b8 hi : Bool) (f : Nat → Nat → Word) (i j : Nat), i < 128 → j < (if b8 then 256 else 128) →
      t.data.length = 32768 →
      ((tileBytes (fillHalf t b8 hi f)).getD (tileOff b8 i j) 0) =
        if decide (64 ≤ i) = hi then
          (if b8 then (f (i % 64) (j / 4)).extractLsb' (8 * (j % 4)) 8 else (f (i % 64) (j / 2)).extractLsb' (16 * (j % 2)) 8)
        else t.data.getD (tileOff b8 i j) 0

/-- R176, R177, R382, R173: an MMA that passes its checks enters the latch of its gang's round: its group waits there, and the round is
complete once every member has one.
The model's own choices and readings in it: log 61. -/
def Obligations.MmaEntersTheLatch : Prop :=
  ∀ (c : Ctl) (n : Fin 128) (a b : Fin 16) (b2 : Option (Fin 16)) (ty : MTy) (shape : MShape) (z : Bool)
    (s : State) (k : Cur) (g : Group) (act rest : Mask) (p : Park), Issuing s k g →
    let x := execLanes g c act
    Passes s k g c false [] [{ o := .v n, n := 64 }] [] act rest p (BitVec.allOnes 64) → x = liveMask g → x ≠ 0 →
    (z = true ∨ ∀ i, i < 64 → (vreg? g (n.val + i)).isSome = true) →
    (∀ i, i ∈ mmaSlots a b b2 → (tileAt s k.core i).claim.isSome = true ∧ (tileAt s k.core i).full = true) →
    g.gangFault = none → g.gangr.getLsbD 31 = true → g.formed = false →
    g.gangr.extractLsb' 24 3 = BitVec.ofNat 3 (shapeSize shape) →
    (∀ m h f, (m, h) ∈ (coreAt s k.core).groups → m ≠ k.slot → h.launch = g.launch → h.set = g.set →
      (m ∈ g.gang ∨ k.slot ∈ h.gang) → h.latch = some f →
      h.gang = g.gang ∧ f.a = a.val ∧ f.b = b.val ∧ f.b2 = b2.map (·.val) ∧ f.ty = ty ∧ f.shape = shape) →
    ∃ t g' e, exec (.mma c (.v n) a b b2 ty shape z) s = .next t ∧ groupAt t k.core k.slot = some g' ∧ g'.latch = some e
      ∧ e.a = a.val ∧ e.b = b.val ∧ e.b2 = b2.map (·.val) ∧ e.ty = ty ∧ e.shape = shape ∧ e.z = z ∧ e.d = n.val ∧ e.lanes = x
      ∧ (∀ l, l < 64 → (threadAt g' l).pc = (threadAt g l).pc ∧ (k.lanes.getLsbD l = true → (threadAt g' l).park = .latch))
      ∧ g'.preds = g.preds ∧ g'.sregs = g.sregs ∧ g'.fflags = g.fflags
      ∧ ∀ i, Memory.read t.mem i = Memory.read s.mem i

/-- R179, R379, R380: MLIC asks for the licence and says in a predicate whether its core holds it; MLREL takes its core's request back and
hands the licence over where the core holds it. -/
def Obligations.LicenceInstructions : Prop :=
  (∀ c p, Acts (.mlic c p) c false [] [] [] (fun x => x) Unchecked
    fun _ k _ _ x t => if x = 0 then t else
      modGroup (if holdsLic t k.core then t else requestLic t k.core) k.core k.slot fun g =>
        setPred g p.val x (allMask (holdsLic t k.core)) 0)
  ∧ (∀ c, Acts (.mlrel c) c false [] [] [] (fun x => x) Unchecked
    fun _ k _ _ x t => if x = 0 then t else
      let s := modPod t (podOf k.core) fun p => if isUpper k.core then { p with reqUp := false } else { p with reqLo := false }
      if holdsLic s k.core then startHandover s (podOf k.core) (isUpper k.core) else roundRequest s k.core)
  ∧ (∀ (s : State) (c : Nat), (if isUpper c then (podAt (requestLic s c) (podOf c)).reqUp else (podAt (requestLic s c) (podOf c)).reqLo) = true)
  ∧ ∀ (s : State) (p : Nat) (up : Bool), p < 96 →
    let c := if up then p + 96 else p
    let u := startHandover s p up
    (podAt u p).lic = .handover up
    ∧ (podAt u p).drainAt = (if (coreAt s c).rounds.any (·.fired) then none else some (podClock s p))
    ∧ (((coreAt s c).rounds.any fun r => !r.fired) = true → (if up then (podAt u p).reqUp else (podAt u p).reqLo) = true)
    ∧ (if up then (podAt u p).reqLo = (podAt s p).reqLo else (podAt u p).reqUp = (podAt s p).reqUp)
    ∧ (∀ q, q ≠ p → podAt u q = podAt s q) ∧ (∀ c, coreAt u c = coreAt s c)
    ∧ ∀ i, Memory.read u.mem i = Memory.read s.mem i

/-- R183 to R188, R434 to R437: TWSEND waits for room in the core's outbound FIFO and pushes an entry; TWSEND.nb says in a predicate
whether it had room; TWRECV leaves an item that pops an entry of the twin's FIFO; TWFREE reads the free entries; TWBAR arrives and goes
on once the twin has arrived as often. -/
def Obligations.TwinInstructions : Prop :=
  (∀ c a, Acts (.twsend c a) c true [useA a] [] [(5, useA a)] (fun x => x)
    (fun s k _ _ x s1 => s1 = s ∧ (x = 0 ∨ outFree (coreAt s k.core) ≠ 0))
    fun _ k g _ x t => if x = 0 then t else pushFifo t k.core (k.slot / 32) (lanes64 fun l => if x.getLsbD l then val t k g l a else 0))
  ∧ (∀ c p a, Acts (.twsendNb c p a) c true [useA a] [] [(5, useA a)] (fun x => x) Unchecked
    fun _ k g _ x t => if x = 0 then t else
      let room := decide (0 < outFree (coreAt t k.core))
      modGroup (if room then pushFifo t k.core (k.slot / 32) (lanes64 fun l => if x.getLsbD l then val t k g l a else 0) else t) k.core k.slot fun g =>
        setPred g p.val x (allMask room) 0)
  ∧ (∀ c d, Acts (.twrecv c d) c true [] [{ o := d, queued := true }] [] (fun x => x) Unchecked
    fun _ k g _ x t => if x = 0 then t else
      popTwin (addItem (markEmpty t k x { o := d, queued := true }) k g (lowLane x) 0 (.twrecv (tagOf (groupNow t k g) d 0) x)) k.core 8)
  ∧ (∀ c d, okDst c.u d = true → Computing (.twfree c d) c true d 1 [] [] (fun x => x) (fun _ _ _ _ => True)
    (fun s k _ _ _ _ =>
      let x := coreAt s k.core
      BitVec.ofNat 32 (8 - x.fifo.length - (x.link.filter fun e => e.since != podClock s (podOf k.core) && (match e.item with
        | .fifo _ => true
        | _ => false)).length)) (fun _ _ _ _ _ => false) fun _ _ _ _ _ => 0)
  ∧ (∀ (t : State) (c q : Nat) (v : List Word), let u := pushFifo t c q v
    ((∀ e, e ∈ (coreAt t c).link → e.since = podClock t (podOf c) → e.quarter ≤ q) →
      (coreAt u c).link = (coreAt t c).link ++ [⟨podClock t (podOf c), q, .fifo v⟩])
    ∧ (coreAt u c).fifo = (coreAt t c).fifo ∧ (coreAt u c).groups = (coreAt t c).groups ∧ (∀ i, i ≠ c → coreAt u i = coreAt t i))
  ∧ (∀ (t : State) (c q : Nat) (v : List Word) (e : LinkSlot), (coreAt t c).link = [e] → e.since = podClock t (podOf c) → q < e.quarter →
    (coreAt (pushFifo t c q v) c).link = [⟨podClock t (podOf c), q, .fifo v⟩, e])
  ∧ (∀ (s : State) (c n : Nat), ((coreAt s (twinOf c)).fifo = [] ∨ oldestRecv (coreAt s c) = none) → popTwin s c n = s)
  ∧ (∀ (s : State) (c tag n : Nat) (e : List Word) (r : List (List Word)) (i : Item) (m : Mask) (g : Group) (v : VReg), c < 192 →
    (coreAt s (twinOf c)).fifo = e :: r → oldestRecv (coreAt s c) = some i → i.body = .twrecv (some tag) m →
    groupAt s c i.slot = some g → g.gid = i.gid → vreg? g n = some v → v.tag = tag →
    let u := popTwin s c 1
    (coreAt u (twinOf c)).fifo = r ∧ (∀ j, j ∈ (coreAt u c).items → j.id ≠ i.id)
    ∧ ∃ h, groupAt u c i.slot = some h ∧ (∀ l, l < 64 → m.getLsbD l = true → (threadAt g l).exited = false →
      laneOf h n l = (e.getD l 0, true, false))
    ∧ ∀ l, l < 64 → m.getLsbD l = false → laneOf h n l = laneOf g n l)
  ∧ ∀ c n, Acts (.twbar c n) c true [] [] [] (fun x => x)
    (fun s k g _ x s1 => (x = 0 ∧ s1 = s) ∨ (x ≠ 0 ∧
      let new := maskOf fun l => x.getLsbD l && !(threadAt g l).arrived
      let s2 := if new = 0 then s else twArrive s k.core (k.slot / 32) n.val
      let mine := tget (coreAt s2 k.core).twb n.val 0
      s1 = modGroup s2 k.core k.slot (fun g => modThreads g new fun t => { t with arrived := true })
      ∧ ∀ l, x.getLsbD l = true →
        (twinArrivals s1 k.core n.val - (if new.getLsbD l then mine else (twWaits g l).getD mine)).msb = false))
    fun _ _ _ _ _ t => t

/-- R63, R405, R406: REGROUP sends its executing lanes with their carried registers to the core's regrouping store, and they leave the
group: they are not live in it any more and stand in none of its joins, and while another lane is live the group stays with its
registers, predicates and other lanes as they were; with no lane left and nothing carried its slot is free. R299, R432, R433: TOPK turns
its destinations empty and leaves one item with the ranked lanes: the first N of them in rank order, then 0xFFFFFFFF.
The model's own choices and readings in it: log 34. -/
def Obligations.RegroupAndTopk : Prop :=
  (∀ (c : Ctl) (key : Opd) (off : BitVec 30) (carry : Word) (s : State) (k : Cur) (g : Group) (act rest : Mask) (p : Park),
    Issuing s k g → let ku : SrcUse := { pos := 3, src := { o := key } }
    Passes s k g c false [ku] [] [] act rest p (execLanes g c act) →
    let x := execLanes g c act
    x ≠ 0 → (carriedNames g carry).length ≤ g.rb + g.rx →
    (∀ n r, n ∈ carriedNames g carry → vreg? g n = some r → x &&& ~~~r.full = 0) →
    (∀ l, x.getLsbD l = true → srcPois s k g l ku = false) →
    ∃ t, exec (.regroup c key off carry) s = .next t
      ∧ (coreAt t k.core).regroup = (coreAt s k.core).regroup ++ (lanesOf x).map (fun l =>
        regroupEntry s k g (laneVal s k g l key 0).1 carry (BitVec.ofInt 64 (k.pc.toInt + 8 * off.toInt)) l)
      ∧ (∀ i, Memory.read t.mem i = Memory.read s.mem i)
      ∧ (∀ h, groupAt t k.core k.slot = some h →
        h.gid = g.gid ∧ (∀ l, x.getLsbD l = true → (threadAt h l).live = false)
        ∧ (∀ n, n < 8 → jmaskAt h n = {} ∨ jmaskAt h n = ⟨(jmaskAt g n).e &&& ~~~x, (jmaskAt g n).a &&& ~~~x⟩)
        ∧ (∀ l, l < 64 → x.getLsbD l = false → threadAt h l = goOn k (leaveGroup g x) c [] [] act 0 .no l (threadAt g l))
        ∧ (∀ n, n ∉ freed k (leaveGroup g x) c [] [] act 0 → vreg? h n = vreg? g n)
        ∧ h.sregs = g.sregs ∧ h.preds = g.preds ∧ h.fflags = g.fflags)
      ∧ (liveMask g &&& ~~~x ≠ 0 → (groupAt t k.core k.slot).isSome = true)
      ∧ (liveMask g &&& ~~~x = 0 → (∀ r, r ∈ (coreAt t k.core).regroup → r.donor = g.gid → r.carried = []) →
        groupAt t k.core k.slot = none))
  ∧ (∀ (s : State) (k : Cur) (g : Group) (key : Word) (carry : Word) (pc : DWord) (l : Nat),
    let r := regroupEntry s k g key carry pc l
    r.launch = g.launch ∧ r.key = key ∧ r.pc = pc ∧ r.wid = (threadAt g l).wid ∧ r.depth = (threadAt g l).depth ∧ r.donor = g.gid
      ∧ r.carried.map (·.1) = carriedNames g carry
      ∧ ∀ n v pz, (n, v, pz) ∈ r.carried → (v, pz) = ((laneOf g n l).1, (laneOf g n l).2.2))
  ∧ (∀ c d a b kind, Acts (.topk c d a b kind) c false [useA a, useB b] [{ o := d, n := 2 }]
    [(3, useA a), (3, useB b)] (fun x => x)
    (fun s k g act x s1 => s1 = s ∧ (x = 0 ∨ ((laneVal s k g (lowLane act) b.o 0).2 = false
      ∧ 1 ≤ (val s k g (lowLane act) b).toNat ∧ (val s k g (lowLane act) b).toNat ≤ 64)))
    fun _ k g act x t => if x = 0 then t else
      addItem (markEmpty t k x { o := d, n := 2 }) k g 64 0
        (.topk (tagOf (groupNow t k g) d 0) (tagOf (groupNow t k g) d 1)
          (topkRes kind (val t k g (lowLane act) b).toNat ((lanesOf x).map fun l => (l, val t k g l a)))))
  ∧ (∀ (c : Ctl) (d : Opd) (a b : Src) (kind : TkKind) (s : State) (k : Cur) (g : Group) (act rest : Mask) (p : Park), Issuing s k g →
    let x := execLanes g c act
    Passes s k g c false [useA a, useB b] [{ o := d, n := 2 }] [(3, useA a), (3, useB b)] act rest p x →
    x ≠ 0 → (laneVal s k g (lowLane act) b.o 0).2 = false → 1 ≤ (val s k g (lowLane act) b).toNat →
    (val s k g (lowLane act) b).toNat ≤ 64 →
    ∃ t u i, exec (.topk c d a b kind) s = .next t ∧ t = retire u k c [useA a, useB b] [{ o := d, n := 2 }] act rest p
      ∧ (coreAt u k.core).items = (coreAt s k.core).items ++ [i] ∧ i.gid = g.gid ∧ i.slot = k.slot
      ∧ (∃ d0 d1, i.body = .topk d0 d1 (topkRes kind (val s k g (lowLane act) b).toNat ((lanesOf x).map fun l => (l, val s k g l a))))
      ∧ ∀ a, Memory.read u.mem a = Memory.read s.mem a)
  ∧ ∀ (kind : TkKind) (n : Nat) (vs : List (Nat × Word)),
    (topkRes kind n vs).map (·.1) = vs.map (·.1)
    ∧ ∀ i l v, vs[i]? = some (l, v) → ∃ r z, (topkRes kind n vs)[i]? = some (l, r, z)
      ∧ (if i < n then ∃ e, (ranked kind vs)[i]? = some e ∧ r = BitVec.ofNat 32 e.1 ∧ z = e.2 else r = 0xFFFFFFFF ∧ z = 0)

/-! ### Events of a core -/

/-- R41, R40, R281: an idle quarter starts the next clause of the group it prefers: highest PRIO, then the longest wait, then the
lowest slot. The lane set fetches the clause and stands at its first word; lanes that resume inside a clause take the quarter as they
are; a PC that is not a multiple of 8 raises BAD_CLAUSE.
The model's own choices and readings in it: logs 9, 10. -/
def Obligations.ClausesStart : Prop :=
  (∀ (s : State) (c q slot : Nat) (r : List Nat) (g : Group), (coreAt s c).gated = false → (coreAt s c).retention = false →
    tget? (coreAt s c).quarters q = none → linkStalls (coreAt s c) q = false → candidates s c q = slot :: r →
    groupAt s c slot = some g → slot / 32 = q → g.overrun = none →
    let m := laneSetOf s c slot g
    let t := threadAt g (lowLane m)
    m ≠ 0 →
    (t.mid = true → Comes (.clauseStart c q) s fun u =>
      u = modCore s c fun x => { x with quarters := tset x.quarters q (slot, m) })
    ∧ (∀ s1, t.mid = false → t.run = none → t.pc.toNat % 8 = 0 → fetchCode s c slot g m t.pc = .wait s1 →
      Comes (.clauseStart c q) s fun u => u = s1)
    ∧ (∀ run s1 ws, t.mid = false → t.run = some run → fetchMany s c slot g m (run.addr + 8) false run.hdr.cnt [] = (.word 0 s1, ws) →
      groupAt s1 c slot = some g → Comes (.clauseStart c q) s fun u => tget? (coreAt u c).quarters q = some (slot, m) ∧
        ∃ g', groupAt u c slot = some g' ∧ ∀ l, l < 64 → m.getLsbD l = true → (threadAt g' l).mid = true
          ∧ (threadAt g' l).pc = (threadAt g l).pc ∧ (threadAt g' l).run = some { run with words := ws })
    ∧ (t.mid = false → t.run = none → t.pc.toNat % 8 ≠ 0 → Comes (.clauseStart c q) s fun u => u = takeTrap s c slot m t.pc t.pc none ⟨0x03, m, 0⟩)
    ∧ ∀ d s1 h w s2 ws g2, t.mid = false → t.run = none → t.pc.toNat % 8 = 0 → fetchCode s c slot g m t.pc = .word d s1 → decodeHeader d = some h →
      waitClear g h = true →
      (h.sp = false ∨ inRegion g = true ∨ ∀ n x, n ∈ groupSets s1 g → setAt s1 g.launch n = some x → x.stop ≠ .light) →
      fetchMany s1 c slot g m (t.pc + 8) false h.cnt [] = (.word w s2, ws) → groupAt s2 c slot = some g2 →
      Comes (.clauseStart c q) s fun u => tget? (coreAt u c).quarters q = some (slot, m) ∧ ∃ g', groupAt u c slot = some g' ∧
        ∀ l, l < 64 → threadAt g' l = if m.getLsbD l then
          { threadAt g2 l with pc := (threadAt g2 l).pc + 8, mid := true, run := some ⟨t.pc, h, ws⟩, park := .no, stopped := false,
                               stopLive := none, spcnt := if h.sp then 0 else (threadAt g2 l).spcnt } else threadAt g2 l)
  ∧ ∀ (s : State) (c q slot : Nat), (candidates s c q).head? = some slot →
    ∃ g, (slot, g) ∈ (coreAt s c).groups ∧ slot / 32 = q ∧ laneSetOf s c slot g ≠ 0
      ∧ ∀ e, e ∈ (coreAt s c).groups → e.1 / 32 = q → laneSetOf s c e.1 e.2 ≠ 0 →
        prioOf s e.2 < prioOf s g ∨ (prioOf s e.2 = prioOf s g ∧ (g.since < e.2.since ∨ (g.since = e.2.since ∧ slot ≤ e.1)))

/-- R46, R221, R225, R108, R64, R65, R231, R28, R226, R232: eviction and resumption of groups, granule conversions, groups formed from the
regroup table, scoreboard repair, the clock, the debugger, and snapshots.
The model's own choices and readings in it: logs 34, 73, 105, 114, 122, 123, 143. -/
def Obligations.CoreEventsAct : Prop :=
  (∀ (s : State) (core slot : Nat) (g : Group), groupAt s core slot = some g → (slot, g) ∈ (coreAt s core).groups →
    g.shadowOf = none → g.shadow = none → g.latch = none → onPool g = true →
    (∀ e, e ∈ (coreAt s core).groups → e.2.shadowOf = none → allParked s core e.1 e.2 = true ∧ (e = (slot, g) ∨
      (e.2.hard = false ∧ (e.2.born < g.born ∨ onPool e.2 = false)))) →
    (∀ i, i ∈ (coreAt s core).items → i.body.isProducer = false) →
    drained (coreAt (stopGroup (modGroup s core slot fun g => { g with hard := true }) core slot true) core) g = true →
    Comes (.registerPressureEviction core) s fun u => groupAt u core slot = none
      ∧ (coreAt u core).evicted.length = (coreAt s core).evicted.length + 1
      ∧ ∃ g' cs, (coreAt u core).evicted.getLast? = some (slot, g', cs) ∧ g'.gid = g.gid ∧ g'.threads = g.threads
        ∧ g'.regs = g.regs ∧ g'.sregs = g.sregs ∧ g'.preds = g.preds)
  ∧ (∀ (s : State) (core slot : Nat) (g : Group) (cs : List (Nat × CopyCmd)) (rest : List (Nat × Group × List (Nat × CopyCmd))),
    (coreAt s core).evicted = (slot, g, cs) :: rest → groupAt s core slot = none → g.shadow = none →
    (∀ e, e ∈ (coreAt s core).groups → onPool e.2 = false) → cmdRoom (coreAt s core) cs = true →
    regsUsed (coreAt s core) + groupNeed g ≤ 512 * (coreAt s core).regGran →
    Comes (.evictedGroupResume core) s fun u =>
      (coreAt u core).evicted.map (fun e => (e.1, e.2.1.gid, e.2.2)) = rest.map (fun e => (e.1, e.2.1.gid, e.2.2))
      ∧ ∃ g', groupAt u core slot = some g' ∧ g'.gid = g.gid ∧ ∀ l, l < 64 → threadAt g' l = resumeThread (threadAt g l)
        ∨ (∃ i n, i ∈ g.descs ∧ i.body = .qfence n ∧ i.lane = l
          ∧ threadAt g' l = { resumeThread (threadAt g l) with park := .order (laneBit l) }))
  ∧ (∀ (s : State) (core : Nat) (spad : Bool) (v : GranConv), (coreAt s core).conv.find? (fun v => v.spad == spad) = some v →
    Comes (.granuleConversionDone core spad) s fun u => (coreAt u core).conv = (coreAt s core).conv.erase v
      ∧ (coreAt u core).regGran + (coreAt u core).spadGran = (coreAt s core).regGran + (coreAt s core).spadGran + v.n
      ∧ (if spad then (coreAt u core).regGran = (coreAt s core).regGran else (coreAt u core).spadGran = (coreAt s core).spadGran))
  ∧ (∀ (s : State) (core : Nat), (∀ v, v ∈ (coreAt s core).conv → v.spad = true) → Comes (.granuleConversionDone core false) s fun u =>
    (coreAt u core).spadGran = (coreAt s core).spadGran ∧ (coreAt u core).conv = (coreAt s core).conv
      ∧ (coreAt u core).groups = (coreAt s core).groups ∧ (granWanted s core = true → u = s)
      ∧ (regsUsed (coreAt s core) ≤ 512 * (coreAt s core).regGran → regsUsed (coreAt u core) ≤ 512 * (coreAt u core).regGran))
  ∧ (∀ (s : State) (core : Nat), (∀ v, v ∈ (coreAt s core).conv → v.spad = false) → Comes (.granuleConversionDone core true) s fun u =>
    (coreAt u core).regGran = (coreAt s core).regGran ∧ (coreAt u core).conv = (coreAt s core).conv ∧ u.sets = s.sets
      ∧ (granWanted s core = true → u = s)
      ∧ (unitsUsed s core ≤ 32 * (coreAt s core).spadGran → unitsUsed u core ≤ 32 * (coreAt u core).spadGran))
  ∧ (∀ (i : Instr) (b : Bool) (s : State) (core : Nat) (e : RegroupEntry) (y : Launch),
    (i, b) ∈ [(.groupForm core, false), (.regroupTimeout core, true)] →
    (coreAt s core).regroup.find? (keyDue s core b) = some e → launchAt s e.launch = some y → y.stopping = false →
    y.hdr.shadow = false → regsUsed (coreAt s core) + y.hdr.rb ≤ 512 * (coreAt s core).regGran →
    (freeSlot (coreAt s core) false).isSome = true → (∀ x, x ∈ (coreAt s core).groups → x.2.shadow = none) →
    let es := ((coreAt s core).regroup.filter fun f => f.launch == e.launch && f.key == e.key).take 64
    Comes i s fun u => ∃ slot g', groupAt s core slot = none ∧ groupAt u core slot = some g' ∧ g'.launch = e.launch ∧ g'.formed = true
      ∧ (∀ l, l < 64 → threadAt g' l = ((es[l]?).map regroupThread).getD {})
      ∧ (coreAt u core).regroup = (coreAt s core).regroup.filter fun f => !es.contains f)
  ∧ (∀ (s : State) (core slot : Nat) (g : Group), groupAt s core slot = some g →
    Comes (.scoreboardRepair core slot) s fun u => (g.sb = g.sb2 → u = s)
      ∧ (g.sb ≠ g.sb2 → (∀ i, i ∈ (coreAt s core).items → i.walk = false ∧ (i.gid = g.gid → i.body.isLoad = false)) →
        (coreAt u core).sbfix = satInc (coreAt s core).sbfix ∧ groupAt u core slot = some { g with
          sb := g.sb.filter (fun e => opBusy (coreAt s core) e.2), sb2 := g.sb.filter (fun e => opBusy (coreAt s core) e.2),
          lvq := g.lvq.filter (opBusy (coreAt s core)) })
      ∧ (g.sb ≠ g.sb2 → (coreAt u core).sbfix = satInc (coreAt s core).sbfix
        ∧ ∃ g', groupAt u core slot = some g' ∧ g'.threads = g.threads))
  ∧ (∀ (s : State) (core : Nat) (gated retention : Bool), Comes (.clockGating core gated retention) s fun u =>
    cycleOf u core = cycleOf s core ∧ ∀ n, cycleOf { u with now := u.now + n } core = if gated || retention then cycleOf s core
      else cycleOf s core + BitVec.ofNat 64 (n / 2 ^ (podAt s (podOf core)).throttle))
  ∧ (∀ (s : State) (t : DbgTarget), Comes (.debugRead t) s fun u => { u with dbg := s.dbg } = s
    ∧ (∀ core slot g, isUpper core = false ∨ (podAt s (podOf core)).upst ≠ 2 → groupAt s core slot = some g →
      (∀ name lane r, t = .register core slot name lane → vreg? g name = some r → u.dbg = some ((r.val.getD lane 0).zeroExtend 64))
      ∧ (∀ name, t = .uniform core slot name → u.dbg = some ((sregAt g name).val.zeroExtend 64))
      ∧ (∀ lane, t = .pc core slot lane → u.dbg = some (threadAt g lane).pc)
      ∧ (∀ n, t = .predicate core slot n → u.dbg = some (maskOf fun l => predBit g n l))
      ∧ (∀ n, t = .join core slot n → u.dbg = some (jmaskAt g n).a)
      ∧ (∀ n, t = .expected core slot n → u.dbg = some (jmaskAt g n).e)
      ∧ (∀ lane, t = .path core slot lane → u.dbg = some ((threadAt g lane).path.zeroExtend 64))
      ∧ (∀ path n, t = .pathCode core slot path n → u.dbg = some ((tget g.ptabs (path * 16 + n) 0xC0).zeroExtend 64))
      ∧ (t = .held core slot → u.dbg = some (maskOf (heldAny g)))
      ∧ (∀ lane n, t = .system core slot lane n → u.dbg = some (sysRead s (dbgCur core slot) g lane n)))
    ∧ (∀ core slot lane y x, isUpper core = true → (podAt s (podOf core)).upst = 2 → t = .pc core slot lane →
      s.sets.find? (fun z => z.causes.contains (causeGating, podOf core) && z.saved.any fun i => i.groups.any fun e => e.1 == slot) = some y →
      (y.saved.bind fun i => (i.groups.find? fun e => e.1 == slot).map (·.2)) = some x → u.dbg = some (threadAt x lane).pc)
    ∧ ∀ tier word, t = .memory tier word → let w := wkey tier (8 * word)
      (∀ m, m ∈ s.net → m.w = w → m.arrived = false) → (homeAt s w).owner = none → (homeAt s w).v = true → (homeAt s w).syn = 0 →
      u.dbg = some (homeAt s w).mw.data)
  ∧ ∀ (s : State) (n : Nat) (y : Launch) (z : Snapshot),
    (s.launches.findSome? fun y => (y.snaps.find? fun z => z.id == n && !z.done).map fun z => (y, z)) = some (y, z) →
    let ended := fun (u : State) => ∃ y', launchAt u y.id = some y' ∧ ∀ z', z' ∈ y'.snaps → z'.id = n → z'.done = true
    ComesFront (.snapshotCopyDone n) y.fn (copyRegion y z) s ended

/-- R88 to R93, R103 to R105, R242: walks and host translations end in a TLB entry or in a PAGE_FAULT that waits for the lanes that
asked; an invalidation leaves no entry in any TLB that covers its pages; a migration marks its page and moves it.
The model's own choices and readings in it: logs 6, 21, 22, 40, 116. -/
def Obligations.TranslationEventsAct : Prop :=
  let failed := fun (s : State) (w : Walk) (r : Nat) (u : State) => (∀ x, x ∈ u.walks → x.id = w.id → x.st = 2 ∧ x.reason = r)
    ∧ (192 ≤ w.core ∨ (w.pri = true ∧ walkAwaited (coreAt s w.core) w = true) → ∃ x, x ∈ u.walks ∧ x.id = w.id)
    ∧ (w.core < 192 → w.pri = false ∨ walkAwaited (coreAt s w.core) w = false → ∀ x, x ∈ u.walks → x.id ≠ w.id)
  (∀ (s s1 : State) (n : Nat) (w : Walk) (e : TlbEntry) (a : Nat) (v : DWord), n < s.nid →
    s.walks.find? (fun w => w.id == n && w.st == 0) = some w → inTransit s w.fn w.proc w.vpn = false →
    (if isUpper w.core then s.tlbUp else s.tlbLo).find? (fun e => tlbMatch w.fn w.proc (pageVa w.vpn) e && (!w.write || e.d || !e.w)) = none →
    walkPage s w.fn w.proc w.vpn w.write = (.leaf e a v, s1) →
    (e.tier ≠ 2 ∨ (fnAt s1 w.fn).ats = false → Comes (.pageWalkComplete n) s fun u =>
      e ∈ (coreAt u w.core).tlb ∧ e ∈ (if isUpper w.core then u.tlbUp else u.tlbLo) ∧ ∀ x, x ∈ u.walks → x.id ≠ n)
    ∧ (e.tier = 2 → (fnAt s1 w.fn).ats = true → Comes (.pageWalkComplete n) s fun u => ∀ x, x ∈ u.walks → x.id = n → x.st = 3))
  ∧ (∀ (s s1 : State) (n : Nat) (w : Walk) (r : Nat), n < s.nid →
    s.walks.find? (fun w => w.id == n && w.st == 0) = some w → inTransit s w.fn w.proc w.vpn = false →
    (if isUpper w.core then s.tlbUp else s.tlbLo).find? (fun e => tlbMatch w.fn w.proc (pageVa w.vpn) e && (!w.write || e.d || !e.w)) = none →
    walkPage s w.fn w.proc w.vpn w.write = (.bad r, s1) →
    Comes (.pageWalkComplete n) s (failed s w r))
  ∧ (∀ (s : State) (n : Nat) (w : Walk) (pa : DWord), n < s.nid →
    s.walks.find? (fun w => w.id == n && w.st == 3 && w.token == 0) = some w →
    (∀ s1 e a v, walkPage s w.fn w.proc w.vpn w.write = (.leaf e a v, s1) → Comes (.atsTranslationResponse n true pa) s fun u =>
      { e with vpn := w.vpn, large := false, ppn := pa.toNat / 2 ^ 16 % 2 ^ 36, ats := some (e.ppn + if e.large then w.vpn % 1024 else 0) }
        ∈ (coreAt u w.core).tlb ∧ ∀ x, x ∈ u.walks → x.id ≠ n)
    ∧ (w.pri = true → (s.walks.filter fun v => v.st == 3 && v.token != 0).length < 256 → Comes (.atsTranslationResponse n false pa) s fun u =>
      u.nid = s.nid + 1 ∧ ∀ x, x ∈ u.walks → x.id = n → x.token = s.nid)
    ∧ (w.pri = false → Comes (.atsTranslationResponse n false pa) s (failed s w 1)))
  ∧ (∀ (s : State) (fn : Nat) (token : Word) (w : Walk), w.id < s.nid →
    s.walks.find? (fun w => w.fn == fn && w.st == 3 && w.token != 0 && BitVec.ofNat 32 w.token == token) = some w →
    Comes (.priResponse fn token true) s (fun u => ∀ x, x ∈ u.walks → x.id = w.id → x.st = 0 ∧ x.token = 0)
    ∧ Comes (.priResponse fn token false) s (failed s w 1))
  ∧ (∀ (s : State) (fn proc : Nat) (pages : List Nat), Comes (.translationInvalidate fn proc pages) s fun u =>
    (∀ c e, e ∈ (coreAt u c).tlb → coversPage fn proc pages e = false)
    ∧ (∀ e, e ∈ u.tlbLo ∨ e ∈ u.tlbUp → coversPage fn proc pages e = false) ∧ ∃ v, u.invals = s.invals ++ [v])
  ∧ (∀ (s : State) (fn : Nat) (pages : List Nat), Comes (.hostAtsInvalidate fn pages) s fun u =>
    (∀ c e p, e ∈ (coreAt u c).tlb → e.fn = fn → e.ats = some p → p ∉ pages)
    ∧ (∀ e p, e ∈ u.tlbLo ∨ e ∈ u.tlbUp → e.fn = fn → e.ats = some p → p ∉ pages) ∧ ∃ v, u.invals = s.invals ++ [v])
  ∧ (∀ (s : State) (n : Nat) (v : Inval), s.invals.find? (fun v => v.id == n) = some v →
    ((∀ p, p ∈ v.cmds → p ∉ copiesOf s v.fn) →
      Comes (.translationInvalidateDone n) s fun u => ∀ x, x ∈ u.invals → x.id ≠ n)
    ∧ ((∃ p, p ∈ v.cmds ∧ p ∈ copiesOf s v.fn) → Comes (.translationInvalidateDone n) s fun u => u = s))
  ∧ (∀ (s s1 : State) (fn proc page tier ppn w : Nat) (v : DWord) (e : TlbEntry), s.migration = none → tier < 2 →
    leafOf s fn proc page = (some (w, v, e), s1) → e.large = false → v.getLsbD 23 = true → e.tier < 2 → e.tier ≠ tier →
    Comes (.migrationStart fn proc page tier ppn) s fun u => (∃ m, u.migration = some m ∧ m.fn = fn ∧ m.proc = proc ∧ m.page = page
        ∧ m.tier = tier ∧ m.ppn = ppn ∧ m.leafW = w)
      ∧ inTransit u fn proc page = true ∧ ∀ c x, x ∈ (coreAt u c).tlb → coversPage fn proc [page] x = false)
  ∧ ∀ (s s1 : State) (m : Migration) (i : Inval) (w : Nat) (v : DWord) (e : TlbEntry), s.migration = some m →
    s.invals.find? (fun v => v.id == m.inval) = some i → leafOf s m.fn m.proc m.page = (some (w, v, e), s1) →
    invalReady s i = true → pageQuiet s (regionOf (wkey e.tier (e.ppn * 2 ^ 16))) = true →
    Comes .migrationComplete s fun u => u.migration = none ∧ ∀ x, x ∈ u.invals → x.id ≠ m.inval

/-! ### Events of the home slices, the channels and the way back -/

/-- R139 to R143, R119, R134, R136, R114: what a home slice does with a message that stands first and meets no owner and finds its word
there: reads answer, ranked writes win or lose by rank, a write-back of the owner's and atomics land, one of a core that owns the word no
longer is discarded, a registration makes its core the owner, a rank clear clears. A word that is not there is asked for; an owner is recalled, and answers with its word.
The model's own choices and readings in it: logs 42, 49, 111, 132, 133, 134, 135. -/
def Obligations.HomesAct : Prop :=
  (∀ (s : State) (n : Nat) (m : HomeMsg) (c : Nat), s.net.find? (fun m => m.id == n) = some m → msgFirst s m = true → m.batch = 0 →
    m.src = .core c → ((homeAt s m.w).owner = none ∨ (homeAt s m.w).owner = some (.core c) ∧ isAtomic m.kind = false) →
    (homeAt s m.w).v = true → (homeAt s m.w).syn = 0 → (l2Way s m.w).isSome = true →
    let h := homeAt s m.w
    let gone := fun (u : State) => u.net = s.net.filter fun x => x.id != m.id
    (m.kind = .read → m.fill = true ∨ m.acc ≠ 0 → Comes (.homeReadMiss n) s fun u => gone u ∧ homeAt u m.w = h
      ∧ u.resps = s.resps ++ [⟨m.id, c, m.w, h.mw, false, if m.fill then 0 else m.acc, false, false, none, m.batch⟩])
    ∧ (∀ k mask mw, m.kind = .ranked k mask mw → Comes (.homeRankedWrite n) s fun u => gone u
      ∧ ((∃ r, h.rank = some r ∧ rankGt r k = true) → homeAt u m.w = { h with by_ := (h.by_ ++ m.launch).eraseDups })
      ∧ ((∀ r, h.rank = some r → rankGt r k = false) → (homeAt u m.w).mw.data = mergeBytes h.mw.data mw.data mask
        ∧ (homeAt u m.w).rank = some k ∧ (homeAt u m.w).owner = none ∧ (homeAt u m.w).d = true
        ∧ (homeAt u m.w).mw.pois = if mask = 0xFF then mw.pois else h.mw.pois || mw.pois))
    ∧ (∀ mw, m.kind = .unranked mw → Comes (.homeUnrankedWrite n) s fun u => gone u
      ∧ (h.owner = some (.core c) → (homeAt u m.w).mw.data = mw.data
        ∧ (homeAt u m.w).mw.pois = mw.pois ∧ (homeAt u m.w).rank = none ∧ (homeAt u m.w).owner = none)
      ∧ (h.owner ≠ some (.core c) → homeAt u m.w = h))
    ∧ (m.kind = .register → Comes (.homeRegistration n) s fun u => gone u
      ∧ homeAt u m.w = { h with owner := some (.core c), rank := none, by_ := [] } ∧ u.acks = s.acks ++ [⟨m.id, c, m.w⟩])
    ∧ (m.kind = .rankClear → Comes (.homeRankClear n) s fun u => gone u ∧ homeAt u m.w = { h with rank := none, by_ := [], d := tierOf m.w != 2 && h.d })
    ∧ ∀ op b b2 off, m.kind = .atomic op b b2 off → m.acc ≠ 0 → m.fill = false → Comes (.homeAtomic n) s fun u => gone u
      ∧ (homeAt u m.w).mw.data = atomicWord op h.mw.data b b2 off ∧ (homeAt u m.w).rank = none ∧ (homeAt u m.w).owner = none
      ∧ u.resps = s.resps ++ [⟨m.id, c, m.w, h.mw, false, m.acc, false, false, none, m.batch⟩])
  ∧ (∀ (s : State) (n : Nat) (m : HomeMsg), s.net.find? (fun m => m.id == n) = some m → msgFirst s m = true →
    m.kind = .read → (homeAt s m.w).owner = none → (homeAt s m.w).v = false → m.mem = none → m.ask = 0 →
    let q := (chanAt s (chanOf m.w)).pend
    let sector := m.key != 0 || wholeSector s m.sector
    let mine := q.filter fun r => sectorOf r.w == sectorOf m.w
    (tierOf m.w ≠ 2 → (∀ r, mine.getLast? = some r → (sector && r.sector && r.wr.isEmpty) = false) →
      Comes (.homeReadMiss n) s fun u => (∀ x, x ∈ u.net → x.id = n → x.arrived = true ∧ x.ask = s.nid)
        ∧ ∃ src since, (chanAt u (chanOf m.w)).pend
          = q ++ [{ id := s.nid, w := m.w, key := m.key, sector := sector, src := src, since := since }])
    ∧ (∀ r, tierOf m.w ≠ 2 → mine.getLast? = some r → sector = true → r.sector = true → r.wr = [] →
      Comes (.homeReadMiss n) s fun u => (chanAt u (chanOf m.w)).pend = q
        ∧ ∀ x, x ∈ u.net → x.id = n → x.arrived = true ∧ x.ask = r.id)
    ∧ (tierOf m.w = 2 → Comes (.homeReadMiss n) s fun u => (∀ x, x ∈ u.net → x.id = n → x.arrived = true ∧ x.ask = n)
        ∧ u.hout = s.hout ++ [⟨n, BitVec.ofNat 64 (8 * waddrOf m.w), 0, 0⟩]))
  ∧ (∀ (s : State) (n o : Nat) (m : HomeMsg), s.net.find? (fun m => m.id == n) = some m → msgFirst s m = true → m.kind = .read →
    (homeAt s m.w).owner = some (.core o) → m.src ≠ .core o → (∀ r, r ∈ s.recalls → r.msg ≠ m.id) →
    Comes (.homeReadMiss n) s fun u => u.recalls = s.recalls ++ [⟨s.nid, o, m.w, m.id⟩] ∧ homeAt u m.w = homeAt s m.w)
  ∧ ∀ (s : State) (n : Nat) (r : RecallRec) (x : L1Word), s.recalls.find? (fun r => r.id == n) = some r →
    (∀ m, m ∈ s.net → m.w ≠ r.w) → (homeAt s r.w).owner = some (.core r.owner) → l1At (coreAt s r.owner) r.w = some x → x.o = true → x.syn = 0 →
    (l2Way s r.w).isSome = true →
    Comes (.recall n) s fun u => (∀ y, y ∈ u.recalls → y.id ≠ n) ∧ (homeAt u r.w).owner = none ∧ (homeAt u r.w).rank = none
      ∧ (homeAt u r.w).mw.data = x.mw.data ∧ (homeAt u r.w).mw.pois = x.mw.pois
      ∧ l1At (coreAt u r.owner) r.w = some { x with d := false, o := false, rank := none, by_ := [] }

/-- R113 to R120, R125: a burst slot performs what is pending: a read hands its word to the message that waits, a write reaches memory with
its tag and with the poison pattern where it is poisoned; a refresh closes the rows; a scrub corrects one wrong bit, counts it and
writes the word back.
The model's own choices and readings in it: logs 63, 64, 109, 110, 131, 132, 136. -/
def Obligations.ChannelsAct : Prop :=
  (∀ (s : State) (k : Nat) (r : ChanReq), (chanAt s k).pend = [r] → inmemNext s k = none → r.wr = [] → r.repair = false →
    r.sector = false → (memGet s.mem r.w).syn = 0 →
    Comes (.burstSlot k) s fun u => (chanAt u k).pend = []
      ∧ (k < 128 → tget? (chanAt u k).rows (sliceOf (waddrOf r.w) * 16 + bankOf (waddrOf r.w)) = some (rowOf (waddrOf r.w)))
      ∧ u.net = s.net.map fun m => if m.ask = r.id then
          { m with mem := some { data := (memGet s.mem r.w).data, tag := (memGet s.mem r.w).tag } } else m)
  ∧ (∀ (s : State) (k : Nat) (r : ChanReq), (chanAt s k).pend = [r] → inmemNext s k = none → r.wr = [] → r.repair = false →
    r.sector = true → r.key = 0 → (∀ w, w ∈ wordsOfSector (sectorOf r.w) → (memGet s.mem w).syn = 0) →
    Comes (.burstSlot k) s fun u => (chanAt u k).pend = [] ∧ ∀ m, m ∈ u.net → m.ask = r.id → m.w ∈ wordsOfSector (sectorOf r.w) →
      m.mem = some { data := (memGet s.mem m.w).data, tag := (memGet s.mem m.w).tag })
  ∧ (∀ (s : State) (k : Nat) (r : ChanReq) (mw : MWord), (chanAt s k).pend = [r] → inmemNext s k = none → r.wr = [(r.w, mw)] →
    r.repair = false → r.key = 0 → wholeSector s r.sector = false → s.einjc.getLsbD 31 = false → r.w < 2 ^ 51 → Memory.wf s.mem = true →
    Comes (.burstSlot k) s fun u => (chanAt u k).pend = []
      ∧ memGet u.mem r.w = ⟨mw.data, mw.tag, if mw.pois then 0x3A5 else 0⟩
      ∧ ∀ w, w ≠ r.w → w < 2 ^ 52 → memGet u.mem w = memGet s.mem w)
  ∧ (∀ (s : State) (k : Nat), Comes (.refresh k) s fun u => (chanAt u k).rows = [] ∧ (chanAt u k).pend = (chanAt s k).pend)
  ∧ (∀ (s : State) (word b : Nat), word < 2 ^ 36 → (∀ r, r ∈ (chanAt s (chanOf word)).pend → sectorOf r.w ≠ sectorOf word ∧ word ∉ r.words) →
    synRes (memGet s.mem word) = .corrected b →
    let y := flipBit (memGet s.mem word) b
    Comes (.scrub 0 word) s fun u => (chanAt u (chanOf word)).cech = satInc (chanAt s (chanOf word)).cech
      ∧ (chanAt u (chanOf word)).pend = (chanAt s (chanOf word)).pend
        ++ [{ id := s.nid, w := word, wr := [(word, { data := y.data, tag := y.tag })], repair := true, since := s.now }])
  ∧ (∀ (s : State) (n : Nat) (m : HomeMsg) (d : DWord) (r : List DWord), hostMsg s n = some m → Memory.wf s.mem = true →
    Comes (.hostReadCompletion n (d :: r)) s fun u => (memGet u.mem m.w).data = d
      ∧ u.net = s.net.map fun m => if m.id = n then { m with mem := some { data := d } } else m)
  ∧ ∀ (s : State) (n c : Nat) (m : HomeMsg), hostMsg s n = some m → m.kind = .read → m.src = .core c → m.fill = true ∨ m.acc ≠ 0 →
    Comes (.hostCompletionTimeout n) s fun u => u.net = s.net.filter (fun x => x.id != n)
      ∧ u.resps = s.resps ++ [⟨m.id, c, m.w, { pois := true }, false, if m.fill then 0 else m.acc, false, false, none, m.batch⟩]

/-- R101, R127, R134, R319, R361, R363, R364, R433: what reaches a core lands: a filled word stands in the L1 and completes the load that
waited for it, a value returned by an atomic, read from the scratchpad or ranked by TOPK stands in the lane that was promised it, an
acknowledgement ends the wait for it.
The model's own choices and readings in it: log 106. -/
def Obligations.ArrivalsLand : Prop :=
  (∀ (s : State) (core n : Nat) (r : Resp), s.resps.find? (fun r => r.id == n && r.core == core && !r.eng && (r.acc == 0 || r.hit)) = some r → r.hit = false →
    (coreAt s core).mshrs = [] → l1At (coreAt s core) r.w = none →
    ((coreAt s core).items = [] → Comes (.l1Fill core n) s fun u => l1At (coreAt u core) r.w = some { mw := r.mw }
      ∧ ∀ x, x ∈ u.resps → x.id ≠ n)
    ∧ ∀ it tag l g nm v off, (coreAt s core).items = [it] →
      it.body = .load { kind := .b32, fmt := 0, blk := 0, off := off, size := 4 } [r.w] [] [.v tag l] false →
      it.past = false → groupAt s core it.slot = some g → g.gid = it.gid → vreg? g nm = some v → v.tag = tag → r.corrected = false →
      Comes (.l1Fill core n) s fun u => (coreAt u core).items = []
        ∧ ∃ g', groupAt u core it.slot = some g' ∧ vreg? g' nm = some (writeLane v l ((r.mw.data >>> (8 * off)).setWidth 32) r.mw.pois))
  ∧ (∀ (s : State) (core n : Nat) (r : Resp) (it : Item) (off tag l nm : Nat) (g : Group) (v : VReg),
    s.resps.find? (fun r => r.id == n && r.core == core && !r.eng && (r.acc == 0 || r.hit)) = some r → r.hit = true →
    (coreAt s core).items = [it] → it.op = r.ins → it.id = r.acc → it.id < n →
    it.body = .load { kind := .b32, fmt := 0, blk := 0, off := off, size := 4 } [r.w] [] [.v tag l] false →
    groupAt s core it.slot = some g → g.gid = it.gid → vreg? g nm = some v → v.tag = tag → r.corrected = false →
    Comes (.l1Fill core n) s fun u => (coreAt u core).items = [] ∧ (coreAt u core).l1 = (coreAt s core).l1
      ∧ ∃ g', groupAt u core it.slot = some g' ∧ vreg? g' nm = some (writeLane v l ((r.mw.data >>> (8 * off)).setWidth 32) r.mw.pois))
  ∧ (∀ (s : State) (core n : Nat) (r : Resp) (it : Item) (w off : Nat) (tag l nm : Nat) (g : Group) (v : VReg),
    s.resps.find? (fun r => r.id == n && r.core == core && (r.acc != 0 || r.eng) && !r.hit) = some r → r.eng = false → (coreAt s core).items = [it] → it.id = r.acc →
    it.body = .atomic w off [.v tag l] false → groupAt s core it.slot = some g → g.gid = it.gid → vreg? g nm = some v → v.tag = tag →
    r.corrected = false →
    Comes (.homeResponseReceive core n) s fun u => (coreAt u core).items = []
      ∧ ∃ g', groupAt u core it.slot = some g' ∧ vreg? g' nm = some (writeLane v l (r.mw.data.extractLsb' (8 * off) 32) r.mw.pois))
  ∧ (∀ (s : State) (core n : Nat) (it : Item) (set launch off : Nat) (tag l nm : Nat) (g : Group) (v : VReg) (x : CoSet),
    (coreAt s core).items = [it] → it.id = n → it.body = .lds set launch off 4 [.v tag l] false → setAt s launch set = some x →
    off % 4 = 0 → groupAt s core it.slot = some g → g.gid = it.gid → vreg? g nm = some v → v.tag = tag →
    Comes (.scratchpadReadComplete core n) s fun u => (coreAt u core).items = []
      ∧ ∃ g', groupAt u core it.slot = some g' ∧ vreg? g' nm = some (writeLane v l
          ((spadAt x.spad (off / 8)).data.extractLsb' (8 * (off % 8)) 32) (spadAt x.spad (off / 8)).pois))
  ∧ (∀ (s : State) (core n : Nat) (it : Item) (tI tV l nI nV : Nat) (i w : Word) (g : Group) (a b : VReg),
    (coreAt s core).items = [it] → it.id = n → it.body = .topk (some tI) (some tV) [(l, i, w)] → tI ≠ tV →
    groupAt s core it.slot = some g → g.gid = it.gid → vreg? g nI = some a → a.tag = tI → vreg? g nV = some b → b.tag = tV →
    Comes (.topkComplete core n) s fun u => (coreAt u core).items = [] ∧ ∃ g', groupAt u core it.slot = some g'
      ∧ vreg? g' nI = some (writeLane a l i false) ∧ vreg? g' nV = some (writeLane b l w false))
  ∧ ∀ (s : State) (n : Nat) (a : Ack), s.acks.find? (fun a => a.id == n) = some a →
    Comes (.registrationAck n) s (fun u => ∀ b, b ∈ u.acks → b.id ≠ n)
    ∧ ∀ it h, (coreAt s a.core).items = [it] → it.body = .settle [n] [] h →
      Comes (.registrationAck n) s fun u => (coreAt u a.core).items = []

/-! ### Events of copies, front ends and launches -/

/-- R152, R153, R157, R158, R160 to R162, R204: a copy's source words are asked for, each once, unless its group has stopped; a word
that has come is written at its home, unranked; its landing is noted; a command whose words have all landed leaves its queue, as does a
queue fence that heads every queue it stands in; a task decrement counts the task down.
The model's own choices and readings in it: logs 43, 56, 121, 134, 135, 142. -/
def Obligations.CopiesProceed : Prop :=
  (∀ (s : State) (c q n id gid slot launch set fn : Nat) (op : CopyOp) (us : List CopyUnit) (rs : List CopyRun) (rp : Bool)
    (u : CopyUnit), c < 192 → headCmd s c q = some (.cmd id gid slot launch set fn op us rs rp) → us[n]? = some u →
    u.written = false → u.sent = false → u.landed = false → u.asked = false → readsSrc op u = true →
    (copyHeld s c q = true → Comes (.homeCopyWrite c q n) s fun t => t = s)
    ∧ (copyHeld s c q = false → (∀ v, v ∈ us → tierOf v.srcW ≠ 3) → Comes (.homeCopyWrite c q n) s fun t =>
      (∃ us', headCmd t c q = some (.cmd id gid slot launch set fn op us' rs rp)
        ∧ us' = us.map fun v => if readsSrc op v && !v.asked && !v.landed then { v with asked := true } else v)
      ∧ ∃ ms, t.net = s.net ++ ms
        ∧ ms.map (·.w) = ((us.filter fun v => readsSrc op v && !v.asked && !v.landed).map (·.srcW)).eraseDups
        ∧ ∀ m, m ∈ ms → m.kind = .read ∧ m.src = .engine c ∧ m.acc = id
          ∧ (8 ≤ (ms.filter fun k => sectorOf k.w == sectorOf m.w).length → m.sector = true)))
  ∧ (∀ (s : State) (c q n id gid slot launch set fn : Nat) (op : CopyOp) (us : List CopyUnit) (rs : List CopyRun) (rp : Bool) (r : Resp),
    c < 192 → s.resps.find? (fun r => r.id == n && r.core == c && (r.acc != 0 || r.eng) && !r.hit) = some r → r.eng = true → r.unit = none →
    headCmd s c q = some (.cmd id gid slot launch set fn op us rs rp) → r.acc = id →
    Comes (.homeResponseReceive c n) s fun t => headCmd t c q = some (.cmd id gid slot launch set fn op
      (us.map fun v => if v.asked && v.srcW == r.w && v.got.isNone then { v with got := some r.mw } else v) rs rp))
  ∧ (∀ (s : State) (c q n id gid slot launch set fn : Nat) (us : List CopyUnit) (rs : List CopyRun) (rp : Bool) (u : CopyUnit)
    (w off size : Nat) (mw : MWord), c < 192 → headCmd s c q = some (.cmd id gid slot launch set fn .copy us rs rp) → us[n]? = some u →
    u.dst = .home w off size → u.written = false → u.sent = false → u.landed = false → u.skip = false → u.asked = true → u.got = some mw →
    unitFirst us n u = true → tierOf w < 2 → (∀ m, m ∈ s.net → m.w = w → m.arrived = false) →
    (homeAt s w).v = true → (homeAt s w).owner = none → (homeAt s w).syn = 0 → (l2Way s w).isSome = true →
    Comes (.homeCopyWrite c q n) s fun t =>
      (homeAt t w).mw.data = mergeBytes (homeAt s w).mw.data (placeData mw u.srcOff off size) (placeMask off size)
      ∧ (homeAt t w).mw.pois = (if placeMask off size = 0xFF then mw.pois else (homeAt s w).mw.pois || mw.pois)
      ∧ (homeAt t w).rank = none ∧ (homeAt t w).owner = none ∧ (homeAt t w).d = true
      ∧ ∃ us', headCmd t c q = some (.cmd id gid slot launch set fn .copy us' rs rp) ∧ us'[n]?.map (·.written) = some true
        ∧ ∀ j, j ≠ n → us'[j]? = us[j]?)
  ∧ (∀ (s : State) (c q n id gid slot launch set fn : Nat) (op : CopyOp) (us : List CopyUnit) (rs : List CopyRun) (rp : Bool)
    (u : CopyUnit) (w off size : Nat), c < 192 → headCmd s c q = some (.cmd id gid slot launch set fn op us rs rp) →
    us[n]? = some u → u.dst = .home w off size → u.landed = false →
    (u.written = true → Comes (.copyWriteAck c q n) s fun t => ∃ us' rs', headCmd t c q = some (.cmd id gid slot launch set fn op us' rs' rp)
      ∧ us'[n]?.map (·.landed) = some true ∧ ∀ j, j ≠ n → us'[j]? = us[j]?)
    ∧ (u.written = false → Comes (.copyWriteAck c q n) s fun t => t = s))
  ∧ (∀ (s : State) (c q id gid slot launch set fn : Nat) (op : CopyOp) (us : List CopyUnit) (rs : List CopyRun) (rp : Bool), c < 192 →
    headCmd s c q = some (.cmd id gid slot launch set fn op us rs rp) →
    ((∀ u, u ∈ us → u.landed = true) → (∀ r, r ∈ rs → r.done = true) →
      ComesFront (.copyComplete c q) fn (feTurn fn fun s => completeCmd s c q) s fun t =>
      tget (coreAt t c).cq q [] = (tget (coreAt s c).cq q []).drop 1)
    ∧ ((∃ u, u ∈ us ∧ u.landed = false) → Comes (.copyComplete c q) s fun t => (coreAt t c).cq = (coreAt s c).cq))
  ∧ (∀ (s : State) (c q id gid slot : Nat) (m : Mask) (r : List CopyCmd), q < 4 →
    tget (coreAt s c).cq q [] = .fence id gid slot m :: r → (∀ i, i ∈ (coreAt s c).items → i.id = id) →
    (∀ j, j < 4 → j ≠ q → ∀ e, e ∈ tget (coreAt s c).cq j [] → ∀ g o l, e ≠ .fence id g o l) →
    Comes (.queueFenceComplete c id) s fun t => tget (coreAt t c).cq q [] = r ∧ (coreAt t c).items = [])
  ∧ (∀ (s : State) (c fn n : Nat) (x : Core) (it : Item), s.cores = [(c, x)] → x.items = [it] → it.body = .taskDec fn n →
    1 < (tget (fnAt s fn).tasks n {}).counter.toNat →
    ComesFront (.taskDecrement fn) fn (fun s => endItem (decTask s fn n) c it.id) s fun t => (coreAt t c).items = []
      ∧ (tget (fnAt t fn).tasks n {}).counter = (tget (fnAt s fn).tasks n {}).counter - 1)
  ∧ ∀ (s : State) (fn n q : Nat) (tag : DWord) (us : List CopyUnit) (k : Option Nat) (p : Nat),
    tget? (fnAt s fn).started n = some (.copy q tag us k p) → (∀ u, u ∈ us → u.landed = true) →
    ComesFront (.copyComplete (192 + fn) n) fn (feTurn fn fun s => endCopy s fn n) s fun t => tget? (fnAt t fn).started n = none

/-- R193 to R195, R198, R200, R203 to R206: arbitration chooses a head, which the process of least virtual time has; the head that is chosen
starts as its TYPE says, its queue moves on by one command, and a command that R194 does not allow gets BAD_COMMAND alone.
The model's own choices and readings in it: logs 28, 30, 31, 76, 99, 128, 140, 141. -/
def Obligations.CommandsStart : Prop :=
  (∀ (s : State) (fn eff : Nat) (p : Pick), (fnAt s fn).resetting = false →
    let s0 := frontState s fn
    let s1 := priorityStops (pumpEntries s0 fn (fnAt s0 fn).entries []) fn
    pick s1 fn = some (eff, p) →
    ((∀ n, p ≠ .task n) → ComesFront (.frontEndArbitrate fn) fn (feTurn fn (arbitrate fn)) s fun u => (fnAt u fn).chosen = some p)
    ∧ ∀ n d rest, p = .task n → (tget (fnAt s1 fn).tasks n {}).due = d :: rest →
      ComesFront (.frontEndArbitrate fn) fn (feTurn fn (arbitrate fn)) s fun u => (tget (fnAt u fn).tasks n {}).due = rest
        ∧ u.launches = s1.launches ++ [{ id := s1.nid, fn := fn, proc := d.proc, hdrAddr := d.hdr, hdr := d.h,
                                         origin := .task n d.replay, eff := eff, started := s1.now }])
  ∧ (∀ (s : State) (fn p : Nat) (r : List Nat), processOrder s fn = p :: r → hasWork s fn p = true
    ∧ ∀ j, j ∈ processOrder s fn → (tget (fnAt s fn).procs p {}).vt ≤ (tget (fnAt s fn).procs j {}).vt)
  ∧ ∀ (s s' : State) (fn q eff : Nat) (c : Cmd), choice (frontState s fn) fn = some (eff, .queue q) →
    headOf (frontState s fn) fn q = (c, s') →
    let x := queueAt (frontState s fn) fn q
    let s1 := headDone s' fn q eff
    (∀ i work, (i, work, c.typ) ∈ [(Instr.cmdLaunch fn, launchWork fn, 1), (Instr.cmdGraphReplay fn, replayStart fn, 2),
          (Instr.cmdCopy fn, copyStart fn, 3), (Instr.cmdFence fn, fenceStart fn, 5)]
        ∨ (i = .cmdSignalDecrement fn ∧ work = signalWork fn false ∧ c.typ = 4 ∧ c.mod = false)
        ∨ (i = .cmdSignalSet fn ∧ work = signalWork fn true ∧ c.typ = 4 ∧ c.mod = true)
        ∨ (i = .cmdLaunch fn ∧ work = launchWork fn ∧ (c.typ = 0 ∨ 5 < c.typ)) → c.ok = false → ComesFront i fn (feTurn fn work) s fun u =>
      u = madeWork (feBegin s fn) (sendEntry s1 fn { q := q, tag := c.tag, status := 2 }) fn
        ∧ (queueAt u fn q).head = (queueAt s' fn q).head + 1)
    ∧ (c.ok = true → c.typ = 1 → ∀ h s2, readHeader s1 fn x.proc c.a = ((h, 0), s2) →
      ComesFront (.cmdLaunch fn) fn (feTurn fn (launchWork fn)) s fun u =>
      u.launches = s2.launches ++ [{ id := s2.nid, fn := fn, proc := x.proc, hdrAddr := c.a, hdr := h, origin := .cmd q c.tag, eff := eff,
                                     started := s2.now }])
    ∧ (c.ok = true → c.typ = 2 → c.b = 0 → ∀ g s2, readGraph s1 fn x.proc c.a = (some g, s2) → graphOk c g = true →
      (∀ t, t ∈ g.tasks → t.1 ≠ 0) → g.tasks.length = g.n → ComesFront (.cmdGraphReplay fn) fn (feTurn fn (replayStart fn)) s fun u =>
        (∃ left a p b, tget? (fnAt u fn).started s2.nid = some (.replay q c.tag c.a g.conc c.tk g.n left a p b))
        ∧ ∀ t e, g.tasks[t]? = some e → (tget (fnAt u fn).tasks (c.tk + t) {}).counter = e.1
          ∧ (tget (fnAt u fn).tasks (c.tk + t) {}).hdr = e.2)
    ∧ (c.ok = true → c.typ = 3 → ∀ us s2, copyPieces fn x.proc c.len c.a c.b c.len s1 = (some us, s2) →
      ComesFront (.cmdCopy fn) fn (feTurn fn (copyStart fn)) s fun u =>
      tget? (fnAt u fn).started s2.nid = some (.copy q c.tag us (if c.mod then some c.tk else none) x.proc))
    ∧ (c.ok = true → c.typ = 4 → c.mod = false → 1 < (tget (fnAt s1 fn).tasks c.tk {}).counter.toNat →
      ComesFront (.cmdSignalDecrement fn) fn (feTurn fn (signalWork fn false)) s fun u =>
        (tget (fnAt u fn).tasks c.tk {}).counter = (tget (fnAt s1 fn).tasks c.tk {}).counter - 1)
    ∧ (c.ok = true → c.typ = 4 → c.mod = true → BitVec.ofNat 32 c.len ≠ 0 → 
      ComesFront (.cmdSignalSet fn) fn (feTurn fn (signalWork fn true)) s fun u =>
      (tget (fnAt u fn).tasks c.tk {}).counter = BitVec.ofNat 32 c.len)
    ∧ (c.ok = true → c.typ = 5 → ComesFront (.cmdFence fn) fn (feTurn fn (fenceStart fn)) s fun u => (queueAt u fn q).fenced = some s1.nid
      ∧ ∃ b, tget? (fnAt u fn).started s1.nid = some (.fence q c.tag c.a b))

/-- R33, R35, R136, R195 to R198, R203, R205: a set is admitted to a core that has room; a node's batch takes its region; a replay whose tasks
are over, a fence whose commands are over and a launch whose sets are over complete; virtual time grows with the slots held over the
weight; a window that is over gives way to the next.
The model's own choices and readings in it: logs 24, 76, 77, 99, 127, 129, 141. -/
def Obligations.LaunchesProceed : Prop :=
  (∀ (s : State) (launch set core : Nat) (y : Launch), launchAt s launch = some y →
    let s0 := joinP s y.fn
    (pickWith s0 y.fn fun m => canPlace s0 m core || (m.id == launch && mayAdmit s0 y set core)).map (·.2) = some (.placing launch) →
    mayAdmit s0 y set core = true → savedAhead s0 y core = false → matrixOk s0 y set core = true → planRoom s0 y set core true = true →
    y.hdr.twin = false → Comes (.setAdmission launch set core) s fun u =>
      u.sets = s.sets ++ [{ launch := launch, set := set, core := some core, units := y.hdr.spad }])
  ∧ (∀ (s : State) (fn node eff k : Nat) (i : Instr) (b : Bool),
    (i, b) ∈ [(.batchLaunch fn node, false), (.batchTimeout fn node, true)] →
    let s0 := frontState s fn
    choice s0 fn = some (eff, .batch node) → batchSize s0 fn node b = some k →
    let y := nodeAt s fn node
    ComesFront i fn (feTurn fn (batchWork fn node b)) s fun u => (nodeAt u fn node).rd = (y.rd / 2 ^ y.blog + 1) * 2 ^ y.blog
      ∧ (nodeAt u fn node).commit = y.commit - BitVec.ofNat 32 k)
  ∧ (∀ (s : State) (fn n q : Nat) (tag obj blk : DWord) (conc : Bool) (base cnt p : Nat) (u : Option (Nat × Nat)),
    tget? (fnAt s fn).started n = some (.replay q tag obj conc base cnt [] u p blk) →
    ComesFront (.graphReplayComplete fn n) fn (feTurn fn (endReplay fn n)) s fun t => tget? (fnAt t fn).started n = none
      ∧ ∀ e, u = some e → (tget (fnAt t fn).procs p {}).arenaUsed = (tget (fnAt s fn).procs p {}).arenaUsed.erase e)
  ∧ (∀ (s : State) (fn n q : Nat) (tag m : DWord) (before : List Nat), tget? (fnAt s fn).started n = some (.fence q tag m before) →
    ((∀ i, i ∈ before → launchAt s i = none ∧ tget? (fnAt s fn).started i = none) → 
      ComesFront (.cmdFenceComplete fn n) fn (feTurn fn (endFence fn n)) s fun u =>
      tget? (fnAt u fn).started n = none ∧ (queueAt u fn q).fenced = none)
    ∧ ((∃ i, i ∈ before ∧ (launchAt s i).isSome = true) → Comes (.cmdFenceComplete fn n) s fun u =>
      (fnAt u fn).started = (fnAt s fn).started ∧ (queueAt u fn q).fenced = (queueAt s fn q).fenced))
  ∧ (∀ (s : State) (n : Nat) (y : Launch), launchAt s n = some y → (fnAt s y.fn).resetting = false → launchOver s y = true →
    launchQuiet s n = true →
    let t := flushLaunch (clearRemote s y) n
    let ended := fun (u : State) => launchAt u n = none ∧ ∀ x, x ∈ u.sets → x.launch ≠ n
    (launchQuiet t n = true → let v := feTurn y.fn (endLaunch y) (feBegin t y.fn)
      ((fnAt v y.fn).stall = false → Comes (.launchComplete n) s ended)
      ∧ ((fnAt v y.fn).stall = true → Comes (.launchComplete n) s fun u => u = feKeep t v y.fn))
    ∧ (launchQuiet t n = false → Comes (.launchComplete n) s fun u => u = t))
  ∧ (∀ (s : State) (fn p : Nat) (x : Proc),
    let s0 := joinP s fn
    tget? (fnAt s0 fn).procs p = some x →
    (∀ e, e ∈ (fnAt s0 fn).procs → e.2.vt + slotsOf s0 fn e.1 * 1024 / max 1 e.2.weight ≤ 2 ^ 63) →
    Comes (.vtUpdate fn) s fun u => tget? (fnAt u fn).procs p = some { x with vt := x.vt + slotsOf s fn p * 1024 / max 1 x.weight })
  ∧ ∀ (s : State) (c f h : Nat),
    let w := tget s.windows c {}
    let fin := w.start + (fnAt s f).quantum.toNat * usCycles s
    1 < (sharers s c).length → (sharers s c)[w.slot]? = some f → (sharers s c)[w.holder]? = some h → fin ≤ s.now →
    Comes (.quantumWindowEnd c) s fun u => tget u.windows c {} = ⟨w.slot + 1, w.slot + 1, fin, w.period⟩

/-- R220 to R225, R232 to R235, R137: pre-emption stops groups, saves their sets and brings them back; containment takes a launch off the
device and replays it where it may be replayed, else aborts it.
The model's own choices and readings in it: logs 26, 69, 144. -/
def Obligations.PreemptionActs : Prop :=
  (∀ (s : State) (launch set c slot : Nat) (x : CoSet) (g : Group), setAt s launch set = some x → x.core = some c → x.stop = .hard →
    groupAt s c slot = some g → (slot, g) ∈ (coreAt s c).groups → g.launch = launch → g.set = set → g.formed = false →
    g.shadowOf = none → (∀ e, e ∈ (coreAt s c).groups → e.2.gid = g.gid → e = (slot, g)) → Comes (.hardPreemption launch set) s fun u =>
      (∀ i, i ∈ (coreAt u c).items → i.gid = g.gid → i.body.withdrawn = true → releaseWaits (coreAt s c) i = true)
      ∧ (∀ i, i ∈ (coreAt s c).items → i.gid = g.gid → releaseWaits (coreAt s c) i = true → i ∈ (coreAt u c).items)
      ∧ (∀ q, tget? (coreAt u c).quarters (slot / 32) = some q → q.1 ≠ slot)
      ∧ ∃ g', groupAt u c slot = some g' ∧ g'.latch = none ∧ ∀ i, i ∈ (coreAt s c).items → i.gid = g.gid →
        i.body.withdrawn = true → releaseWaits (coreAt s c) i = false → i ∈ g'.descs)
  ∧ (∀ (s : State) (launch set c slot : Nat) (x : CoSet) (g : Group), setAt s launch set = some x → x.core = some c → x.stop = .light →
    (∀ e, e ∈ (coreAt s c).groups → e.2.launch = launch → e.2.shadowOf = none → e = (slot, g)) →
    groupAt s c slot = some g → (slot, g) ∈ (coreAt s c).groups → g.launch = launch → g.set = set → g.formed = false →
    g.shadowOf = none → g.hard = false → inRegion g = false → (∃ l, l < 64 ∧ (threadAt g l).live = true) →
    (∀ l, (liveMask g).getLsbD l = true → lightStop g l = true) → Comes (.lightPreemption launch set) s fun u =>
      ∃ g', groupAt u c slot = some g' ∧ ∀ l, l < 64 → (threadAt g' l).stopped = ((threadAt g l).live || (threadAt g l).stopped))
  ∧ (∀ (s : State) (launch set c : Nat) (y : Launch) (x : CoSet), launchAt s launch = some y → setAt s launch set = some x →
    x.core = some c → y.stopping = false → y.hdr.twin = false → s.defSwap = none →
    (∀ n, n ∈ saveUnit s launch set c → ∃ z, setAt s launch n = some z ∧ z.stop ≠ .none ∧ z.core = some c) →
    (∀ e, e ∈ (coreAt s c).groups → e.2.launch = launch → e.2.shadowOf = none →
      (∃ n, n ∈ liveSets s e.2 ∧ n ∈ saveUnit s launch set c) → groupSavable s c e.2 = true) →
    Comes (.saveImageComplete launch set) s fun u => ∃ x', setAt u launch set = some x' ∧ x'.core = none ∧ x'.stop = .none
      ∧ x'.saved.isSome = true ∧ x'.causes = x.causes ∧ x'.spad = x.spad)
  ∧ (∀ (s : State) (launch set c : Nat) (y : Launch) (x : CoSet), launchAt s launch = some y → setAt s launch set = some x →
    x.saved.isSome = true → s.savedLinks = [] → s.defSwap = none → y.hdr.twin = false → canRestore s y set c = true →
    Comes (.restore launch set c) s fun u => ∃ x', setAt u launch set = some x' ∧ x'.core = some c ∧ x'.saved = none
      ∧ x'.stop = .none ∧ x'.causes = [])
  ∧ ∀ (s : State) (launch c slot src : Nat) (lanes : Mask) (y : Launch), launchAt s launch = some y → y.aborted = none →
    (c, slot, src, lanes) ∈ y.contain → launchDrained s launch = true → s.defSwap = none →
    Comes (.containment launch c slot src lanes) s fun u => (∀ d o g, groupAt u d o = some g → g.launch ≠ launch)
      ∧ (∀ x, x ∈ u.sets → x.launch ≠ launch) ∧ (coreAt u c).contn = satInc (coreAt s c).contn
      ∧ ∃ y', launchAt u launch = some y' ∧ y'.stopping = false ∧ y'.contain = []
        ∧ (if y.hdr.replay = true ∧ y.nonReplay = false ∧ y.replays < 2 then y'.replays = y.replays + 1 ∧ y'.aborted = none
          else y'.aborted = some (if y.hdr.replay = false then 1 else if y.nonReplay then 2 else 3))

/-! ### Events of a pod -/

/-- R28, R179, R180, R189, R190, R223, R249, R250, R252 to R254, R297: sensors and the throttle, droops, the licence with its idle and hold
times and its hand-over, and power gating. A change of the clock leaves the cycle counters where they stand.
The model's own choices and readings in it: logs 27, 75, 114, 149. -/
def Obligations.PodEventsAct : Prop :=
  (∀ (s : State) (pod : Nat) (tup tlo vup vlo : BitVec 16) (rup rlo : Word), pod < 96 →
    ((∃ n, (podAt s pod).sampledAt = some n ∧ podClock s pod < n + 4096) → Comes (.sensorSample pod tup tlo vup vlo rup rlo) s fun u => u = s)
    ∧ ((∀ n, (podAt s pod).sampledAt = some n → n + 4096 ≤ podClock s pod) → Comes (.sensorSample pod tup tlo vup vlo rup rlo) s fun u => (podAt u pod).tup = tup ∧ (podAt u pod).tlo = tlo
      ∧ (coreAt u pod).vnow = vlo ∧ (coreAt u (pod + 96)).vnow = vup
      ∧ (coreAt u pod).vmin.toNat = min vlo.toNat (coreAt s pod).vmin.toNat
      ∧ (coreAt u (pod + 96)).vmin.toNat = (if (podAt s pod).upst = 2 then (coreAt s (pod + 96)).vmin.toNat
          else min vup.toNat (coreAt s (pod + 96)).vmin.toNat)
      ∧ cycleOf u pod = cycleOf s pod ∧ cycleOf u (pod + 96) = cycleOf s (pod + 96)
      ∧ (∀ t, tget? s.roscAt (quadrantOf pod) = some t → s.now < t + 4096 →
        tget? u.rosc (quadrantOf pod) = tget? s.rosc (quadrantOf pod))
      ∧ ((podAt s pod).throttle = 0 → ((podAt s pod).limit.toNat : Int) ≤ max tup.toInt tlo.toInt → (podAt u pod).throttle = 1)
      ∧ ((podAt s pod).throttle = 0 → max tup.toInt tlo.toInt < ((podAt s pod).limit.toNat : Int) → (podAt u pod).throttle = 0)))
  ∧ (∀ (s : State) (pod n : Nat), (podAt s pod).overSince = some n → 1 ≤ (podAt s pod).throttle → (podAt s pod).throttle ≤ 2 →
    (n + 8192 ≤ podClock s pod → Comes (.thermalThrottleStep pod) s fun u =>
      (podAt u pod).throttle = (podAt s pod).throttle + 1 ∧ (podAt u pod).overSince = some (podClock s pod)
        ∧ cycleOf u pod = cycleOf s pod ∧ podClock u pod = podClock s pod)
    ∧ (podClock s pod < n + 8192 → Comes (.thermalThrottleStep pod) s fun u => u = s))
  ∧ (∀ (s : State) (pod : Nat), (podAt s pod).overSince = none → Comes (.thermalThrottleStep pod) s fun u => u = s)
  ∧ (∀ (s : State) (c : Nat) (mv : BitVec 16), (mv.toNat < 570 → Comes (.supplyDroop c mv) s fun u => (coreAt u c).stretched = true
      ∧ (isUpper c = false ∨ (podAt s (podOf c)).upst ≠ 2 → (coreAt u c).vmin.toNat = min mv.toNat (coreAt s c).vmin.toNat))
    ∧ (570 ≤ mv.toNat → Comes (.supplyRecovery c mv) s fun u => (coreAt u c).stretched = false))
  ∧ (∀ (s : State) (pod : Nat), (podAt s pod).lic = .free → (podAt s pod).reqLo = true ∨ (podAt s pod).reqUp = true →
    let up := if (podAt s pod).reqLo = false then true else if (podAt s pod).reqUp = false then false
      else if (podAt s pod).priorUp ≠ (podAt s pod).priorLo then (podAt s pod).priorUp
      else match (podAt s pod).last with | some u => !u | none => false
    Comes (.licenceGrant pod) s fun u => (podAt u pod).lic = .held up ∧ (podAt u pod).last = some up
      ∧ (if up then (podAt u pod).reqUp = false else (podAt u pod).reqLo = false))
  ∧ (∀ (s : State) (pod : Nat) (up : Bool), (podAt s pod).lic = .held up →
    ((podAt s pod).fireAt + 256 ≤ podClock s pod → Comes (.licenceIdleExpiry pod) s fun u => (podAt u pod).lic = .handover up)
    ∧ (podClock s pod < (podAt s pod).fireAt + 256 → Comes (.licenceIdleExpiry pod) s fun u => u = s)
    ∧ ((podAt s pod).grantAt + max 1024 (podAt s pod).licq.toNat ≤ podClock s pod → (if up then (podAt s pod).reqLo else (podAt s pod).reqUp) = true →
      Comes (.licenceHoldExpiry pod) s fun u => (podAt u pod).lic = .handover up)
    ∧ ((if up then (podAt s pod).reqLo else (podAt s pod).reqUp) = false → Comes (.licenceHoldExpiry pod) s fun u => u = s))
  ∧ (∀ (s : State) (pod t : Nat) (up : Bool), (podAt s pod).lic = .handover up → (podAt s pod).drainAt = some t →
    (podClock s pod < t + 48 → Comes (.handoverEnd pod) s fun u => u = s)
    ∧ (t + 48 ≤ podClock s pod → Comes (.handoverEnd pod) s fun u => (podAt u pod).lic =
      if (if up then (podAt s pod).reqLo else (podAt s pod).reqUp) then .held (!up)
      else if (if up then (podAt s pod).reqUp else (podAt s pod).reqLo) then .held up else .free))
  ∧ (∀ (s : State) (pod : Nat),
    (s.full = true → (podAt s pod).gate = false → (podAt s pod).upst = 0 → Comes (.podctlGate pod) s fun u =>
      (podAt u pod).gate = true ∧ (podAt u pod).upst = 1)
    ∧ (s.full = false → Comes (.podctlGate pod) s fun u => u = s)
    ∧ ((podAt s pod).gate = true → (podAt s pod).upst = 2 → Comes (.podctlUngate pod) s fun u =>
      (podAt u pod).gate = false ∧ (podAt u pod).upst = 3))
  ∧ (∀ (s : State) (pod : Nat), let x := coreAt s (pod + 96)
    pod < 96 → (podAt s pod).upst = 1 → (podAt s pod).gate = true → (podAt s pod).lic ≠ .held true → (podAt s pod).lic ≠ .handover true →
    x.groups = [] → x.evicted = [] → x.items = [] → x.link = [] → x.mshrs = [] → Comes (.gatingComplete pod) s fun u =>
      (podAt u pod).upst = 2 ∧ (podAt u pod).image = some (x.win, x.twb) ∧ (coreAt u (pod + 96)).win = [] ∧ (coreAt u (pod + 96)).l1 = []
      ∧ (coreAt u (pod + 96)).tlb = [])
  ∧ ∀ (s : State) (pod : Nat) (w : Tbl (List Word)) (b : Tbl Word), pod < 96 → (podAt s pod).upst = 3 → (podAt s pod).gate = false →
    (podAt s pod).image = some (w, b) → s.sets = [] → Comes (.ungatingComplete pod) s fun u =>
      (podAt u pod).upst = 0 ∧ (podAt u pod).image = none ∧ (coreAt u (pod + 96)).win = w ∧ (coreAt u (pod + 96)).twb = b
      ∧ (coreAt u (pod + 96)).vmin = 0xFFFF
      ∧ ((coreAt s (pod + 96)).gated = false → (coreAt s (pod + 96)).retention = false → cycleOf u (pod + 96) = 0)

/-- R84, R85, R170, R176, R177, R183 to R185: a complete round fires when its core holds the licence and no other round is fired, its
fragments land when its cycles have passed; a slot's clearing ends after 16 cycles; the items of the register link cross in order.
The model's own choices and readings in it: logs 71, 72. -/
def Obligations.MatrixAndLinkEventsAct : Prop :=
  (∀ (s : State) (core : Nat) (r : Round), nextRound (coreAt s core) = some r → holdsLic s core = true →
    (∀ q, q ∈ (coreAt s core).rounds → q.fired = false) →
    (∀ slot e m g, (slot, e, m) ∈ r.members.zip (r.entries.zip (List.range r.members.length)) → groupAt s core slot = some g →
      memberPois s core g e m = false) →
    Comes (.roundFire core) s fun u => (∀ q, q ∈ (coreAt u core).rounds → q.id = r.id → q.fired = true)
      ∧ (podAt u (podOf core)).fireAt = podClock s (podOf core)
      ∧ ∀ slot g, slot ∈ r.members → r.entries.length = r.members.length → groupAt s core slot = some g →
        ∃ g', groupAt u core slot = some g' ∧ g'.latch = none)
  ∧ (∀ (s : State) (core : Nat) (r : Round), (coreAt s core).rounds.find? (·.fired) = some r →
    r.firedAt + roundCycles r ≤ podClock s (podOf core) → Comes (.mmaRoundComplete core) s fun u =>
    (∀ q, q ∈ (coreAt u core).rounds → q.id ≠ r.id) ∧ (∀ i, i ∈ (coreAt u core).items → i.body ≠ .mma r.id)
    ∧ ((podAt s (podOf core)).lic = .handover (isUpper core) → (podAt u (podOf core)).drainAt = some (podClock s (podOf core))))
  ∧ (∀ (a b : List Nat) (c : Word), a.length = b.length → (dotSlots .i8 a b c).1 = BitVec.ofInt 32 (c.toInt
    + ((a.zip b).map fun p => (BitVec.ofNat 8 p.1).toInt * (BitVec.ofNat 8 p.2).toInt).sum))
  ∧ (∀ (s : State) (core slot : Nat), (tileAt s core slot).clearAt + 16 ≤ podClock s (podOf core) →
    Comes (.slotClearDone core slot) s fun u => (tileAt u core slot).clearing = false
    ∧ (tileAt u core slot).full = (tileAt s core slot).full ∧ (tileAt u core slot).data = (tileAt s core slot).data)
  ∧ (∀ (s : State) (core : Nat) (e : LinkSlot) (r : List LinkSlot), (coreAt s core).link = e :: r → (∀ n, e.item ≠ .bar n) →
    let now := podClock s (podOf core)
    (now ≤ e.since ∨ (∃ n, (coreAt s core).crossAt = some n ∧ now ≤ n) → Comes (.linkItemCross core) s fun u => u = s)
    ∧ (e.since < now → (∀ n, (coreAt s core).crossAt = some n → n < now) →
      (∀ n v m, e.item = .window n v m → Comes (.linkItemCross core) s fun u => (coreAt u core).link = dropBars r
        ∧ (coreAt u core).crossAt = some now
        ∧ ∀ l, l < 64 → (tget (coreAt u core).crossed n []).getD l 0 = if m.getLsbD l then v.getD l 0
          else (tget (coreAt s core).crossed n []).getD l 0)
      ∧ ∀ v, e.item = .fifo v → core < 192 → (∀ i, i ∈ (coreAt s (twinOf core)).items → ∀ d m, i.body ≠ .twrecv d m) →
        Comes (.linkItemCross core) s fun u => (coreAt u core).link = dropBars r ∧ (coreAt u core).crossAt = some now
          ∧ (coreAt u core).fifo = (coreAt s core).fifo ++ [v]))
  ∧ ∀ (s : State) (core q q' : Nat) (i j : LinkItem), (coreAt s core).link = [] → q ≤ q' →
    let a := pushLink (pushLink s core q i) core q' j
    let b := pushLink (pushLink s core q' j) core q i
    ((coreAt a core).link.map (·.quarter) = [q, q']) ∧ (q < q' → (coreAt b core).link = (coreAt a core).link)

/-! ### Events of the host and the fabric -/

/-- R192, R193, R196 to R201, R215, R236 to R238, R247, R248: what a write of the host does to the register it names, and what it does where
the value is not allowed.
The model's own choices and readings in it: logs 80, 81, 82, 83, 84, 90, 94, 150. -/
def Obligations.HostWritesAct : Prop :=
  (∀ (s : State) (fn q : Nat) (v : Word), fnThere s fn = true → q < 64 → let x := queueAt s fn q
    ((v - x.head).toNat ≤ 2 ^ x.log2n → Comes (.qtailWrite fn q v) s fun u => (queueAt u fn q).tail = v ∧ (queueAt u fn q).en = x.en)
    ∧ (2 ^ x.log2n < (v - x.head).toNat → Comes (.qtailWrite fn q v) s fun u => (queueAt u fn q).tail = v ∧ (queueAt u fn q).en = false)
    ∧ (let n := v.toNat % 2 ^ 5
      6 ≤ n → n ≤ 16 → (x.tail - x.head).toNat ≤ 2 ^ n → Comes (.qctlWrite fn q v) s fun u => (queueAt u fn q).log2n = n
        ∧ (queueAt u fn q).en = v.getLsbD 31 ∧ (queueAt u fn q).prio = v.toNat / 2 ^ 24 % 2 ^ 4 ∧ (queueAt u fn q).proc = v.toNat / 2 ^ 16 % 2 ^ 4)
    ∧ (v.toNat % 2 ^ 5 < 6 → Comes (.qctlWrite fn q v) s fun u => queueAt u fn q = x)
    ∧ Comes (.cqheadWrite fn q v) s (fun u => (queueAt u fn q).cqHead = v)
    ∧ Comes (.frheadWrite fn v) s (fun u => (fnAt u fn).frHead = v)
    ∧ ∀ d : DWord, d.setWidth 32 = v → exec (.barRegisterWrite fn (0x10000 + 64 * q + 0x10) d) s = exec (.qtailWrite fn q v) s
      ∧ exec (.barRegisterWrite fn (0x10000 + 64 * q + 0x08) d) s = exec (.qctlWrite fn q v) s
      ∧ exec (.barRegisterWrite fn (0x10000 + 64 * q + 0x38) d) s = exec (.cqheadWrite fn q v) s
      ∧ exec (.barRegisterWrite fn 0x50018 d) s = exec (.frheadWrite fn v) s
      ∧ Comes (.barRegisterWrite fn (0x10000 + 64 * q) d) s fun u => (queueAt u fn q).base = d &&& ~~~(0x3F : DWord))
  ∧ (∀ (s : State) (fn : Nat) (v : DWord), fn ≤ 32 → (∀ c, (sharers s c).length ≤ 1) → Comes (.sliceBlockWrite fn v) s fun u =>
    let p := v.toNat / 2 ^ 32
    let q := v.toNat % 2 ^ 32
    if p = 0 ∨ q = 0 then (fnAt u fn).qzero = true ∧ (fnAt u fn).period = (fnAt s fn).period ∧ (fnAt u fn).quantum = (fnAt s fn).quantum
    else (fnAt u fn).qzero = false ∧ (fnAt u fn).period.toNat = p ∧ (fnAt u fn).quantum.toNat = (if q ≤ (if s.full then 46 else 92) then (if s.full then 57 else 103) else q)
      ∧ ((fnAt u fn).qraised = true ↔ q ≤ (if s.full then 46 else 92)))
  ∧ (∀ (s : State) (fn n : Nat) (v : DWord), fnThere s fn = true → n < 256 →
    Comes (.nodeConfigWrite fn (0x40000 + 32 * n) v) s (fun u => (nodeAt u fn n).hdr = v &&& ~~~(0x7F : DWord))
    ∧ Comes (.nodeConfigWrite fn (0x40000 + 32 * n + 8) v) s (fun u => (nodeAt u fn n).ring = v &&& ~~~(0x3F : DWord))
    ∧ Comes (.nodeConfigWrite fn (0x40000 + 32 * n + 16) v) s fun u =>
      let qlog := bitsOf v 22 5
      let rwords := bitsOf v 17 5
      let blog := bitsOf v 0 4
      if 6 ≤ qlog ∧ qlog ≤ 16 ∧ 1 ≤ rwords ∧ rwords ≤ 16 ∧ blog ≤ 12 ∧ blog ≤ qlog then
        (nodeAt u fn n).qlog = qlog ∧ (nodeAt u fn n).rwords = rwords ∧ (nodeAt u fn n).blog = blog ∧ (nodeAt u fn n).en = v.getLsbD 31
      else nodeAt u fn n = nodeAt s fn n)
  ∧ (∀ (s : State) (fn n : Nat) (v : DWord), fnThere s fn = true → n < 16 →
    Comes (.processContextWrite fn (0x20000 + 32 * n) v) s (fun u => (tget (fnAt u fn).procs n {}).root = v &&& 0x000FFFFFFFFF0000
      ∧ (tget (fnAt u fn).procs n {}).tier = bitsOf v 4 2)
    ∧ Comes (.processContextWrite fn (0x20000 + 32 * n + 8) v) s fun u => (tget (fnAt u fn).procs n {}).v = v.getLsbD 31
      ∧ (tget (fnAt u fn).procs n {}).weight = bitsOf v 0 8)
  ∧ (∀ (s : State) (fn : Nat) (v : DWord), fn ≤ 32 →
    Comes (.partitionWrite (0x71000 + 16 * fn) v) s (fun u => if bitsOf v 8 5 ≤ bitsOf v 16 5 ∧ bitsOf v 16 5 ≤ 23 then
        (fnAt u fn).pbase = bitsOf v 8 5 ∧ (fnAt u fn).plimit = bitsOf v 16 5 ∧ (fnAt u fn).pen = v.getLsbD 31 ∧ (fnAt u fn).pbad = false
      else (fnAt u fn).pbad = true ∧ (fnAt u fn).pbase = (fnAt s fn).pbase ∧ (fnAt u fn).plimit = (fnAt s fn).plimit)
    ∧ Comes (.partitionWrite (0x71000 + 16 * fn + 8) v) s fun u => if bitsOf v 0 8 = 0 then (fnAt u fn).pbad = true
        ∧ (fnAt u fn).cmask = (fnAt s fn).cmask else (fnAt u fn).cmask.toNat = bitsOf v 0 8)
  ∧ (∀ (s : State) (v : Word), (v.getLsbD 31 = false → Comes (.defragGo v) s fun u => u.defA = v.toNat % 32 ∧ u.defB = v.toNat / 256 % 32
      ∧ u.defSwap = s.defSwap)
    ∧ (v.getLsbD 31 = true → s.defSwap.isSome = true → Comes (.defragGo v) s fun u => u = s)
    ∧ (v.getLsbD 31 = true → s.defSwap = none → v.toNat % 32 < 24 → v.toNat / 256 % 32 < 24 →
      (∃ e, e ∈ s.cores ∧ e.2.groups ≠ [] ∧ (clusterOf e.1 = physCluster s (v.toNat % 32))) →
      Comes (.defragGo v) s fun u => u.defSwap = some (v.toNat % 32, v.toNat / 256 % 32, false)))
  ∧ (∀ (s : State) (fn k : Nat) (v : Word), fnThere s fn = true → k < 64 →
    (v.getLsbD 31 = true → v.toNat % 2 ^ 16 ≠ 0 → Comes (.collectiveEnWrite fn k v) s fun u => (collAt u fn k).en = true
      ∧ (collAt u fn k).local_.toNat = v.toNat % 2 ^ 16 ∧ (collAt u fn k).gen = (collAt s fn k).gen)
    ∧ (v.getLsbD 31 = false → Comes (.collectiveEnWrite fn k v) s fun u => (collAt u fn k).en = false ∧ (collAt u fn k).gen = 0
      ∧ (collAt u fn k).count = 0 ∧ (collAt u fn k).lost = false))
  ∧ (∀ (s : State) (kid owner : BitVec 8), s.keydat.length = 64 →
    (1 ≤ kid.toNat → kid.toNat ≤ 128 → s.keydat.take 32 ≠ s.keydat.drop 32 → Comes (.keyctlLoad kid owner) s fun u =>
      tget? u.keys kid.toNat = some { owner := owner.toNat, k1 := s.keydat.take 32, k2 := s.keydat.drop 32 } ∧ u.keyctl.toNat / 2 ^ 30 = 0)
    ∧ (kid = 0 ∨ 128 < kid.toNat ∨ s.keydat.take 32 = s.keydat.drop 32 → Comes (.keyctlLoad kid owner) s fun u =>
      u.keys = s.keys ∧ u.keyctl.toNat / 2 ^ 30 = 2))
  ∧ (∀ (s : State) (c k : Nat) (v : DWord), c < 192 → k ≤ 128 →
    let ones := ~~~(v.setWidth 32 : Word)
    let x := coreAt s c
    let y := chanAt s k
    Comes (.barRegisterWrite 0 (0x60000 + 32 * c) v) s (fun u => coreAt u c = { x with sbfix := x.sbfix &&& ones })
    ∧ Comes (.barRegisterWrite 0 (0x60000 + 32 * c + 8) v) s (fun u => coreAt u c = { x with mirmm := x.mirmm &&& ones })
    ∧ Comes (.barRegisterWrite 0 (0x60000 + 32 * c + 16) v) s (fun u => coreAt u c = { x with shdmm := x.shdmm &&& ones })
    ∧ Comes (.barRegisterWrite 0 (0x60000 + 32 * c + 24) v) s (fun u => coreAt u c = { x with contn := x.contn &&& ones })
    ∧ Comes (.barRegisterWrite 0 (0x62000 + 32 * k) v) s (fun u => chanAt u k = { y with cech := y.cech &&& ones })
    ∧ Comes (.barRegisterWrite 0 (0x62000 + 32 * k + 8) v) s (fun u => chanAt u k = { y with uech := y.uech &&& ones })
    ∧ Comes (.barRegisterWrite 0 (0x62000 + 32 * k + 16) v) s (fun u => chanAt u k = { y with pwch := y.pwch &&& ones })
    ∧ ∀ fn, fn ≠ 0 → readBar s fn (0x60000 + 32 * c) = 0 ∧ readBar s fn (0x62000 + 32 * k) = 0
      ∧ Comes (.barRegisterWrite fn (0x60000 + 32 * c) v) s (fun u => u = s) ∧ Comes (.barRegisterWrite fn (0x62000 + 32 * k) v) s fun u => u = s)
  ∧ ∀ (s : State) (kid : BitVec 8), kid ≠ 0 → Comes (.keyctlUnload kid) s fun u => tget? u.keys kid.toNat = none
    ∧ ∀ w, (homeAt u w).v = true → (homeAt u w).key ≠ kid.toNat

/-- R243, R249 to R251, R255 to R258: a reset of a VF at rest leaves its front end as after reset but for what the PF and the host set; a module
reset leaves the reset state; full service needs every stack trained and no launch; measurements, updates, recovery and reports.
The model's own choices and readings in it: logs 4, 7, 87, 89, 91, 114. -/
def Obligations.ResetsAndFirmwareAct : Prop :=
  (∀ (s : State) (fn : Nat), 0 < fn → fn ≤ s.numVfs → (fnAt s fn).resetting = false → s.defSwap = none →
    (∀ l, l ∈ s.launches → l.fn ≠ fn) → (∀ r, r ∈ s.rreqs → r.fn ≠ fn) → (∀ m, s.migration = some m → m.fn ≠ fn) →
    Comes (.flr fn) s (fun u => (fnAt u fn).queues = [] ∧ (fnAt u fn).procs = [] ∧ (fnAt u fn).tasks = [] ∧ (fnAt u fn).nodes = []
      ∧ (fnAt u fn).colls = [] ∧ (fnAt u fn).toks = [] ∧ (fnAt u fn).started = [] ∧ (fnAt u fn).frHead = 0 ∧ (fnAt u fn).resetting = false
      ∧ (fnAt u fn).pen = (fnAt s fn).pen ∧ (fnAt u fn).pbase = (fnAt s fn).pbase ∧ (fnAt u fn).quantum = (fnAt s fn).quantum)
    ∧ (fn < 64 → exec (.vfrstWrite ((1 : DWord) <<< fn)) s = exec (.flr fn) s))
  ∧ (∀ s : State, Memory.wf s.mem = true → Comes .moduleReset s fun u =>
    { u with agenda := [], turn := 0, nid := 1, fresh := 0, mem := [], hout := [] } = State.reset
    ∧ (∀ w, tierOf w = 2 → memGet u.mem w = memGet s.mem w) ∧ ∀ w, tierOf w < 2 → memGet u.mem w = ⟨0, 0, 0⟩)
  ∧ (∀ s : State, (s.trained = 0xFF → s.launches = [] → Comes .devstGofull s fun u => u.full = true ∧ u.badsw = false ∧ u.booted = true
      ∧ ∀ p, p < 96 → (podAt s p).upst = 2 → (podAt u p).upst = (if (podAt s p).gate then 2 else 0)
        ∧ ((podAt s p).gate = false → (coreAt u (p + 96)).vmin = 0xFFFF
          ∧ ((coreAt s (p + 96)).gated = false → (coreAt s (p + 96)).retention = false → cycleOf u (p + 96) = 0)))
    ∧ (s.trained ≠ 0xFF ∨ s.launches ≠ [] → Comes .devstGofull s fun u => u = { s with badsw := true }))
  ∧ (∀ (s : State) (k : Nat), k < 8 → Comes (.stackTrainingComplete k) s fun u => ∀ j, j < 8 →
    u.trained.getLsbD j = (s.trained.getLsbD j || j == k))
  ∧ (∀ (s : State) (reg : Nat) (image sig : List Byte), s.recov = false →
    (s.booted = false → Comes (.firmwareImageVerify reg image sig) s fun u =>
      let n := (Config.imageReg image).val
      if Config.ed448Verify image sig then tget u.meas n [] = shake256 (measAt s n ++ shake256 image) ∧ u.recov = false
      else u.recov = true ∧ u.meas = s.meas)
    ∧ (s.booted = true → Comes (.firmwareImageVerify reg image sig) s fun u => u = s))
  ∧ (∀ (s : State) (image sig : List Byte),
    (s.updating = none → Comes (.firmwareUpdate image sig) s fun u => u.meas = s.meas
      ∧ u.updating = if Config.ed448Verify image sig then some (shake256 image) else none)
    ∧ (s.recov = true → Comes (.recoveryImageWrite image sig) s fun u => u.recov = !Config.ed448Verify image sig
      ∧ if Config.ed448Verify image sig then
          tget u.meas (Config.imageReg image).val [] = shake256 (measAt s (Config.imageReg image).val ++ shake256 image)
        else u.meas = s.meas))
  ∧ (∀ (s : State) (m image sig : List Byte), s.updating = some m → s.attWait = [] → Comes (.firmwareUpdate image sig) s fun u =>
    u.updating = none ∧ tget u.meas 7 [] = shake256 (measAt s 7 ++ m))
  ∧ ∀ (s : State) (nonce : List Byte) (fn : Nat) (addr : DWord), fn ≤ 32 →
    (s.updating = none → Comes (.attestationRequest nonce fn addr) s fun u => u.attDone = true ∧ u.attWait = s.attWait
      ∧ s.hout.length < u.hout.length)
    ∧ (s.updating.isSome = true → Comes (.attestationRequest nonce fn addr) s fun u => u.attDone = false
      ∧ u.attWait = s.attWait ++ [(nonce, fn, addr)])

/-- R146 to R149, R244 to R247: flits are taken in order, or dropped and asked for again; a peer's request goes to its home where an import
window lets it in, and is refused with an error record else; answers end requests; barrier flits count; a peer that is lost is marked.
The model's own choices and readings in it: logs 8, 15, 16, 17, 18, 19. -/
def Obligations.FabricEventsAct : Prop :=
  (∀ (s : State) (i : Nat) (b : List Byte), i < 16 → linkUp s i = true → b.length = 256 →
    (wordOfBytes (b.drop 248) ≠ crc64 (b.take 248) → (linkAt s i).fails < 8 → Comes (.flitReceive i b) s fun u =>
      u.rin = s.rin ∧ (linkAt u i).fails = (linkAt s i).fails + 1 ∧ (linkAt u i).rxSeq = (linkAt s i).rxSeq
      ∧ u.fout.length = s.fout.length + 1)
    ∧ (wordOfBytes (b.drop 248) = crc64 (b.take 248) → bitsOf (flitWord b 0) 30 6 = s.devid → flitSeq b = (linkAt s i).rxSeq + 1 →
      bitsOf (flitWord b 0) 36 4 ∈ [1, 2, 3] → Comes (.flitReceive i b) s fun u => (linkAt u i).rxSeq = flitSeq b ∧ (linkAt u i).fails = 0
        ∧ u.rin = s.rin ++ slotMsgs (bitsOf (flitWord b 0) 36 4) (bitsOf (flitWord b 0) 24 6) s.nid b 10 0)
    ∧ (wordOfBytes (b.drop 248) = crc64 (b.take 248) → bitsOf (flitWord b 0) 30 6 ≠ s.devid → Comes (.flitReceive i b) s fun u => u = s))
  ∧ (∀ (s : State) (n : Nat) (m : FabMsg) (k : MsgKind), rinAt s n 1 = some m → reqKind m = some k →
    (importOk s m.dev (8 * bitsOf m.q1 0 49) = true → Comes (.remoteRequestReceive n) s fun u => (∀ x, x ∈ u.rin → x.id ≠ n)
      ∧ ∃ x, u.net = s.net ++ [x] ∧ x.w = bitsOf m.q1 0 49 ∧ x.kind = k
        ∧ x.src = .fabric m.dev (m.q2.setWidth 16) (bitsOf m.q2 16 8) (bitsOf m.q2 24 7) (bitsOf m.q2 31 6))
    ∧ (importOk s m.dev (8 * bitsOf m.q1 0 49) = false → Comes (.remoteRequestReceive n) s fun u => (∀ x, x ∈ u.rin → x.id ≠ n)
      ∧ u.net = s.net))
  ∧ (∀ (s : State) (n w : Nat) (m : FabMsg) (r : RemoteReq) (it : Item), rinAt s n 2 = some m →
    s.rreqs.find? (fun r => r.sent && r.dev == m.dev && r.id % 65536 == bitsOf m.q1 0 16) = some r →
    (fnAt s r.fn).resetting = false → (coreAt s r.core).items = [it] → it.id = r.acc → it.body = .homeStore w →
    Comes (.remoteResponseReceive n) s fun u => (∀ x, x ∈ u.rin → x.id ≠ n) ∧ (∀ x, x ∈ u.rreqs → x.id ≠ r.id)
      ∧ (coreAt u r.core).items = [])
  ∧ (∀ (s : State) (n : Nat) (m : FabMsg), let fn := bitsOf m.q0 6 26
    let i := bitsOf m.q0 0 6
    let o := collAt s fn i
    rinAt s n 3 = some m → fn < 33 → m.dev < 64 → o.peers.getLsbD m.dev = true → m.q1.setWidth 32 = o.gen → o.en = true →
    (o.count = o.local_ → (∀ d, d < 64 → o.peers.getLsbD d = true → o.got.getLsbD d = true ∨ d = m.dev) →
      Comes (.barrierFlitReceive n) s fun u => (collAt u fn i).gen = o.gen + 1 ∧ (collAt u fn i).count = 0)
    ∧ (o.count ≠ o.local_ → Comes (.barrierFlitReceive n) s fun u => (collAt u fn i).gen = o.gen ∧ (collAt u fn i).got.getLsbD m.dev = true))
  ∧ (∀ (s : State) (dev fn : Nat), dev < 64 → dev ≠ s.devid → Comes (.resetNoticeReceive dev fn) s fun u =>
    (dev, fn) ∈ u.lostFns ∧ u.lost = s.lost)
  ∧ (∀ (s : State) (n : Nat) (r : RemoteReq), n < s.nid → s.rreqs.find? (fun r => r.id == n) = some r →
    (lostWord s r.w = true ∨ (fnAt s r.fn).resetting = true → Comes (.fabricLimitExpiry n) s fun u => ∀ x, x ∈ u.rreqs → x.id ≠ n)
    ∧ (lostWord s r.w = false → (fnAt s r.fn).resetting = false →
      (r.since + 131072 ≤ s.now → Comes (.fabricLimitExpiry n) s fun u => r.dev ∈ u.lost)
      ∧ (s.now < r.since + 131072 → Comes (.fabricLimitExpiry n) s fun u => u = s)))
  ∧ ∀ (s : State) (i : Nat), i < 16 → linkUp s i = true → Comes (.linkFailure i) s fun u => (linkAt u i).down = true

/-! ### Words, memory and reset -/

/-- R274, R276, R282: words written out from the spec's encodings decode to the instructions they stand for. -/
def Obligations.SpecWordsDecode : Prop :=
  decodeWords [0x0000003030303000] = .ok (.nop {})
  ∧ decodeWords [0x02000002C0000003] = .ok (.brc {} 3 .all 3)
  ∧ decodeWords [0x15000000B0303000] = .ok (.rdcyc {} (.v 2))
  ∧ decodeWords [0x1680002130000001] = .ok (.mfs { u := true } (.s 4) 1)
  ∧ decodeWords [0x2000000080007001] = .ok (.iadd {} (.v 2) { o := .v 0 } { o := .v 1 } .sat)
  ∧ decodeWords [0x2B00000282223000] = .ok (.shl {} (.v 10) { o := .v 8 } { o := .s 8 })
  ∧ decodeWords [0x3A000001B0303001, 0x4000000000000001] = .ok (.movl {} (.v 6) true 0x4000000000000001)
  ∧ decodeWords [0x420500068661C780]
    = .ok (.ffma {} (.v 26) { o := .v 25, lr := true } { o := .s 7 } { o := .v 30, lr := true } .rn false false)
  ∧ decodeWords [0x6100000480703000] = .ok (.ballot {} (.v 18) 1)
  ∧ decodeWords [0x7000020120304800]
    = .ok (.ld { sb := some 0 } (.v 4) { o := .s 0 } { o := .lid } .b32 .normal false 0)
  ∧ decodeWords [0x9000000220B00240] = .ok (.acp {} (.v 8) { o := .s 2 } (.reg { o := .v 9 }) 0 .b32 false)
  ∧ decodeWords [0xA400025000007030] = .ok (.mma { sb := some 1 } (.v 64) 0 1 none .bf16 .g4 true)

/-- Every well-formed instruction is read back from its own words, whole, with every operand at every value it may have; and
whatever decodes is a well-formed instruction. -/
def Obligations.DecodeOfEncode : Prop :=
  (∀ i : Instr, i.isInstr = true → i.wf = true → decodeWords (encode i) = .ok i)
  ∧ ∀ (w lit : DWord) (i : Instr), decodeWords [w, lit] = .ok i → i.isInstr = true ∧ i.wf = true

/-- R116, R117: the code of a word. The 80 stored bits are check nibbles 19, 18, 17, tag and data; each has its column, the
syndrome is the signature of the address and the columns of the set bits, and a writer's check nibbles make it 0. The columns and
the signature are such that errors inside one nibble are told apart from single ones, two errors in different nibbles leave the
upper bits set or a nonzero rest, and a word of another address is never taken for a single error. -/
def Obligations.WordCode : Prop :=
  (∀ n j, n < 20 → j < 4 → codeCol n j = ((1 : BitVec 12) <<< (8 + j)) ||| BitVec.ofNat 12
    (([0x03, 0x05, 0x06, 0x09, 0x0A, 0x0C, 0x11, 0x12, 0x14, 0x18, 0x21, 0x22, 0x24, 0x28, 0x30, 0x41, 0x42, 0, 2 ^ j, 2 ^ (4 + j)]
      : List Nat).getD n 0))
  ∧ (∀ (wa : Nat) (d : DWord) (tag : BitVec 4) (chk : BitVec 12), syndrome wa d tag chk
    = (List.range 80).foldl (fun a b => if (chk ++ (tag ++ d)).getLsbD b then a ^^^ codeCol (b / 4) (b % 4) else a) (sigma wa))
  ∧ (∀ (wa : Nat) (d : DWord) (tag : BitVec 4), let p := syndrome wa d tag 0
    let c := checkBits wa d tag
    c.extractLsb' 4 4 = p.extractLsb' 0 4 ∧ c.extractLsb' 8 4 = p.extractLsb' 4 4
      ∧ c.extractLsb' 0 4 = p.extractLsb' 8 4 ^^^ c.extractLsb' 4 4 ^^^ c.extractLsb' 8 4 ∧ syndrome wa d tag c = 0)
  ∧ (∀ (wa : Nat), wa < 2 ^ 49 →
    (∀ i, i < 8 → (sigma wa).getLsbD i = (List.range 7).foldl (fun a k => a ^^ wa.testBit (8 * k + i)) false)
    ∧ (∀ i, i < 3 → (sigma wa).getLsbD (8 + i) = (List.range 17).foldl (fun a k => a ^^ wa.testBit (3 * k + i)) false)
    ∧ (sigma wa).getLsbD 11 = ((sigma wa).getLsbD 8 ^^ (sigma wa).getLsbD 9 ^^ (sigma wa).getLsbD 10))
  ∧ (∀ n j i, n < 20 → j < 4 → i < 4 → (codeCol n j).getLsbD (8 + i) = decide (i = j))
  ∧ (∀ (n : Nat) (e : BitVec 4) (d : DWord) (tag : BitVec 4), n < 20 →
    let bits := (List.range 4).filter fun j => e.getLsbD j
    let x := bits.foldl (fun a j => a ^^^ codeCol n j) 0
    2 ≤ bits.length → (∃ i j, i < j ∧ j < 4 ∧ x.getLsbD (8 + i) = true ∧ x.getLsbD (8 + j) = true) ∧ synRes ⟨d, tag, x⟩ = .bad)
  ∧ (∀ n m i j, n < 20 → m < 20 → n ≠ m → i < 4 → j < 4 → let x := codeCol n i ^^^ codeCol m j
    (i ≠ j → x.getLsbD (8 + i) = true ∧ x.getLsbD (8 + j) = true)
    ∧ (i = j → x.extractLsb' 8 4 = 0 ∧ x.extractLsb' 0 8 ≠ 0))
  ∧ ∀ (wa wb : Nat) (d : DWord) (tag : BitVec 4), syndrome wa d tag (checkBits wb d tag) = sigma wa ^^^ sigma wb
    ∧ ∀ n j, n < 20 → j < 4 → sigma wa ^^^ sigma wb ≠ codeCol n j

/-- R118, R119: what a reader makes of a stored word: a clean one stands, one flipped bit is found and flipping it back gives the
word, two flipped bits are found, a word written poisoned reads as poisoned, and so does no word with one or two flipped bits; a
poisoned word with another bit flipped is not taken for a good one. A stored word reads back, and no other word changes.
The model's own choices and readings in it: log 1. -/
def Obligations.StoredWords : Prop :=
  (∀ (d : DWord) (tag : BitVec 4), synRes ⟨d, tag, 0⟩ = .clean ∧ synRes ⟨d, tag, poisonSyn⟩ = .poisoned
    ∧ (∀ b, b < 80 → synRes (flipBit ⟨d, tag, 0⟩ b) = .corrected b ∧ flipBit (flipBit ⟨d, tag, 0⟩ b) b = ⟨d, tag, 0⟩
      ∧ synRes (flipBit ⟨d, tag, poisonSyn⟩ b) = .bad)
    ∧ ∀ a b, a < 80 → b < 80 → a ≠ b → synRes (flipBit (flipBit ⟨d, tag, 0⟩ a) b) = .bad)
  ∧ (∀ (wa : Nat) (d : DWord) (tag : BitVec 4), syndrome wa d tag (checkBits wa d tag ^^^ 0xA5C) = poisonSyn)
  ∧ ∀ (m : Memory) (w v : Nat) (x : Stored), Memory.wf m = true → w < 2 ^ 52 → v < 2 ^ 52 →
    Memory.wf (memPut m w x) = true ∧ memGet (memPut m w x) v = if v = w then x else memGet m v

/-- Every step keeps memory in its one canonical form, so that equal memories are equal data (log 1 chooses what a byte that
nothing has written reads as). -/
def Obligations.MemoryStaysCanonical : Prop :=
  ∀ s t : State, Memory.wf s.mem = true → step s = .next t → Memory.wf t.mem = true

/-- R236, R240, R249, R252, R182: what reset leaves: no group stands on any core, nothing is in flight, the cluster map is the
identity, the device is in early service with nothing trained, and the registers hold what the spec gives. That a word that nothing
has written reads as zero is the model's choice (log 1). -/
def Obligations.ResetState : Prop :=
  Memory.wf State.reset.mem = true
  ∧ (∀ w, memGet State.reset.mem w = ⟨0, 0, 0⟩)
  ∧ (∀ c n, groupAt State.reset c n = none)
  ∧ State.reset.net = [] ∧ State.reset.launches = [] ∧ State.reset.sets = [] ∧ State.reset.walks = []
  ∧ State.reset.full = false ∧ State.reset.badsw = false ∧ State.reset.recov = false ∧ State.reset.trained = 0
  ∧ (∀ l, tget State.reset.cmap l l = l)
  ∧ (∀ p, (podAt State.reset p).lic = .free ∧ (podAt State.reset p).last = none ∧ (podAt State.reset p).licq = 0x00010000
    ∧ (podAt State.reset p).limit = 0x0690 ∧ (podAt State.reset p).move = 0x05F0 ∧ (podAt State.reset p).upst = 2)
  ∧ ∀ fn, (fnAt State.reset fn).pen = decide (fn = 0) ∧ (fnAt State.reset fn).l2mask = 0xFFFF
    ∧ (fnAt State.reset fn).queues = [] ∧ (fnAt State.reset fn).procs = []
end

