-- ==== Sys2Proof/Laws/Table.lean ====
section
/-! SUPPORT. Laws/Table.lean: what the operations over tables, lanes and masks can do. -/
namespace Sys2Proof.Machine

/-! ### Tables -/

@[simp] theorem tget?_tset (t : Tbl α) (k j : Nat) (v : α) :
    tget? (tset t k v) j = if j = k then some v else tget? t j := by
  induction t with
  | nil => by_cases h : k = j
           · simp [tset, tget?, h]
           · simp [tset, tget?, h, Ne.symm h]
  | cons e r ih =>
    obtain ⟨i, u⟩ := e
    simp only [tset]
    by_cases h1 : i = k
    · simp only [h1, if_true, tget?]
      by_cases h : j = k
      · simp [h]
      · simp [h, Ne.symm h]
    · by_cases h2 : k < i
      · simp only [h1, h2, if_true, if_false, tget?]
        by_cases h : j = k
        · simp [h]
        · simp [h, Ne.symm h]
      · simp only [h1, h2, if_false, tget?, ih]
        by_cases h : j = k
        · simp [h, h1]
        · simp [h]

@[simp] theorem tget_tset (t : Tbl α) (k j : Nat) (v d : α) :
    tget (tset t k v) j d = if j = k then v else tget t j d := by
  simp only [tget, tget?_tset]; split <;> simp

@[simp] theorem tget?_tdel (t : Tbl α) (k j : Nat) : tget? (tdel t k) j = if j = k then none else tget? t j := by
  induction t with
  | nil => simp [tdel, tget?]
  | cons e r ih =>
    obtain ⟨i, u⟩ := e
    simp only [tdel] at ih
    by_cases h : i = k
    · have hb : (i != k) = false := by simp [h]
      simp only [tdel, List.filter, hb, ih, tget?]
      by_cases hj : j = k
      · simp [hj]
      · simp [hj, h, Ne.symm hj]
    · have hb : (i != k) = true := by simp [h]
      simp only [tdel, List.filter, hb, tget?, ih]
      by_cases hj : j = k
      · simp [hj, h]
      · simp [hj]

/-- A table whose entries are rewritten one by one. -/
theorem tget?_map (t : Tbl α) (f : Nat → α → β) (j : Nat) :
    tget? (t.map fun e => (e.1, f e.1 e.2)) j = (tget? t j).map (f j) := by
  induction t with
  | nil => rfl
  | cons e r ih =>
    obtain ⟨i, u⟩ := e
    simp only [List.map, tget?, ih]
    by_cases h : i = j
    · subst h; simp
    · simp [h]

/-! ### Lanes and masks -/

theorem getLsbD_bitAt (l i : Nat) (hi : i < 64) : ((1 : Mask) <<< l).getLsbD i = decide (i = l) := by
  rw [BitVec.getLsbD_shiftLeft]
  by_cases h : i = l
  · subst h; simp [hi]
  · by_cases h2 : i < l
    · simp [h, h2]
    · have h3 : i - l ≠ 0 := by omega
      have : (1#64).getLsbD (i - l) = false := by simp [BitVec.getLsbD_one, h3]
      simp [h, this]

theorem getLsbD_laneBit (l i : Nat) (hi : i < 64) : (laneBit l).getLsbD i = decide (i = l) := getLsbD_bitAt l i hi

theorem foldl_bits (f : Nat → Bool) (ls : List Nat) (m : Mask) (i : Nat) (hi : i < 64) :
    (ls.foldl (fun m l => if f l then m ||| (1 : Mask) <<< l else m) m).getLsbD i
      = (m.getLsbD i || (decide (i ∈ ls) && f i)) := by
  induction ls generalizing m with
  | nil => simp
  | cons a r ih =>
    simp only [List.foldl]
    rw [ih]
    by_cases ha : i = a
    · subst ha
      by_cases hf : f i = true
      · simp [hf, hi]
      · simp only [Bool.not_eq_true] at hf; simp [hf]
    · split
      · rw [BitVec.getLsbD_or, getLsbD_bitAt _ _ hi]; simp [ha]
      · simp [ha]

@[simp] theorem getLsbD_maskOf (f : Nat → Bool) (i : Nat) : (maskOf f).getLsbD i = (decide (i < 64) && f i) := by
  by_cases hi : i < 64
  · rw [maskOf, foldl_bits _ _ _ _ hi]; simp [hi]
  · have : (maskOf f).getLsbD i = false := by apply BitVec.getLsbD_of_ge; omega
    simp [this, hi]

theorem mask_ext {a b : Mask} (h : ∀ i, i < 64 → a.getLsbD i = b.getLsbD i) : a = b := BitVec.eq_of_getLsbD_eq h

@[simp] theorem mem_lanesOf (m : Mask) (l : Nat) : l ∈ lanesOf m ↔ m.getLsbD l = true := by
  simp only [lanesOf, List.mem_filter, List.mem_range]
  constructor
  · exact fun h => h.2
  · intro h
    refine ⟨?_, h⟩
    rcases Nat.lt_or_ge l 64 with hl | hl
    · exact hl
    · rw [BitVec.getLsbD_of_ge _ _ hl] at h; cases h

theorem lt_of_getLsbD {m : Mask} {l : Nat} (h : m.getLsbD l = true) : l < 64 := by
  rcases Nat.lt_or_ge l 64 with hl | hl
  · exact hl
  · rw [BitVec.getLsbD_of_ge _ _ hl] at h; cases h

@[simp] theorem length_lanes64 (f : Nat → α) : (lanes64 f).length = 64 := by simp [lanes64]

theorem getElem?_lanes64 (f : Nat → α) (l : Nat) : (lanes64 f)[l]? = if l < 64 then some (f l) else none := by
  by_cases h : l < 64
  · simp [lanes64, h]
  · simp only [h, if_false]; exact List.getElem?_eq_none (by simp [lanes64]; omega)

@[simp] theorem getD_lanes64 (f : Nat → α) (l : Nat) (d : α) : (lanes64 f).getD l d = if l < 64 then f l else d := by
  rw [List.getD_eq_getElem?_getD, getElem?_lanes64]; split <;> simp

theorem mask_eq_zero_iff (m : Mask) : m = 0 ↔ ∀ l, m.getLsbD l = false := by
  constructor
  · rintro rfl l; simp
  · intro h; exact mask_ext fun i _ => by simp [h i]

theorem lowLane_mem {m : Mask} (h : m ≠ 0) : m.getLsbD (lowLane m) = true := by
  have hx : ∃ l, m.getLsbD l = true := Classical.byContradiction fun hc =>
    h ((mask_eq_zero_iff m).2 fun l => by
      cases hl : m.getLsbD l
      · rfl
      · exact absurd ⟨l, hl⟩ hc)
  obtain ⟨l, hl⟩ := hx
  have hm : l ∈ lanesOf m := (mem_lanesOf m l).2 hl
  cases hls : lanesOf m with
  | nil => rw [hls] at hm; cases hm
  | cons a r =>
    have ha : a ∈ lanesOf m := by rw [hls]; exact List.mem_cons_self ..
    simp only [lowLane, hls, List.head?_cons, Option.getD_some]
    exact (mem_lanesOf m a).1 ha

/-! ### Threads -/

@[simp] theorem threadAt_mapThreads (g : Group) (f : Nat → Thread → Thread) (l : Nat) :
    threadAt (mapThreads g f) l = if l < 64 then f l (threadAt g l) else {} := by
  simp only [threadAt, mapThreads, getD_lanes64]

@[simp] theorem threadAt_modThreads (g : Group) (m : Mask) (f : Thread → Thread) (l : Nat) :
    threadAt (modThreads g m f) l = if l < 64 then (if m.getLsbD l then f (threadAt g l) else threadAt g l) else {} := by
  simp [modThreads]

end Sys2Proof.Machine
end

