-- ==== Sys2Proof/Laws/State.lean ====
section
/-! SUPPORT. Laws/State.lean: the updates of State field by field, and reading a part after writing one. -/
namespace Sys2Proof.Machine

/-! ### setCore leaves every other field alone -/

@[simp] theorem setCore_agenda (s : State) (c : Nat) (x : Core) : (setCore s c x).agenda = s.agenda := rfl
@[simp] theorem setCore_turn (s : State) (c : Nat) (x : Core) : (setCore s c x).turn = s.turn := rfl
@[simp] theorem setCore_now (s : State) (c : Nat) (x : Core) : (setCore s c x).now = s.now := rfl
@[simp] theorem setCore_nid (s : State) (c : Nat) (x : Core) : (setCore s c x).nid = s.nid := rfl
@[simp] theorem setCore_fresh (s : State) (c : Nat) (x : Core) : (setCore s c x).fresh = s.fresh := rfl
@[simp] theorem setCore_cur (s : State) (c : Nat) (x : Core) : (setCore s c x).cur = s.cur := rfl
@[simp] theorem setCore_pods (s : State) (c : Nat) (x : Core) : (setCore s c x).pods = s.pods := rfl
@[simp] theorem setCore_sets (s : State) (c : Nat) (x : Core) : (setCore s c x).sets = s.sets := rfl
@[simp] theorem setCore_launches (s : State) (c : Nat) (x : Core) : (setCore s c x).launches = s.launches := rfl
@[simp] theorem setCore_savedLinks (s : State) (c : Nat) (x : Core) : (setCore s c x).savedLinks = s.savedLinks := rfl
@[simp] theorem setCore_mem (s : State) (c : Nat) (x : Core) : (setCore s c x).mem = s.mem := rfl
@[simp] theorem setCore_home (s : State) (c : Nat) (x : Core) : (setCore s c x).home = s.home := rfl
@[simp] theorem setCore_l2Lines (s : State) (c : Nat) (x : Core) : (setCore s c x).l2Lines = s.l2Lines := rfl
@[simp] theorem setCore_net (s : State) (c : Nat) (x : Core) : (setCore s c x).net = s.net := rfl
@[simp] theorem setCore_resps (s : State) (c : Nat) (x : Core) : (setCore s c x).resps = s.resps := rfl
@[simp] theorem setCore_acks (s : State) (c : Nat) (x : Core) : (setCore s c x).acks = s.acks := rfl
@[simp] theorem setCore_recalls (s : State) (c : Nat) (x : Core) : (setCore s c x).recalls = s.recalls := rfl
@[simp] theorem setCore_chans (s : State) (c : Nat) (x : Core) : (setCore s c x).chans = s.chans := rfl
@[simp] theorem setCore_tlbLo (s : State) (c : Nat) (x : Core) : (setCore s c x).tlbLo = s.tlbLo := rfl
@[simp] theorem setCore_tlbUp (s : State) (c : Nat) (x : Core) : (setCore s c x).tlbUp = s.tlbUp := rfl
@[simp] theorem setCore_walks (s : State) (c : Nat) (x : Core) : (setCore s c x).walks = s.walks := rfl
@[simp] theorem setCore_invals (s : State) (c : Nat) (x : Core) : (setCore s c x).invals = s.invals := rfl
@[simp] theorem setCore_migration (s : State) (c : Nat) (x : Core) : (setCore s c x).migration = s.migration := rfl
@[simp] theorem setCore_einja (s : State) (c : Nat) (x : Core) : (setCore s c x).einja = s.einja := rfl
@[simp] theorem setCore_einjc (s : State) (c : Nat) (x : Core) : (setCore s c x).einjc = s.einjc := rfl
@[simp] theorem setCore_fns (s : State) (c : Nat) (x : Core) : (setCore s c x).fns = s.fns := rfl
@[simp] theorem setCore_numVfs (s : State) (c : Nat) (x : Core) : (setCore s c x).numVfs = s.numVfs := rfl
@[simp] theorem setCore_windows (s : State) (c : Nat) (x : Core) : (setCore s c x).windows = s.windows := rfl
@[simp] theorem setCore_cmap (s : State) (c : Nat) (x : Core) : (setCore s c x).cmap = s.cmap := rfl
@[simp] theorem setCore_smap (s : State) (c : Nat) (x : Core) : (setCore s c x).smap = s.smap := rfl
@[simp] theorem setCore_defA (s : State) (c : Nat) (x : Core) : (setCore s c x).defA = s.defA := rfl
@[simp] theorem setCore_defB (s : State) (c : Nat) (x : Core) : (setCore s c x).defB = s.defB := rfl
@[simp] theorem setCore_defSwap (s : State) (c : Nat) (x : Core) : (setCore s c x).defSwap = s.defSwap := rfl
@[simp] theorem setCore_rosc (s : State) (c : Nat) (x : Core) : (setCore s c x).rosc = s.rosc := rfl
@[simp] theorem setCore_roscAt (s : State) (c : Nat) (x : Core) : (setCore s c x).roscAt = s.roscAt := rfl
@[simp] theorem setCore_devid (s : State) (c : Nat) (x : Core) : (setCore s c x).devid = s.devid := rfl
@[simp] theorem setCore_linkEn (s : State) (c : Nat) (x : Core) : (setCore s c x).linkEn = s.linkEn := rfl
@[simp] theorem setCore_froute (s : State) (c : Nat) (x : Core) : (setCore s c x).froute = s.froute := rfl
@[simp] theorem setCore_links (s : State) (c : Nat) (x : Core) : (setCore s c x).links = s.links := rfl
@[simp] theorem setCore_impWins (s : State) (c : Nat) (x : Core) : (setCore s c x).impWins = s.impWins := rfl
@[simp] theorem setCore_lost (s : State) (c : Nat) (x : Core) : (setCore s c x).lost = s.lost := rfl
@[simp] theorem setCore_lostFns (s : State) (c : Nat) (x : Core) : (setCore s c x).lostFns = s.lostFns := rfl
@[simp] theorem setCore_rreqs (s : State) (c : Nat) (x : Core) : (setCore s c x).rreqs = s.rreqs := rfl
@[simp] theorem setCore_rin (s : State) (c : Nat) (x : Core) : (setCore s c x).rin = s.rin := rfl
@[simp] theorem setCore_fout (s : State) (c : Nat) (x : Core) : (setCore s c x).fout = s.fout := rfl
@[simp] theorem setCore_hout (s : State) (c : Nat) (x : Core) : (setCore s c x).hout = s.hout := rfl
@[simp] theorem setCore_keys (s : State) (c : Nat) (x : Core) : (setCore s c x).keys = s.keys := rfl
@[simp] theorem setCore_keyctl (s : State) (c : Nat) (x : Core) : (setCore s c x).keyctl = s.keyctl := rfl
@[simp] theorem setCore_keydat (s : State) (c : Nat) (x : Core) : (setCore s c x).keydat = s.keydat := rfl
@[simp] theorem setCore_full (s : State) (c : Nat) (x : Core) : (setCore s c x).full = s.full := rfl
@[simp] theorem setCore_badsw (s : State) (c : Nat) (x : Core) : (setCore s c x).badsw = s.badsw := rfl
@[simp] theorem setCore_recov (s : State) (c : Nat) (x : Core) : (setCore s c x).recov = s.recov := rfl
@[simp] theorem setCore_trained (s : State) (c : Nat) (x : Core) : (setCore s c x).trained = s.trained := rfl
@[simp] theorem setCore_meas (s : State) (c : Nat) (x : Core) : (setCore s c x).meas = s.meas := rfl
@[simp] theorem setCore_updating (s : State) (c : Nat) (x : Core) : (setCore s c x).updating = s.updating := rfl
@[simp] theorem setCore_attDone (s : State) (c : Nat) (x : Core) : (setCore s c x).attDone = s.attDone := rfl
@[simp] theorem setCore_attWait (s : State) (c : Nat) (x : Core) : (setCore s c x).attWait = s.attWait := rfl
@[simp] theorem setCore_dbg (s : State) (c : Nat) (x : Core) : (setCore s c x).dbg = s.dbg := rfl
@[simp] theorem setCore_booted (s : State) (c : Nat) (x : Core) : (setCore s c x).booted = s.booted := rfl

/-! ### modPod leaves every other field alone -/

@[simp] theorem modPod_agenda (s : State) (p : Nat) (f : Pod → Pod) : (modPod s p f).agenda = s.agenda := rfl
@[simp] theorem modPod_turn (s : State) (p : Nat) (f : Pod → Pod) : (modPod s p f).turn = s.turn := rfl
@[simp] theorem modPod_now (s : State) (p : Nat) (f : Pod → Pod) : (modPod s p f).now = s.now := rfl
@[simp] theorem modPod_nid (s : State) (p : Nat) (f : Pod → Pod) : (modPod s p f).nid = s.nid := rfl
@[simp] theorem modPod_fresh (s : State) (p : Nat) (f : Pod → Pod) : (modPod s p f).fresh = s.fresh := rfl
@[simp] theorem modPod_cur (s : State) (p : Nat) (f : Pod → Pod) : (modPod s p f).cur = s.cur := rfl
@[simp] theorem modPod_cores (s : State) (p : Nat) (f : Pod → Pod) : (modPod s p f).cores = s.cores := rfl
@[simp] theorem modPod_sets (s : State) (p : Nat) (f : Pod → Pod) : (modPod s p f).sets = s.sets := rfl
@[simp] theorem modPod_launches (s : State) (p : Nat) (f : Pod → Pod) : (modPod s p f).launches = s.launches := rfl
@[simp] theorem modPod_savedLinks (s : State) (p : Nat) (f : Pod → Pod) : (modPod s p f).savedLinks = s.savedLinks := rfl
@[simp] theorem modPod_mem (s : State) (p : Nat) (f : Pod → Pod) : (modPod s p f).mem = s.mem := rfl
@[simp] theorem modPod_home (s : State) (p : Nat) (f : Pod → Pod) : (modPod s p f).home = s.home := rfl
@[simp] theorem modPod_l2Lines (s : State) (p : Nat) (f : Pod → Pod) : (modPod s p f).l2Lines = s.l2Lines := rfl
@[simp] theorem modPod_net (s : State) (p : Nat) (f : Pod → Pod) : (modPod s p f).net = s.net := rfl
@[simp] theorem modPod_resps (s : State) (p : Nat) (f : Pod → Pod) : (modPod s p f).resps = s.resps := rfl
@[simp] theorem modPod_acks (s : State) (p : Nat) (f : Pod → Pod) : (modPod s p f).acks = s.acks := rfl
@[simp] theorem modPod_recalls (s : State) (p : Nat) (f : Pod → Pod) : (modPod s p f).recalls = s.recalls := rfl
@[simp] theorem modPod_chans (s : State) (p : Nat) (f : Pod → Pod) : (modPod s p f).chans = s.chans := rfl
@[simp] theorem modPod_tlbLo (s : State) (p : Nat) (f : Pod → Pod) : (modPod s p f).tlbLo = s.tlbLo := rfl
@[simp] theorem modPod_tlbUp (s : State) (p : Nat) (f : Pod → Pod) : (modPod s p f).tlbUp = s.tlbUp := rfl
@[simp] theorem modPod_walks (s : State) (p : Nat) (f : Pod → Pod) : (modPod s p f).walks = s.walks := rfl
@[simp] theorem modPod_invals (s : State) (p : Nat) (f : Pod → Pod) : (modPod s p f).invals = s.invals := rfl
@[simp] theorem modPod_migration (s : State) (p : Nat) (f : Pod → Pod) : (modPod s p f).migration = s.migration := rfl
@[simp] theorem modPod_einja (s : State) (p : Nat) (f : Pod → Pod) : (modPod s p f).einja = s.einja := rfl
@[simp] theorem modPod_einjc (s : State) (p : Nat) (f : Pod → Pod) : (modPod s p f).einjc = s.einjc := rfl
@[simp] theorem modPod_fns (s : State) (p : Nat) (f : Pod → Pod) : (modPod s p f).fns = s.fns := rfl
@[simp] theorem modPod_numVfs (s : State) (p : Nat) (f : Pod → Pod) : (modPod s p f).numVfs = s.numVfs := rfl
@[simp] theorem modPod_windows (s : State) (p : Nat) (f : Pod → Pod) : (modPod s p f).windows = s.windows := rfl
@[simp] theorem modPod_cmap (s : State) (p : Nat) (f : Pod → Pod) : (modPod s p f).cmap = s.cmap := rfl
@[simp] theorem modPod_smap (s : State) (p : Nat) (f : Pod → Pod) : (modPod s p f).smap = s.smap := rfl
@[simp] theorem modPod_defA (s : State) (p : Nat) (f : Pod → Pod) : (modPod s p f).defA = s.defA := rfl
@[simp] theorem modPod_defB (s : State) (p : Nat) (f : Pod → Pod) : (modPod s p f).defB = s.defB := rfl
@[simp] theorem modPod_defSwap (s : State) (p : Nat) (f : Pod → Pod) : (modPod s p f).defSwap = s.defSwap := rfl
@[simp] theorem modPod_rosc (s : State) (p : Nat) (f : Pod → Pod) : (modPod s p f).rosc = s.rosc := rfl
@[simp] theorem modPod_roscAt (s : State) (p : Nat) (f : Pod → Pod) : (modPod s p f).roscAt = s.roscAt := rfl
@[simp] theorem modPod_devid (s : State) (p : Nat) (f : Pod → Pod) : (modPod s p f).devid = s.devid := rfl
@[simp] theorem modPod_linkEn (s : State) (p : Nat) (f : Pod → Pod) : (modPod s p f).linkEn = s.linkEn := rfl
@[simp] theorem modPod_froute (s : State) (p : Nat) (f : Pod → Pod) : (modPod s p f).froute = s.froute := rfl
@[simp] theorem modPod_links (s : State) (p : Nat) (f : Pod → Pod) : (modPod s p f).links = s.links := rfl
@[simp] theorem modPod_impWins (s : State) (p : Nat) (f : Pod → Pod) : (modPod s p f).impWins = s.impWins := rfl
@[simp] theorem modPod_lost (s : State) (p : Nat) (f : Pod → Pod) : (modPod s p f).lost = s.lost := rfl
@[simp] theorem modPod_lostFns (s : State) (p : Nat) (f : Pod → Pod) : (modPod s p f).lostFns = s.lostFns := rfl
@[simp] theorem modPod_rreqs (s : State) (p : Nat) (f : Pod → Pod) : (modPod s p f).rreqs = s.rreqs := rfl
@[simp] theorem modPod_rin (s : State) (p : Nat) (f : Pod → Pod) : (modPod s p f).rin = s.rin := rfl
@[simp] theorem modPod_fout (s : State) (p : Nat) (f : Pod → Pod) : (modPod s p f).fout = s.fout := rfl
@[simp] theorem modPod_hout (s : State) (p : Nat) (f : Pod → Pod) : (modPod s p f).hout = s.hout := rfl
@[simp] theorem modPod_keys (s : State) (p : Nat) (f : Pod → Pod) : (modPod s p f).keys = s.keys := rfl
@[simp] theorem modPod_keyctl (s : State) (p : Nat) (f : Pod → Pod) : (modPod s p f).keyctl = s.keyctl := rfl
@[simp] theorem modPod_keydat (s : State) (p : Nat) (f : Pod → Pod) : (modPod s p f).keydat = s.keydat := rfl
@[simp] theorem modPod_full (s : State) (p : Nat) (f : Pod → Pod) : (modPod s p f).full = s.full := rfl
@[simp] theorem modPod_badsw (s : State) (p : Nat) (f : Pod → Pod) : (modPod s p f).badsw = s.badsw := rfl
@[simp] theorem modPod_recov (s : State) (p : Nat) (f : Pod → Pod) : (modPod s p f).recov = s.recov := rfl
@[simp] theorem modPod_trained (s : State) (p : Nat) (f : Pod → Pod) : (modPod s p f).trained = s.trained := rfl
@[simp] theorem modPod_meas (s : State) (p : Nat) (f : Pod → Pod) : (modPod s p f).meas = s.meas := rfl
@[simp] theorem modPod_updating (s : State) (p : Nat) (f : Pod → Pod) : (modPod s p f).updating = s.updating := rfl
@[simp] theorem modPod_attDone (s : State) (p : Nat) (f : Pod → Pod) : (modPod s p f).attDone = s.attDone := rfl
@[simp] theorem modPod_attWait (s : State) (p : Nat) (f : Pod → Pod) : (modPod s p f).attWait = s.attWait := rfl
@[simp] theorem modPod_dbg (s : State) (p : Nat) (f : Pod → Pod) : (modPod s p f).dbg = s.dbg := rfl
@[simp] theorem modPod_booted (s : State) (p : Nat) (f : Pod → Pod) : (modPod s p f).booted = s.booted := rfl

/-! ### modFn leaves every other field alone -/

@[simp] theorem modFn_agenda (s : State) (n : Nat) (f : Fn → Fn) : (modFn s n f).agenda = s.agenda := rfl
@[simp] theorem modFn_turn (s : State) (n : Nat) (f : Fn → Fn) : (modFn s n f).turn = s.turn := rfl
@[simp] theorem modFn_now (s : State) (n : Nat) (f : Fn → Fn) : (modFn s n f).now = s.now := rfl
@[simp] theorem modFn_nid (s : State) (n : Nat) (f : Fn → Fn) : (modFn s n f).nid = s.nid := rfl
@[simp] theorem modFn_fresh (s : State) (n : Nat) (f : Fn → Fn) : (modFn s n f).fresh = s.fresh := rfl
@[simp] theorem modFn_cur (s : State) (n : Nat) (f : Fn → Fn) : (modFn s n f).cur = s.cur := rfl
@[simp] theorem modFn_cores (s : State) (n : Nat) (f : Fn → Fn) : (modFn s n f).cores = s.cores := rfl
@[simp] theorem modFn_pods (s : State) (n : Nat) (f : Fn → Fn) : (modFn s n f).pods = s.pods := rfl
@[simp] theorem modFn_sets (s : State) (n : Nat) (f : Fn → Fn) : (modFn s n f).sets = s.sets := rfl
@[simp] theorem modFn_launches (s : State) (n : Nat) (f : Fn → Fn) : (modFn s n f).launches = s.launches := rfl
@[simp] theorem modFn_savedLinks (s : State) (n : Nat) (f : Fn → Fn) : (modFn s n f).savedLinks = s.savedLinks := rfl
@[simp] theorem modFn_mem (s : State) (n : Nat) (f : Fn → Fn) : (modFn s n f).mem = s.mem := rfl
@[simp] theorem modFn_home (s : State) (n : Nat) (f : Fn → Fn) : (modFn s n f).home = s.home := rfl
@[simp] theorem modFn_l2Lines (s : State) (n : Nat) (f : Fn → Fn) : (modFn s n f).l2Lines = s.l2Lines := rfl
@[simp] theorem modFn_net (s : State) (n : Nat) (f : Fn → Fn) : (modFn s n f).net = s.net := rfl
@[simp] theorem modFn_resps (s : State) (n : Nat) (f : Fn → Fn) : (modFn s n f).resps = s.resps := rfl
@[simp] theorem modFn_acks (s : State) (n : Nat) (f : Fn → Fn) : (modFn s n f).acks = s.acks := rfl
@[simp] theorem modFn_recalls (s : State) (n : Nat) (f : Fn → Fn) : (modFn s n f).recalls = s.recalls := rfl
@[simp] theorem modFn_chans (s : State) (n : Nat) (f : Fn → Fn) : (modFn s n f).chans = s.chans := rfl
@[simp] theorem modFn_tlbLo (s : State) (n : Nat) (f : Fn → Fn) : (modFn s n f).tlbLo = s.tlbLo := rfl
@[simp] theorem modFn_tlbUp (s : State) (n : Nat) (f : Fn → Fn) : (modFn s n f).tlbUp = s.tlbUp := rfl
@[simp] theorem modFn_walks (s : State) (n : Nat) (f : Fn → Fn) : (modFn s n f).walks = s.walks := rfl
@[simp] theorem modFn_invals (s : State) (n : Nat) (f : Fn → Fn) : (modFn s n f).invals = s.invals := rfl
@[simp] theorem modFn_migration (s : State) (n : Nat) (f : Fn → Fn) : (modFn s n f).migration = s.migration := rfl
@[simp] theorem modFn_einja (s : State) (n : Nat) (f : Fn → Fn) : (modFn s n f).einja = s.einja := rfl
@[simp] theorem modFn_einjc (s : State) (n : Nat) (f : Fn → Fn) : (modFn s n f).einjc = s.einjc := rfl
@[simp] theorem modFn_numVfs (s : State) (n : Nat) (f : Fn → Fn) : (modFn s n f).numVfs = s.numVfs := rfl
@[simp] theorem modFn_windows (s : State) (n : Nat) (f : Fn → Fn) : (modFn s n f).windows = s.windows := rfl
@[simp] theorem modFn_cmap (s : State) (n : Nat) (f : Fn → Fn) : (modFn s n f).cmap = s.cmap := rfl
@[simp] theorem modFn_smap (s : State) (n : Nat) (f : Fn → Fn) : (modFn s n f).smap = s.smap := rfl
@[simp] theorem modFn_defA (s : State) (n : Nat) (f : Fn → Fn) : (modFn s n f).defA = s.defA := rfl
@[simp] theorem modFn_defB (s : State) (n : Nat) (f : Fn → Fn) : (modFn s n f).defB = s.defB := rfl
@[simp] theorem modFn_defSwap (s : State) (n : Nat) (f : Fn → Fn) : (modFn s n f).defSwap = s.defSwap := rfl
@[simp] theorem modFn_rosc (s : State) (n : Nat) (f : Fn → Fn) : (modFn s n f).rosc = s.rosc := rfl
@[simp] theorem modFn_roscAt (s : State) (n : Nat) (f : Fn → Fn) : (modFn s n f).roscAt = s.roscAt := rfl
@[simp] theorem modFn_devid (s : State) (n : Nat) (f : Fn → Fn) : (modFn s n f).devid = s.devid := rfl
@[simp] theorem modFn_linkEn (s : State) (n : Nat) (f : Fn → Fn) : (modFn s n f).linkEn = s.linkEn := rfl
@[simp] theorem modFn_froute (s : State) (n : Nat) (f : Fn → Fn) : (modFn s n f).froute = s.froute := rfl
@[simp] theorem modFn_links (s : State) (n : Nat) (f : Fn → Fn) : (modFn s n f).links = s.links := rfl
@[simp] theorem modFn_impWins (s : State) (n : Nat) (f : Fn → Fn) : (modFn s n f).impWins = s.impWins := rfl
@[simp] theorem modFn_lost (s : State) (n : Nat) (f : Fn → Fn) : (modFn s n f).lost = s.lost := rfl
@[simp] theorem modFn_lostFns (s : State) (n : Nat) (f : Fn → Fn) : (modFn s n f).lostFns = s.lostFns := rfl
@[simp] theorem modFn_rreqs (s : State) (n : Nat) (f : Fn → Fn) : (modFn s n f).rreqs = s.rreqs := rfl
@[simp] theorem modFn_rin (s : State) (n : Nat) (f : Fn → Fn) : (modFn s n f).rin = s.rin := rfl
@[simp] theorem modFn_fout (s : State) (n : Nat) (f : Fn → Fn) : (modFn s n f).fout = s.fout := rfl
@[simp] theorem modFn_hout (s : State) (n : Nat) (f : Fn → Fn) : (modFn s n f).hout = s.hout := rfl
@[simp] theorem modFn_keys (s : State) (n : Nat) (f : Fn → Fn) : (modFn s n f).keys = s.keys := rfl
@[simp] theorem modFn_keyctl (s : State) (n : Nat) (f : Fn → Fn) : (modFn s n f).keyctl = s.keyctl := rfl
@[simp] theorem modFn_keydat (s : State) (n : Nat) (f : Fn → Fn) : (modFn s n f).keydat = s.keydat := rfl
@[simp] theorem modFn_full (s : State) (n : Nat) (f : Fn → Fn) : (modFn s n f).full = s.full := rfl
@[simp] theorem modFn_badsw (s : State) (n : Nat) (f : Fn → Fn) : (modFn s n f).badsw = s.badsw := rfl
@[simp] theorem modFn_recov (s : State) (n : Nat) (f : Fn → Fn) : (modFn s n f).recov = s.recov := rfl
@[simp] theorem modFn_trained (s : State) (n : Nat) (f : Fn → Fn) : (modFn s n f).trained = s.trained := rfl
@[simp] theorem modFn_meas (s : State) (n : Nat) (f : Fn → Fn) : (modFn s n f).meas = s.meas := rfl
@[simp] theorem modFn_updating (s : State) (n : Nat) (f : Fn → Fn) : (modFn s n f).updating = s.updating := rfl
@[simp] theorem modFn_attDone (s : State) (n : Nat) (f : Fn → Fn) : (modFn s n f).attDone = s.attDone := rfl
@[simp] theorem modFn_attWait (s : State) (n : Nat) (f : Fn → Fn) : (modFn s n f).attWait = s.attWait := rfl
@[simp] theorem modFn_dbg (s : State) (n : Nat) (f : Fn → Fn) : (modFn s n f).dbg = s.dbg := rfl
@[simp] theorem modFn_booted (s : State) (n : Nat) (f : Fn → Fn) : (modFn s n f).booted = s.booted := rfl

/-! ### modChan leaves every other field alone -/

@[simp] theorem modChan_agenda (s : State) (k : Nat) (f : Chan → Chan) : (modChan s k f).agenda = s.agenda := rfl
@[simp] theorem modChan_turn (s : State) (k : Nat) (f : Chan → Chan) : (modChan s k f).turn = s.turn := rfl
@[simp] theorem modChan_now (s : State) (k : Nat) (f : Chan → Chan) : (modChan s k f).now = s.now := rfl
@[simp] theorem modChan_nid (s : State) (k : Nat) (f : Chan → Chan) : (modChan s k f).nid = s.nid := rfl
@[simp] theorem modChan_fresh (s : State) (k : Nat) (f : Chan → Chan) : (modChan s k f).fresh = s.fresh := rfl
@[simp] theorem modChan_cur (s : State) (k : Nat) (f : Chan → Chan) : (modChan s k f).cur = s.cur := rfl
@[simp] theorem modChan_cores (s : State) (k : Nat) (f : Chan → Chan) : (modChan s k f).cores = s.cores := rfl
@[simp] theorem modChan_pods (s : State) (k : Nat) (f : Chan → Chan) : (modChan s k f).pods = s.pods := rfl
@[simp] theorem modChan_sets (s : State) (k : Nat) (f : Chan → Chan) : (modChan s k f).sets = s.sets := rfl
@[simp] theorem modChan_launches (s : State) (k : Nat) (f : Chan → Chan) : (modChan s k f).launches = s.launches := rfl
@[simp] theorem modChan_savedLinks (s : State) (k : Nat) (f : Chan → Chan) : (modChan s k f).savedLinks = s.savedLinks := rfl
@[simp] theorem modChan_mem (s : State) (k : Nat) (f : Chan → Chan) : (modChan s k f).mem = s.mem := rfl
@[simp] theorem modChan_home (s : State) (k : Nat) (f : Chan → Chan) : (modChan s k f).home = s.home := rfl
@[simp] theorem modChan_l2Lines (s : State) (k : Nat) (f : Chan → Chan) : (modChan s k f).l2Lines = s.l2Lines := rfl
@[simp] theorem modChan_net (s : State) (k : Nat) (f : Chan → Chan) : (modChan s k f).net = s.net := rfl
@[simp] theorem modChan_resps (s : State) (k : Nat) (f : Chan → Chan) : (modChan s k f).resps = s.resps := rfl
@[simp] theorem modChan_acks (s : State) (k : Nat) (f : Chan → Chan) : (modChan s k f).acks = s.acks := rfl
@[simp] theorem modChan_recalls (s : State) (k : Nat) (f : Chan → Chan) : (modChan s k f).recalls = s.recalls := rfl
@[simp] theorem modChan_tlbLo (s : State) (k : Nat) (f : Chan → Chan) : (modChan s k f).tlbLo = s.tlbLo := rfl
@[simp] theorem modChan_tlbUp (s : State) (k : Nat) (f : Chan → Chan) : (modChan s k f).tlbUp = s.tlbUp := rfl
@[simp] theorem modChan_walks (s : State) (k : Nat) (f : Chan → Chan) : (modChan s k f).walks = s.walks := rfl
@[simp] theorem modChan_invals (s : State) (k : Nat) (f : Chan → Chan) : (modChan s k f).invals = s.invals := rfl
@[simp] theorem modChan_migration (s : State) (k : Nat) (f : Chan → Chan) : (modChan s k f).migration = s.migration := rfl
@[simp] theorem modChan_einja (s : State) (k : Nat) (f : Chan → Chan) : (modChan s k f).einja = s.einja := rfl
@[simp] theorem modChan_einjc (s : State) (k : Nat) (f : Chan → Chan) : (modChan s k f).einjc = s.einjc := rfl
@[simp] theorem modChan_fns (s : State) (k : Nat) (f : Chan → Chan) : (modChan s k f).fns = s.fns := rfl
@[simp] theorem modChan_numVfs (s : State) (k : Nat) (f : Chan → Chan) : (modChan s k f).numVfs = s.numVfs := rfl
@[simp] theorem modChan_windows (s : State) (k : Nat) (f : Chan → Chan) : (modChan s k f).windows = s.windows := rfl
@[simp] theorem modChan_cmap (s : State) (k : Nat) (f : Chan → Chan) : (modChan s k f).cmap = s.cmap := rfl
@[simp] theorem modChan_smap (s : State) (k : Nat) (f : Chan → Chan) : (modChan s k f).smap = s.smap := rfl
@[simp] theorem modChan_defA (s : State) (k : Nat) (f : Chan → Chan) : (modChan s k f).defA = s.defA := rfl
@[simp] theorem modChan_defB (s : State) (k : Nat) (f : Chan → Chan) : (modChan s k f).defB = s.defB := rfl
@[simp] theorem modChan_defSwap (s : State) (k : Nat) (f : Chan → Chan) : (modChan s k f).defSwap = s.defSwap := rfl
@[simp] theorem modChan_rosc (s : State) (k : Nat) (f : Chan → Chan) : (modChan s k f).rosc = s.rosc := rfl
@[simp] theorem modChan_roscAt (s : State) (k : Nat) (f : Chan → Chan) : (modChan s k f).roscAt = s.roscAt := rfl
@[simp] theorem modChan_devid (s : State) (k : Nat) (f : Chan → Chan) : (modChan s k f).devid = s.devid := rfl
@[simp] theorem modChan_linkEn (s : State) (k : Nat) (f : Chan → Chan) : (modChan s k f).linkEn = s.linkEn := rfl
@[simp] theorem modChan_froute (s : State) (k : Nat) (f : Chan → Chan) : (modChan s k f).froute = s.froute := rfl
@[simp] theorem modChan_links (s : State) (k : Nat) (f : Chan → Chan) : (modChan s k f).links = s.links := rfl
@[simp] theorem modChan_impWins (s : State) (k : Nat) (f : Chan → Chan) : (modChan s k f).impWins = s.impWins := rfl
@[simp] theorem modChan_lost (s : State) (k : Nat) (f : Chan → Chan) : (modChan s k f).lost = s.lost := rfl
@[simp] theorem modChan_lostFns (s : State) (k : Nat) (f : Chan → Chan) : (modChan s k f).lostFns = s.lostFns := rfl
@[simp] theorem modChan_rreqs (s : State) (k : Nat) (f : Chan → Chan) : (modChan s k f).rreqs = s.rreqs := rfl
@[simp] theorem modChan_rin (s : State) (k : Nat) (f : Chan → Chan) : (modChan s k f).rin = s.rin := rfl
@[simp] theorem modChan_fout (s : State) (k : Nat) (f : Chan → Chan) : (modChan s k f).fout = s.fout := rfl
@[simp] theorem modChan_hout (s : State) (k : Nat) (f : Chan → Chan) : (modChan s k f).hout = s.hout := rfl
@[simp] theorem modChan_keys (s : State) (k : Nat) (f : Chan → Chan) : (modChan s k f).keys = s.keys := rfl
@[simp] theorem modChan_keyctl (s : State) (k : Nat) (f : Chan → Chan) : (modChan s k f).keyctl = s.keyctl := rfl
@[simp] theorem modChan_keydat (s : State) (k : Nat) (f : Chan → Chan) : (modChan s k f).keydat = s.keydat := rfl
@[simp] theorem modChan_full (s : State) (k : Nat) (f : Chan → Chan) : (modChan s k f).full = s.full := rfl
@[simp] theorem modChan_badsw (s : State) (k : Nat) (f : Chan → Chan) : (modChan s k f).badsw = s.badsw := rfl
@[simp] theorem modChan_recov (s : State) (k : Nat) (f : Chan → Chan) : (modChan s k f).recov = s.recov := rfl
@[simp] theorem modChan_trained (s : State) (k : Nat) (f : Chan → Chan) : (modChan s k f).trained = s.trained := rfl
@[simp] theorem modChan_meas (s : State) (k : Nat) (f : Chan → Chan) : (modChan s k f).meas = s.meas := rfl
@[simp] theorem modChan_updating (s : State) (k : Nat) (f : Chan → Chan) : (modChan s k f).updating = s.updating := rfl
@[simp] theorem modChan_attDone (s : State) (k : Nat) (f : Chan → Chan) : (modChan s k f).attDone = s.attDone := rfl
@[simp] theorem modChan_attWait (s : State) (k : Nat) (f : Chan → Chan) : (modChan s k f).attWait = s.attWait := rfl
@[simp] theorem modChan_dbg (s : State) (k : Nat) (f : Chan → Chan) : (modChan s k f).dbg = s.dbg := rfl
@[simp] theorem modChan_booted (s : State) (k : Nat) (f : Chan → Chan) : (modChan s k f).booted = s.booted := rfl

/-! ### setHome leaves every other field alone -/

@[simp] theorem setHome_agenda (s : State) (w : Nat) (h : HomeWord) : (setHome s w h).agenda = s.agenda := rfl
@[simp] theorem setHome_turn (s : State) (w : Nat) (h : HomeWord) : (setHome s w h).turn = s.turn := rfl
@[simp] theorem setHome_now (s : State) (w : Nat) (h : HomeWord) : (setHome s w h).now = s.now := rfl
@[simp] theorem setHome_nid (s : State) (w : Nat) (h : HomeWord) : (setHome s w h).nid = s.nid := rfl
@[simp] theorem setHome_fresh (s : State) (w : Nat) (h : HomeWord) : (setHome s w h).fresh = s.fresh := rfl
@[simp] theorem setHome_cur (s : State) (w : Nat) (h : HomeWord) : (setHome s w h).cur = s.cur := rfl
@[simp] theorem setHome_cores (s : State) (w : Nat) (h : HomeWord) : (setHome s w h).cores = s.cores := rfl
@[simp] theorem setHome_pods (s : State) (w : Nat) (h : HomeWord) : (setHome s w h).pods = s.pods := rfl
@[simp] theorem setHome_sets (s : State) (w : Nat) (h : HomeWord) : (setHome s w h).sets = s.sets := rfl
@[simp] theorem setHome_launches (s : State) (w : Nat) (h : HomeWord) : (setHome s w h).launches = s.launches := rfl
@[simp] theorem setHome_savedLinks (s : State) (w : Nat) (h : HomeWord) : (setHome s w h).savedLinks = s.savedLinks := rfl
@[simp] theorem setHome_mem (s : State) (w : Nat) (h : HomeWord) : (setHome s w h).mem = s.mem := rfl
@[simp] theorem setHome_l2Lines (s : State) (w : Nat) (h : HomeWord) : (setHome s w h).l2Lines = s.l2Lines := rfl
@[simp] theorem setHome_net (s : State) (w : Nat) (h : HomeWord) : (setHome s w h).net = s.net := rfl
@[simp] theorem setHome_resps (s : State) (w : Nat) (h : HomeWord) : (setHome s w h).resps = s.resps := rfl
@[simp] theorem setHome_acks (s : State) (w : Nat) (h : HomeWord) : (setHome s w h).acks = s.acks := rfl
@[simp] theorem setHome_recalls (s : State) (w : Nat) (h : HomeWord) : (setHome s w h).recalls = s.recalls := rfl
@[simp] theorem setHome_chans (s : State) (w : Nat) (h : HomeWord) : (setHome s w h).chans = s.chans := rfl
@[simp] theorem setHome_tlbLo (s : State) (w : Nat) (h : HomeWord) : (setHome s w h).tlbLo = s.tlbLo := rfl
@[simp] theorem setHome_tlbUp (s : State) (w : Nat) (h : HomeWord) : (setHome s w h).tlbUp = s.tlbUp := rfl
@[simp] theorem setHome_walks (s : State) (w : Nat) (h : HomeWord) : (setHome s w h).walks = s.walks := rfl
@[simp] theorem setHome_invals (s : State) (w : Nat) (h : HomeWord) : (setHome s w h).invals = s.invals := rfl
@[simp] theorem setHome_migration (s : State) (w : Nat) (h : HomeWord) : (setHome s w h).migration = s.migration := rfl
@[simp] theorem setHome_einja (s : State) (w : Nat) (h : HomeWord) : (setHome s w h).einja = s.einja := rfl
@[simp] theorem setHome_einjc (s : State) (w : Nat) (h : HomeWord) : (setHome s w h).einjc = s.einjc := rfl
@[simp] theorem setHome_fns (s : State) (w : Nat) (h : HomeWord) : (setHome s w h).fns = s.fns := rfl
@[simp] theorem setHome_numVfs (s : State) (w : Nat) (h : HomeWord) : (setHome s w h).numVfs = s.numVfs := rfl
@[simp] theorem setHome_windows (s : State) (w : Nat) (h : HomeWord) : (setHome s w h).windows = s.windows := rfl
@[simp] theorem setHome_cmap (s : State) (w : Nat) (h : HomeWord) : (setHome s w h).cmap = s.cmap := rfl
@[simp] theorem setHome_smap (s : State) (w : Nat) (h : HomeWord) : (setHome s w h).smap = s.smap := rfl
@[simp] theorem setHome_defA (s : State) (w : Nat) (h : HomeWord) : (setHome s w h).defA = s.defA := rfl
@[simp] theorem setHome_defB (s : State) (w : Nat) (h : HomeWord) : (setHome s w h).defB = s.defB := rfl
@[simp] theorem setHome_defSwap (s : State) (w : Nat) (h : HomeWord) : (setHome s w h).defSwap = s.defSwap := rfl
@[simp] theorem setHome_rosc (s : State) (w : Nat) (h : HomeWord) : (setHome s w h).rosc = s.rosc := rfl
@[simp] theorem setHome_roscAt (s : State) (w : Nat) (h : HomeWord) : (setHome s w h).roscAt = s.roscAt := rfl
@[simp] theorem setHome_devid (s : State) (w : Nat) (h : HomeWord) : (setHome s w h).devid = s.devid := rfl
@[simp] theorem setHome_linkEn (s : State) (w : Nat) (h : HomeWord) : (setHome s w h).linkEn = s.linkEn := rfl
@[simp] theorem setHome_froute (s : State) (w : Nat) (h : HomeWord) : (setHome s w h).froute = s.froute := rfl
@[simp] theorem setHome_links (s : State) (w : Nat) (h : HomeWord) : (setHome s w h).links = s.links := rfl
@[simp] theorem setHome_impWins (s : State) (w : Nat) (h : HomeWord) : (setHome s w h).impWins = s.impWins := rfl
@[simp] theorem setHome_lost (s : State) (w : Nat) (h : HomeWord) : (setHome s w h).lost = s.lost := rfl
@[simp] theorem setHome_lostFns (s : State) (w : Nat) (h : HomeWord) : (setHome s w h).lostFns = s.lostFns := rfl
@[simp] theorem setHome_rreqs (s : State) (w : Nat) (h : HomeWord) : (setHome s w h).rreqs = s.rreqs := rfl
@[simp] theorem setHome_rin (s : State) (w : Nat) (h : HomeWord) : (setHome s w h).rin = s.rin := rfl
@[simp] theorem setHome_fout (s : State) (w : Nat) (h : HomeWord) : (setHome s w h).fout = s.fout := rfl
@[simp] theorem setHome_hout (s : State) (w : Nat) (h : HomeWord) : (setHome s w h).hout = s.hout := rfl
@[simp] theorem setHome_keys (s : State) (w : Nat) (h : HomeWord) : (setHome s w h).keys = s.keys := rfl
@[simp] theorem setHome_keyctl (s : State) (w : Nat) (h : HomeWord) : (setHome s w h).keyctl = s.keyctl := rfl
@[simp] theorem setHome_keydat (s : State) (w : Nat) (h : HomeWord) : (setHome s w h).keydat = s.keydat := rfl
@[simp] theorem setHome_full (s : State) (w : Nat) (h : HomeWord) : (setHome s w h).full = s.full := rfl
@[simp] theorem setHome_badsw (s : State) (w : Nat) (h : HomeWord) : (setHome s w h).badsw = s.badsw := rfl
@[simp] theorem setHome_recov (s : State) (w : Nat) (h : HomeWord) : (setHome s w h).recov = s.recov := rfl
@[simp] theorem setHome_trained (s : State) (w : Nat) (h : HomeWord) : (setHome s w h).trained = s.trained := rfl
@[simp] theorem setHome_meas (s : State) (w : Nat) (h : HomeWord) : (setHome s w h).meas = s.meas := rfl
@[simp] theorem setHome_updating (s : State) (w : Nat) (h : HomeWord) : (setHome s w h).updating = s.updating := rfl
@[simp] theorem setHome_attDone (s : State) (w : Nat) (h : HomeWord) : (setHome s w h).attDone = s.attDone := rfl
@[simp] theorem setHome_attWait (s : State) (w : Nat) (h : HomeWord) : (setHome s w h).attWait = s.attWait := rfl
@[simp] theorem setHome_dbg (s : State) (w : Nat) (h : HomeWord) : (setHome s w h).dbg = s.dbg := rfl
@[simp] theorem setHome_booted (s : State) (w : Nat) (h : HomeWord) : (setHome s w h).booted = s.booted := rfl

/-! ### Reading a part after writing one -/

@[simp] theorem coreAt_setCore (s : State) (c d : Nat) (x : Core) :
    coreAt (setCore s c x) d = if d = c then x else coreAt s d := by simp [coreAt, setCore]
@[simp] theorem coreAt_modCore (s : State) (c d : Nat) (f : Core → Core) :
    coreAt (modCore s c f) d = if d = c then f (coreAt s c) else coreAt s d := by simp [modCore]
@[simp] theorem podAt_modPod (s : State) (p q : Nat) (f : Pod → Pod) :
    podAt (modPod s p f) q = if q = p then f (podAt s p) else podAt s q := by simp [podAt, modPod]
@[simp] theorem fnAt_modFn (s : State) (n m : Nat) (f : Fn → Fn) :
    fnAt (modFn s n f) m = if m = n then f (fnAt s n) else fnAt s m := by simp [fnAt, modFn]
@[simp] theorem chanAt_modChan (s : State) (k j : Nat) (f : Chan → Chan) :
    chanAt (modChan s k f) j = if j = k then f (chanAt s k) else chanAt s j := by simp [chanAt, modChan]
@[simp] theorem homeAt_setHome (s : State) (w v : Nat) (h : HomeWord) :
    homeAt (setHome s w h) v = if v = w then h else homeAt s v := by simp [homeAt, setHome]

/-- A core's groups after one slot is written. -/
@[simp] theorem groupAt_setGroup (s : State) (c n d m : Nat) (g : Group) :
    groupAt (setGroup s c n g) d m = if d = c ∧ m = n then some g else groupAt s d m := by
  by_cases h : d = c
  · subst h; by_cases h2 : m = n <;> simp [groupAt, setGroup, h2]
  · simp [groupAt, setGroup, h]

/-- Writing a slot leaves the rest of the core alone. -/
theorem coreAt_setGroup (s : State) (c n d : Nat) (g : Group) :
    coreAt (setGroup s c n g) d = if d = c then { coreAt s c with groups := tset (coreAt s c).groups n g } else coreAt s d := by
  simp [setGroup]

theorem modGroup_of (s : State) (c n : Nat) (f : Group → Group) (g : Group) (h : groupAt s c n = some g) :
    modGroup s c n f = setGroup s c n (f g) := by simp [modGroup, h]

@[simp] theorem groupAt_modGroup (s : State) (c n d m : Nat) (f : Group → Group) :
    groupAt (modGroup s c n f) d m = if d = c ∧ m = n then (groupAt s c n).map f else groupAt s d m := by
  unfold modGroup
  cases h : groupAt s c n with
  | some g => simp
  | none => by_cases h2 : d = c ∧ m = n
            · obtain ⟨rfl, rfl⟩ := h2; simp [h]
            · simp [h2]

end Sys2Proof.Machine
end

