-- ==== Sys2Proof/Laws/Issue.lean ====
section
/-! SUPPORT. Laws/Issue.lean: what the operations that every issuing instruction shares can do: registers and predicates
written, registers taken and freed, retiring, and the whole course of an instruction that only works on registers. -/
namespace Sys2Proof.Machine

/-! ### Apart -/

theorem Apart.refl (s : State) (k : Cur) : Apart s s k := ⟨rfl, fun _ => rfl, fun _ _ => rfl, rfl, fun _ _ => rfl⟩

theorem Apart.trans {s t u : State} {k : Cur} (h : Apart s t k) (h' : Apart t u k) : Apart s u k where
  outside := by rw [← h.outside, ← h'.outside]
  memory a := (h'.memory a).trans (h.memory a)
  cores c hc := (h'.cores c hc).trans (h.cores c hc)
  core := by rw [← h.core, ← h'.core]
  groups n hn := (h'.groups n hn).trans (h.groups n hn)

/-- Which lanes of the set are meant does not matter to what lies outside it. -/
theorem Apart.lanes {s t : State} {k : Cur} {m : Mask} (h : Apart s t { k with lanes := m }) : Apart s t k :=
  ⟨h.outside, h.memory, h.cores, h.core, h.groups⟩

/-- Changing the groups and the quarters of the issuing core. -/
theorem apart_modCore (s : State) (k : Cur) (f : Core → Core)
    (h : { f (coreAt s k.core) with groups := (coreAt s k.core).groups, quarters := (coreAt s k.core).quarters } = coreAt s k.core)
    (hg : ∀ n, n ≠ k.slot → (tget? (f (coreAt s k.core)).groups n).map (fun h => { h with sb := [], sb2 := [], lvq := [] })
      = (tget? (coreAt s k.core).groups n).map fun h => { h with sb := [], sb2 := [], lvq := [] }) :
    Apart s (modCore s k.core f) k where
  outside := rfl
  memory _ := rfl
  cores c hc := by simp [hc]
  core := by simpa using h
  groups n hn := by simpa [groupAt] using hg n hn

theorem apart_setGroup (s : State) (k : Cur) (g : Group) : Apart s (setGroup s k.core k.slot g) k := by
  apply apart_modCore
  · rfl
  · intro n hn; simp [hn]

theorem apart_modGroup (s : State) (k : Cur) (f : Group → Group) : Apart s (modGroup s k.core k.slot f) k := by
  unfold modGroup; split
  · exact apart_setGroup ..
  · exact .refl ..

/-! ### Retiring (R45, R52, R55) -/

theorem vreg?_freeReg (g : Group) (m n : Nat) : vreg? (freeReg g m) n = if n = m then none else vreg? g n := by
  simp [vreg?, freeReg]

theorem freeRegs_spec (g : Group) (ns : List Nat) :
    (∀ n, vreg? (freeRegs g ns) n = if n ∈ ns then none else vreg? g n) ∧ { freeRegs g ns with regs := g.regs } = g := by
  unfold freeRegs
  induction ns generalizing g with
  | nil => simp
  | cons a r ih =>
    obtain ⟨h1, h2⟩ := ih (freeReg g a)
    refine ⟨fun n => ?_, ?_⟩
    · rw [List.foldl_cons, h1, vreg?_freeReg]
      by_cases hn : n ∈ r
      · simp [hn]
      · by_cases ha : n = a <;> simp [hn, ha]
    · rw [List.foldl_cons]
      have : ({ List.foldl freeReg (freeReg g a) r with regs := g.regs } : Group)
          = { ({ List.foldl freeReg (freeReg g a) r with regs := (freeReg g a).regs } : Group) with regs := g.regs } := rfl
      rw [this, h2]; rfl

theorem holdDue_congr {g h : Group} (ht : h.threads = g.threads) (hj : h.jms = g.jms) (n : Nat) : holdDue h n = holdDue g n := by
  simp only [holdDue, heldAny, heldOn, jmaskAt, threadAt, ht, hj]

/-- Releasing meets changes rejoin masks and JLOST alone: those that are due, all of them at once (R55). -/
theorem releaseMeets_spec (g : Group) :
    { releaseMeets g with jms := g.jms, jlost := g.jlost } = g
      ∧ (∀ n, n < 8 → jmaskAt (releaseMeets g) n = if holdDue g n then {} else jmaskAt g n)
      ∧ (releaseMeets g).jlost = g.jlost + BitVec.ofNat 32 ((List.range 8).filter fun n =>
          holdDue g n && (jmaskAt g n).e != (jmaskAt g n).a).length := by
  have key : ∀ (ds : List Nat) (h : Group), { h with jms := g.jms, jlost := g.jlost } = g →
      let r := ds.foldl (fun h n =>
        let j := jmaskAt g n
        { h with jms := tset h.jms n {}, jlost := if j.e = j.a then h.jlost else h.jlost + 1 }) h
      { r with jms := g.jms, jlost := g.jlost } = g
        ∧ (∀ n, jmaskAt r n = if n ∈ ds then {} else jmaskAt h n)
        ∧ r.jlost = h.jlost + BitVec.ofNat 32 (ds.filter fun n => (jmaskAt g n).e != (jmaskAt g n).a).length := by
    intro ds
    induction ds with
    | nil => intro h hh; exact ⟨hh, fun n => by simp, by simp⟩
    | cons a r ih =>
      intro h hh
      simp only [List.foldl_cons]
      obtain ⟨h1, h2, h3⟩ := ih { h with jms := tset h.jms a {},
                                         jlost := if (jmaskAt g a).e = (jmaskAt g a).a then h.jlost else h.jlost + 1 } hh
      refine ⟨h1, fun n => ?_, ?_⟩
      · rw [h2 n]
        by_cases hn : n ∈ r
        · simp [hn]
        · by_cases ha : n = a <;> simp [hn, ha, jmaskAt]
      · rw [h3]
        by_cases he : (jmaskAt g a).e = (jmaskAt g a).a
        · simp [he]
        · simp only [he, if_false, List.filter_cons, bne_iff_ne, ne_eq, not_false_eq_true, if_true, List.length_cons]
          rw [Nat.add_comm _ 1, BitVec.ofNat_add, BitVec.add_assoc]; rfl
  obtain ⟨h1, h2, h3⟩ := key ((List.range 8).filter (holdDue g)) g rfl
  refine ⟨h1, fun n hn => ?_, ?_⟩
  · refine (h2 n).trans ?_
    simp only [List.mem_filter, List.mem_range, hn, true_and]
  · refine h3.trans ?_
    rw [List.filter_filter]
    refine congrArg (fun l : List Nat => g.jlost + BitVec.ofNat 32 l.length) (List.filter_congr fun n _ => ?_)
    exact Bool.and_comm ..

theorem pointSlot_spec (g : Group) (n : Option (Fin 8)) (op : Nat) :
    { pointSlot g n op with sb := g.sb, sb2 := g.sb2 } = g := by
  cases n <;> rfl

/-- A group whose scoreboard slots are cleared as work completes (R42, R231). -/
def clearedGroup (x : Core) (g : Group) : Group :=
  if g.sb = g.sb2 then { g with sb := g.sb.filter fun e => opBusy x e.2, sb2 := g.sb2.filter fun e => opBusy x e.2,
                                lvq := g.lvq.filter (opBusy x) }
  else g

theorem tget?_clearSlots (x : Core) (n : Nat) :
    tget? (clearSlots x).groups n = (tget? x.groups n).map (clearedGroup x) :=
  tget?_map x.groups (fun _ g => clearedGroup x g) n

/-- Clearing changes the scoreboard slots and the load-value queue alone. -/
theorem clearedGroup_spec (x : Core) (g : Group) :
    ∃ b b2 q, clearedGroup x g = { g with sb := b, sb2 := b2, lvq := q } := by
  unfold clearedGroup
  split
  · exact ⟨_, _, _, rfl⟩
  · exact ⟨g.sb, g.sb2, g.lvq, rfl⟩

theorem apart_clearSlots (s : State) (k : Cur) : Apart s (modCore s k.core clearSlots) k := by
  apply apart_modCore
  · rfl
  · intro n _
    rw [tget?_clearSlots]
    cases tget? (coreAt s k.core).groups n with
    | none => rfl
    | some g =>
      obtain ⟨b, b2, q, h⟩ := clearedGroup_spec (coreAt s k.core) g
      simp only [Option.map_some, h]

theorem freeQuarter_group (s : State) (c n m : Nat) :
    groupAt (freeQuarter s c n) c m = if m = n then (groupAt s c n).map fun g => { g with since := s.now } else groupAt s c m := by
  unfold freeQuarter
  simp only [groupAt, coreAt_modCore, if_true]
  cases h : tget? (coreAt s c).groups n with
  | some g =>
    simp only [tget?_tset, Option.map_some]
  | none =>
    by_cases hm : m = n
    · subst hm; simp [h]
    · simp [hm]

theorem apart_freeQuarter (s : State) (k : Cur) : Apart s (freeQuarter s k.core k.slot) k := by
  unfold freeQuarter
  apply apart_modCore
  · split <;> rfl
  · intro n hn
    dsimp only
    cases h : tget? (coreAt s k.core).groups k.slot with
    | some g => simp [hn]
    | none => rfl

/-- The group that retiring leaves, before scoreboard slots are cleared (R45, R52, R55, R58). -/
def retiredGroup (k : Cur) (c : Ctl) (n : Parts) (act rest : Mask) (p : Park) (target : Nat → DWord) (leave : Bool)
    (g : Group) : Group :=
  let h := mapThreads g (retireThread k n g act rest p target leave)
  releaseMeets (pointSlot (if rest = 0 && !laterSet g k act rest then freeRegs h n.frees else h) c.sb k.op)

theorem retiredGroup_spec (k : Cur) (c : Ctl) (n : Parts) (act rest : Mask) (p : Park) (target : Nat → DWord)
    (leave : Bool) (g : Group) :
    Moved g (retiredGroup k c n act rest p target leave g) (afterIssue n (laterAt k g act rest) act rest p target leave)
      ∧ (∀ m, vreg? (retiredGroup k c n act rest p target leave g) m
          = if (rest = 0 && !laterSet g k act rest) = true ∧ m ∈ n.frees then none else vreg? g m)
      ∧ (retiredGroup k c n act rest p target leave g).sregs = g.sregs
      ∧ (retiredGroup k c n act rest p target leave g).preds = g.preds
      ∧ (retiredGroup k c n act rest p target leave g).fflags = g.fflags := by
  unfold retiredGroup
  simp only
  have hth : ∀ l, l < 64 → threadAt (mapThreads g (retireThread k n g act rest p target leave)) l
      = afterIssue n (laterAt k g act rest) act rest p target leave l (threadAt g l) := fun l hl => by
    rw [threadAt_mapThreads, if_pos hl]; rfl
  have hbase : { mapThreads g (retireThread k n g act rest p target leave) with threads := g.threads } = g := rfl
  generalize mapThreads g (retireThread k n g act rest p target leave) = gt at hth hbase ⊢
  have hf : { (if (rest = 0 && !laterSet g k act rest) = true then freeRegs gt n.frees else gt) with regs := gt.regs } = gt := by
    split
    · exact (freeRegs_spec gt n.frees).2
    · rfl
  have hv : ∀ m, vreg? (if (rest = 0 && !laterSet g k act rest) = true then freeRegs gt n.frees else gt) m
      = if (rest = 0 && !laterSet g k act rest) = true ∧ m ∈ n.frees then none else vreg? g m := fun m => by
    have e : vreg? gt m = vreg? g m := (congrArg (fun x : Group => vreg? x m) hbase :)
    by_cases hc : (rest = 0 && !laterSet g k act rest) = true
    · rw [if_pos hc, (freeRegs_spec gt n.frees).1, e]
      simp only [hc, true_and]
    · rw [if_neg hc, if_neg fun h => hc h.1, e]
  generalize (if (rest = 0 && !laterSet g k act rest) = true then freeRegs gt n.frees else gt) = gm at hf hv ⊢
  have hsr : gm.sregs = g.sregs := (congrArg Group.sregs hf :).trans (congrArg Group.sregs hbase :)
  have hpr : gm.preds = g.preds := (congrArg Group.preds hf :).trans (congrArg Group.preds hbase :)
  have hfl : gm.fflags = g.fflags := (congrArg Group.fflags hf :).trans (congrArg Group.fflags hbase :)
  have hfx : gm.fixed = g.fixed := (congrArg Group.fixed hf :).trans (congrArg Group.fixed hbase :)
  have ej : gm.jms = g.jms := (congrArg Group.jms hf :).trans (congrArg Group.jms hbase :)
  have el : gm.jlost = g.jlost := (congrArg Group.jlost hf :).trans (congrArg Group.jlost hbase :)
  have hgt : ∀ l, threadAt gm l = threadAt gt l := fun l => (congrArg (fun x : Group => threadAt x l) hf :)
  obtain ⟨e1, e3, e4⟩ := releaseMeets_spec (pointSlot gm c.sb k.op)
  have e2 := pointSlot_spec gm c.sb k.op
  have f1 : ∀ {β : Type} (f : Group → β) (_ : ∀ (x y : Group), f { x with jms := y.jms, jlost := y.jlost } = f x)
      (_ : ∀ (x y : Group), f { x with sb := y.sb, sb2 := y.sb2 } = f x),
      f (releaseMeets (pointSlot gm c.sb k.op)) = f gm := by
    intro β f h1 h2
    have a := congrArg f e1
    rw [h1] at a
    have b := congrArg f e2
    rw [h2] at b
    exact a.trans b
  have et : (releaseMeets (pointSlot gm c.sb k.op)).threads = gm.threads := f1 Group.threads (fun _ _ => rfl) (fun _ _ => rfl)
  have ep : (pointSlot gm c.sb k.op).jms = gm.jms := (congrArg Group.jms e2 :)
  have eq : (pointSlot gm c.sb k.op).threads = gm.threads := (congrArg Group.threads e2 :)
  have eu : (pointSlot gm c.sb k.op).jlost = gm.jlost := (congrArg Group.jlost e2 :)
  have ed : ∀ n, holdDue (pointSlot gm c.sb k.op) n
      = holdDue { g with threads := (releaseMeets (pointSlot gm c.sb k.op)).threads } n := fun n => by
    refine holdDue_congr ?_ ?_ n
    · rw [eq]; exact et.symm
    · rw [ep, ej]
  have em : ∀ n, jmaskAt (pointSlot gm c.sb k.op) n = jmaskAt g n := fun n => by unfold jmaskAt; rw [ep, ej]
  refine ⟨⟨fun l hl => ?_, ?_, fun n hn => ?_, ?_⟩, fun m => ?_, ?_, ?_, ?_⟩
  · rw [f1 (fun g => threadAt g l) (fun _ _ => rfl) (fun _ _ => rfl), hgt, hth l hl]
  · rw [f1 Group.fixed (fun _ _ => rfl) (fun _ _ => rfl)]; exact hfx
  · rw [e3 n hn, ed n, em n]
  · rw [e4, eu, el]
    simp only [ed, em]
  · rw [f1 (fun g => vreg? g m) (fun _ _ => rfl) (fun _ _ => rfl), hv m]
  · rw [f1 Group.sregs (fun _ _ => rfl) (fun _ _ => rfl)]; exact hsr
  · rw [f1 Group.preds (fun _ _ => rfl) (fun _ _ => rfl)]; exact hpr
  · rw [f1 Group.fflags (fun _ _ => rfl) (fun _ _ => rfl)]; exact hfl

/-- What retiring an instruction does to the group it leaves behind (R45, R52). -/
theorem retireWith_spec (s : State) (k : Cur) (c : Ctl) (n : Parts) (act rest : Mask) (p : Park)
    (target : Nat → DWord) (leave : Bool) (g : Group) (h : groupAt s k.core k.slot = some g) :
    ∃ g', groupAt (retireWith s k c n act rest p target leave) k.core k.slot = some g'
      ∧ Apart s (retireWith s k c n act rest p target leave) k
      ∧ Moved g g' (afterIssue n (laterAt k g act rest) act rest p target leave)
      ∧ (∀ m, vreg? g' m = if (rest = 0 && !laterSet g k act rest) = true ∧ m ∈ n.frees then none else vreg? g m)
      ∧ g'.sregs = g.sregs ∧ g'.preds = g.preds ∧ g'.fflags = g.fflags := by
  obtain ⟨hm, hr, hs, hp, hl⟩ := retiredGroup_spec k c n act rest p target leave g
  have e : retireWith s k c n act rest p target leave =
      (let s := setGroup s k.core k.slot (retiredGroup k c n act rest p target leave g)
       let s := modCore s k.core clearSlots
       if leave then freeQuarter s k.core k.slot
       else modCore s k.core fun x => { x with quarters := match tget? x.quarters (k.slot / 32) with
         | some q => if q.1 = k.slot then tset x.quarters (k.slot / 32) (k.slot, act) else x.quarters
         | none => x.quarters }) := by
    unfold retireWith
    rw [modGroup_of s k.core k.slot _ g h]
    rfl
  rw [e]
  simp only
  generalize retiredGroup k c n act rest p target leave g = gr at hm hr hs hp hl ⊢
  have a1 := apart_setGroup s k gr
  have a2 := apart_clearSlots (setGroup s k.core k.slot gr) k
  have g2 : ∃ b b2 q, groupAt (modCore (setGroup s k.core k.slot gr) k.core clearSlots) k.core k.slot
      = some { gr with sb := b, sb2 := b2, lvq := q } := by
    have hg : tget? (coreAt (setGroup s k.core k.slot gr) k.core).groups k.slot = some gr := by
      have := groupAt_setGroup s k.core k.slot k.core k.slot gr
      simpa [groupAt] using this
    obtain ⟨b, b2, q, hc⟩ := clearedGroup_spec (coreAt (setGroup s k.core k.slot gr) k.core) gr
    refine ⟨b, b2, q, ?_⟩
    rw [← hc]
    simp only [groupAt, coreAt_modCore, if_true, tget?_clearSlots, hg, Option.map_some]
  obtain ⟨b, b2, q, g2⟩ := g2
  generalize modCore (setGroup s k.core k.slot gr) k.core clearSlots = s2 at a2 g2 ⊢
  split
  · refine ⟨{ gr with sb := b, sb2 := b2, lvq := q, since := s2.now }, ?_, (a1.trans a2).trans (apart_freeQuarter s2 k), ?_, hr, hs, hp, hl⟩
    · rw [freeQuarter_group, if_pos rfl, g2]; rfl
    · exact ⟨hm.threads, hm.others, hm.meets, hm.lost⟩
  · refine ⟨{ gr with sb := b, sb2 := b2, lvq := q }, ?_, (a1.trans a2).trans (apart_modCore s2 k _ rfl fun _ _ => rfl), ?_, hr, hs, hp, hl⟩
    · simp only [groupAt, coreAt_modCore, if_true]; exact g2
    · exact ⟨hm.threads, hm.others, hm.meets, hm.lost⟩

/-! ### Taking registers (R44) -/

/-- Taking registers maps the names listed to new registers and changes nothing else but the number supply. -/
theorem allocRegs_spec (s : State) (g : Group) (ns : List Nat) :
    (allocRegs s g ns).1 = { s with nid := (allocRegs s g ns).1.nid }
      ∧ { (allocRegs s g ns).2 with regs := g.regs } = g
      ∧ (∀ n r, vreg? g n = some r → vreg? (allocRegs s g ns).2 n = some r)
      ∧ (∀ n, n ∉ ns → vreg? (allocRegs s g ns).2 n = vreg? g n)
      ∧ (∀ n, n ∈ ns → (vreg? g n).isSome = true ∨ ∃ i, vreg? (allocRegs s g ns).2 n = some (freshReg i)) := by
  induction ns generalizing s g with
  | nil => exact ⟨rfl, rfl, fun _ _ h => h, fun _ _ => rfl, fun _ h => by cases h⟩
  | cons a r ih =>
    unfold allocRegs
    cases ha : vreg? g a with
    | some v =>
      obtain ⟨h1, h2, h3, h4, h5⟩ := ih s g
      refine ⟨h1, h2, h3, fun n hn => h4 n fun h => hn (List.mem_cons_of_mem _ h), fun n hn => ?_⟩
      rcases List.mem_cons.1 hn with rfl | h
      · exact .inl (by rw [ha]; rfl)
      · exact h5 n h
    | none =>
      obtain ⟨h1, h2, h3, h4, h5⟩ := ih { s with nid := s.nid + 1 } { g with regs := tset g.regs a (freshReg s.nid) }
      have e : ∀ n, vreg? ({ g with regs := tset g.regs a (freshReg s.nid) } : Group) n
          = if n = a then some (freshReg s.nid) else vreg? g n := fun n => by simp [vreg?]
      refine ⟨?_, ?_, fun n w hw => ?_, fun n hn => ?_, fun n hn => ?_⟩
      · exact h1.trans rfl
      · exact (congrArg (fun x : Group => ({ x with regs := g.regs } : Group)) h2 :)
      · apply h3
        rw [e]
        have : n ≠ a := by rintro rfl; rw [ha] at hw; cases hw
        rw [if_neg this]; exact hw
      · rw [h4 n fun h => hn (List.mem_cons_of_mem _ h), e, if_neg]
        rintro rfl; exact hn (List.mem_cons_self ..)
      · by_cases hna : n = a
        · exact .inr ⟨s.nid, h3 n _ (by rw [e, if_pos hna])⟩
        · rcases List.mem_cons.1 hn with rfl | h
          · exact absurd rfl hna
          · rcases h5 n h with h | h
            · rw [e, if_neg hna] at h; exact .inl h
            · exact .inr h

theorem laneOf_alloc (s : State) (g : Group) (ns : List Nat) (n l : Nat) (hl : l < 64) :
    laneOf (allocRegs s g ns).2 n l = laneOf g n l := by
  obtain ⟨_, _, h3, h4, h5⟩ := allocRegs_spec s g ns
  unfold laneOf
  cases hg : vreg? g n with
  | some r => rw [h3 n r hg]
  | none =>
    by_cases hn : n ∈ ns
    · rcases h5 n hn with h | ⟨i, h⟩
      · rw [hg] at h; cases h
      · rw [h]; simp only [freshReg, getD_lanes64, hl, if_true, BitVec.getLsbD_allOnes, decide_true]
        exact congrArg (fun b => ((0 : Word), true, b)) BitVec.getLsbD_zero
    · rw [h4 n hn, hg]

/-! ### Writing lanes -/

theorem writeLanes_lane (r : VReg) (m : Mask) (f : Nat → Word) (p : Nat → Bool) (l : Nat) (hl : l < 64) :
    ((writeLanes r m f p).val.getD l 0, (writeLanes r m f p).full.getLsbD l, (writeLanes r m f p).pois.getLsbD l)
      = if m.getLsbD l then (f l, true, p l) else (r.val.getD l 0, r.full.getLsbD l, r.pois.getLsbD l) := by
  simp only [writeLanes, getD_lanes64, hl, if_true, BitVec.getLsbD_or, BitVec.getLsbD_and, BitVec.getLsbD_not,
    getLsbD_maskOf, decide_true, Bool.true_and]
  cases m.getLsbD l <;> simp

theorem writeLane_lane (r : VReg) (j : Nat) (w : Word) (p : Bool) (l : Nat) (hl : l < 64) :
    ((writeLane r j w p).val.getD l 0, (writeLane r j w p).full.getLsbD l, (writeLane r j w p).pois.getLsbD l)
      = if l = j then (w, true, p) else (r.val.getD l 0, r.full.getLsbD l, r.pois.getLsbD l) := by
  have hb := getLsbD_laneBit j l hl
  by_cases h : l = j
  · have hb : (laneBit j).getLsbD l = true := by rw [hb]; exact decide_eq_true h
    cases p <;> simp only [writeLane, getD_lanes64, hl, if_true, BitVec.getLsbD_or, BitVec.getLsbD_and, BitVec.getLsbD_not,
      hb, Bool.or_true, Bool.not_true, Bool.and_false, Bool.false_eq_true, if_false] <;> simp only [h, if_true]
  · have hb : (laneBit j).getLsbD l = false := by rw [hb]; exact decide_eq_false h
    cases p <;> simp only [writeLane, getD_lanes64, hl, if_true, BitVec.getLsbD_or, BitVec.getLsbD_and, BitVec.getLsbD_not,
      hb, h, decide_true, Bool.or_false, Bool.not_false, Bool.and_true, Bool.false_eq_true, if_false]

theorem vreg?_modReg (g : Group) (m n : Nat) (f : VReg → VReg) :
    vreg? (modReg g m f) n = if n = m then (vreg? g m).map f else vreg? g n := by
  unfold modReg
  cases h : vreg? g m with
  | some r => simp [vreg?]
  | none =>
    by_cases hn : n = m
    · subst hn; simp [h]
    · simp [hn]

theorem modReg_fixed (g : Group) (m : Nat) (f : VReg → VReg) : { modReg g m f with regs := g.regs } = g := by
  unfold modReg; split <;> rfl

/-! ### Writing a destination (R43, R274) -/

/-- Two groups that resolve operands alike (R61). -/
def SameTables (g h : Group) : Prop := ∀ l o, resolve h l o = resolve g l o

theorem sameTables_of (g h : Group) (ht : h.threads = g.threads) (hp : h.ptabs = g.ptabs) : SameTables g h := by
  intro l o
  cases o <;> simp only [resolve, ptabAt, threadAt, ht, hp]

theorem vreg?_isSome_modReg (g : Group) (m n : Nat) (f : VReg → VReg) :
    (vreg? (modReg g m f) n).isSome = (vreg? g n).isSome := by
  rw [vreg?_modReg]
  by_cases h : n = m
  · subst h; simp
  · simp [h]

/-- One lane after another of an m operand is written. -/
theorem foldWrite_spec (o : Opd) (f : Nat → Word × Bool) (g0 : Group) (ls : List Nat) (g : Group) (hg : SameTables g0 g) :
    let h := ls.foldl (fun g l => match resolve g l o with
      | some (.v n) => modReg g n.val fun r => writeLane r l (f l).1 (f l).2
      | _ => g) g
    { h with regs := g.regs } = g
      ∧ (∀ n, (vreg? h n).isSome = (vreg? g n).isSome)
      ∧ ∀ n l, l < 64 → laneOf h n l =
        if l ∈ ls ∧ (∃ m : Fin 128, resolve g0 l o = some (.v m) ∧ n = m.val) ∧ (vreg? g n).isSome = true then ((f l).1, true, (f l).2)
        else laneOf g n l := by
  induction ls generalizing g with
  | nil => exact ⟨rfl, fun _ => rfl, fun n l _ => by simp⟩
  | cons a r ih =>
    simp only [List.foldl_cons]
    cases hr : resolve g0 a o with
    | none =>
      rw [hg a o, hr]
      obtain ⟨h1, h2, h3⟩ := ih g hg
      refine ⟨h1, h2, fun n l hl => ?_⟩
      rw [h3 n l hl]
      by_cases hla : l = a
      · subst hla; rw [if_neg, if_neg]
        · rintro ⟨_, ⟨m, hm, _⟩, _⟩; rw [hr] at hm; cases hm
        · rintro ⟨_, ⟨m, hm, _⟩, _⟩; rw [hr] at hm; cases hm
      · simp [hla]
    | some q =>
      rw [hg a o, hr]
      by_cases hq : ∃ m, q = .v m
      · obtain ⟨m, rfl⟩ := hq
        simp only
        have hg' : SameTables g0 (modReg g m.val fun r => writeLane r a (f a).1 (f a).2) := by
          intro l o
          rw [← hg l o]
          have e := modReg_fixed g m.val fun r => writeLane r a (f a).1 (f a).2
          exact sameTables_of _ _ (congrArg Group.threads e :) (congrArg Group.ptabs e :) l o
        obtain ⟨h1, h2, h3⟩ := ih _ hg'
        refine ⟨?_, fun n => ?_, fun n l hl => ?_⟩
        · have e := modReg_fixed g m.val fun r => writeLane r a (f a).1 (f a).2
          exact (congrArg (fun x : Group => ({ x with regs := g.regs } : Group)) h1 :).trans e
        · rw [h2, vreg?_isSome_modReg]
        · rw [h3 n l hl, vreg?_isSome_modReg]
          by_cases hla : l = a
          · subst hla
            by_cases hn : n = m.val ∧ (vreg? g n).isSome = true
            · obtain ⟨hn, hs⟩ := hn
              rw [if_pos (c := l ∈ l :: r ∧ _) ⟨List.mem_cons_self .., ⟨m, hr, hn⟩, hs⟩]
              by_cases hlr : l ∈ r
              · rw [if_pos ⟨hlr, ⟨m, hr, hn⟩, hs⟩]
              · rw [if_neg fun h => hlr h.1]
                unfold laneOf
                rw [vreg?_modReg, if_pos hn, ← hn]
                cases hv : vreg? g n with
                | none => rw [hv] at hs; cases hs
                | some w =>
                  simp only [Option.map_some]
                  rw [writeLane_lane w l (f l).1 (f l).2 l hl, if_pos rfl]
            · have hneg : ¬ ((∃ m' : Fin 128, resolve g0 l o = some (.v m') ∧ n = m'.val) ∧ (vreg? g n).isSome = true) := by
                rintro ⟨⟨m', hm', hn'⟩, hs⟩
                rw [hr] at hm'; injection hm' with hm'; injection hm' with hm'
                exact hn ⟨by rw [hm']; exact hn', hs⟩
              rw [if_neg fun h => hneg h.2, if_neg fun h => hneg h.2]
              unfold laneOf
              rw [vreg?_modReg]
              by_cases hnm : n = m.val
              · rw [if_pos hnm, ← hnm]
                cases hv : vreg? g n with
                | none => rfl
                | some w => exact absurd ⟨hnm, by rw [hv]; rfl⟩ hn
              · rw [if_neg hnm]
          · have e : laneOf (modReg g m.val fun r => writeLane r a (f a).1 (f a).2) n l = laneOf g n l := by
              unfold laneOf
              rw [vreg?_modReg]
              by_cases hnm : n = m.val
              · rw [if_pos hnm, ← hnm]
                cases hv : vreg? g n with
                | none => rfl
                | some w =>
                  simp only [Option.map_some]
                  rw [writeLane_lane w a (f a).1 (f a).2 l hl, if_neg hla]
              · rw [if_neg hnm]
            rw [e]
            simp [hla]
      · have e : (match some q with
            | some (.v n) => modReg g n.val fun r => writeLane r a (f a).1 (f a).2
            | _ => g) = g := by
          cases q <;> first | rfl | exact absurd ⟨_, rfl⟩ hq
        rw [e]
        obtain ⟨h1, h2, h3⟩ := ih g hg
        refine ⟨h1, h2, fun n l hl => ?_⟩
        rw [h3 n l hl]
        by_cases hla : l = a
        · subst hla; rw [if_neg, if_neg]
          · rintro ⟨_, ⟨m, hm, _⟩, _⟩; rw [hr] at hm; injection hm with hm; exact hq ⟨m, hm⟩
          · rintro ⟨_, ⟨m, hm, _⟩, _⟩; rw [hr] at hm; injection hm with hm; exact hq ⟨m, hm⟩
        · simp [hla]

/-- What writing register i of a destination that is no window register does: lanes of x take the values, an s register
takes one, and nothing else of the machine changes. -/
theorem writeDst_spec (s : State) (k : Cur) (c : Ctl) (x : Mask) (o : Opd) (i : Nat) (f : Nat → Word × Bool) (g : Group)
    (hg : groupAt s k.core k.slot = some g) (hw : ∀ n, o ≠ .w n) (hm : ∀ n, o = .m n → i = 0) :
    ∃ h, groupAt (writeDst s k c x o i f) k.core k.slot = some h
      ∧ Apart s (writeDst s k c x o i f) k
      ∧ { h with regs := g.regs, sregs := g.sregs } = g
      ∧ (∀ n, (vreg? h n).isSome = (vreg? g n).isSome)
      ∧ (∀ n l, l < 64 → laneOf h n l =
          if x.getLsbD l = true ∧ (∃ m : Fin 128, resolve g l o = some (.v m) ∧ n = m.val + i) ∧ (vreg? g n).isSome = true
          then ((f (fromLane c k.lanes l)).1, true, (f (fromLane c k.lanes l)).2) else laneOf g n l)
      ∧ (∀ n, sregAt h n = if x ≠ 0 ∧ (∃ m : Fin 64, o = .s m ∧ n = m.val + i)
          then ⟨(f (fromLane c k.lanes (lowLane k.lanes))).1, true, (f (fromLane c k.lanes (lowLane k.lanes))).2, none⟩
          else sregAt g n) := by
  by_cases hx : x = 0
  · have e : writeDst s k c x o i f = s := by simp only [writeDst, hx, if_true]
    rw [e]
    refine ⟨g, hg, .refl .., rfl, fun _ => rfl, fun n l _ => ?_, fun n => ?_⟩
    · rw [if_neg]; rintro ⟨h, _⟩; rw [hx] at h; simp at h
    · rw [if_neg]; rintro ⟨h, _⟩; exact h hx
  · cases o with
    | v m =>
      have e : writeDst s k c x (.v m) i f = setGroup s k.core k.slot (modReg g (m.val + i) fun r =>
          writeLanes r x (fun l => (f (fromLane c k.lanes l)).1) (fun l => (f (fromLane c k.lanes l)).2)) := by
        simp only [writeDst, hx, if_false]; rw [modGroup_of _ _ _ _ _ hg]; rfl
      rw [e]
      refine ⟨_, by rw [groupAt_setGroup, if_pos ⟨rfl, rfl⟩], apart_setGroup .., ?_, fun n => vreg?_isSome_modReg .., fun n l hl => ?_, fun n => ?_⟩
      · exact (congrArg (fun x : Group => ({ x with sregs := g.sregs } : Group)) (modReg_fixed g (m.val + i) _) :)
      · unfold laneOf
        rw [vreg?_modReg]
        by_cases hn : n = m.val + i
        · rw [if_pos hn, ← hn]
          cases hv : vreg? g n with
          | none => rw [if_neg]; · rfl
                    rintro ⟨_, _, h⟩; cases h
          | some r =>
            simp only [Option.map_some]
            rw [writeLanes_lane _ _ _ _ _ hl]
            by_cases hxl : x.getLsbD l = true
            · rw [if_pos hxl, if_pos ⟨hxl, ⟨m, rfl, hn⟩, rfl⟩]
            · rw [if_neg hxl, if_neg fun h => hxl h.1]
        · rw [if_neg hn, if_neg]
          rintro ⟨_, ⟨m', hm', hn'⟩, _⟩
          injection hm' with hm'; injection hm' with hm'
          exact hn (by rw [hm']; exact hn')
      · rw [if_neg]
        · exact (congrArg (fun x : Group => sregAt x n) (modReg_fixed g (m.val + i) _) :)
        · rintro ⟨_, m', hm', _⟩; cases hm'
    | s m =>
      let v : SReg := ⟨(f (fromLane c k.lanes (lowLane k.lanes))).1, true, (f (fromLane c k.lanes (lowLane k.lanes))).2, none⟩
      have e : writeDst s k c x (.s m) i f = setGroup s k.core k.slot { g with sregs := tset g.sregs (m.val + i) v } := by
        simp only [writeDst, hx, if_false]; rw [modGroup_of _ _ _ _ _ hg]; rfl
      rw [e]
      refine ⟨{ g with sregs := tset g.sregs (m.val + i) v }, by rw [groupAt_setGroup, if_pos ⟨rfl, rfl⟩], apart_setGroup ..,
        rfl, fun n => rfl, fun n l hl => ?_, fun n => ?_⟩
      · rw [if_neg]
        · rfl
        · rintro ⟨_, ⟨m', hm', _⟩, _⟩; injection hm' with hm'; cases hm'
      · simp only [sregAt, tget_tset]
        by_cases hn : n = m.val + i
        · rw [if_pos hn, if_pos ⟨hx, m, rfl, hn⟩]
        · rw [if_neg hn, if_neg]
          rintro ⟨_, m', hm', hn'⟩
          injection hm' with hm'
          exact hn (by rw [hm']; exact hn')
    | m m =>
      have hi : i = 0 := hm m rfl
      subst hi
      have e : writeDst s k c x (.m m) 0 f = setGroup s k.core k.slot ((lanesOf x).foldl (fun g l => match resolve g l (.m m) with
          | some (.v n) => modReg g n.val fun r => writeLane r l (f (fromLane c k.lanes l)).1 (f (fromLane c k.lanes l)).2
          | _ => g) g) := by
        simp only [writeDst, hx, if_false]; rw [modGroup_of _ _ _ _ _ hg]; rfl
      rw [e]
      obtain ⟨h1, h2, h3⟩ := foldWrite_spec (.m m) (fun l => f (fromLane c k.lanes l)) g (lanesOf x) g fun _ _ => rfl
      refine ⟨_, by rw [groupAt_setGroup, if_pos ⟨rfl, rfl⟩], apart_setGroup .., ?_, h2, fun n l hl => ?_, fun n => ?_⟩
      · exact (congrArg (fun x : Group => ({ x with sregs := g.sregs } : Group)) h1 :)
      · rw [h3 n l hl]; simp only [mem_lanesOf, Nat.add_zero]
      · rw [if_neg]
        · exact (congrArg (fun x : Group => sregAt x n) h1 :)
        · rintro ⟨_, m', hm', _⟩; cases hm'
    | w m => exact absurd rfl (hw m)
    | _ =>
      rw [show writeDst s k c x _ i f = s from by simp only [writeDst, hx, if_false]]
      refine ⟨g, hg, .refl .., rfl, fun _ => rfl, fun n l _ => ?_, fun n => ?_⟩
      · rw [if_neg]; rintro ⟨_, ⟨m', hm', _⟩, _⟩; injection hm' with hm'; cases hm'
      · rw [if_neg]; rintro ⟨_, m', hm', _⟩; cases hm'

/-! ### The whole course of an instruction on registers -/

/-- A destination of a form the spec admits that is no window register (R61, R277, R278). -/
structure DstForm (c : Ctl) (d : DstUse) : Prop where
  noWin : ∀ n, d.o ≠ .w n
  single : ∀ n, d.o = .m n → d.n = 1 ∧ c.u = false
  uniform : ∀ n, d.o = .s n → c.u = true

/-- After the registers are taken every name that the destination writes is mapped (R44). -/
theorem alloc_maps (s : State) (g : Group) (c : Ctl) (x : Mask) (d : DstUse) (hd : DstForm c d) (l : Nat) (m : Fin 128)
    (i : Nat) (hx : x.getLsbD l = true) (hr : resolve g l d.o = some (.v m)) (hi : i < d.n) :
    (vreg? (allocRegs s g (newNames g c x [d])).2 (m.val + i)).isSome = true := by
  obtain ⟨_, _, h3, h4, h5⟩ := allocRegs_spec s g (newNames g c x [d])
  have hx0 : x ≠ 0 := by rintro rfl; simp at hx
  cases hv : vreg? g (m.val + i) with
  | some r => rw [h3 _ r hv]; rfl
  | none =>
    have hmem : m.val + i ∈ newNames g c x [d] := by
      unfold newNames
      rw [if_neg hx0, List.mem_filter]
      refine ⟨?_, by rw [hv]; rfl⟩
      rw [List.mem_eraseDups, List.mem_flatMap]
      refine ⟨d, List.mem_singleton.2 rfl, ?_⟩
      cases ho : d.o with
      | v n =>
        rw [ho] at hr; injection hr with hr; injection hr with hr
        simp only
        exact List.mem_map.2 ⟨i, List.mem_range.2 hi, by rw [hr]⟩
      | m n =>
        obtain ⟨h1, h2⟩ := hd.single n ho
        simp only [h2, Bool.false_eq_true, if_false]
        refine List.mem_filterMap.2 ⟨l, (mem_lanesOf x l).2 hx, ?_⟩
        rw [ho] at hr; rw [hr]
        have : i = 0 := by omega
        simp only [this, Nat.add_zero]
      | _ => rw [ho] at hr; injection hr with hr; cases hr
    rcases h5 _ hmem with h | ⟨j, h⟩
    · rw [hv] at h; cases h
    · rw [h]; rfl

/-- What `issueG` does once every check and every park has been passed. -/
theorem issueG_passes (s : State) (k : Cur) (g : Group) (c : Ctl) (twin : Bool) (srcs : List SrcUse) (dsts : List DstUse)
    (consume : List (Nat × SrcUse)) (own eff : Cur → State → Group → Mask → Mask → Own) (wl : Mask → Mask)
    (act rest : Mask) (p : Park) (hi : Issuing s k g)
    (hp : Passes s k g c twin srcs dsts consume act rest p (wl (execLanes g c act)))
    (ho : own k s g act (execLanes g c act) = .ok s) :
    issueG s c twin srcs dsts consume own eff wl = .next (
      let s := taken s k g c (wl (execLanes g c act)) dsts
      match eff k s g act (execLanes g c act) with
      | .trap t => trapFirst k s t
      | .park q => parkSet k s k.lanes q
      | .trapIn t s => trapFirst k s t
      | .parkIn q s => parkSet k s k.lanes q
      | .wait s | .hold s => s
      | .done s => s
      | .ok s => retire s k c srcs dsts act rest p
      | .jump s target => retireTo s k c srcs dsts act rest p target true) := by
  obtain ⟨hc, hgp⟩ := hi
  obtain ⟨hg, a, r, q, hr⟩ := hp
  unfold issueG
  simp only [hc, hgp, hg, ho, hr, Option.getD_some]
  rfl

/-- The instruction reads and writes in the group `h` the lanes and names that it does in `g`. -/
structure SameAt (c : Ctl) (srcs : List SrcUse) (dsts : List DstUse) (g h : Group) : Prop where
  tables : ∀ l, l < 64 → ∀ o, resolve h l o = resolve g l o
  reads : ∀ m u, u ∈ srcs → readLanes h c m u = readLanes g c m u
  writes : ∀ m d, d ∈ dsts → dstLanes h c d m = dstLanes g c d m
  threads : ∀ l, l < 64 → (threadAt h l).parts = (threadAt g l).parts ∧ (threadAt h l).live = (threadAt g l).live
    ∧ (threadAt h l).pc = (threadAt g l).pc

theorem SameAt.refl (c : Ctl) (srcs : List SrcUse) (dsts : List DstUse) (g : Group) : SameAt c srcs dsts g g :=
  ⟨fun _ _ _ => rfl, fun _ _ _ => rfl, fun _ _ _ => rfl, fun _ _ => ⟨rfl, rfl, rfl⟩⟩

theorem execLanes_congr {g h : Group} (hp : h.preds = g.preds) (c : Ctl) (m : Mask) : execLanes h c m = execLanes g c m := by
  have : ∀ l, guardHolds h c l = guardHolds g c l := fun l => by unfold guardHolds predBit; rw [hp]
  unfold execLanes
  simp only [this]

/-- The guard picks the same lanes in a group of the same predicates. -/
theorem SameAt.of_preds {c : Ctl} {srcs : List SrcUse} {dsts : List DstUse} {g h : Group} (hp : h.preds = g.preds)
    (ht : ∀ l, l < 64 → ∀ o, resolve h l o = resolve g l o)
    (hh : ∀ l, l < 64 → (threadAt h l).parts = (threadAt g l).parts ∧ (threadAt h l).live = (threadAt g l).live
      ∧ (threadAt h l).pc = (threadAt g l).pc) : SameAt c srcs dsts g h :=
  ⟨ht, fun m u _ => by unfold readLanes; simp only [execLanes_congr hp], fun m d _ => by unfold dstLanes; rw [execLanes_congr hp], hh⟩

theorem lowLane_lt (m : Mask) : lowLane m < 64 := by
  by_cases h : m = 0
  · rw [h]; decide
  · exact lt_of_getLsbD (lowLane_mem h)

theorem readLanes_lt {g : Group} {c : Ctl} {m : Mask} {u : SrcUse} {l : Nat} (h : l ∈ readLanes g c m u) : l < 64 := by
  unfold readLanes at h
  split at h
  · generalize (if u.xlow = true then execLanes g c m else m) = y at h
    simp only at h
    split at h
    · cases h
    · rw [List.mem_singleton] at h; rw [h]; exact lowLane_lt _
  · exact lt_of_getLsbD ((mem_lanesOf m l).1 h)

section
variable {c : Ctl} {srcs : List SrcUse} {dsts : List DstUse} {g h : Group}

theorem SameAt.names (hs : SameAt c srcs dsts g h) {β : Type} (f : Option Opd → Option β) (o : Opd) (ls : List Nat)
    (hls : ∀ l, l ∈ ls → l < 64) :
    ls.filterMap (fun l => f (resolve h l o)) = ls.filterMap fun l => f (resolve g l o) := by
  induction ls with
  | nil => rfl
  | cons a r ih =>
    simp only [List.filterMap_cons]
    rw [hs.tables a (hls a (List.mem_cons_self ..)) o, ih fun l hl => hls l (List.mem_cons_of_mem _ hl)]

theorem SameAt.pathed (hs : SameAt c srcs dsts g h) (k : Cur) (u : SrcUse) : u.pathed h k c = u.pathed g k c := by
  unfold SrcUse.pathed Machine.pathed
  rw [hs.tables _ (lowLane_lt _)]

/-- A source taken through a path reads the lanes that it read. -/
theorem readLanes_pathed (k : Cur) (m : Mask) (u : SrcUse) : readLanes h c m (u.pathed g k c) = readLanes h c m u := by
  unfold SrcUse.pathed
  split <;> rfl

theorem SameAt.last (hs : SameAt c srcs dsts g h) (k : Cur) (m : Mask) :
    lastNames h k c srcs m = lastNames g k c srcs m := by
  unfold lastNames
  rw [List.map_congr_left fun u _ => hs.pathed k u]
  simp only [List.flatMap_map]
  refine congrArg List.flatten (List.map_congr_left fun u hu => ?_)
  have hr : readLanes h c m (u.pathed g k c) = readLanes g c m (u.pathed g k c) := by
    rw [readLanes_pathed, readLanes_pathed]
    exact hs.reads m u (List.mem_filter.1 hu).1
  rw [hr]
  cases (u.pathed g k c).src.o with
  | m n => exact hs.names (fun r => match r with | some (.v n) => some n.val | _ => none) _ _ fun l hl => readLanes_lt hl
  | _ => rfl

theorem SameAt.kept (hs : SameAt c srcs dsts g h) (m : Mask) : keptNames h c dsts m = keptNames g c dsts m := by
  unfold keptNames
  refine congrArg List.flatten (List.map_congr_left fun d hd => ?_)
  rw [hs.writes m d hd]
  cases d.o with
  | m n => exact hs.names (fun r => match r with | some (.v n) => some n.val | _ => none) (.m n) _ fun l hl =>
      lt_of_getLsbD ((mem_lanesOf _ l).1 hl)
  | _ => rfl

theorem SameAt.now (hs : SameAt c srcs dsts g h) (k : Cur) (act : Mask) :
    partsNow h k c srcs dsts act = partsNow g k c srcs dsts act := by
  have : ∀ ls : List Nat, (∀ l, l ∈ ls → l < 64) →
      ls.findSome? (fun l => (threadAt h l).parts) = ls.findSome? fun l => (threadAt g l).parts := by
    intro ls hls
    induction ls with
    | nil => rfl
    | cons a r ih =>
      simp only [List.findSome?_cons]
      rw [(hs.threads a (hls a (List.mem_cons_self ..))).1, ih fun l hl => hls l (List.mem_cons_of_mem _ hl)]
  unfold partsNow partsOf
  rw [this _ fun l hl => lt_of_getLsbD ((mem_lanesOf _ l).1 hl), hs.last, hs.kept]

theorem SameAt.awaits (hs : SameAt c srcs dsts g h) (k : Cur) (act rest : Mask) (l : Nat) (hl : l < 64) :
    awaitsAt h k act rest l = awaitsAt g k act rest l := by
  obtain ⟨h1, h2, h3⟩ := hs.threads l hl
  simp only [awaitsAt, h1, h2, h3]

theorem SameAt.later (hs : SameAt c srcs dsts g h) (k : Cur) (act rest : Mask) : laterSet h k act rest = laterSet g k act rest := by
  unfold laterSet
  rw [show (List.range 64).any (awaitsAt h k act rest) = (List.range 64).any (awaitsAt g k act rest) from by
    rw [Bool.eq_iff_iff]
    simp only [List.any_eq_true, List.mem_range]
    exact exists_congr fun l => and_congr_right fun hl => by rw [hs.awaits k act rest l hl]]

end

/-- Retiring with the names that the last-read bits free (R45), to an address of each lane, from a group `h` in which the instruction
is retired as in `g`. -/
theorem retireTo_spec (s : State) (k : Cur) (c : Ctl) (srcs : List SrcUse) (dsts : List DstUse) (act rest : Mask) (p : Park)
    (target : Nat → DWord) (leave : Bool) (g h : Group) (hh : groupAt s k.core k.slot = some h)
    (hs : SameAt c srcs dsts g h) :
    ∃ g', groupAt (retireTo s k c srcs dsts act rest p target leave) k.core k.slot = some g'
      ∧ Apart s (retireTo s k c srcs dsts act rest p target leave) k
      ∧ Moved h g' (afterIssue (partsNow g k c srcs dsts act) (laterAt k g act rest) act rest p target leave)
      ∧ (∀ n, n ∉ freed k g c srcs dsts act rest → vreg? g' n = vreg? h n)
      ∧ (∀ n, n ∈ freed k g c srcs dsts act rest → vreg? g' n = none)
      ∧ g'.sregs = h.sregs ∧ g'.preds = h.preds ∧ g'.fflags = h.fflags := by
  unfold retireTo
  rw [hh]
  simp only
  obtain ⟨g', h1, h2, h3, h4, h5⟩ := retireWith_spec s k c (partsNow h k c srcs dsts act) act rest p target leave h hh
  rw [hs.now, hs.later] at h4
  have hmv : Moved h g' (afterIssue (partsNow g k c srcs dsts act) (laterAt k g act rest) act rest p target leave) := by
    refine ⟨fun l hl => ?_, h3.others, h3.meets, h3.lost⟩
    rw [h3.threads l hl, hs.now]
    unfold afterIssue laterAt
    rw [hs.later, hs.awaits k act rest l hl]
  refine ⟨g', h1, h2, hmv, fun n hn => ?_, fun n hn => ?_, h5⟩
  · rw [h4 n, if_neg]
    rintro ⟨a, b⟩
    apply hn
    unfold freed
    rw [if_pos a]; exact b
  · unfold freed at hn
    split at hn
    · next hr => rw [h4 n, if_pos ⟨hr, hn⟩]
    · cases hn

theorem apart_alloc (s : State) (k : Cur) (g : Group) (ns : List Nat) :
    Apart s (setGroup (allocRegs s g ns).1 k.core k.slot (allocRegs s g ns).2) k := by
  refine Apart.trans ?_ (apart_setGroup ..)
  rw [(allocRegs_spec s g ns).1]
  exact ⟨rfl, fun _ => rfl, fun _ _ => rfl, rfl, fun _ _ => rfl⟩

/-- ORing flags into FFLAGS changes nothing else. -/
theorem orFlags_spec (s : State) (k : Cur) (f : Flg) (g : Group) (hg : groupAt s k.core k.slot = some g) :
    groupAt (orFlags s k.core k.slot f) k.core k.slot = some { g with fflags := g.fflags ||| f.zeroExtend 32 }
      ∧ Apart s (orFlags s k.core k.slot f) k := by
  unfold orFlags
  by_cases hf : f = 0
  · rw [if_pos hf, hf]
    refine ⟨?_, .refl ..⟩
    rw [hg]
    have : g.fflags ||| (0 : Flg).zeroExtend 32 = g.fflags := by simp
    rw [this]
  · rw [if_neg hf]
    refine ⟨?_, apart_modGroup ..⟩
    rw [groupAt_modGroup, if_pos ⟨rfl, rfl⟩, hg]; rfl

theorem fromLane_idem (c : Ctl) (act : Mask) (l : Nat) : fromLane c act (fromLane c act l) = fromLane c act l := by
  unfold fromLane; split <;> rfl

/-- A written lane, from what the lane of a name holds. -/
theorem written_of (g g' : Group) (l : Nat) (d : Opd) (i : Nat) (w : Word) (p : Bool) (hw : ∀ n, d ≠ .s n)
    (h : ∀ m : Fin 128, resolve g l d = some (.v m) → (vreg? g' (m.val + i)).isSome = true ∧ laneOf g' (m.val + i) l = (w, true, p)) :
    Written g g' l d i w p := by
  unfold Written
  split
  · next n => exact absurd rfl (hw n)
  · split
    · next n hn =>
      obtain ⟨h1, h2⟩ := h n hn
      cases hv : vreg? g' (n.val + i) with
      | none => rw [hv] at h1; cases h1
      | some r =>
        unfold laneOf at h2
        rw [hv] at h2
        injection h2 with a b
        injection b with b e
        exact ⟨r, rfl, a, e, b⟩
    · trivial

/-- The lanes of the other names, and the s registers that the destination does not name, of one write. -/
theorem takes_of (g : Group) (x : Mask) (d : Opd) (cnt n l : Nat) (i : Nat) (hi : i < cnt)
    (h : x.getLsbD l = true ∧ (∃ m : Fin 128, resolve g l d = some (.v m) ∧ n = m.val + i)) : takes g x d cnt n l = true := by
  obtain ⟨hx, m, hm, hn⟩ := h
  unfold takes
  rw [hx, hm]
  simp only [Bool.true_and, decide_eq_true_eq]
  omega

theorem execLanes_act (g : Group) (c : Ctl) (act : Mask) (l : Nat) (h : (execLanes g c act).getLsbD l = true) :
    act.getLsbD l = true := by
  unfold execLanes at h
  rw [getLsbD_maskOf] at h
  simp only [Bool.and_eq_true] at h
  exact h.2.1

theorem mem_joinNames {a b : List Nat} {n : Nat} : n ∈ joinNames a b ↔ n ∈ a ∨ n ∈ b := by
  unfold joinNames
  rw [List.mem_eraseDups, List.mem_append]

/-- What the lanes of an instruction keep, its last-read bits do not free (R45). -/
theorem not_freed_of_kept {g : Group} {c : Ctl} {srcs : List SrcUse} {dsts : List DstUse} {k : Cur} {act rest : Mask} {n : Nat}
    (h : n ∈ keptNames g c dsts act) : n ∉ freed k g c srcs dsts act rest := by
  intro hm
  unfold freed at hm
  split at hm
  · unfold Parts.frees at hm
    have := (List.mem_filter.1 hm).2
    simp only [Bool.not_eq_true', List.contains_eq_mem, decide_eq_false_iff_not] at this
    exact this (mem_joinNames.2 (.inr h))
  · cases hm

/-- The last-read bits keep the names of the destination (R45). -/
theorem kept_of_dst (g : Group) (c : Ctl) (srcs : List SrcUse) (d : DstUse) (k : Cur) (act rest : Mask) (hd : DstForm c d)
    (l i : Nat) (m : Fin 128) (hi : i < d.n) (hl : (dstLanes g c d act).getLsbD l = true) (hr : resolve g l d.o = some (.v m)) :
    m.val + i ∉ freed k g c srcs [d] act rest := by
  apply not_freed_of_kept
  unfold keptNames
  simp only [List.mem_flatMap, List.mem_singleton, exists_eq_left]
  cases ho : d.o with
  | v n =>
    rw [ho] at hr; injection hr with hr; injection hr with hr
    exact List.mem_map.2 ⟨i, List.mem_range.2 hi, by rw [hr]⟩
  | m n =>
    obtain ⟨h1, _⟩ := hd.single n ho
    refine List.mem_filterMap.2 ⟨l, (mem_lanesOf _ l).2 hl, ?_⟩
    rw [ho] at hr; rw [hr]
    have : i = 0 := by omega
    simp only [this, Nat.add_zero]
  | _ => rw [ho] at hr; injection hr with hr; cases hr

theorem kept_of_v (g : Group) (c : Ctl) (srcs : List SrcUse) (n : Fin 128) (cnt : Nat) (low : Bool) (k : Cur) (act rest : Mask)
    (i : Nat) (m : Fin 128) (hi : i < cnt) (hm : n = m) : m.val + i ∉ freed k g c srcs [{ o := .v n, n := cnt, low := low }] act rest := by
  subst hm
  apply not_freed_of_kept
  unfold keptNames
  simp only [List.mem_flatMap, List.mem_singleton, exists_eq_left]
  exact List.mem_map.2 ⟨i, List.mem_range.2 hi, rfl⟩

/-- What `writeDst_spec` says, as what the destination holds. -/
theorem written_dst (g h g2 : Group) (c : Ctl) (act x : Mask) (d : Opd) (i cnt : Nat) (hi : i < cnt) (f : Nat → Word × Bool)
    (hd : DstForm c { o := d, n := cnt }) (hst : SameTables g g2)
    (hmp : ∀ (l : Nat) (m : Fin 128) (i : Nat), x.getLsbD l = true → resolve g l d = some (.v m) →
      i < cnt → (vreg? g2 (m.val + i)).isSome = true)
    (w5 : ∀ n l, l < 64 → laneOf h n l =
      if x.getLsbD l = true ∧ (∃ m : Fin 128, resolve g2 l d = some (.v m) ∧ n = m.val + i) ∧ (vreg? g2 n).isSome = true
      then ((f (fromLane c act l)).1, true, (f (fromLane c act l)).2) else laneOf g2 n l)
    (w6 : ∀ n, sregAt h n = if x ≠ 0 ∧ (∃ m : Fin 64, d = .s m ∧ n = m.val + i)
      then ⟨(f (fromLane c act (lowLane act))).1, true, (f (fromLane c act (lowLane act))).2, none⟩ else sregAt g2 n)
    (w4 : ∀ n, (vreg? h n).isSome = (vreg? g2 n).isSome)
    (l : Nat) (hxl : x.getLsbD l = true) :
    Written g h l d i (f (fromLane c act l)).1 (f (fromLane c act l)).2 := by
  by_cases hs : ∃ m, d = .s m
  · obtain ⟨m, rfl⟩ := hs
    have hu := hd.uniform m rfl
    show sregAt h (m.val + i) = _
    rw [w6, if_pos ⟨by rintro e; rw [e] at hxl; simp at hxl, m, rfl, rfl⟩]
    simp only [fromLane, hu, if_true]
  · have hl := lt_of_getLsbD hxl
    refine written_of g h l d i _ _ (fun n e => hs ⟨n, e⟩) fun m hm => ?_
    have hv := hmp l m i hxl hm hi
    refine ⟨by rw [w4]; exact hv, ?_⟩
    rw [w5 _ l hl, if_pos ⟨hxl, ⟨m, by rw [hst l d]; exact hm, rfl⟩, hv⟩]

/-- A written lane stays written where the group changes that lane of no register of the destination. -/
theorem Written.mono {g h h' : Group} {l : Nat} {d : Opd} {i : Nat} {w : Word} {p : Bool} (hw : Written g h l d i w p)
    (h1 : ∀ m : Fin 128, resolve g l d = some (.v m) → vreg? h' (m.val + i) = vreg? h (m.val + i))
    (h2 : ∀ n : Fin 64, d = .s n → sregAt h' (n.val + i) = sregAt h (n.val + i)) : Written g h' l d i w p := by
  unfold Written at hw ⊢
  split at hw
  · next n => exact (h2 n rfl).trans hw
  · split at hw
    · next n hn => rw [h1 n hn]; exact hw
    · trivial

/-- Every lane of an instruction is one of a destination that is not in the lowest lanes. -/
theorem dstLanes_act {g : Group} {c : Ctl} {d : DstUse} {act : Mask} {l : Nat} (hl : d.low = false) (h : act.getLsbD l = true) :
    (dstLanes g c d act).getLsbD l = true := by
  unfold dstLanes
  rw [hl]
  exact h

/-- What retiring leaves of a result that has been written. -/
theorem retire_computes (s s3 : State) (k : Cur) (g h : Group) (c : Ctl) (srcs : List SrcUse) (d : Opd) (cnt : Nat)
    (act rest : Mask) (p : Park) (target : Nat → DWord) (leave : Bool) (x : Mask)
    (f : Nat → Nat → Word) (pz : Nat → Bool) (fl : Flg) (tf : Nat → Thread → Thread)
    (low : Bool) (hd : DstForm c { o := d, n := cnt })
    (hk : ∀ n l, d = .m n → x.getLsbD l = true → (dstLanes g c { o := d, n := cnt, low := low } act).getLsbD l = true)
    (hpd : h.preds = g.preds)
    (hap : Apart s s3 k) (hh : groupAt s3 k.core k.slot = some h)
    (hf : { h with regs := g.regs, sregs := g.sregs, fflags := g.fflags, threads := g.threads } = g)
    (htf : ∀ l, l < 64 → threadAt h l = tf l (threadAt g l)) (htp : ∀ l t, (tf l t).path = t.path)
    (htq : ∀ l t, (tf l t).parts = t.parts ∧ (tf l t).live = t.live ∧ (tf l t).pc = t.pc)
    (hfl : h.fflags = g.fflags ||| fl.zeroExtend 32)
    (hres : ∀ l i, i < cnt → x.getLsbD l = true → Written g h l d i (f i l) (pz l))
    (hregs : ∀ n l, l < 64 → takes g x d cnt n l = false → laneOf h n l = laneOf g n l)
    (hsregs : ∀ n, namesS d cnt n = false → sregAt h n = sregAt g n) :
    ∃ g', Computes s (retireTo s3 k c srcs [{ o := d, n := cnt, low := low }] act rest p target leave) k g
      (freed k g c srcs [{ o := d, n := cnt, low := low }] act rest) x d cnt
      (fun l t => afterIssue (partsNow g k c srcs [{ o := d, n := cnt, low := low }] act) (laterAt k g act rest) act rest p target
        leave l (tf l t)) f pz fl g' := by
  have hpt : h.ptabs = g.ptabs := (congrArg Group.ptabs hf :)
  have ht : ∀ l, l < 64 → ∀ o, resolve h l o = resolve g l o := by
    intro l hl o
    have : ∀ n, ptabAt h l n = ptabAt g l n := fun n => by unfold ptabAt; rw [htf l hl, htp, hpt]
    cases o <;> simp only [resolve, this]
  obtain ⟨g', h1, h2, h3, h4, h5, h6, h7, h8⟩ :=
    retireTo_spec s3 k c srcs [{ o := d, n := cnt, low := low }] act rest p target leave g h hh
      (.of_preds hpd ht fun l hl => by rw [htf l hl]; exact htq l _)
  have hjm : h.jms = g.jms := (congrArg Group.jms hf :)
  have hdu : ∀ n, holdDue { h with threads := g'.threads } n = holdDue { g with threads := g'.threads } n :=
    holdDue_congr rfl hjm
  have hja : ∀ n, jmaskAt h n = jmaskAt g n := fun n => by unfold jmaskAt; rw [hjm]
  refine ⟨g', h1, hap.trans h2, ⟨fun l hl => ?_, ?_, fun n hn => ?_, ?_⟩, fun l i hi hxl => ?_, fun n l hl hn htk => ?_,
    fun n hn => ?_, ?_, ?_⟩
  · rw [h3.threads l hl, htf l hl]
  · rw [h3.others]; exact (congrArg Group.fixed hf :)
  · rw [h3.meets n hn, hdu, hja]
  · have hj : h.jlost = g.jlost := (congrArg Group.jlost hf :)
    refine h3.lost.trans ?_
    refine (congrArg (fun l : List Nat => h.jlost + BitVec.ofNat 32 l.length)
      (List.filter_congr fun n _ => by rw [hdu, hja])).trans (congrArg (fun j : Word => j + _) hj)
  · refine (hres l i hi hxl).mono (fun m hm => h4 _ ?_) fun n _ => by unfold sregAt; rw [h6]
    cases d with
    | m n => exact kept_of_dst g c srcs { o := .m n, n := cnt, low := low } k act rest ⟨hd.noWin, hd.single, hd.uniform⟩ l i m hi (hk n l rfl hxl) hm
    | v n => exact kept_of_v g c srcs n cnt low k act rest i m hi (by injection hm with hm; injection hm)
    | _ => injection hm with hm; cases hm
  · have e := hregs n l hl htk
    unfold laneOf at e ⊢
    rw [h4 n hn]; exact e
  · rw [show sregAt g' n = sregAt h n by unfold sregAt; rw [h6]]
    exact hsregs n hn
  · rw [h7]; exact (congrArg Group.preds hf :)
  · rw [h8, hfl]

/-- A result of cnt registers stands in the group `h` of `s3`, and nothing else has changed. -/
structure Wrote (s s3 : State) (k : Cur) (g h : Group) (x : Mask) (d : Opd) (cnt : Nat) (f : Nat → Nat → Word)
    (pz : Nat → Bool) : Prop where
  apart : Apart s s3 k
  here : groupAt s3 k.core k.slot = some h
  same : { h with regs := g.regs, sregs := g.sregs } = g
  result : ∀ l i, i < cnt → x.getLsbD l = true → Written g h l d i (f i l) (pz l)
  regs : ∀ n l, l < 64 → takes g x d cnt n l = false → laneOf h n l = laneOf g n l
  sregs : ∀ n, namesS d cnt n = false → sregAt h n = sregAt g n

/-- What is no load takes no place in the load-value queue. -/
theorem joinQueue_none (g : Group) (op : Nat) (dsts : List DstUse) (h : dsts.any (·.queued) = false) : joinQueue g op dsts = g := by
  unfold joinQueue
  rw [h, Bool.and_false]; rfl

theorem taken_spec (s : State) (k : Cur) (g : Group) (c : Ctl) (x : Mask) (d : DstUse) (hd : DstForm c d) (hq : d.queued = false) :
    ∃ g2, groupAt (taken s k g c x [d]) k.core k.slot = some g2 ∧ Apart s (taken s k g c x [d]) k
      ∧ { g2 with regs := g.regs } = g
      ∧ (∀ n l, l < 64 → laneOf g2 n l = laneOf g n l)
      ∧ ∀ (l : Nat) (m : Fin 128) (i : Nat), x.getLsbD l = true → resolve g l d.o = some (.v m) → i < d.n →
          (vreg? g2 (m.val + i)).isSome = true :=
  by
    have e : taken s k g c x [d] = setGroup (allocRegs s g (newNames g c x [d])).1 k.core k.slot
        (allocRegs s g (newNames g c x [d])).2 := by
      unfold taken
      simp only
      rw [joinQueue_none _ _ _ (by rw [List.any_cons, hq]; rfl)]
    rw [e]
    exact ⟨_, by rw [groupAt_setGroup, if_pos ⟨rfl, rfl⟩], apart_alloc .., (allocRegs_spec ..).2.1,
      fun n l => laneOf_alloc s g _ n l, fun l m i => alloc_maps s g c x d hd l m i⟩

theorem wrote1 (s : State) (k : Cur) (g : Group) (c : Ctl) (act x : Mask) (d : Opd) (f : Nat → Word × Bool)
    (hd : DstForm c { o := d }) :
    ∃ h, Wrote s (writeDst (taken s k g c x [{ o := d }]) { k with lanes := act } c x d 0 f) k g h x d 1
      (fun _ l => (f (fromLane c act l)).1) (fun l => (f (fromLane c act l)).2) := by
  obtain ⟨g2, hg2, hap, a2, hlo, hmp⟩ := taken_spec s k g c x { o := d } hd rfl
  generalize taken s k g c x [{ o := d }] = s2 at hap hg2 ⊢
  obtain ⟨h, w1, w2, w3, w4, w5, w6⟩ := writeDst_spec s2 { k with lanes := act } c x d 0 f g2 hg2 hd.noWin (fun _ _ => rfl)
  have hst : SameTables g g2 := sameTables_of g g2 (congrArg Group.threads a2 :) (congrArg Group.ptabs a2 :)
  refine ⟨h, hap.trans w2.lanes, w1, ?_, ?_, ?_, ?_⟩
  · exact ((congrArg (fun x : Group => ({ x with regs := g.regs, sregs := g.sregs } : Group)) w3 :).trans
      (congrArg (fun x : Group => ({ x with sregs := g.sregs } : Group)) a2 :))
  · intro l i hi hxl
    have hi0 : i = 0 := by omega
    subst hi0
    exact written_dst g h g2 c act x d 0 1 Nat.one_pos f hd hst hmp w5 w6 w4 l hxl
  · intro n l hl htk
    rw [w5 n l hl, if_neg]
    · exact hlo n l hl
    · rintro ⟨e1, ⟨m, e2, e3⟩, -⟩
      rw [hst l d] at e2
      rw [takes_of g _ d 1 n l 0 Nat.one_pos ⟨e1, m, e2, e3⟩] at htk
      cases htk
  · intro n hn
    rw [w6 n, if_neg]
    · exact (congrArg (fun x : Group => sregAt x n) a2 :)
    · rintro ⟨-, m, e1, e2⟩
      subst e1
      simp only [namesS, decide_eq_false_iff_not] at hn
      omega

theorem wrote2 (s : State) (k : Cur) (g : Group) (c : Ctl) (act x : Mask) (d : Opd) (f : Nat → Nat → Word) (pz : Nat → Bool)
    (hd : DstForm c { o := d, n := 2 }) :
    ∃ h, Wrote s (writeDst (writeDst (taken s k g c x [{ o := d, n := 2 }]) { k with lanes := act } c x d 0 fun l => (f 0 l, pz l))
      { k with lanes := act } c x d 1 fun l => (f 1 l, pz l)) k g h x d 2
      (fun i l => f i (fromLane c act l)) (fun l => pz (fromLane c act l)) := by
  have hm : ∀ n, d ≠ .m n := fun n e => by have := (hd.single n e).1; cases this
  obtain ⟨g2, hg2, hap, a2, hlo, hmp⟩ := taken_spec s k g c x { o := d, n := 2 } hd rfl
  generalize taken s k g c x [{ o := d, n := 2 }] = s2 at hap hg2 ⊢
  obtain ⟨h, w1, w2, w3, w4, w5, w6⟩ := writeDst_spec s2 { k with lanes := act } c x d 0 (fun l => (f 0 l, pz l)) g2 hg2
    hd.noWin (fun _ _ => rfl)
  obtain ⟨j, v1, v2, v3, v4, v5, v6⟩ := writeDst_spec _ { k with lanes := act } c x d 1 (fun l => (f 1 l, pz l)) h w1
    hd.noWin (fun n e => absurd e (hm n))
  have hst : SameTables g g2 := sameTables_of g g2 (congrArg Group.threads a2 :) (congrArg Group.ptabs a2 :)
  have hst2 : SameTables g2 h := sameTables_of g2 h (congrArg Group.threads w3 :) (congrArg Group.ptabs w3 :)
  have hst3 : SameTables g h := fun l o => (hst2 l o).trans (hst l o)
  have a3 : ({ h with regs := g.regs, sregs := g.sregs } : Group) = g :=
    ((congrArg (fun x : Group => ({ x with regs := g.regs, sregs := g.sregs } : Group)) w3 :).trans
      (congrArg (fun x : Group => ({ x with sregs := g.sregs } : Group)) a2 :))
  refine ⟨j, (hap.trans w2.lanes).trans v2.lanes, v1, ?_, ?_, ?_, ?_⟩
  · exact ((congrArg (fun x : Group => ({ x with regs := g.regs, sregs := g.sregs } : Group)) v3 :).trans a3)
  · intro l i hi hxl
    rcases (show i = 0 ∨ i = 1 by omega) with rfl | rfl
    · have e := written_dst g h g2 c act x d 0 2 (by omega) (fun l => (f 0 l, pz l)) hd hst hmp w5 w6 w4 l hxl
      unfold Written at e ⊢
      have hl := lt_of_getLsbD hxl
      cases d with
      | s n =>
        simp only at e ⊢
        rw [v6, if_neg]; · exact e
        rintro ⟨_, m, hm', hn'⟩; injection hm' with hm'; rw [hm'] at hn'; omega
      | m n => exact absurd rfl (hm n)
      | v n =>
        simp only [resolve] at e ⊢
        obtain ⟨r, hr, e1, e2, e3⟩ := e
        have hs := v4 (n.val + 0)
        rw [hr] at hs
        cases hj : vreg? j (n.val + 0) with
        | none => rw [hj] at hs; cases hs
        | some r' =>
          have hv := v5 (n.val + 0) l hl
          rw [if_neg] at hv
          · unfold laneOf at hv
            rw [hj, hr] at hv
            injection hv with b1 b2
            injection b2 with b2 b3
            exact ⟨r', rfl, b1.trans e1, b3.trans e2, b2.trans e3⟩
          · rintro ⟨_, ⟨m, hm', hn'⟩, _⟩
            injection hm' with hm'; injection hm' with hm'; rw [hm'] at hn'; omega
      | _ => trivial
    · refine written_dst g j h c act x d 1 2 (by omega) (fun l => (f 1 l, pz l)) hd hst3 (fun l m i a b e => ?_) v5 v6 v4 l hxl
      rw [w4]; exact hmp l m i a b e
  · intro n l hl htk
    have no : ∀ i, i < 2 → ¬ (x.getLsbD l = true ∧ ∃ m : Fin 128, resolve g l d = some (.v m) ∧ n = m.val + i) := by
      rintro i hi ⟨e1, m, e2, e3⟩
      rw [takes_of g _ d 2 n l i hi ⟨e1, m, e2, e3⟩] at htk
      cases htk
    rw [v5 n l hl, if_neg, w5 n l hl, if_neg]
    · exact hlo n l hl
    · rintro ⟨e1, ⟨m, e2, e3⟩, -⟩
      exact no 0 (by omega) ⟨e1, m, by rw [← hst l d]; exact e2, e3⟩
    · rintro ⟨e1, ⟨m, e2, e3⟩, -⟩
      exact no 1 (by omega) ⟨e1, m, by rw [← hst3 l d]; exact e2, e3⟩
  · intro n hn
    rw [v6 n, if_neg, w6 n, if_neg]
    · exact (congrArg (fun x : Group => sregAt x n) a2 :)
    · rintro ⟨-, m, e1, e2⟩
      subst e1
      simp only [namesS, decide_eq_false_iff_not] at hn
      omega
    · rintro ⟨-, m, e1, e2⟩
      subst e1
      simp only [namesS, decide_eq_false_iff_not] at hn
      omega

/-- Retiring after a result has been written and flags raised. -/
theorem Wrote.retires {s s3 : State} {k : Cur} {g h : Group} {x : Mask} {d : Opd} {cnt : Nat} {f : Nat → Nat → Word}
    {pz : Nat → Bool} (hw : Wrote s s3 k g h x d cnt f pz) (c : Ctl) (srcs : List SrcUse) (act rest : Mask) (p : Park) (fl : Flg) (low : Bool)
    (hd : DstForm c { o := d, n := cnt })
    (hk : ∀ n l, d = .m n → x.getLsbD l = true → (dstLanes g c { o := d, n := cnt, low := low } act).getLsbD l = true) :
    ∃ g', Computes s (retire (orFlags s3 k.core k.slot fl) k c srcs [{ o := d, n := cnt, low := low }] act rest p) k g
      (freed k g c srcs [{ o := d, n := cnt, low := low }] act rest) x d cnt
      (goOn k g c srcs [{ o := d, n := cnt, low := low }] act rest p) f pz fl g' := by
  obtain ⟨o1, o2⟩ := orFlags_spec s3 k fl h hw.here
  have hth : h.threads = g.threads := (congrArg Group.threads hw.same :)
  have hff : h.fflags = g.fflags := (congrArg Group.fflags hw.same :)
  have hpp : ({ h with fflags := h.fflags ||| fl.zeroExtend 32 } : Group).preds = g.preds := (congrArg Group.preds hw.same :)
  refine retire_computes s _ k g _ c srcs d cnt act rest p (fun _ => k.next) k.last x f pz fl (fun _ t => t) low hd hk
    hpp (hw.apart.trans o2) o1 ?_ (fun l _ => ?_) (fun _ _ => rfl) (fun _ _ => ⟨rfl, rfl, rfl⟩) ?_ hw.result hw.regs hw.sregs
  · exact (congrArg (fun x : Group => ({ x with fflags := g.fflags, threads := g.threads } : Group)) hw.same :)
  · show h.threads.getD l {} = _
    rw [hth]; rfl
  · rw [← hff]

/-- Jumping after a result has been written, the threads changed by `tf`. -/
theorem Wrote.jumps {s s3 : State} {k : Cur} {g h : Group} {x : Mask} {d : Opd} {cnt : Nat} {f : Nat → Nat → Word}
    {pz : Nat → Bool} (hw : Wrote s s3 k g h x d cnt f pz) (c : Ctl) (srcs : List SrcUse) (act rest : Mask) (p : Park)
    (target : Nat → DWord) (m : Mask) (tf : Thread → Thread) (htp : ∀ t, (tf t).path = t.path)
    (htq : ∀ t, (tf t).parts = t.parts ∧ (tf t).live = t.live ∧ (tf t).pc = t.pc) (hd : DstForm c { o := d, n := cnt })
    (hk : ∀ n l, d = .m n → x.getLsbD l = true → act.getLsbD l = true) :
    ∃ g', Computes s (retireTo (modGroup s3 k.core k.slot fun g => modThreads g m tf) k c srcs [{ o := d, n := cnt }] act rest p
        target true) k g
      (freed k g c srcs [{ o := d, n := cnt }] act rest) x d cnt
      (fun l t => afterIssue (partsNow g k c srcs [{ o := d, n := cnt }] act) (laterAt k g act rest) act rest p target true l
        (if m.getLsbD l then tf t else t)) f pz 0 g' := by
  have hth : h.threads = g.threads := (congrArg Group.threads hw.same :)
  have hff : h.fflags = g.fflags := (congrArg Group.fflags hw.same :)
  have hpp : (modThreads h m tf).preds = g.preds := (congrArg Group.preds hw.same :)
  refine retire_computes s _ k g (modThreads h m tf) c srcs d cnt act rest p target true x f pz 0
    (fun l t => if m.getLsbD l then tf t else t) false hd
    (fun n l e h1 => dstLanes_act rfl (hk n l e h1)) hpp (hw.apart.trans (apart_modGroup ..)) ?_ ?_ (fun l hl => ?_)
    (fun _ _ => ?_) (fun _ _ => ?_) ?_ hw.result hw.regs hw.sregs
  · rw [groupAt_modGroup, if_pos ⟨rfl, rfl⟩, hw.here]; rfl
  · exact (congrArg (fun x : Group => ({ x with fflags := g.fflags, threads := g.threads } : Group)) hw.same :)
  · rw [threadAt_modThreads, if_pos hl]; unfold threadAt; rw [hth]
  · split
    · exact htp _
    · rfl
  · split
    · exact htq _
    · exact ⟨rfl, rfl, rfl⟩
  · show h.fflags = _
    rw [hff]; simp

/-- An instruction that computes register 0 of D lane by lane, and no other (R43, R83, R274, R280). -/
theorem issueAlu_spec (s : State) (k : Cur) (g : Group) (c : Ctl) (d : Opd) (srcs : List SrcUse)
    (f : State → Cur → Group → Nat → Word × Flg) (more : Group → Nat → Bool) (act rest : Mask) (p : Park)
    (hi : Issuing s k g) (hd : DstForm c { o := d })
    (hp : Passes s k g c false srcs [{ o := d }] [] act rest p (execLanes g c act)) :
    let pz := fun l => more g (fromLane c act l) || srcs.any fun u => srcPois s k g (fromLane c act l) u
    ∃ t g', issueAlu s c d srcs f more = .next t ∧
      Computes s t k g (freed k g c srcs [{ o := d }] act rest) (execLanes g c act) d 1 (goOn k g c srcs [{ o := d }] act rest p)
        (fun _ l => (f s k g (fromLane c act l)).1) pz
        (flagsOf (execLanes g c act) pz fun l => (f s k g (fromLane c act l)).2) g' := by
  intro pz
  have hwin : isWindow d = false := by
    cases d <;> first | rfl | exact absurd rfl (hd.noWin _)
  unfold issueAlu
  rw [hwin]
  simp only [Bool.false_eq_true, if_false]
  rw [issueG_passes s k g c false srcs [{ o := d }] [] noOwn _ (fun x => x) act rest p hi hp rfl]
  simp only
  obtain ⟨h, hw⟩ := wrote1 s k g c act (execLanes g c act) d
    (fun l => ((f s k g l).1, more g (fromLane c act l) || srcs.any fun u => srcPois s k g (fromLane c act l) u)) hd
  obtain ⟨g', hc⟩ := hw.retires c srcs act rest p (flagsOf (execLanes g c act) pz fun l => (f s k g (fromLane c act l)).2) false hd
    fun _ l _ h1 => dstLanes_act rfl (execLanes_act g c act l h1)
  simp only [fromLane_idem] at hc
  exact ⟨_, g', rfl, hc⟩

/-- As `issueAlu_spec`, for a pair. -/
theorem issueAlu64_spec (s : State) (k : Cur) (g : Group) (c : Ctl) (d : Opd) (srcs : List SrcUse)
    (f : State → Cur → Group → Nat → DWord) (act rest : Mask) (p : Park)
    (hi : Issuing s k g) (hd : DstForm c { o := d, n := 2 })
    (hp : Passes s k g c false srcs [{ o := d, n := 2 }] [] act rest p (execLanes g c act)) :
    ∃ t g', issueAlu64 s c d srcs f = .next t ∧
      Computes s t k g (freed k g c srcs [{ o := d, n := 2 }] act rest) (execLanes g c act) d 2
        (goOn k g c srcs [{ o := d, n := 2 }] act rest p)
        (fun i l => (f s k g (fromLane c act l)).extractLsb' (32 * i) 32)
        (fun l => srcs.any fun u => srcPois s k g (fromLane c act l) u) 0 g' := by
  unfold issueAlu64
  rw [issueG_passes s k g c false srcs [{ o := d, n := 2 }] [] noOwn _ (fun x => x) act rest p hi hp rfl]
  simp only
  obtain ⟨h, hw⟩ := wrote2 s k g c act (execLanes g c act) d (fun i l => (f s k g l).extractLsb' (32 * i) 32)
    (fun l => true && srcs.any fun u => srcPois s k g (fromLane c act l) u) hd
  obtain ⟨g', hc⟩ := hw.retires c srcs act rest p 0 false hd fun _ l _ h1 =>
    dstLanes_act rfl (execLanes_act g c act l h1)
  simp only [fromLane_idem, Bool.true_and] at hc
  exact ⟨_, g', rfl, hc⟩

/-- Retiring from a group `h`. -/
theorem retire_leaves (s s3 : State) (k : Cur) (h : Group) (c : Ctl) (srcs : List SrcUse) (dsts : List DstUse)
    (act rest : Mask) (p : Park) (target : Nat → DWord) (leave : Bool)
    (hap : Apart s s3 k) (hh : groupAt s3 k.core k.slot = some h) :
    ∃ g', Leaves s (retireTo s3 k c srcs dsts act rest p target leave) k h (freed k h c srcs dsts act rest)
      (afterIssue (partsNow h k c srcs dsts act) (laterAt k h act rest) act rest p target leave) g' := by
  obtain ⟨g', h1, h2, h3, h4, h5, h6, h7, h8⟩ := retireTo_spec s3 k c srcs dsts act rest p target leave h h hh (.refl ..)
  exact ⟨g', h1, hap.trans h2, h3, h4, h6, h7, h8⟩

/-! ### Predicates (R279) -/

/-- What writing a predicate does: lanes of m take bit and poison, p0 discards, nothing else of the group changes. -/
theorem setPred_spec (g : Group) (q : Nat) (m v z : Mask) :
    { setPred g q m v z with preds := g.preds } = g
      ∧ ∀ j l, l < 64 →
        predBit (setPred g q m v z) j l = (if j = q ∧ q ≠ 0 ∧ m.getLsbD l = true then v.getLsbD l else predBit g j l)
        ∧ predPois (setPred g q m v z) j l = (if j = q ∧ q ≠ 0 ∧ m.getLsbD l = true then z.getLsbD l else predPois g j l) := by
  unfold setPred
  by_cases hq : q = 0
  · simp only [hq, if_true]
    exact ⟨trivial, fun j l _ => by simp⟩
  · simp only [hq, if_false]
    refine ⟨trivial, fun j l hl => ?_⟩
    unfold predBit predPois
    by_cases hj : j = q
    · subst hj
      have h0 : (j == 0) = false := by simp [hq]
      have h1 : (j != 0) = true := by simp [hq]
      simp only [tget_tset, if_true, h0, h1, Bool.false_or, Bool.true_and, BitVec.getLsbD_or, BitVec.getLsbD_and,
        BitVec.getLsbD_not, hl, decide_true]
      cases m.getLsbD l <;> simp [hq]
    · simp only [tget_tset, hj, if_false, false_and]
      exact ⟨trivial, trivial⟩

/-- Retiring after a predicate has been written and flags raised. -/
theorem decides_retires (s s2 : State) (k : Cur) (g g2 : Group) (c : Ctl) (srcs : List SrcUse) (act rest x : Mask) (p : Park)
    (q : Nat) (f : Nat → Bool) (pz : Nat → Bool) (fl : Flg)
    (hx : ∀ u, u ∈ srcs → u.xlow = false) (hap : Apart s s2 k) (hh : groupAt s2 k.core k.slot = some g2)
    (hg : g2 = g) :
    ∃ g', Decides s (retire (orFlags (modGroup s2 k.core k.slot fun h =>
        setPred h q x (maskOf fun l => x.getLsbD l && f l) (maskOf fun l => x.getLsbD l && pz l)) k.core k.slot fl)
        k c srcs [] act rest p) k g (freed k g c srcs [] act rest) x q
      (goOn k g c srcs [] act rest p) f pz fl g' := by
  subst hg
  obtain ⟨e1, e2⟩ := setPred_spec g2 q x (maskOf fun l => x.getLsbD l && f l) (maskOf fun l => x.getLsbD l && pz l)
  have hh2 : groupAt (modGroup s2 k.core k.slot fun h =>
      setPred h q x (maskOf fun l => x.getLsbD l && f l) (maskOf fun l => x.getLsbD l && pz l)) k.core k.slot
      = some (setPred g2 q x (maskOf fun l => x.getLsbD l && f l) (maskOf fun l => x.getLsbD l && pz l)) := by
    rw [groupAt_modGroup, if_pos ⟨rfl, rfl⟩, hh]; rfl
  have hap2 := hap.trans (apart_modGroup s2 k fun h =>
      setPred h q x (maskOf fun l => x.getLsbD l && f l) (maskOf fun l => x.getLsbD l && pz l))
  obtain ⟨o1, o2⟩ := orFlags_spec _ k fl _ hh2
  generalize setPred g2 q x _ _ = h at e1 e2 hh2 o1
  have eth : h.threads = g2.threads := (congrArg Group.threads e1 :)
  have ept : h.ptabs = g2.ptabs := (congrArg Group.ptabs e1 :)
  have hst := sameTables_of g2 { h with fflags := h.fflags ||| fl.zeroExtend 32 } eth ept
  obtain ⟨g', h1, h2, h3, h4, h5, h6, h7, h8⟩ :=
    retireTo_spec _ k c srcs [] act rest p (fun _ => k.next) k.last g2 _ o1
      ⟨fun l _ o => hst l o, fun m u hu => by unfold readLanes; simp only [hx u hu, Bool.false_eq_true, if_false],
        fun _ d hd => absurd hd (List.not_mem_nil),
        fun l _ => by unfold threadAt; rw [show ({ h with fflags := h.fflags ||| fl.zeroExtend 32 } : Group).threads = g2.threads from eth]; exact ⟨rfl, rfl, rfl⟩⟩
  have hjm : h.jms = g2.jms := (congrArg Group.jms e1 :)
  have hdu : ∀ n, holdDue { ({ h with fflags := h.fflags ||| fl.zeroExtend 32 } : Group) with threads := g'.threads } n
      = holdDue { g2 with threads := g'.threads } n := holdDue_congr rfl hjm
  have hja : ∀ n, jmaskAt { h with fflags := h.fflags ||| fl.zeroExtend 32 } n = jmaskAt g2 n :=
    fun n => by unfold jmaskAt; exact congrArg (fun j => tget j n _) hjm
  have hthr : ∀ l, threadAt { h with fflags := h.fflags ||| fl.zeroExtend 32 } l = threadAt g2 l :=
    fun l => by unfold threadAt; exact congrArg (fun j : List Thread => j.getD l _) eth
  have hpb : ∀ j l, predBit g' j l = predBit h j l := fun j l => by unfold predBit; rw [h7]
  have hpp : ∀ j l, predPois g' j l = predPois h j l := fun j l => by unfold predPois; rw [h7]
  refine ⟨g', h1, (hap2.trans o2).trans h2, ⟨fun l hl => ?_, ?_, fun n hn => ?_, ?_⟩, fun l hxl hq => ?_, fun j l hl hj => ?_,
    fun n hn => ?_, ?_, ?_⟩
  · rw [h3.threads l hl, hthr]; rfl
  · rw [h3.others]; exact (congrArg Group.fixed e1 :)
  · rw [h3.meets n hn, hdu, hja]
  · refine h3.lost.trans ?_
    have hj : h.jlost = g2.jlost := (congrArg Group.jlost e1 :)
    refine (congrArg (fun l : List Nat => h.jlost + BitVec.ofNat 32 l.length)
      (List.filter_congr fun n _ => by rw [hdu, hja])).trans (congrArg (fun j : Word => j + _) hj)
  · obtain ⟨a, b⟩ := e2 q l (lt_of_getLsbD hxl)
    rw [hpb, hpp, a, b, if_pos ⟨rfl, hq, hxl⟩, if_pos ⟨rfl, hq, hxl⟩]
    simp only [getLsbD_maskOf, lt_of_getLsbD hxl, hxl, decide_true, Bool.true_and]
    exact ⟨trivial, trivial⟩
  · obtain ⟨a, b⟩ := e2 j l hl
    have hn : ¬ (j = q ∧ q ≠ 0 ∧ x.getLsbD l = true) := by
      rintro ⟨e, e', e''⟩
      rcases hj with hj | hj | hj
      · exact hj e
      · exact e' hj
      · rw [hj] at e''; cases e''
    rw [hpb, hpp, a, b, if_neg hn, if_neg hn]
    exact ⟨rfl, rfl⟩
  · rw [h4 n hn]; exact (congrArg (fun x : Group => vreg? x n) e1 :)
  · rw [h6]; exact (congrArg Group.sregs e1 :)
  · rw [h8]
    have hj : h.fflags = g2.fflags := (congrArg Group.fflags e1 :)
    rw [← hj]

theorem taken_none (s : State) (k : Cur) (g : Group) (c : Ctl) (x : Mask) :
    taken s k g c x [] = setGroup s k.core k.slot g := by
  unfold taken newNames
  simp only [joinQueue_none _ _ [] rfl]
  split <;> rfl

theorem taken_none_spec (s : State) (k : Cur) (g : Group) (c : Ctl) (x : Mask) :
    groupAt (taken s k g c x []) k.core k.slot = some g ∧ Apart s (taken s k g c x []) k := by
  rw [taken_none]
  exact ⟨by rw [groupAt_setGroup, if_pos ⟨rfl, rfl⟩], apart_setGroup ..⟩

/-- An instruction that computes a predicate lane by lane, and no other (R43, R83, R274, R279, R280). -/
theorem issuePred_spec (s : State) (k : Cur) (g : Group) (c : Ctl) (q : Nat) (srcs : List SrcUse)
    (f : State → Cur → Group → Nat → Bool × Flg) (more : Group → Nat → Bool) (act rest : Mask) (p : Park)
    (hi : Issuing s k g) (hx : ∀ u, u ∈ srcs → u.xlow = false)
    (hp : Passes s k g c false srcs [] [] act rest p (execLanes g c act)) :
    let pz := fun l => more g (fromLane c act l) || srcs.any fun u => srcPois s k g (fromLane c act l) u
    ∃ t g', issuePred s c q srcs f more = .next t ∧
      Decides s t k g (freed k g c srcs [] act rest) (execLanes g c act) q (goOn k g c srcs [] act rest p)
        (fun l => (f s k g (fromLane c act l)).1) pz
        (flagsOf (execLanes g c act) pz fun l => (f s k g (fromLane c act l)).2) g' := by
  intro pz
  unfold issuePred
  rw [issueG_passes s k g c false srcs [] [] noOwn _ (fun x => x) act rest p hi hp rfl]
  simp only
  obtain ⟨h1, h2⟩ := taken_none_spec s k g c (execLanes g c act)
  obtain ⟨g', hd⟩ := decides_retires s _ k g g c srcs act rest (execLanes g c act) p q
    (fun l => (f s k g (fromLane c act l)).1) pz (flagsOf (execLanes g c act) pz fun l => (f s k g (fromLane c act l)).2)
    hx h2 h1 rfl
  exact ⟨_, g', rfl, hd⟩

end Sys2Proof.Machine
end

