-- ==== Sys2Proof/Laws/Claims.lean ====
section
/-! SUPPORT. Laws/Claims.lean: the claims of Safety.lean about one instruction, from the shared course that its meaning calls. -/
namespace Sys2Proof.Machine

theorem xlow_of {srcs : List SrcUse} (h : (srcs.all fun u => !u.xlow) = true) : ∀ u, u ∈ srcs → u.xlow = false := by
  intro u hu
  have := List.all_eq_true.1 h u hu
  simpa using this

theorem dstForm_of {c : Ctl} {d : Opd} (h : okDst c.u d = true) : DstForm c { o := d } := by
  constructor
  · rintro n e; rw [show d = Opd.w n from e] at h; cases h
  · rintro n e; rw [show d = Opd.m n from e] at h; simp [okDst] at h; exact ⟨rfl, h⟩
  · rintro n e; rw [show d = Opd.s n from e] at h; exact h

theorem dstForm_run {c : Ctl} {d : Opd} {n : Nat} (h : okDstRun c.u n d = true) : DstForm c { o := d, n := n } := by
  constructor
  · rintro n e; rw [show d = Opd.w n from e] at h; cases h
  · rintro n e; rw [show d = Opd.m n from e] at h; cases h
  · rintro n e; rw [show d = Opd.s n from e] at h; simp [okDstRun] at h; exact h.1

theorem flagsOf_zero (x : Mask) (pz : Nat → Bool) : flagsOf x pz (fun _ => 0) = 0 := by
  unfold flagsOf
  generalize lanesOf x = ls
  induction ls with
  | nil => rfl
  | cons a r ih => rw [List.foldl_cons]; split <;> simpa using ih

/-- An instruction that runs as `issueAlu`, and what it computes. -/
theorem computes1_of {i : Instr} {c : Ctl} {d : Opd} {srcs : List SrcUse} {f f' : State → Cur → Group → Nat → Word × Flg}
    {more : Group → Nat → Bool} (hd : DstForm c { o := d })
    (he : ∀ s, exec i s = issueAlu s c d srcs f' more) (hf : ∀ s k g l, f' s k g l = f s k g l) :
    Computes1 i c d srcs f more := by
  have : f' = f := by funext s k g l; exact hf s k g l
  subst this
  intro s k g act rest p hi hp _
  rw [he]
  exact issueAlu_spec s k g c d srcs f' more act rest p hi hd hp

/-- An instruction that runs as `issueAlu64`, and what it computes. -/
theorem computes2_of {i : Instr} {c : Ctl} {d : Opd} {srcs : List SrcUse} {f f' : State → Cur → Group → Nat → DWord}
    (hd : DstForm c { o := d, n := 2 })
    (he : ∀ s, exec i s = issueAlu64 s c d srcs f') (hf : ∀ s k g l, f' s k g l = f s k g l) :
    Computes2 i c d srcs f := by
  have : f' = f := by funext s k g l; exact hf s k g l
  subst this
  intro s k g act rest p hi hp _
  rw [he]
  obtain ⟨t, g', h1, h2⟩ := issueAlu64_spec s k g c d srcs f' act rest p hi hd hp
  refine ⟨t, g', h1, ?_⟩
  simpa [poisonOf] using h2

/-- An instruction that runs as `issuePred`, and what it decides. -/
theorem computesPred_of {i : Instr} {c : Ctl} {q : Nat} {srcs : List SrcUse} {f f' : State → Cur → Group → Nat → Bool × Flg}
    {more : Group → Nat → Bool} (hx : (srcs.all fun u => !u.xlow) = true)
    (he : ∀ s, exec i s = issuePred s c q srcs f' more) (hf : ∀ s k g l, f' s k g l = f s k g l) :
    ComputesPred i c q srcs f more := by
  have : f' = f := by funext s k g l; exact hf s k g l
  subst this
  intro s k g act rest p hi hp
  rw [he]
  exact issuePred_spec s k g c q srcs f' more act rest p hi (xlow_of hx) hp

/-- An instruction that runs as `issueG`: its own checks leave `s1`, its effect is applied, it retires. -/
theorem acts_of {i : Instr} {c : Ctl} {twin : Bool} {srcs : List SrcUse} {dsts : List DstUse} {consume : List (Nat × SrcUse)}
    {wl : Mask → Mask} {own : State → Cur → Group → Mask → Mask → State → Prop}
    {eff : State → Cur → Group → Mask → Mask → State → State}
    {own' eff' : State → Cur → State → Group → Mask → Mask → Own}
    (he : ∀ s, exec i s = issueG s c twin srcs dsts consume (own' s) (eff' s) wl)
    (ho : ∀ s k g act x s1, own s k g act x s1 → own' s k s g act x = .ok s1)
    (hf : ∀ s k g act x s1 t, own s k g act x s1 → eff' s k t g act x = .ok (eff s1 k g act x t)) :
    Acts i c twin srcs dsts consume wl own eff := by
  intro s s1 k g act rest p hi hg hown hr
  obtain ⟨hc, hgp⟩ := hi
  obtain ⟨a, r, q, hr⟩ := hr
  rw [he]
  unfold issueG
  simp only [hc, hgp, hg, ho s k g act _ s1 hown, hr]
  have := hf s k g act (execLanes g c act) s1 (takenIn s1 k g c (wl (execLanes g c act)) dsts) hown
  unfold takenIn groupNow at this
  simp only at this
  rw [this]
  rfl

/-- An instruction without register destinations that makes its group into `h` and moves its lanes. -/
theorem runs_of {i : Instr} {c : Ctl} {srcs : List SrcUse} {consume : List (Nat × SrcUse)}
    {ok : State → Cur → Group → Mask → Prop} {h : State → Cur → Group → Mask → Mask → Group}
    {dest : State → Cur → Group → Mask → Nat → DWord} {out : Cur → Bool}
    {own' eff' : State → Cur → State → Group → Mask → Mask → Own}
    (he : ∀ s, exec i s = issueG s c false srcs [] consume (own' s) (eff' s))
    (ho : ∀ s k g act x, ok s k g x → own' s k s g act x = .ok s)
    (hf : ∀ s k g act x t, groupAt t k.core k.slot = some g → ok s k g x → ∃ t',
      (eff' s k t g act x = .jump t' (dest s k g x) ∧ out k = true
        ∨ eff' s k t g act x = .ok t' ∧ dest s k g x = (fun _ => k.next) ∧ out k = k.last)
      ∧ groupAt t' k.core k.slot = some (h s k g act x) ∧ Apart t t' k) :
    Runs i c srcs consume ok h dest out := by
  intro s k g act rest p hi hp hok
  rw [he, issueG_passes s k g c false srcs [] consume (own' s) (eff' s) (fun x => x) act rest p hi hp (ho s k g act _ hok)]
  obtain ⟨h1, h2⟩ := taken_none_spec s k g c (execLanes g c act)
  generalize taken s k g c (execLanes g c act) [] = t0 at h1 h2 ⊢
  obtain ⟨t', hs, hg, hap⟩ := hf s k g act (execLanes g c act) t0 h1 hok
  obtain ⟨g', hl⟩ := retire_leaves s t' k (h s k g act (execLanes g c act)) c srcs [] act rest p
    (dest s k g (execLanes g c act)) (out k) (h2.trans hap) hg
  rcases hs with ⟨h3, h4⟩ | ⟨h3, h4, h5⟩
  · refine ⟨_, g', ?_, hl⟩
    simp only [h3, h4]
  · refine ⟨_, g', ?_, hl⟩
    simp only [h3, h4, h5]
    rfl

theorem orFlags_none (s : State) (c slot : Nat) : orFlags s c slot 0 = s := rfl

/-- An instruction that runs as `issueG` and writes one register of D and flags. -/
theorem computing1_of {i : Instr} {c : Ctl} {twin : Bool} {d : Opd} {srcs : List SrcUse} {consume : List (Nat × SrcUse)}
    {wl : Mask → Mask} {ok : State → Cur → Group → Mask → Prop} {f : State → Cur → Group → Mask → Nat → Nat → Word}
    {pz : State → Cur → Group → Mask → Nat → Bool} {fl : State → Cur → Group → Mask → Mask → Flg}
    {own' eff' : State → Cur → State → Group → Mask → Mask → Own}
    (hd : DstForm c { o := d }) (hwl : ∀ x, wl x = x)
    (he : ∀ s, exec i s = issueG s c twin srcs [{ o := d }] consume (own' s) (eff' s) wl)
    (ho : ∀ s k g act x, ok s k g x → own' s k s g act x = .ok s)
    (hf : ∀ s k g act t, ∃ F : Nat → Word × Bool,
      let x := execLanes g c act
      (∀ l, F (fromLane c act l) = (f s k g x (fromLane c act l) 0, pz s k g x (fromLane c act l)))
      ∧ eff' s k t g act x = .ok (orFlags (writeDst t { k with lanes := act } c x d 0 F) k.core k.slot (fl s k g act x))) :
    Computing i c twin d 1 srcs consume wl ok f pz fl := by
  have : wl = fun x => x := funext hwl
  subst this
  intro s k g act rest p hi hp hok
  rw [he, issueG_passes s k g c twin srcs [{ o := d }] consume (own' s) (eff' s) (fun x => x) act rest p hi hp (ho s k g act _ hok)]
  obtain ⟨F, h1, h2⟩ := hf s k g act (taken s k g c (execLanes g c act) [{ o := d }])
  obtain ⟨h, hw⟩ := wrote1 s k g c act (execLanes g c act) d F hd
  obtain ⟨g', hc⟩ := hw.retires c srcs act rest p (fl s k g act (execLanes g c act)) false hd
    fun _ l _ a1 => dstLanes_act rfl (execLanes_act g c act l a1)
  simp only [h2]
  refine ⟨_, g', rfl, ?_⟩
  · have e1 : (fun (_ l : Nat) => (F (fromLane c act l)).1) = fun r l => f s k g (execLanes g c act) (fromLane c act l) 0 := by
      funext _ l; rw [h1]
    have e2 : (fun l => (F (fromLane c act l)).2) = fun l => pz s k g (execLanes g c act) (fromLane c act l) := by
      funext l; rw [h1]
    rw [e1, e2] at hc
    refine ⟨hc.here, hc.apart, hc.moved, fun l r hr hxl => ?_, hc.regs, hc.sregs, hc.preds, hc.flags⟩
    have hr0 : r = 0 := by omega
    subst hr0
    exact hc.result l 0 hr hxl

/-- An instruction that runs as `issueG` and writes the pair D, D+1. -/
theorem computing2_of {i : Instr} {c : Ctl} {twin : Bool} {d : Opd} {srcs : List SrcUse} {consume : List (Nat × SrcUse)}
    {ok : State → Cur → Group → Mask → Prop} {f : State → Cur → Group → Mask → Nat → Nat → Word}
    {pz : State → Cur → Group → Mask → Nat → Bool}
    {own' eff' : State → Cur → State → Group → Mask → Mask → Own}
    (hd : DstForm c { o := d, n := 2 })
    (he : ∀ s, exec i s = issueG s c twin srcs [{ o := d, n := 2 }] consume (own' s) (eff' s))
    (ho : ∀ s k g act x, ok s k g x → own' s k s g act x = .ok s)
    (hf : ∀ s k g act t, ∃ (F : Nat → Nat → Word) (P : Nat → Bool),
      let x := execLanes g c act
      (∀ r l, r < 2 → F r (fromLane c act l) = f s k g x (fromLane c act l) r)
      ∧ (∀ l, P (fromLane c act l) = pz s k g x (fromLane c act l))
      ∧ eff' s k t g act x = .ok (writeDst (writeDst t { k with lanes := act } c x d 0 fun l => (F 0 l, P l))
          { k with lanes := act } c x d 1 fun l => (F 1 l, P l))) :
    Computing i c twin d 2 srcs consume (fun x => x) ok f pz (fun _ _ _ _ _ => 0) := by
  intro s k g act rest p hi hp hok
  rw [he, issueG_passes s k g c twin srcs [{ o := d, n := 2 }] consume (own' s) (eff' s) (fun x => x) act rest p hi hp
    (ho s k g act _ hok)]
  obtain ⟨F, P, h1, h2, h3⟩ := hf s k g act (taken s k g c (execLanes g c act) [{ o := d, n := 2 }])
  obtain ⟨h, hw⟩ := wrote2 s k g c act (execLanes g c act) d F P hd
  obtain ⟨g', hc⟩ := hw.retires c srcs act rest p 0 false hd
    fun _ l _ a1 => dstLanes_act rfl (execLanes_act g c act l a1)
  simp only [h3]
  refine ⟨_, g', rfl, ?_⟩
  · refine ⟨hc.here, hc.apart, hc.moved, fun l r hr hxl => ?_, hc.regs, hc.sregs, hc.preds, hc.flags⟩
    have := hc.result l r hr hxl
    rw [h1 r l hr, h2 l] at this
    exact this

/-- A mask of the lanes that a test picks is none where the test picks none. -/
theorem maskOf_none {f : Nat → Bool} (h : ∀ l, l < 64 → f l = false) : maskOf f = 0 := by
  apply BitVec.eq_of_getLsbD_eq
  intro l hl
  rw [getLsbD_maskOf, h l hl]
  simp

/-- A word that decodes has passed the row's checks, and is the instruction built from its fields. -/
theorem decodesTo_of {op : BitVec 8} {m : Mn} (hm : Mn.ofOp op = some m) {p : VF → Instr → Prop}
    (h : ∀ f lit i, rowOk m f lit = true → build m f lit = some i → i.opOk = true → p f i) : DecodesTo op p := by
  intro w lit i hw hd
  simp only [decodeWords, decodeWord, hw, hm] at hd
  unfold decodeFields at hd
  split at hd
  · rename_i h1
    split at hd
    · rename_i j hj
      split at hd
      · cases hd
      · split at hd
        · cases hd
          exact h _ _ _ h1 hj (by simp_all)
        · cases hd
    · cases hd
  · cases hd

end Sys2Proof.Machine
end

