-- ==== Sys2Proof/Laws/Decode.lean ====
section
/-! SUPPORT. Laws/Decode.lean: the fields of a word and the word of its fields are inverse, and so is every code of a field. -/
namespace Sys2Proof

theorem ite_eq_of {c : Prop} [Decidable c] {a b x : Bool} (h1 : c → a = x) (h2 : ¬ c → b = x) : (if c then a else b) = x := by
  split
  · exact h1 ‹_›
  · exact h2 ‹_›

theorem pick_field (w : DWord) {i j s n : Nat} (h : j < n) (hs : s + j = i) :
    (decide (j < n) && w.getLsbD (s + j)) = w.getLsbD i := by
  rw [decide_eq_true h, Bool.true_and, hs]

theorem pick_bit (w : DWord) {i j s : Nat} (h : j = 0) (hs : s = i) : (decide (j = 0) && w.getLsbD s) = w.getLsbD i := by
  rw [decide_eq_true h, Bool.true_and, hs]

/-- A word is the word of its own fields. -/
@[simp] theorem join_split (w : DWord) : joinWord (splitWord w) = w := by
  apply BitVec.eq_of_getLsbD_eq
  intro i hi
  simp only [joinWord, splitWord, BitVec.getLsbD_append, BitVec.getLsbD_extractLsb', BitVec.getLsbD_ofBool]
  repeat' (refine ite_eq_of (fun _ => ?_) fun _ => ?_)
  all_goals first
    | exact pick_field w (by omega) (by omega)
    | exact pick_bit w (by omega) (by omega)

/-- The fields of the word that holds fields are those fields: no bit of R274 is dropped or shared. -/
@[simp] theorem split_join (f : VF) : splitWord (joinWord f) = f := by
  obtain ⟨op, u, gn, gp, la, lb, lc, pa, pb, pc, ss, slot, d, a, b, c, md⟩ := f
  simp only [splitWord, VF.mk.injEq]
  refine ⟨?_, ?_, ?_, ?_, ?_, ?_, ?_, ?_, ?_, ?_, ?_, ?_, ?_, ?_, ?_, ?_, ?_⟩
  all_goals first
    | (apply BitVec.eq_of_getLsbD_eq; intro i hi
       rw [BitVec.getLsbD_extractLsb', decide_eq_true hi, Bool.true_and]
       simp only [joinWord, BitVec.getLsbD_append]
       repeat' (refine ite_eq_of (fun _ => ?_) fun _ => ?_)
       all_goals first | (exfalso; omega) | (refine congrArg _ ?_; omega))
    | (simp only [joinWord, BitVec.getLsbD_append, BitVec.getLsbD_ofBool]
       repeat' (refine ite_eq_of (fun _ => ?_) fun _ => ?_)
       all_goals first | (exfalso; omega) | exact Bool.true_and _)

/-! ### Codes -/

theorem decOpd_v (n : Fin 128) : decOpd (BitVec.ofNat 8 n.val) = some (.v n) := by
  have h : (BitVec.ofNat 8 n.val).toNat = n.val := by simp only [BitVec.toNat_ofNat]; omega
  simp only [decOpd, h, n.isLt, dif_pos]

theorem decOpd_s (n : Fin 64) : decOpd (BitVec.ofNat 8 (0x80 + n.val)) = some (.s n) := by
  have h : (BitVec.ofNat 8 (0x80 + n.val)).toNat = 0x80 + n.val := by simp only [BitVec.toNat_ofNat]; omega
  have h1 : ¬ (0x80 + n.val < 128) := by omega
  have h2 : 0x80 + n.val - 0x80 < 64 := by omega
  simp only [decOpd, h, h1, h2, dif_pos, dif_neg, not_false_eq_true]
  exact congrArg (fun n => some (Opd.s n)) (Fin.ext (by simp only; omega))

theorem decOpd_encOpd (o : Opd) : decOpd (encOpd o) = some o := by
  cases o with
  | v n => exact decOpd_v n
  | s n => exact decOpd_s n
  | wf n => revert n; decide
  | w n => revert n; decide
  | m n => revert n; decide
  | _ => decide

theorem decPred_encPred (p : Fin 8) : decPred (encPred p) = some p := by revert p; decide
theorem decSlot_encSlot (n : Option (Fin 16)) : decSlot (encSlot n) = some n := by
  cases n with
  | none => rfl
  | some n => revert n; decide
theorem decPol_encPol (p : Policy) : decPol (encPol p) = some p := by cases p <;> rfl
theorem decSat_encSat (x : Sat) : decSat (encSat x) = some x := by cases x <;> rfl
theorem decRM_encRM (x : RM) : decRM (encRM x) = some x := by cases x <;> rfl
theorem decICC_encICC (x : ICC) : decICC (encICC x) = some x := by cases x <;> rfl
theorem decFCC_encFCC (x : FCC) : decFCC (encFCC x) = some x := by cases x <;> rfl
theorem decBrCond_encBrCond (x : BrCond) : decBrCond (encBrCond x) = some x := by cases x <;> rfl
theorem decTy_encTy (x : Ty) : decTy (encTy x) = some x := by cases x <;> rfl
theorem decShMode_encShMode (x : ShMode) : decShMode (encShMode x) = x := by cases x <;> rfl
theorem decVMode_encVMode (x : VMode) : decVMode (encVMode x) = some x := by cases x <;> rfl
theorem decROp_encROp (x : ROp) : decROp (encROp x) = some x := by cases x <;> rfl
theorem decTk_encTk (x : TkKind) : decTk (encTk x) = some x := by cases x <;> rfl
theorem decMKind_encMKind (x : MKind) : decMKind (encMKind x) = some x := by cases x <;> rfl
theorem decHint_encHint (x : Hint) : decHint (encHint x) = x := by cases x <;> rfl
theorem decOrd_encOrd (x : Ord) : decOrd (encOrd x) = x := by cases x <;> rfl
theorem decAOp_encAOp (x : AOp) : decAOp (encAOp x) = some x := by cases x <;> rfl
theorem decCKind_encCKind (x : CKind) : decCKind (encCKind x) = some x := by cases x <;> rfl
theorem decCSize_encCSize (x : CSize) : decCSize (encCSize x) = some x := by cases x <;> rfl
theorem decDTy_encDTy (x : DTy) : decDTy (encDTy x) = some x := by cases x <;> rfl
theorem decSTy_encSTy (x : STy) : decSTy (encSTy x) = some x := by cases x <;> rfl
theorem decGShape_encGShape (x : GShape) : decGShape (encGShape x) = some x := by cases x <;> rfl
theorem decMTy_encMTy (x : MTy) : decMTy (encMTy x) = some x := by cases x <;> rfl
theorem decMShape_encMShape (x : MShape) : decMShape (encMShape x) = x := by cases x <;> rfl

/-- Every name is found by its opcode, so no two share one (R282). -/
theorem ofOp_op (m : Mn) : Mn.ofOp m.op = some m := by cases m <;> rfl

end Sys2Proof
end

