-- ==== Sys2Proof/Laws/Memory.lean ====
section
/-! SUPPORT. Laws/Memory.lean: a byte read after a write, and the canonical form, which every memory operation keeps. -/
namespace Sys2Proof.Machine

theorem Memory.wf_nil : Memory.wf [] = true := rfl

theorem Memory.wf_tail {c : Host.Cell} {r : Memory} (h : Memory.wf (c :: r) = true) : Memory.wf r = true := by
  cases r with
  | nil => rfl
  | cons d r => simp only [Memory.wf, Bool.and_eq_true] at h; exact h.2

/-- A cell may stand in front of a memory in canonical form when its key is lower than the first one. -/
theorem Memory.wf_cons {c : Host.Cell} {r : Memory} (hc : c.2 ≠ Memory.fill) (hr : Memory.wf r = true)
    (hl : ∀ d, r.head? = some d → c.1 < d.1) : Memory.wf (c :: r) = true := by
  cases r with
  | nil => simp [Memory.wf, hc]
  | cons d r => simp [Memory.wf, hc, hr, hl d rfl]

theorem Memory.head_ne {c : Host.Cell} {r : Memory} (h : Memory.wf (c :: r) = true) : c.2 ≠ Memory.fill := by
  cases r with
  | nil => simpa [Memory.wf] using h
  | cons d r => simp only [Memory.wf, Bool.and_eq_true, bne_iff_ne] at h; exact h.1.1

theorem Memory.head_lt {c d : Host.Cell} {r : Memory} (h : Memory.wf (c :: d :: r) = true) : c.1 < d.1 := by
  simp only [Memory.wf, Bool.and_eq_true, decide_eq_true_eq] at h; exact h.1.2

/-- Every key of a memory in canonical form is above those before it. -/
theorem Memory.lt_of_mem {c : Host.Cell} {r : Memory} (h : Memory.wf (c :: r) = true) : ∀ d, d ∈ r → c.1 < d.1 := by
  induction r generalizing c with
  | nil => intro d hd; cases hd
  | cons e r ih =>
    intro d hd
    have h1 := Memory.head_lt h
    rcases List.mem_cons.1 hd with rfl | hd
    · exact h1
    · exact Nat.lt_trans h1 (ih (Memory.wf_tail h) d hd)

theorem Memory.read_below {m : Memory} {k : Nat} (h : ∀ d, d ∈ m → k < d.1) : Memory.read m k = Memory.fill := by
  cases m with
  | nil => rfl
  | cons c r =>
    have := h c (List.mem_cons_self ..)
    obtain ⟨j, b⟩ := c
    simp only at this
    simp only [Memory.read]
    rw [if_neg (by omega), if_pos this]

/-- A write keeps the canonical form, and lists no key below both the first one and its own. -/
theorem Memory.write_wf (m : Memory) (k : Nat) (b : Byte) (h : Memory.wf m = true) :
    Memory.wf (Memory.write m k b) = true ∧ ∀ d, d ∈ Memory.write m k b → d ∈ m ∨ d.1 = k := by
  induction m with
  | nil =>
    unfold Memory.write
    split
    · exact ⟨rfl, fun d hd => by cases hd⟩
    · next hb => exact ⟨by simp [Memory.wf, hb], fun d hd => .inr (by rw [List.mem_singleton.1 hd])⟩
  | cons c r ih =>
    obtain ⟨j, a⟩ := c
    obtain ⟨ih1, ih2⟩ := ih (Memory.wf_tail h)
    unfold Memory.write
    split
    · next hj =>
      split
      · exact ⟨Memory.wf_tail h, fun d hd => .inl (List.mem_cons_of_mem _ hd)⟩
      · next hb =>
        refine ⟨Memory.wf_cons hb (Memory.wf_tail h) fun d hd => ?_, fun d hd => ?_⟩
        · have := Memory.lt_of_mem h d (List.mem_of_mem_head? hd)
          simp only at this ⊢; omega
        · rcases List.mem_cons.1 hd with rfl | hd
          · exact .inr rfl
          · exact .inl (List.mem_cons_of_mem _ hd)
    · split
      · next hk =>
        split
        · exact ⟨h, fun d hd => .inl hd⟩
        · next hb =>
          refine ⟨Memory.wf_cons hb h fun d hd => ?_, fun d hd => ?_⟩
          · injection hd with hd; subst hd; exact hk
          · rcases List.mem_cons.1 hd with rfl | hd
            · exact .inr rfl
            · exact .inl hd
      · next hj hk =>
        refine ⟨Memory.wf_cons (Memory.head_ne h) ih1 fun d hd => ?_, fun d hd => ?_⟩
        · rcases ih2 d (List.mem_of_mem_head? hd) with hd | hd
          · exact Memory.lt_of_mem h d hd
          · simp only [hd]; omega
        · rcases List.mem_cons.1 hd with rfl | hd
          · exact .inl (List.mem_cons_self ..)
          · rcases ih2 d hd with hd | hd
            · exact .inl (List.mem_cons_of_mem _ hd)
            · exact .inr hd

/-- A read after a write: the byte written at its key, every other byte as before. -/
theorem Memory.read_write (m : Memory) (k : Nat) (b : Byte) (n : Nat) (h : Memory.wf m = true) :
    Memory.read (Memory.write m k b) n = if n = k then b else Memory.read m n := by
  induction m with
  | nil =>
    unfold Memory.write
    by_cases hb : b = Memory.fill
    · simp only [hb, if_true, Memory.read, ite_self]
    · simp only [hb, if_false, Memory.read]
      by_cases hn : n = k
      · simp [hn]
      · rw [if_neg (fun e => hn e.symm), if_neg hn, ite_self]
  | cons c r ih =>
    obtain ⟨j, a⟩ := c
    have ih := ih (Memory.wf_tail h)
    have hlt := Memory.lt_of_mem h
    unfold Memory.write
    by_cases hj : j = k
    · subst hj
      simp only [if_true]
      by_cases hn : n = j
      · subst hn
        simp only [if_true]
        split
        · next hb => rw [hb]; exact Memory.read_below hlt
        · simp [Memory.read]
      · simp only [hn, if_false]
        split
        · simp only [Memory.read, if_neg (fun e : j = n => hn e.symm)]
          split
          · next hk => exact Memory.read_below fun d hd => Nat.lt_trans hk (hlt d hd)
          · rfl
        · simp [Memory.read, if_neg (fun e : j = n => hn e.symm)]
    · simp only [hj, if_false]
      by_cases hk : k < j
      · simp only [hk, if_true]
        split
        · next hb =>
          by_cases hn : n = k
          · subst hn
            rw [if_pos rfl, hb]
            exact Memory.read_below fun d hd => by
              rcases List.mem_cons.1 hd with rfl | hd
              · exact hk
              · exact Nat.lt_trans hk (hlt d hd)
          · rw [if_neg hn]
        · by_cases hn : n = k
          · simp [Memory.read, hn]
          · rw [if_neg hn]
            rw [Memory.read, if_neg (fun e : k = n => hn e.symm)]
            split
            · next hkn =>
              symm
              exact Memory.read_below fun d hd => by
                rcases List.mem_cons.1 hd with rfl | hd
                · simp only; omega
                · have := hlt d hd; simp only at this; omega
            · rfl
      · simp only [hk, if_false, Memory.read]
        by_cases hjn : j = n
        · simp only [hjn, if_true]; rw [if_neg]; omega
        · simp only [hjn, if_false, ih]
          by_cases hnj : n < j
          · simp only [hnj, if_true]; rw [if_neg]; omega
          · simp only [hnj, if_false]

/-- Writes keep the canonical form. -/
theorem Memory.writes_wf (m : Memory) (k : Nat) (bs : List Byte) (h : Memory.wf m = true) :
    Memory.wf (Memory.writes m k bs) = true := by
  induction bs generalizing m k with
  | nil => exact h
  | cons b r ih => exact ih _ _ (Memory.write_wf m k b h).1

theorem Memory.read_writes (m : Memory) (k : Nat) (bs : List Byte) (n : Nat) (h : Memory.wf m = true) :
    Memory.read (Memory.writes m k bs) n = if k ≤ n ∧ n < k + bs.length then bs.getD (n - k) 0 else Memory.read m n := by
  induction bs generalizing m k with
  | nil => rw [if_neg (by simp only [List.length_nil]; omega)]; rfl
  | cons b r ih =>
    rw [Memory.writes, ih _ _ (Memory.write_wf m k b h).1, Memory.read_write m k b n h]
    simp only [List.length_cons]
    by_cases hn : n = k
    · subst hn
      rw [if_neg (by omega), if_pos rfl, if_pos (by omega)]
      simp
    · by_cases h1 : k + 1 ≤ n ∧ n < k + 1 + r.length
      · rw [if_pos h1, if_pos (by omega)]
        have : n - k = n - (k + 1) + 1 := by omega
        rw [this, List.getD_cons_succ]
      · rw [if_neg h1, if_neg hn, if_neg (by omega)]

/-- A stored word keeps the canonical form. -/
theorem memPut_wf (m : Memory) (w : Nat) (x : Stored) (h : Memory.wf m = true) : Memory.wf (memPut m w x) = true :=
  Memory.writes_wf _ _ _ (Memory.writes_wf _ _ _ h)

/-- Storing a word changes its eight data bytes and its two side bytes alone. -/
theorem memPut_others (m : Memory) (w : Nat) (x : Stored) (n : Nat) (h : Memory.wf m = true)
    (h1 : n < 8 * w ∨ 8 * w + 8 ≤ n) (h2 : n ≠ sideKey w) (h3 : n ≠ sideKey w + 1) :
    Memory.read (memPut m w x) n = Memory.read m n := by
  unfold memPut
  simp only
  rw [Memory.read_writes _ _ _ _ (Memory.writes_wf _ _ _ h), if_neg, Memory.read_writes _ _ _ _ h, if_neg]
  · have : (bytesOfWord x.data).length = 8 := by simp [bytesOfWord]
    omega
  · simp only [List.length_cons, List.length_nil]; omega

/-- Leaving cells out keeps the canonical form. -/
theorem Memory.filter_wf (m : Memory) (f : Host.Cell → Bool) (h : Memory.wf m = true) : Memory.wf (m.filter f) = true := by
  induction m with
  | nil => rfl
  | cons c r ih =>
    rw [List.filter_cons]
    split
    · refine Memory.wf_cons (Memory.head_ne h) (ih (Memory.wf_tail h)) fun d hd => ?_
      exact Memory.lt_of_mem h d (List.mem_filter.1 (List.mem_of_mem_head? hd)).1
    · exact ih (Memory.wf_tail h)

theorem hostCells_wf (m : Memory) (h : Memory.wf m = true) : Memory.wf (hostCells m) = true := Memory.filter_wf _ _ h

/-- A write to the host tier keeps the canonical form. -/
theorem hostWrite_wf (s : State) (w : Nat) (d : DWord) (m : BitVec 8) (h : Memory.wf s.mem = true) :
    Memory.wf (hostWrite s w d m).mem = true := by
  unfold hostWrite; exact memPut_wf _ _ _ h

theorem putRecord_wf (s : State) (a : DWord) (r : FaultRec) (h : Memory.wf s.mem = true) :
    Memory.wf (putRecord s a r).mem = true := by
  unfold putRecord
  exact hostWrite_wf _ _ _ _ (hostWrite_wf _ _ _ _ (hostWrite_wf _ _ _ _ (hostWrite_wf _ _ _ _ h)))

/-- Records written into a fault ring keep the canonical form. -/
theorem pumpRecords_wf (s : State) (fn : Nat) (rs : List FaultRec) (h : Memory.wf s.mem = true) :
    Memory.wf (pumpRecords s fn rs).mem = true := by
  induction rs generalizing s with
  | nil => exact h
  | cons r rs ih =>
    unfold pumpRecords
    simp only
    split
    · refine ih _ ?_
      rw [modFn_mem]
      exact putRecord_wf _ _ _ h
    · exact h

theorem queueRecord_wf (s : State) (fn : Nat) (r : FaultRec) (h : Memory.wf s.mem = true) :
    Memory.wf (queueRecord s fn r).mem = true := pumpRecords_wf _ _ _ h

/-- A word of data or a repair that is written keeps the canonical form. -/
theorem putRepair_wf (s : State) (w : Nat) (x : MWord) (h : Memory.wf s.mem = true) :
    Memory.wf (putRepair s w x).mem = true := memPut_wf _ _ _ h

theorem inject_mem (s : State) (w : Nat) (x : Stored) : (inject s w x).2.mem = s.mem := by
  unfold inject
  simp only
  split <;> rfl

theorem putStored_wf (s : State) (w : Nat) (d : DWord) (tag : BitVec 4) (p : Bool) (h : Memory.wf s.mem = true) :
    Memory.wf (putStored s w d tag p).mem = true := by
  have := inject_mem s w ⟨d, tag, if p then poisonSyn else 0⟩
  unfold putStored
  generalize inject s w ⟨d, tag, if p then poisonSyn else 0⟩ = r at this ⊢
  simp only
  split <;> exact memPut_wf _ _ _ (by rw [this]; exact h)

/-- A strike keeps the canonical form. -/
theorem upset_wf (s : State) (u : Upset) (h : Memory.wf s.mem = true) : Memory.wf (upset s u).mem = true := by
  cases u with
  | mem w b =>
    unfold upset
    simp only
    split
    · exact memPut_wf _ _ _ h
    · exact h
  | l1 c w b => unfold upset; simp only; split <;> exact h
  | l2 w b => unfold upset; simp only; split <;> exact h
  | spad l n k b =>
    unfold upset modSet
    simp only
    exact h
  | board c k n =>
    unfold upset modGroup
    simp only
    split <;> exact h
  | result c q x => exact h

/-- The memory after reset is in canonical form. -/
theorem reset_mem_wf : Memory.wf State.reset.mem = true := rfl

end Sys2Proof.Machine
end

