-- ==== Sys2Proof/Laws/Work.lean ====
section
/-! SUPPORT. Laws/Work.lean: what the shared operations do that set work going: items of lanes, atomics on their way, registers turned
empty, entries of the link, commands of a copy queue, and the work of TOPK, REGROUP, TCLM and the matrix licence. -/
namespace Sys2Proof.Machine

/-! ### Items -/

/-- Nothing changes that a lane's work reads but, of core `c`, its L1, its miss entries and its traffic. -/
structure Quiet (t u : State) (c : Nat) : Prop where
  items : (coreAt u c).items = (coreAt t c).items
  groups : (coreAt u c).groups = (coreAt t c).groups
  cores : ∀ i, i ≠ c → coreAt u i = coreAt t i
  mem : u.mem = t.mem
  home : u.home = t.home

theorem Quiet.refl (t : State) (c : Nat) : Quiet t t c := ⟨rfl, rfl, fun _ _ => rfl, rfl, rfl⟩

theorem Quiet.trans {t u v : State} {c : Nat} (h : Quiet t u c) (h' : Quiet u v c) : Quiet t v c where
  items := h'.items.trans h.items
  groups := h'.groups.trans h.groups
  cores i hi := (h'.cores i hi).trans (h.cores i hi)
  mem := h'.mem.trans h.mem
  home := h'.home.trans h.home

theorem quiet_sendMsg (t : State) (c : Nat) (m : HomeMsg) : Quiet t (sendMsg t m) c := ⟨rfl, rfl, fun _ _ => rfl, rfl, rfl⟩

theorem quiet_modCore (t : State) (c : Nat) (f : Core → Core) (hi : (f (coreAt t c)).items = (coreAt t c).items)
    (hg : (f (coreAt t c)).groups = (coreAt t c).groups) : Quiet t (modCore t c f) c :=
  ⟨by simp [hi], by simp [hg], fun i h => by simp [h], rfl, rfl⟩

theorem quiet_writeBack (t : State) (c w : Nat) (x : L1Word) : Quiet t (writeBack t c w x) c := by
  unfold writeBack; split
  · exact quiet_sendMsg ..
  · exact .refl ..

/-- A word that leaves the L1 changes neither the work nor the groups of its core. -/
theorem quiet_flushWord (t : State) (c w : Nat) : Quiet t (flushWord t c w) c := by
  unfold flushWord
  refine Quiet.trans ?_ (quiet_modCore _ _ _ rfl rfl)
  split
  · exact (quiet_writeBack ..).trans (quiet_modCore _ _ _ rfl rfl)
  · exact .refl ..

theorem quiet_sendFlit (t : State) (c i d a : Nat) (b : List DWord) : Quiet t (sendFlit t i d a b) c := by
  unfold sendFlit; exact ⟨rfl, rfl, fun _ _ => rfl, rfl, rfl⟩

theorem quiet_sendReq (t : State) (c n : Nat) : Quiet t (sendReq t n) c := by
  unfold sendReq
  repeat' split
  all_goals first
    | exact .refl ..
    | refine Quiet.trans ?_ (quiet_sendFlit ..)
      exact ⟨rfl, rfl, fun _ _ => rfl, rfl, rfl⟩

/-- An atomic on its way changes neither the work nor the groups of its core, nor memory. -/
theorem quiet_sendAtomic (t : State) (c slot lane op_ : Nat) (y : StoreWay) (acc w off : Nat) (o : AOp) (b b2 : DWord) (ret : Bool) :
    Quiet t (sendAtomic t c slot lane op_ y acc w off o b b2 ret) c := by
  unfold sendAtomic
  split
  · unfold sendRemote
    refine Quiet.trans ?_ (quiet_sendReq ..)
    exact ⟨rfl, rfl, fun _ _ => rfl, rfl, rfl⟩
  · exact (quiet_flushWord ..).trans (quiet_sendMsg ..)

/-- The new items of a core, with what they are. -/
theorem setsOut_of {t u : State} {k : Cur} {g : Group} {is : List Item} {new : List (Nat × Body)}
    (hi : (coreAt u k.core).items = (coreAt t k.core).items ++ is) (hn : is.map (fun i => (i.lane, i.body)) = new)
    (ho : ∀ i, i ∈ is → i.gid = g.gid ∧ i.slot = k.slot ∧ i.launch = g.launch ∧ i.wid = (threadAt g i.lane).wid)
    (hm : u.mem = t.mem) (hh : u.home = t.home) (hc : ∀ c, c ≠ k.core → coreAt u c = coreAt t c) : SetsOut t u k g new where
  before := by simp [hi]
  added := by simp [workSince, hi, hn]
  owner := by simpa [workSince, hi] using ho
  memory _ := by rw [hm]
  home _ := by simp [homeAt, hh]
  cores := hc

/-- Items added one by one, each followed by what is sent for it, are the work set out, in that order. -/
theorem setsOut_fold {α : Type} (k : Cur) (g : Group) (lane : α → Nat) (va : α → DWord) (body : α → Body) (f : α → State → State)
    (hf : ∀ a s, Quiet s (f a s) k.core) (as : List α) (t : State) :
    let u := as.foldl (fun u a => f a (addItem u k g (lane a) (va a) (body a))) t
    (∃ is : List Item, (coreAt u k.core).items = (coreAt t k.core).items ++ is
      ∧ is.map (fun i => (i.lane, i.body)) = as.map (fun a => (lane a, body a))
      ∧ ∀ i, i ∈ is → i.gid = g.gid ∧ i.slot = k.slot ∧ i.launch = g.launch ∧ i.wid = (threadAt g i.lane).wid)
    ∧ (coreAt u k.core).groups = (coreAt t k.core).groups ∧ u.mem = t.mem ∧ u.home = t.home
    ∧ ∀ c, c ≠ k.core → coreAt u c = coreAt t c := by
  induction as generalizing t with
  | nil => exact ⟨⟨[], by simp, rfl, by simp⟩, rfl, rfl, rfl, fun _ _ => rfl⟩
  | cons a r ih =>
    have q := hf a (addItem t k g (lane a) (va a) (body a))
    obtain ⟨⟨is, h1, h2, h3⟩, hg, hm, hh, hc⟩ := ih (f a (addItem t k g (lane a) (va a) (body a)))
    refine ⟨⟨{ laneItem t k g (lane a) (va a) (body a) with id := t.nid } :: is, ?_, ?_, ?_⟩, ?_, ?_, ?_, ?_⟩
    · rw [List.foldl_cons, h1, q.items]; simp [addItem, pushItem, modItems]; rfl
    · simp [h2, laneItem]
    · rintro i hi
      rcases List.mem_cons.1 hi with rfl | hi
      · exact ⟨rfl, rfl, rfl, rfl⟩
      · exact h3 i hi
    · rw [List.foldl_cons, hg, q.groups]; simp [addItem, pushItem, modItems]; rfl
    · rw [List.foldl_cons, hm, q.mem]; rfl
    · rw [List.foldl_cons, hh, q.home]; rfl
    · intro c h; rw [List.foldl_cons, hc c h, q.cores c h]; simp [addItem, pushItem, modItems, h]; rfl

/-- Items added one by one are the work set out, in that order, and change nothing else. -/
theorem setsOut_addItems {α : Type} (k : Cur) (g : Group) (lane : α → Nat) (va : α → DWord) (body : α → Body) (as : List α) (t : State) :
    let u := as.foldl (fun u a => addItem u k g (lane a) (va a) (body a)) t
    SetsOut t u k g (as.map fun a => (lane a, body a)) ∧ (coreAt u k.core).groups = (coreAt t k.core).groups := by
  obtain ⟨⟨is, h1, h2, h3⟩, hg, hm, hh, hc⟩ := setsOut_fold k g lane va body (fun _ s => s) (fun _ _ => .refl _ _) as t
  exact ⟨setsOut_of h1 h2 h3 hm hh hc, hg⟩

/-- R122 to R124: an in-memory operation sets out one item an entry, with the sectors of its run. -/
theorem startInmem_spec (t : State) (k : Cur) (g : Group) (op : Nat) (n : Fin 10) (ds ss : List (LaneAcc × TlbEntry))
    (res : Nat → Option InmemRes) :
    SetsOut t (startInmem t k g op n ds ss res) k g (ds.map fun (q, e) => (q.lane,
      .inmem op (runSectors n (accWord q e) ((ss.find? fun r => r.1.lane == q.lane).map fun r => accWord r.1 r.2)) (accWord q e) (res q.lane)))
    ∧ (coreAt (startInmem t k g op n ds ss res) k.core).groups = (coreAt t k.core).groups := by
  have h := setsOut_addItems k g (fun p : LaneAcc × TlbEntry => p.1.lane) (fun p => p.1.va) (fun p => .inmem op (runSectors n (accWord p.1 p.2)
    ((ss.find? fun r => r.1.lane == p.1.lane).map fun r => accWord r.1 r.2)) (accWord p.1 p.2) (res p.1.lane)) ds t
  unfold startInmem
  exact h

/-! ### Registers turned empty -/

/-- Lanes of a register turned empty. -/
theorem emptyRegs_spec (f : VReg → VReg) (hf : ∀ r, f (f r) = f r) (n : Nat) (is : List Nat) (g : Group) :
    (∀ m, vreg? (is.foldl (fun g i => modReg g (n + i) f) g) m = if ∃ i, i ∈ is ∧ m = n + i then (vreg? g m).map f else vreg? g m)
    ∧ { is.foldl (fun g i => modReg g (n + i) f) g with regs := g.regs } = g := by
  induction is generalizing g with
  | nil => exact ⟨by simp, rfl⟩
  | cons i r ih =>
    obtain ⟨h1, h2⟩ := ih (modReg g (n + i) f)
    refine ⟨fun m => ?_, ?_⟩
    · rw [List.foldl_cons, h1 m]
      simp only [vreg?_modReg]
      by_cases e : m = n + i
      · subst e
        by_cases e2 : i ∈ r <;> cases vreg? g (n + i) <;> simp [e2, hf]
      · by_cases e2 : ∃ j, j ∈ r ∧ m = n + j <;> simp [e, e2]
    · rw [List.foldl_cons]
      generalize List.foldl _ _ r = h at *
      have h3 := modReg_fixed g (n + i) f
      rw [← h2] at h3
      exact h3

/-- R43: lanes of a run of vector registers turn empty; their values, and everything else of the group, stay. -/
theorem markEmpty_v (t : State) (k : Cur) (x : Mask) (d : DstUse) (n : Fin 128) (hd : d.o = .v n) (h : Group)
    (hg : groupAt t k.core k.slot = some h) :
    ∃ h', groupAt (markEmpty t k x d) k.core k.slot = some h' ∧ TurnsEmpty h h' x d.o d.n := by
  obtain ⟨h1, h2⟩ := emptyRegs_spec (fun r => { r with full := r.full &&& ~~~x }) (fun r => by simp [BitVec.and_assoc]) n.val (List.range d.n) h
  have hm : groupAt (markEmpty t k x d) k.core k.slot
      = some ((List.range d.n).foldl (fun g i => modReg g (n.val + i) fun r => { r with full := r.full &&& ~~~x }) h) := by
    unfold markEmpty; rw [hd]; simp [hg]
  rw [hd]
  refine ⟨_, hm, ?_⟩
  generalize (List.range d.n).foldl (fun g i => modReg g (n.val + i) fun r => { r with full := r.full &&& ~~~x }) h = h' at *
  have hs : h'.sregs = h.sregs := (congrArg Group.sregs h2 : _)
  constructor
  · intro l i hi hl
    simp only [Emptied, resolve]
    intro r hr
    rw [h1, if_pos ⟨i, List.mem_range.2 hi, rfl⟩] at hr
    cases hv : vreg? h (n.val + i) with
    | none => rw [hv] at hr; cases hr
    | some y => rw [hv] at hr; injection hr with hr; rw [← hr]; simp [hl]
  · intro m l hl ht
    unfold laneOf
    rw [h1]
    by_cases hm : ∃ i, i ∈ List.range d.n ∧ m = n.val + i
    · rw [if_pos hm]
      obtain ⟨j, hj, rfl⟩ := hm
      have hx : x.getLsbD l = false := by
        have hj := List.mem_range.1 hj
        simpa [takes, resolve, hj] using ht
      rw [BitVec.getLsbD_eq_getElem hl] at hx
      cases vreg? h (n.val + j) <;> simp [hx, hl]
    · rw [if_neg hm]
  · intro m l
    unfold laneOf
    rw [h1]
    by_cases hm : ∃ i, i ∈ List.range d.n ∧ m = n.val + i
    · rw [if_pos hm]; cases vreg? h m <;> simp
    · rw [if_neg hm]; exact ⟨rfl, rfl⟩
  · intro m _; simp only [sregAt, hs]
  · rw [← hs]; exact h2

/-- The items after registers turn empty, and the rest of the machine. -/
theorem markEmpty_quiet (t : State) (k : Cur) (x : Mask) (d : DstUse) :
    (coreAt (markEmpty t k x d) k.core).items = (coreAt t k.core).items ∧ (markEmpty t k x d).mem = t.mem
    ∧ (markEmpty t k x d).home = t.home ∧ ∀ c, c ≠ k.core → coreAt (markEmpty t k x d) c = coreAt t c := by
  have h : ∀ f, (coreAt (modGroup t k.core k.slot f) k.core).items = (coreAt t k.core).items ∧ (modGroup t k.core k.slot f).mem = t.mem
      ∧ (modGroup t k.core k.slot f).home = t.home ∧ ∀ c, c ≠ k.core → coreAt (modGroup t k.core k.slot f) c = coreAt t c := by
    intro f
    unfold modGroup
    split
    · exact ⟨by simp [coreAt_setGroup], rfl, rfl, fun c hc => by simp [coreAt_setGroup, hc]⟩
    · exact ⟨rfl, rfl, rfl, fun _ _ => rfl⟩
  unfold markEmpty
  split
  · exact h _
  · split
    · exact ⟨rfl, rfl, rfl, fun _ _ => rfl⟩
    · exact h _
  · exact h _
  · exact ⟨rfl, rfl, rfl, fun _ _ => rfl⟩

/-- R318, R401: atomics set out one item a lane, which waits for the atomic's answer or for its release, and leave memory as it was. -/
theorem startAtomics_sets (t : State) (k : Cur) (g : Group) (x : Mask) (d : Opd) (b : Src) (o : AtomOp) (hits : List (LaneAcc × TlbEntry)) :
    SetsOut t (startAtomics t k g x d b o hits) k g (hits.map fun (q, e) => (q.lane, atomBody t k g d b o q e)) := by
  have h0 : ∃ v, startAtomics t k g x d b o hits = hits.foldl (fun u (a : LaneAcc × TlbEntry) =>
      (fun (a : LaneAcc × TlbEntry) (s : State) => if o.rel then s else sendAtomic s k.core k.slot a.1.lane k.op (wayOf g a.2 .normal) (s.nid - 1)
        (accWord a.1 a.2) (a.1.va.toNat % 8) o.op (atomB t k g a.1.lane o.op b) (atomB2 t k g a.1.lane o.op b) o.ret) a
        (addItem u k g a.1.lane a.1.va (atomBody t k g d b o a.1 a.2))) v
      ∧ (coreAt v k.core).items = (coreAt t k.core).items ∧ v.mem = t.mem ∧ v.home = t.home ∧ ∀ c, c ≠ k.core → coreAt v c = coreAt t c := by
    refine ⟨if o.ret then markEmpty (markWrites t g.launch (writtenWords hits)) k x { o := d, n := o.op.regs, queued := true }
      else markWrites t g.launch (writtenWords hits), rfl, ?_⟩
    split
    · exact markEmpty_quiet ..
    · exact ⟨rfl, rfl, rfl, fun _ _ => rfl⟩
  obtain ⟨v, hv, v1, v2, v3, v4⟩ := h0
  rw [hv]
  obtain ⟨⟨is, h1, h2, h3⟩, -, hm, hh, hc⟩ := setsOut_fold k g (fun a : LaneAcc × TlbEntry => a.1.lane) (fun a => a.1.va)
    (fun a => atomBody t k g d b o a.1 a.2) (fun (a : LaneAcc × TlbEntry) (s : State) => if o.rel then s else
      sendAtomic s k.core k.slot a.1.lane k.op (wayOf g a.2 .normal) (s.nid - 1) (accWord a.1 a.2) (a.1.va.toNat % 8) o.op
        (atomB t k g a.1.lane o.op b) (atomB2 t k g a.1.lane o.op b) o.ret)
    (fun a s => by split; exact .refl ..; exact quiet_sendAtomic ..) hits v
  exact setsOut_of (by rw [h1, v1]) h2 h3 (hm.trans v2) (hh.trans v3) fun c h => (hc c h).trans (v4 c h)

/-! ### The link, the licence and the copy queues -/

theorem takeWhile_all {α : Type} {p : α → Bool} {xs : List α} (h : ∀ x, x ∈ xs → p x = true) : xs.takeWhile p = xs := by
  induction xs with
  | nil => rfl
  | cons a r ih => simp [h a (List.mem_cons_self ..), ih fun x hx => h x (List.mem_cons_of_mem a hx)]

theorem dropWhile_all {α : Type} {p : α → Bool} {xs : List α} (h : ∀ x, x ∈ xs → p x = true) : xs.dropWhile p = [] := by
  induction xs with
  | nil => rfl
  | cons a r ih => simp [h a (List.mem_cons_self ..), ih fun x hx => h x (List.mem_cons_of_mem a hx)]

/-- R183: an entry pushed stands behind every entry of its core, but for those that higher quarters pushed in the same cycle. -/
theorem pushFifo_last (t : State) (c q : Nat) (v : List Word)
    (h : ∀ e, e ∈ (coreAt t c).link → e.since = podClock t (podOf c) → e.quarter ≤ q) :
    (coreAt (pushFifo t c q v) c).link = (coreAt t c).link ++ [⟨podClock t (podOf c), q, .fifo v⟩] := by
  have hb : ∀ e, e ∈ (coreAt t c).link → (!(e.since == podClock t (podOf c) && decide (q < e.quarter))) = true := by
    intro e he
    by_cases h2 : e.since = podClock t (podOf c)
    · have := h e he h2
      simp [h2]; omega
    · simp [h2]
  simp only [pushFifo, pushLink, coreAt_modCore, if_true]
  rw [takeWhile_all hb, dropWhile_all hb]

theorem pushFifo_before (t : State) (c q : Nat) (v : List Word) (e : LinkSlot) (h : (coreAt t c).link = [e])
    (h2 : e.since = podClock t (podOf c)) (hq : q < e.quarter) :
    (coreAt (pushFifo t c q v) c).link = [⟨podClock t (podOf c), q, .fifo v⟩, e] := by
  simp [pushFifo, pushLink, h, h2, hq]

theorem pushFifo_rest (t : State) (c q : Nat) (v : List Word) :
    (coreAt (pushFifo t c q v) c).fifo = (coreAt t c).fifo ∧ (coreAt (pushFifo t c q v) c).groups = (coreAt t c).groups
    ∧ ∀ i, i ≠ c → coreAt (pushFifo t c q v) i = coreAt t i :=
  ⟨by simp [pushFifo, pushLink], by simp [pushFifo, pushLink], fun i h => by simp [pushFifo, pushLink, h]⟩

/-- R179: asking for the licence changes the request of the core and nothing else. -/
theorem requestLic_spec (s : State) (c : Nat) :
    (if isUpper c then (podAt (requestLic s c) (podOf c)).reqUp else (podAt (requestLic s c) (podOf c)).reqLo) = true
    ∧ (podAt (requestLic s c) (podOf c)).lic = (podAt s (podOf c)).lic
    ∧ (podAt (requestLic s c) (podOf c)).drainAt = (podAt s (podOf c)).drainAt
    ∧ (if isUpper c then (podAt (requestLic s c) (podOf c)).reqLo = (podAt s (podOf c)).reqLo
      else (podAt (requestLic s c) (podOf c)).reqUp = (podAt s (podOf c)).reqUp)
    ∧ (∀ q, q ≠ podOf c → podAt (requestLic s c) q = podAt s q) ∧ ∀ d, coreAt (requestLic s c) d = coreAt s d := by
  refine ⟨?_, ?_, ?_, ?_, fun q h => by simp [requestLic, h], fun _ => rfl⟩ <;> cases h : isUpper c <;>
    simp [requestLic, h]

/-- R180: a handover starts, drains from now unless a fired round still runs, and keeps its core's request where a round stands ready. -/
theorem startHandover_spec (s : State) (p : Nat) (up : Bool) (hp : p < 96) :
    let c := if up then p + 96 else p
    let u := startHandover s p up
    (podAt u p).lic = .handover up
    ∧ (podAt u p).drainAt = (if (coreAt s c).rounds.any (·.fired) then none else some (podClock s p))
    ∧ (((coreAt s c).rounds.any fun r => !r.fired) = true → (if up then (podAt u p).reqUp else (podAt u p).reqLo) = true)
    ∧ (if up then (podAt u p).reqLo = (podAt s p).reqLo else (podAt u p).reqUp = (podAt s p).reqUp)
    ∧ (∀ q, q ≠ p → podAt u q = podAt s q) ∧ (∀ c, coreAt u c = coreAt s c)
    ∧ ∀ i, Memory.read u.mem i = Memory.read s.mem i := by
  have hc : podOf (if up then p + 96 else p) = p := by unfold podOf; split <;> omega
  have hu : isUpper (if up then p + 96 else p) = up := by unfold isUpper; cases up <;> simp <;> omega
  intro c u
  change podOf c = p at hc
  change isUpper c = up at hu
  generalize hd : (if (coreAt s c).rounds.any (·.fired) then none else some (podClock s p)) = d
  have ht : u = roundRequest (modPod s p fun q => { q with lic := .handover up, drainAt := d }) c := by rw [← hd]; rfl
  generalize hq : (modPod s p fun q => { q with lic := .handover up, drainAt := d }) = t at ht
  have hp1 : podAt t p = { podAt s p with lic := .handover up, drainAt := d } := by rw [← hq]; simp
  have hp2 : ∀ q, q ≠ p → podAt t q = podAt s q := by intro q h; rw [← hq]; simp [h]
  have hcore : ∀ i, coreAt t i = coreAt s i := by intro i; rw [← hq]; rfl
  have hmem : u.mem = s.mem := by
    rw [ht, ← hq]; unfold roundRequest; split <;> rfl
  have hl : holdsLic t c = false := by simp only [holdsLic, hc, hp1]; rfl
  obtain ⟨r1, r2, r3, r4, r5, r6⟩ := requestLic_spec t c
  rw [hc, hu] at r1 r4
  rw [hc] at r2 r3 r5
  by_cases h : ((coreAt s c).rounds.any fun r => !r.fired) = true
  · have e : u = requestLic t c := by rw [ht, roundRequest, hcore, hl, h]; rfl
    rw [e] at hmem ⊢
    exact ⟨by rw [r2, hp1], by rw [r3, hp1], fun _ => r1, by cases up <;> simpa [hp1] using r4,
      fun q hq => (r5 q hq).trans (hp2 q hq), fun i => (r6 i).trans (hcore i), fun _ => by rw [hmem]⟩
  · have e : u = t := by rw [ht, roundRequest, hcore, hl, (by simpa using h : ((coreAt s c).rounds.any fun r => !r.fired) = false)]; rfl
    rw [e] at hmem ⊢
    exact ⟨by rw [hp1], by rw [hp1], fun h2 => absurd h2 h, by cases up <;> simp [hp1], hp2, hcore, fun _ => by rw [hmem]⟩

/-- R154: a command accepted stands at the tail of its queue, unless a higher quarter put one there in the same cycle. -/
theorem acceptCmd_tail (s : State) (c q : Nat) (e : CopyCmd)
    (h : ∀ f, f ∈ tget (coreAt s c).cq q [] → (coreAt s c).cqCycle = podClock s (podOf c) → cmdNum f ∈ (coreAt s c).cqNew →
      cmdSlot f / 32 ≤ cmdSlot e / 32) :
    tget (coreAt (acceptCmd s c q e) c).cq q [] = tget (coreAt s c).cq q [] ++ [e] := by
  have hb : ∀ f, f ∈ tget (coreAt s c).cq q [] →
      (!((if (coreAt s c).cqCycle = podClock s (podOf c) then (coreAt s c).cqNew else []).contains (cmdNum f)
        && decide (cmdSlot e / 32 < cmdSlot f / 32) && !cmdBegun f)) = true := by
    intro f hf
    by_cases h2 : (coreAt s c).cqCycle = podClock s (podOf c)
    · by_cases h3 : cmdNum f ∈ (coreAt s c).cqNew
      · have := h f hf h2 h3
        have : ¬ cmdSlot e / 32 < cmdSlot f / 32 := by omega
        simp [this]
      · simp [h2, h3]
    · simp [h2]
  simp only [acceptCmd, coreAt_modCore, if_true, tget_tset]
  rw [takeWhile_all hb, dropWhile_all hb]

theorem acceptCmd_rest (s : State) (c q : Nat) (e : CopyCmd) :
    (∀ j, j ≠ q → tget (coreAt (acceptCmd s c q e) c).cq j [] = tget (coreAt s c).cq j [])
    ∧ (∀ n, n ∈ (coreAt (acceptCmd s c q e) c).cqNew →
      n = cmdNum e ∨ ((coreAt s c).cqCycle = podClock s (podOf c) ∧ n ∈ (coreAt s c).cqNew))
    ∧ (∀ d, d ≠ c → coreAt (acceptCmd s c q e) d = coreAt s d) ∧ (acceptCmd s c q e).nid = s.nid
    ∧ (acceptCmd s c q e).mem = s.mem := by
  refine ⟨fun j h => by simp [acceptCmd, h], fun n hn => ?_, fun d h => by simp [acceptCmd, h], rfl, rfl⟩
  simp only [acceptCmd, coreAt_modCore, if_true] at hn
  rcases List.mem_append.1 hn with hn | hn
  · by_cases h : (coreAt s c).cqCycle = podClock s (podOf c)
    · simp only [h, if_true] at hn; exact .inr ⟨h, hn⟩
    · simp [h] at hn
  · exact .inl (List.mem_singleton.1 hn)

/-- R154: the commands of one instruction stand at the tail of its queue in their order, numbered on from the next number. -/
theorem acceptCmds_tail (k : Cur) (q : Nat) (cs : List (Nat → CopyCmd)) (s : State)
    (hf : ∀ f n, f ∈ cs → cmdNum (f n) = n ∧ cmdSlot (f n) = k.slot)
    (h : ∀ e, e ∈ tget (coreAt s k.core).cq q [] →
      ((coreAt s k.core).cqCycle = podClock s (podOf k.core) ∧ cmdNum e ∈ (coreAt s k.core).cqNew) ∨ s.nid ≤ cmdNum e →
      cmdSlot e / 32 ≤ k.slot / 32) :
    tget (coreAt (acceptCmds s k q cs) k.core).cq q []
      = tget (coreAt s k.core).cq q [] ++ (cs.zip (List.range cs.length)).map (fun e => e.1 (s.nid + e.2)) := by
  induction cs generalizing s with
  | nil => simp [acceptCmds]
  | cons f r ih =>
    have h0 : ∀ (j : State), j = { s with nid := s.nid + 1 } → coreAt j k.core = coreAt s k.core ∧ podClock j (podOf k.core) = podClock s (podOf k.core) := by
      rintro j rfl; exact ⟨rfl, rfl⟩
    generalize hj : ({ s with nid := s.nid + 1 } : State) = j at h0
    obtain ⟨h1, h2⟩ := h0 j rfl
    have hn : j.nid = s.nid + 1 := by rw [← hj]
    obtain ⟨n1, n2⟩ := hf f s.nid (List.mem_cons_self ..)
    have ht := acceptCmd_tail j k.core q (f s.nid) (fun e he hcy hin => by
      rw [h1] at he hcy hin; rw [h2] at hcy; rw [n2]; exact h e he (.inl ⟨hcy, hin⟩))
    obtain ⟨-, a2, -, a4, -⟩ := acceptCmd_rest j k.core q (f s.nid)
    have e1 : acceptCmds s k q (f :: r) = acceptCmds (acceptCmd j k.core q (f s.nid)) k q r := by rw [← hj]; rfl
    rw [e1, ih _ (fun g n hg => hf g n (List.mem_cons_of_mem f hg)), ht, h1]
    · rw [a4, hn, List.length_cons, List.range_succ_eq_map]
      simp only [List.zip_cons_cons, List.map_cons, List.append_assoc, List.cons_append, List.nil_append, Nat.add_zero, List.zip_map_right,
        List.map_map]
      congr 2
      apply List.map_congr_left
      rintro ⟨a, b⟩ -
      simp [Nat.add_assoc, Nat.add_comm 1]
    · rw [ht, h1, a4, hn]
      intro e he hor
      rcases List.mem_append.1 he with he | he
      · apply h e he
        rcases hor with ⟨-, hin⟩ | hge
        · rcases a2 _ hin with e2 | ⟨hc2, hin2⟩
          · exact .inr (Nat.le_of_eq (e2.trans n1).symm)
          · rw [h1] at hc2 hin2; rw [h2] at hc2; exact .inl ⟨hc2, hin2⟩
        · exact .inr (by omega)
      · exact Nat.le_of_eq (by rw [List.mem_singleton.1 he, n2])

/-- Accepting commands changes no other queue, no other core and no memory. -/
theorem acceptCmds_rest (k : Cur) (q : Nat) (cs : List (Nat → CopyCmd)) (s : State) :
    (∀ j, j ≠ q → tget (coreAt (acceptCmds s k q cs) k.core).cq j [] = tget (coreAt s k.core).cq j [])
    ∧ (∀ c, c ≠ k.core → coreAt (acceptCmds s k q cs) c = coreAt s c)
    ∧ (acceptCmds s k q cs).nid = s.nid + cs.length ∧ (acceptCmds s k q cs).mem = s.mem := by
  induction cs generalizing s with
  | nil => exact ⟨fun _ _ => rfl, fun _ _ => rfl, rfl, rfl⟩
  | cons f r ih =>
    obtain ⟨i1, i2, i3, i4⟩ := ih (acceptCmd { s with nid := s.nid + 1 } k.core q (f s.nid))
    obtain ⟨a1, -, a3, a4, a5⟩ := acceptCmd_rest { s with nid := s.nid + 1 } k.core q (f s.nid)
    refine ⟨fun j h => (i1 j h).trans (a1 j h), fun c h => (i2 c h).trans (a3 c h), ?_, i4.trans a5⟩
    rw [show acceptCmds s k q (f :: r) = acceptCmds (acceptCmd { s with nid := s.nid + 1 } k.core q (f s.nid)) k q r from rfl, i3, a4]
    simp [Nat.add_assoc, Nat.add_comm 1]

theorem zip_range_get {α : Type} {xs : List α} {i : Nat} {a : α} (h : xs[i]? = some a) :
    (xs.zip (List.range xs.length))[i]? = some (a, i) :=
  List.getElem?_zip_eq_some.2 ⟨h, List.getElem?_range (List.getElem?_eq_some_iff.1 h).1⟩

/-- A lane is in one of the commands of byComp, with the lanes of the same completion. -/
theorem mem_byComp (vs : List (Nat × Word)) (ls : List Nat) :
    ls ∈ byComp vs ↔ ∃ e, e ∈ vs ∧ ls = (vs.filter fun f => f.2 == e.2).map (·.1) := by
  simp only [byComp, List.mem_map, List.mem_eraseDups]
  constructor
  · rintro ⟨v, ⟨e, he, rfl⟩, rfl⟩; exact ⟨e, he, rfl⟩
  · rintro ⟨e, he, rfl⟩; exact ⟨e.2, ⟨e, he, rfl⟩, rfl⟩

theorem laneCmds_length (s : State) (k : Cur) (g : Group) (op : CopyOp) (bytes : Nat) (vs : List (Nat × Word))
    (units : Nat → Nat → List CopyUnit) : (laneCmds s k g op bytes vs units).length = (byComp vs).length := by simp [laneCmds]

theorem laneCmds_num (s : State) (k : Cur) (g : Group) (op : CopyOp) (bytes : Nat) (vs : List (Nat × Word))
    (units : Nat → Nat → List CopyUnit) (f : Nat → CopyCmd) (n : Nat) (hf : f ∈ laneCmds s k g op bytes vs units) :
    cmdNum (f n) = n ∧ cmdSlot (f n) = k.slot := by
  obtain ⟨ls, -, rfl⟩ := List.mem_map.1 hf
  exact ⟨rfl, rfl⟩

/-- R309, R315: the command of the lanes of one completion: their units in lane order, and a run of each lane that names it. -/
theorem laneCmds_spec (s : State) (k : Cur) (g : Group) (op : CopyOp) (bytes : Nat) (vs : List (Nat × Word))
    (units : Nat → Nat → List CopyUnit) (i : Nat) (ls : List Nat) (hi : (byComp vs)[i]? = some ls) (hd : (vs.map (·.1)).Nodup) :
    ∃ f, (laneCmds s k g op bytes vs units)[i]? = some f ∧ ∀ n, ∃ (us : List CopyUnit) (rs : List CopyRun),
      f n = .cmd n g.gid k.slot g.launch g.set g.fn op us rs false
      ∧ us = (ls.zip (List.range ls.length)).flatMap (fun e => units e.1 e.2)
      ∧ rs.length = ls.length
      ∧ ∀ (j l : Nat) (v : Word), ls[j]? = some l → (l, v) ∈ vs →
        ∃ r : CopyRun, rs[j]? = some r ∧ r.lane = l ∧ r.wid = (threadAt g l).wid ∧ r.bytes = bytes ∧ r.comp = compRef s g l v := by
  have hfind : ∀ (vs : List (Nat × Word)) (l : Nat) (v : Word), (vs.map (·.1)).Nodup → (l, v) ∈ vs →
      vs.find? (fun e => e.1 == l) = some (l, v) := by
    intro vs l v
    induction vs with
    | nil => intro _ h; cases h
    | cons a r ih =>
      intro hd h
      rw [List.map_cons, List.nodup_cons] at hd
      rcases List.mem_cons.1 h with rfl | h
      · simp
      · rw [List.find?_cons_of_neg, ih hd.2 h]
        intro he
        have he : a.1 = l := by simpa using he
        exact hd.1 (List.mem_map.2 ⟨(l, v), h, he.symm⟩)
  refine ⟨_, by simp only [laneCmds, List.getElem?_map, hi]; rfl, fun n => ⟨_, _, rfl, rfl, by simp, ?_⟩⟩
  intro j l v hj hv
  refine ⟨_, by rw [List.getElem?_map, zip_range_get hj]; rfl, rfl, rfl, rfl, ?_⟩
  simp [hfind vs l v hd hv]

/-! ### TOPK and REGROUP -/

/-- R432: TOPK answers every executing lane: the first lanes with the ranks in turn, the others with 0xFFFFFFFF. -/
theorem topkRes_spec (kind : TkKind) (n : Nat) (vs : List (Nat × Word)) :
    (topkRes kind n vs).map (·.1) = vs.map (·.1)
    ∧ ∀ i l v, vs[i]? = some (l, v) → ∃ r z, (topkRes kind n vs)[i]? = some (l, r, z)
      ∧ (if i < n then ∃ e, (ranked kind vs)[i]? = some e ∧ r = BitVec.ofNat 32 e.1 ∧ z = e.2 else r = 0xFFFFFFFF ∧ z = 0) := by
  have hlen : ∀ (r xs : List (Nat × Word)), (xs.foldl (fun (r : List (Nat × Word)) e =>
      (r.takeWhile fun f => !topBefore kind e.2 f.2) ++ e :: (r.dropWhile fun f => !topBefore kind e.2 f.2)) r).length = r.length + xs.length := by
    intro r xs
    induction xs generalizing r with
    | nil => rfl
    | cons a t ih =>
      rw [List.foldl_cons, ih]
      have := congrArg List.length (List.takeWhile_append_dropWhile (p := fun f => !topBefore kind a.2 f.2) (l := r))
      simp only [List.length_append, List.length_cons] at this ⊢
      omega
  have hr : (ranked kind vs).length = vs.length := by simpa [ranked] using hlen [] vs
  refine ⟨?_, ?_⟩
  · have h : ∀ e, e ∈ vs.zip (List.range vs.length) →
        (fun e : Nat × Word × Word => e.1) ((fun e : (Nat × Word) × Nat => if e.2 < min n vs.length then
          (e.1.1, BitVec.ofNat 32 ((ranked kind vs).getD e.2 (0, 0)).1, ((ranked kind vs).getD e.2 (0, 0)).2)
        else (e.1.1, 0xFFFFFFFF, 0)) e) = e.1.1 := by intro e _; simp only; split <;> rfl
    simp only [topkRes, List.map_map]
    refine (List.map_congr_left h).trans ?_
    have h2 : (vs.zip (List.range vs.length)).map Prod.fst = vs := List.map_fst_zip (by simp)
    generalize vs.zip (List.range vs.length) = z at h2
    rw [← h2, List.map_map]; rfl
  · intro i l v h
    have hlt : i < vs.length := (List.getElem?_eq_some_iff.1 h).1
    have hg : (topkRes kind n vs)[i]? = some (if i < min n vs.length then
        (l, BitVec.ofNat 32 ((ranked kind vs).getD i (0, 0)).1, ((ranked kind vs).getD i (0, 0)).2) else (l, 0xFFFFFFFF, 0)) := by
      simp only [topkRes, List.getElem?_map]
      rw [zip_range_get h]
      rfl
    have hi : i < (ranked kind vs).length := by rw [hr]; exact hlt
    by_cases hn : i < n
    · have hm : i < min n vs.length := by omega
      rw [if_pos hm] at hg
      refine ⟨_, _, hg, ?_⟩
      rw [if_pos hn]
      exact ⟨_, List.getElem?_eq_getElem hi, by simp [List.getD, hi], by simp [List.getD, hi]⟩
    · have hm : ¬ i < min n vs.length := by omega
      rw [if_neg hm] at hg
      exact ⟨_, _, hg, by rw [if_neg hn]; exact ⟨rfl, rfl⟩⟩

/-- R405: what a lane takes into the regrouping store. -/
theorem regroupEntry_spec (s : State) (k : Cur) (g : Group) (key : Word) (carry : Word) (pc : DWord) (l : Nat) :
    let r := regroupEntry s k g key carry pc l
    r.launch = g.launch ∧ r.key = key ∧ r.pc = pc ∧ r.wid = (threadAt g l).wid ∧ r.depth = (threadAt g l).depth ∧ r.donor = g.gid
      ∧ r.carried.map (·.1) = carriedNames g carry
      ∧ ∀ n v pz, (n, v, pz) ∈ r.carried → (v, pz) = ((laneOf g n l).1, (laneOf g n l).2.2) := by
  refine ⟨rfl, rfl, rfl, rfl, rfl, rfl, ?_, ?_⟩
  · simp only [regroupEntry, List.map_map]
    refine (List.map_congr_left fun n _ => ?_).trans (List.map_id _)
    simp only [Function.comp]
    cases vreg? g n <;> rfl
  · intro n v pz h
    obtain ⟨m, -, hm⟩ := List.mem_map.1 h
    unfold laneOf
    cases hv : vreg? g m with
    | none => rw [hv] at hm; injection hm with h1 h2; injection h2 with h2 h3; subst h1; rw [hv, h2, h3]
    | some r => rw [hv] at hm; injection hm with h1 h2; injection h2 with h2 h3; subst h1; rw [hv]; simp only; rw [h2, h3]

/-! ### TCLM -/

theorem tileAt_modTile (s : State) (c n m : Nat) (f : Tile → Tile) :
    tileAt (modTile s c n f) c m = if m = n then f (tileAt s c n) else tileAt s c m := by
  simp only [tileAt, modTile, coreAt_modCore, if_true, tget_tset]

theorem tileAt_modGroup (s : State) (c n : Nat) (f : Group → Group) (d m : Nat) : tileAt (modGroup s c n f) d m = tileAt s d m := by
  unfold modGroup
  split
  · simp only [tileAt, coreAt_setGroup]; split <;> simp_all
  · rfl

theorem groupAt_modTile (s : State) (c n d m : Nat) (f : Tile → Tile) : groupAt (modTile s c n f) d m = groupAt s d m := by
  simp only [groupAt, modTile, coreAt_modCore]; split <;> simp_all

/-- Claiming slots, or giving them back. -/
theorem claimTiles_spec (c : Nat) (o : Option (Nat × Nat)) (ns : List Nat) (s : State) :
    let u := ns.foldl (fun s n => modTile s c n fun t => { t with claim := o }) s
    (∀ n, tileAt u c n = if n ∈ ns then { tileAt s c n with claim := o } else tileAt s c n)
    ∧ (∀ d n, groupAt u d n = groupAt s d n) ∧ ∀ i, i ≠ c → coreAt u i = coreAt s i := by
  induction ns generalizing s with
  | nil => exact ⟨by simp, fun _ _ => rfl, fun _ _ => rfl⟩
  | cons a r ih =>
    obtain ⟨h1, h2, h3⟩ := ih (modTile s c a fun t => { t with claim := o })
    refine ⟨fun n => ?_, fun d n => (h2 d n).trans (groupAt_modTile ..), fun i hi => (h3 i hi).trans (by simp [modTile, hi])⟩
    rw [List.foldl_cons, h1 n]
    simp only [tileAt_modTile]
    by_cases e : n = a <;> by_cases e2 : n ∈ r <;> simp [e, e2]

/-- R426, R427: a TCLM that acts takes all its slots where all are free, and says so in its predicate. -/
theorem actClaim_spec (s : State) (c : Nat) (e : Claim) :
    let free := e.names.all fun n => (tileAt s c n).claim.isNone && !(tileAt s c n).clearing
    let u := actClaim s c e
    (∀ n, tileAt u c n = if free = true ∧ n ∈ e.names then { tileAt s c n with claim := some e.owner } else tileAt s c n)
    ∧ (∀ n, groupAt u c n = (groupAt s c n).map fun g =>
      if n = e.slot ∧ g.gid = e.gid then setPred g e.pred e.lanes (allMask free) 0 else g)
    ∧ ∀ i, i ≠ c → coreAt u i = coreAt s i := by
  intro free u
  generalize hf : free = b
  obtain ⟨h1, h2, h3⟩ := claimTiles_spec c (some e.owner) e.names s
  have hu : u = modCore (modGroup (if b then e.names.foldl (fun s n => modTile s c n fun t => { t with claim := some e.owner }) s else s) c e.slot
      fun g => if g.gid = e.gid then setPred g e.pred e.lanes (allMask b) 0 else g) c
      fun x => { x with claims := x.claims ++ [{ e with won := b }] } := by rw [← hf]; rfl
  generalize hv : (if b then e.names.foldl (fun s n => modTile s c n fun t => { t with claim := some e.owner }) s else s) = v at hu
  have v1 : ∀ n, tileAt v c n = if b = true ∧ n ∈ e.names then { tileAt s c n with claim := some e.owner } else tileAt s c n := by
    intro n; rw [← hv]; cases b
    · simp
    · simpa using h1 n
  have v2 : ∀ n, groupAt v c n = groupAt s c n := by
    intro n; rw [← hv]; cases b
    · rfl
    · exact h2 c n
  have v3 : ∀ i, i ≠ c → coreAt v i = coreAt s i := by
    intro i hi; rw [← hv]; cases b
    · rfl
    · exact h3 i hi
  have w1 : ∀ n, tileAt (modGroup v c e.slot fun g => if g.gid = e.gid then setPred g e.pred e.lanes (allMask b) 0 else g) c n = tileAt v c n :=
    fun n => tileAt_modGroup ..
  have w2 := fun n => groupAt_modGroup v c e.slot c n fun g => if g.gid = e.gid then setPred g e.pred e.lanes (allMask b) 0 else g
  have w3 : ∀ i, i ≠ c → coreAt (modGroup v c e.slot fun g => if g.gid = e.gid then setPred g e.pred e.lanes (allMask b) 0 else g) i
      = coreAt v i := by
    intro i hi; unfold modGroup; split
    · simp [coreAt_setGroup, hi]
    · rfl
  generalize (modGroup v c e.slot fun g => if g.gid = e.gid then setPred g e.pred e.lanes (allMask b) 0 else g) = w at *
  refine ⟨fun n => ?_, fun n => ?_, fun i hi => ?_⟩
  · rw [← v1 n, ← w1 n, hu]; simp [tileAt]
  · have : groupAt u c n = groupAt w c n := by rw [hu]; simp [groupAt]
    rw [this, w2 n, v2 e.slot, v2 n]
    by_cases e1 : n = e.slot
    · subst e1; simp
    · simp [e1]
  · rw [hu, ← v3 i hi, ← w3 i hi]; simp [hi]

/-- R427: a TCLM for which no higher quarter claimed in the same cycle. -/
theorem addClaim_spec (s : State) (c : Nat) (e : Claim)
    (h : (coreAt s c).claimCycle = podClock s (podOf c) → ∀ f, f ∈ (coreAt s c).claims → f.quarter ≤ e.quarter) :
    let free := e.names.all fun n => (tileAt s c n).claim.isNone && !(tileAt s c n).clearing
    let u := addClaim s c e
    (∀ n, tileAt u c n = if free = true ∧ n ∈ e.names then { tileAt s c n with claim := some e.owner } else tileAt s c n)
    ∧ (∀ n, groupAt u c n = (groupAt s c n).map fun g =>
      if n = e.slot ∧ g.gid = e.gid then setPred g e.pred e.lanes (allMask free) 0 else g)
    ∧ ∀ i, i ≠ c → coreAt u i = coreAt s i := by
  have hl : (if (coreAt s c).claimCycle = podClock s (podOf c) then (coreAt s c).claims else []).filter
      (fun f => decide (e.quarter < f.quarter)) = [] := by
    rw [List.filter_eq_nil_iff]
    intro f hf
    by_cases h2 : (coreAt s c).claimCycle = podClock s (podOf c)
    · rw [if_pos h2] at hf
      have := h h2 f hf
      simp; omega
    · rw [if_neg h2] at hf; cases hf
  have hu : ∃ t : State, addClaim s c e = actClaim t c e ∧ (∀ n, tileAt t c n = tileAt s c n) ∧ (∀ n, groupAt t c n = groupAt s c n)
      ∧ ∀ i, i ≠ c → coreAt t i = coreAt s i := by
    refine ⟨_, by simp only [addClaim]; rw [hl]; rfl, fun n => ?_, fun n => ?_, fun i hi => ?_⟩
    · simp [tileAt]
    · simp [groupAt]
    · simp [hi]
  obtain ⟨t, ht, t1, t2, t3⟩ := hu
  obtain ⟨a1, a2, a3⟩ := actClaim_spec t c e
  simp only [t1, t2] at a1 a2
  intro free u
  rw [show u = actClaim t c e from ht]
  exact ⟨a1, a2, fun i hi => (a3 i hi).trans (t3 i hi)⟩

end Sys2Proof.Machine
end

