-- ==== Sys2Proof/Tests/Slice0.lean ====
section
/-! SUPPORT. Tests/Slice0.lean: terms that WellFormed refuses, the spec's words decoded, results of single steps that the spec
states, and a state and operands that meet the hypotheses of each claim. -/
namespace Sys2Proof.Tests
open Sys2Proof Sys2Proof.Machine
set_option Elab.async false

/-- Register sources. -/
def v (n : Fin 128) : Src := { o := .v n }
def s (n : Fin 64) : Src := { o := .s n }
def U : Ctl := { u := true }

/-! ### WellFormed: an ill-formed term for each check -/

/-- U where the row does not allow it (R274, R283 to R295). -/
theorem test_wf_no_uniform : ([.nop U, .bra U 0, .call U (.v 0) 0, .meet U 0 0, .trap U 0, .waite U 1, .raybox U (.v 0) (v 0) (v 8),
    .shfl U (.v 0) (v 0) (v 1) .idx, .ld U (.v 0) (v 0) (v 2) .b32 .normal false 0, .atom U (.v 0) (v 0) (v 2) .add32 .plain 0,
    .fence U .plain, .bar U 0 0, .acp U (.v 0) (v 0) (.lit 0) 0 .b32 false, .enq U (v 0) (v 1), .mma U (.v 0) 0 1 none .bf16 .g4 false,
    .twsend U (v 0)] : List Instr).all (fun i => !i.opOk) = true := by decide
/-- U missing where the row needs it. -/
theorem test_wf_must_uniform : ([.ldu {} (.s 0) (s 0) { o := .zero } .b32 false 0, .tksig {} (v 0), .gang {} (v 0) (v 1) .g2] :
    List Instr).all (fun i => !i.opOk) = true := by decide
/-- An empty WAITE mask, a rounding mode dt, a literal too wide, a reserved pair or element of CVT. -/
theorem test_wf_values : ([.waite {} 0, .fadd {} (.v 0) (v 1) (v 2) .dt false false, .ffma {} (.v 0) (v 1) (v 2) (v 3) .dt false false,
    .frnd {} (.v 0) (v 1) .dt, .padd2 {} (.v 0) (v 1) (v 2) .dt false, .movl {} (.v 0) false 0x100000000,
    .cvt {} (.v 0) (v 1) .f32 .f32 .rn false 0, .cvt {} (.v 0) (v 1) .i32 .n32 .rn false 0, .cvt {} (.v 0) (v 1) .bf16 .f32 .rn false 1,
    .cvt {} (.v 0) (v 1) .sp8 .f32 .rz false 0] : List Instr).all (fun i => !i.opOk) = true := by decide
/-- Kinds and operations a row does not have, a count on a collective barrier, a forbidden conversion of ACPT. -/
theorem test_wf_kinds : ([.ldu U (.s 0) (s 0) { o := .zero } .b8 false 0, .lds {} (.v 0) (v 1) .f32 false 0, .sts {} (v 1) (v 2) .tag false 0,
    .red {} (v 0) (v 2) .exch32 false 0, .bar {} 64 1, .bara {} 127 1, .acpr {} (.v 0) (v 2) (v 3) (.lit 0) 0 .and32,
    .acpt {} 0 (v 0) 0 false ⟨0, 1, false, true, .rn, .int8, .f32⟩, .acpt {} 0 (v 0) 0 false ⟨0, 1, false, false, .rz, .sp8, .f32⟩,
    .acpt {} 0 (v 0) 0 false ⟨0, 1, false, false, .rn, .e4m3, .int8⟩] : List Instr).all (fun i => !i.opOk) = true := by decide
/-- Destinations that R277 does not admit: s without U, m with U, a source-only code, a window where the row has none. -/
theorem test_wf_destinations : ([.iadd {} (.s 0) (v 1) (v 2) .wrap, .iadd U (.m 0) (v 1) (v 2) .wrap, .shl {} .lid (v 1) (v 2),
    .fadd {} (.w 0) (v 1) (v 2) .rn false false, .sel {} .path (v 1) (v 2) 1 false, .shfl {} (.s 0) (v 0) (v 1) .idx,
    .reduce {} (.s 0) (v 1) .add, .twfree {} (.s 0), .vote {} (.reg (.s 0)) 1 .any, .vote U (.reg (.v 0)) 1 .any, .vote U (.pred 1) 1 .any,
    .mov {} (.s 0) (v 1), .twrecv {} (.s 0), .raybox {} (.s 0) (v 0) (v 8), .regroup {} (.s 0) 0 0] :
    List Instr).all (fun i => !i.wf) = true := by decide
/-- Pairs that are odd, quads off their multiple, blocks past v127 (R278). -/
theorem test_wf_runs : ([.brx {} (v 1), .ret {} (s 3), .call {} (.v 1) 0, .callx {} (.v 0) (v 127), .rdcyc {} (.v 3), .aadd {} (.v 1) (v 0) (v 2) 0 false,
    .aadd {} (.v 0) (v 1) (v 2) 0 false, .aaddi {} (.v 0) { o := .lid } 0, .movl {} (.v 5) true 0, .ballot {} (.v 1) 1, .matchKeys {} (.v 1) (v 0),
    .topk {} (.v 1) (v 0) (v 2) .f32, .raytri {} (.v 0) (v 0) (v 120), .raybox {} (.v 0) (v 121) (v 0), .mma {} (.v 65) 0 1 none .bf16 .g4 false,
    .ld {} (.v 2) (v 0) (v 4) .b128 .normal false 0, .st {} (v 0) (v 3) .b64 .normal false 0, .tfill {} 0 (v 65) false false false] :
    List Instr).all (fun i => !i.wf) = true := by decide
/-- Operands that the row does not admit in their position. -/
theorem test_wf_positions : ([.ld {} (.v 0) { o := .lid } (v 2) .b32 .normal false 0, .ldu U (.s 0) (v 0) { o := .zero } .b32 false 0,
    .lds {} (.v 0) { o := .zero } .b32 false 0, .sts {} { o := .m 0 } (v 1) .b32 false 0, .red {} (v 1) (v 2) .add32 false 0,
    .atom {} (.v 0) (v 1) (v 2) .add32 .plain 0, .pref {} (v 1) (v 2) false 0, .cctl {} (v 0) .invall 0, .cctl {} (v 1) .inv 0,
    .mzero U (v 0) 0 0, .mcopy {} (v 0) (s 2) 0 0, .mcmp {} (.s 0) (v 0) (v 2) 0 0, .swinit {} { o := .m 0 } (v 1) 0, .acp {} (.v 1) (v 0) (.lit 0) 0 .b32 true,
    .acp {} (.v 0) (v 0) (.reg { o := .lid }) 0 .b32 false, .acpl {} (.v 0) (s 0) (v 1) 0 false 1 0, .enq {} (s 0) (v 1), .twsend {} (s 0),
    .mfs {} (.v 0) 0x1FF, .mfs {} (.v 1) 1, .mts {} (v 0) 0x010, .mts {} (v 1) 1, .pchk {} 1 { o := .m 0 }] :
    List Instr).all (fun i => !i.wf) = true := by decide
/-- Fields out of their range: a predicate block of MELD, an empty queue mask, sizes of rows, slots that name none or one too many. -/
theorem test_wf_ranges : ([.meld {} (.pred 1) (some 0), .meld {} (.pred 1) (some 7), .meld {} (.q4 (v 0)) (some 5), .fence {} (.q 0),
    .acpt {} 0 (v 0) 0 false ⟨0, 0, false, false, .rn, .bf16, .f32⟩, .acpt {} 0 (v 0) 0 false ⟨0, 129, false, false, .rn, .bf16, .f32⟩,
    .acpl {} (.s 0) (s 2) (v 1) 0 false 0 0, .acpl {} (.s 0) (s 2) (v 1) 0 false 513 0, .tclm {} 1 none none none, .trel {} none none none,
    .mma {} (.v 0) 0 1 none .bf16 .g6 false, .mma {} (.v 0) 0 1 (some 2) .bf16 .g4 false] : List Instr).all (fun i => !i.wf) = true := by decide

/-! ### Words of the spec, each with the instruction that its entry gives -/

theorem test_words_flow :
    decodeWords [0x0000003030303000] = .ok (.nop {})
    ∧ decodeWords [0x02000002C0000003] = .ok (.brc {} 3 .all 3)
    ∧ decodeWords [0x0600003007B03000] = .ok (.ret {} (v 30))
    ∧ decodeWords [0x0700003030303000] = .ok (.exit {})
    ∧ decodeWords [0x08000000C0000004] = .ok (.meet {} 3 4)
    ∧ decodeWords [0x0900003030303000] = .ok (.jarr {} 0)
    ∧ decodeWords [0x0D00003030303006, 0xC0C0C0C0C084C003] = .ok (.ptab {} 2 true 0xC0C0C0C0C084C003)
    ∧ decodeWords [0x0E00003030303000] = .ok (.npb {})
    ∧ decodeWords [0x0F00003030303000] = .ok (.npe {})
    ∧ decodeWords [0x100000303000001F] = .ok (.trap {} 0x1F)
    ∧ decodeWords [0x1200003030000021] = .ok (.svc {} 0x21)
    ∧ decodeWords [0x1300003030303000] = .ok (.eret {})
    ∧ decodeWords [0x1400003030000009] = .ok (.waite {} 9) := by decide

theorem test_words_flow2 :
    decodeWords [0x15000000B0303000] = .ok (.rdcyc {} (.v 2))
    ∧ decodeWords [0x1680002130000001] = .ok (.mfs { u := true } (.s 4) 1)
    ∧ decodeWords [0x170000300280000A] = .ok (.mts {} (v 10) 0xA)
    ∧ decodeWords [0x010000303FFFFFFE] = .ok (.bra {} (-2))
    ∧ decodeWords [0x0350003021B03000] = .ok (.brx { gn := true, gp := 2 } (s 6))
    ∧ decodeWords [0x0400000780000015] = .ok (.call {} (.v 30) 0x15)
    ∧ decodeWords [0x0504000101B03000] = .ok (.callx {} (.v 4) { o := .v 6, lr := true })
    ∧ decodeWords [0x0A00003030303005] = .ok (.jleave {} 5)
    ∧ decodeWords [0x0B00003000F03012] = .ok (.meld {} (.pred 3) (some 4))
    ∧ decodeWords [0x0B0000300270300B] = .ok (.meld {} (.q4 (v 9)) (some 2))
    ∧ decodeWords [0x0C00003030303000] = .ok (.meldx {})
    ∧ decodeWords [0x11000030302ABCDE] = .ok (.bkpt {} 0x2ABCDE) := by decide

theorem test_words_integer :
    decodeWords [0x2000000080007001] = .ok (.iadd {} (.v 2) (v 0) (v 1) .sat)
    ∧ decodeWords [0x25000004B07C3C40] = .ok (.imad {} (.v 18) { o := .lid } { o := .m 0 } { o := .m 1 })
    ∧ decodeWords [0x29000000C040B006] = .ok (.lop {} (.v 3) (v 1) (v 2) 6)
    ∧ decodeWords [0x2A040002C2230000] = .ok (.lopi {} (.v 11) { o := .v 8, lr := true } 8 (-65536))
    ∧ decodeWords [0x2B00000282223000] = .ok (.shl {} (.v 10) (v 8) (s 8))
    ∧ decodeWords [0x2E04000585703000] = .ok (.popc {} (.v 22) { o := .v 21, lr := true })
    ∧ decodeWords [0x21000001413FFFFF] = .ok (.iaddi {} (.v 5) (v 4) (-1))
    ∧ decodeWords [0x22001001E242F002] = .ok (.isub {} (.v 7) (s 9) { o := .v 11, pol := .split } .usat)
    ∧ decodeWords [0x230000004080F000] = .ok (.imul {} (.v 1) (v 2) (v 3))
    ∧ decodeWords [0x240000004080F001] = .ok (.imulh {} (.v 1) (v 2) (v 3) true)
    ∧ decodeWords [0x260000004080F000] = .ok (.imin {} (.v 1) (v 2) (v 3) false)
    ∧ decodeWords [0x270080004080F001] = .ok (.imax {} (.v 1) { o := .v 2, pol := .trap } (v 3) true)
    ∧ decodeWords [0x2800000040B03001] = .ok (.iabs {} (.v 1) (v 2) true) := by decide

theorem test_words_integer2 :
    decodeWords [0x2C0000004080F000] = .ok (.shr {} (.v 1) (v 2) (v 3))
    ∧ decodeWords [0x2D0000004080F000] = .ok (.sar {} (.v 1) (v 2) (v 3))
    ∧ decodeWords [0x2F00000040B03000] = .ok (.clz {} (.v 1) (v 2)) := by decide

theorem test_words_move :
    decodeWords [0x3400000470400004] = .ok (.icmpi {} 1 .lt { o := .lid } 4)
    ∧ decodeWords [0x370000014040B003] = .ok (.sel {} (.v 5) (v 1) (v 2) 3 false)
    ∧ decodeWords [0x3A000001B0303001, 0x4000000000000001] = .ok (.movl {} (.v 6) true 0x4000000000000001)
    ∧ decodeWords [0x3B000000C040B00E] = .ok (.plop {} 3 1 2 0xE)
    ∧ decodeWords [0x3000000040B03000] = .ok (.brev {} (.v 1) (v 2))
    ∧ decodeWords [0x310000004080F001] = .ok (.bfx {} (.v 1) (v 2) (v 3) true)
    ∧ decodeWords [0x320100004080C100] = .ok (.bfi {} (.v 1) (v 2) (v 3) { o := .v 4, lr := true })
    ∧ decodeWords [0x330000128080F000] = .ok (.icmp {} 2 .geu (v 2) (v 3))
    ∧ decodeWords [0x35000000B101F006] = .ok (.aadd {} (.v 2) { o := .widLo } (v 7) 2 true)
    ∧ decodeWords [0x36000000A13FFFF8] = .ok (.aaddi {} (.v 2) (s 4) (-8))
    ∧ decodeWords [0x38000038C0B03000] = .ok (.mov {} (.w 3) (v 2))
    ∧ decodeWords [0x390000027000001F] = .ok (.movi {} (.v 9) 31) := by decide

theorem test_words_float :
    decodeWords [0x400200050502B000] = .ok (.fadd {} (.v 20) (v 20) { o := .v 10, lr := true } .rn false false)
    ∧ decodeWords [0x420500068661C780] = .ok (.ffma {} (.v 26) { o := .v 25, lr := true } (s 7) { o := .v 30, lr := true } .rn false false)
    ∧ decodeWords [0x4800000080703000] = .ok (.frcp {} (.v 2) (v 1))
    ∧ decodeWords [0x410000004080F013] = .ok (.fmul {} (.v 1) (v 2) (v 3) .rd false true)
    ∧ decodeWords [0x430000004080F000] = .ok (.fmin {} (.v 1) (v 2) (v 3))
    ∧ decodeWords [0x440000004080F000] = .ok (.fmax {} (.v 1) (v 2) (v 3))
    ∧ decodeWords [0x4500000F8080F000] = .ok (.fcmp {} 6 .ord (v 2) (v 3))
    ∧ decodeWords [0x4600000040B03001] = .ok (.frnd {} (.v 1) (v 2) .rz)
    ∧ decodeWords [0x4700000040B03000] = .ok (.fcls {} (.v 1) (v 2))
    ∧ decodeWords [0x4900000040B03000] = .ok (.frsq {} (.v 1) (v 2))
    ∧ decodeWords [0x4A00000040B03000] = .ok (.fsqt {} (.v 1) (v 2))
    ∧ decodeWords [0x4B00000040B03000] = .ok (.fex2 {} (.v 1) (v 2))
    ∧ decodeWords [0x4C00000040B03000] = .ok (.flg2 {} (.v 1) (v 2)) := by decide

theorem test_words_float2 :
    decodeWords [0x4D00000040B03000] = .ok (.fspi {} (.v 1) (v 2))
    ∧ decodeWords [0x4E00000040B03000] = .ok (.fcpi {} (.v 1) (v 2)) := by decide

theorem test_words_packed :
    decodeWords [0x5000000101017008] = .ok (.padd2 {} (.v 4) (v 4) (v 5) .rn true)
    ∧ decodeWords [0x55000000C0408100] = .ok (.spdot {} (.v 3) (v 1) (v 2) (v 4))
    ∧ decodeWords [0x57000000C040B000] = .ok (.pack2 {} (.v 3) (v 1) (v 2))
    ∧ decodeWords [0x58000000C0703003] = .ok (.unpk2 {} (.v 3) (v 1) true true)
    ∧ decodeWords [0x5900000A02043000] = .ok (.raybox {} (.v 40) (v 8) (v 16))
    ∧ decodeWords [0x510000004080F002] = .ok (.pmul2 {} (.v 1) (v 2) (v 3) .ru false)
    ∧ decodeWords [0x520000004080C108] = .ok (.pfma2 {} (.v 1) (v 2) (v 3) (v 4) .rn true)
    ∧ decodeWords [0x530000004080C101] = .ok (.dot2f {} (.v 1) (v 2) (v 3) (v 4) true)
    ∧ decodeWords [0x540000004080C102] = .ok (.dot4i {} (.v 1) (v 2) (v 3) (v 4) false true)
    ∧ decodeWords [0x5600000040A17028] = .ok (.cvt {} (.v 1) (v 2) .sp8 .i8 .rn true 2)
    ∧ decodeWords [0x5A00000A02043000] = .ok (.raytri {} (.v 40) (v 8) (v 16)) := by decide

theorem test_words_cross :
    decodeWords [0x600400060145F000] = .ok (.shfl {} (.v 24) { o := .v 5, lr := true } (v 23) .idx)
    ∧ decodeWords [0x6100000480703000] = .ok (.ballot {} (.v 18) 1)
    ∧ decodeWords [0x6200000100703001] = .ok (.vote {} (.pred 4) 1 .all)
    ∧ decodeWords [0x6300000080703000] = .ok (.matchKeys {} (.v 2) (v 1))
    ∧ decodeWords [0x6584002140303000] = .ok (.reduce { u := true } (.s 5) { o := .v 0, lr := true } .add)
    ∧ decodeWords [0x66000001C0F03008] = .ok (.scan {} (.v 7) (v 3) .add true)
    ∧ decodeWords [0x6700000240000006, 0x0000000000000003] = .ok (.regroup {} (.v 9) 6 3)
    ∧ decodeWords [0x680403C403A2B000] = .ok (.topk { sb := some 7 } (.v 16) { o := .v 14, lr := true } (s 10) .f32)
    ∧ decodeWords [0x6900000142B03000] = .ok (.pchk {} 5 (v 10))
    ∧ decodeWords [0x6400000040B03000] = .ok (.compact {} (.v 1) (v 2)) := by decide

theorem test_words_memory :
    decodeWords [0x7000020120304800] = .ok (.ld { sb := some 0 } (.v 4) (s 0) { o := .lid } .b32 .normal false 0)
    ∧ decodeWords [0x7280026120300C01] = .ok (.ldu { u := true, sb := some 1 } (.s 4) (s 0) { o := .zero } .b64 false 1)
    ∧ decodeWords [0x7304024605F00C00] = .ok (.lds { sb := some 1 } (.v 24) { o := .v 23, lr := true } .b64 false 0)
    ∧ decodeWords [0x7400003002010800] = .ok (.sts {} (v 8) (v 4) .b32 false 0)
    ∧ decodeWords [0x750603C281020400] = .ok (.atom { sb := some 7 } (.v 10) { o := .v 4, lr := true } { o := .v 8, lr := true } .add64 .plain 0)
    ∧ decodeWords [0x7600003020804000] = .ok (.red {} (s 2) (v 1) .add32 false 0)
    ∧ decodeWords [0x7700003030000002] = .ok (.fence {} .rel)
    ∧ decodeWords [0x710000300101AEBF] = .ok (.st {} (v 4) (v 6) .rb64 .stream true (-1))
    ∧ decodeWords [0x780000302080C405] = .ok (.pref {} (s 2) (v 3) true 5)
    ∧ decodeWords [0x7900003001300402] = .ok (.cctl {} (v 4) .wb 2) := by decide

theorem test_words_inmem :
    decodeWords [0x7B0002B001018C00] = .ok (.mcopy { sb := some 2 } (v 4) (v 6) 3 0)
    ∧ decodeWords [0x8000003030000300] = .ok (.bar {} 0 6)
    ∧ decodeWords [0x7A80003020B02400] = .ok (.mzero { u := true } (s 2) 9 0)
    ∧ decodeWords [0x7C000000C1018801] = .ok (.mcmp {} (.v 3) (v 4) (v 6) 2 1)
    ∧ decodeWords [0x7D00003001014001] = .ok (.swinit {} (v 4) (v 5) 1)
    ∧ decodeWords [0x7E00003001014002] = .ok (.swarr {} (v 4) (v 5) 2)
    ∧ decodeWords [0x7F00003021014003] = .ok (.swwait {} (s 4) (v 5) 3)
    ∧ decodeWords [0x8100003030000385] = .ok (.bara {} 5 7)
    ∧ decodeWords [0x8200003030000042] = .ok (.barw {} 66) := by decide

theorem test_words_copy :
    decodeWords [0x9000000220B00240] = .ok (.acp {} (.v 8) (s 2) (.reg (v 9)) 0 .b32 false)
    ∧ decodeWords [0x92000020B0407021, 0x0000000080000007] = .ok (.acpr {} (.s 2) { o := .lid } (v 1) (.lit 0x80000007) 1 .add32)
    ∧ decodeWords [0x9300002321043000, 0x0000000000000002] = .ok (.acpl {} (.s 12) (s 4) (v 16) 0 false 2 0)
    ∧ decodeWords [0x940000300220F000] = .ok (.enq {} (v 8) (s 3))
    ∧ decodeWords [0x9680003020F03000] = .ok (.tksig { u := true } (s 3))
    ∧ decodeWords [0x91000000C1303006, 0x8000000100040510] = .ok (.acpt {} 3 (v 4) 2 true ⟨0x80000001, 128, true, false, .dt, .f16, .f32⟩)
    ∧ decodeWords [0x9500003030303000] = .ok (.enqc {}) := by decide

theorem test_words_matrix :
    decodeWords [0xA080003021B03002] = .ok (.gang { u := true } (s 6) { o := .zero } .g4)
    ∧ decodeWords [0xA300003000003002] = .ok (.tfill {} 0 (v 0) false true false)
    ∧ decodeWords [0xA400025000007030] = .ok (.mma { sb := some 1 } (.v 64) 0 1 none .bf16 .g4 true)
    ∧ decodeWords [0xA5000000F0303000] = .ok (.mlic {} 3)
    ∧ decodeWords [0xA600003030303000] = .ok (.mlrel {})
    ∧ decodeWords [0xA980002130303000] = .ok (.twfree { u := true } (.s 4))
    ∧ decodeWords [0xAA00003030000000] = .ok (.twbar {} 0)
    ∧ decodeWords [0xA100000080F00140] = .ok (.tclm {} 2 (some 3) none (some 5))
    ∧ decodeWords [0xA200003030013000] = .ok (.trel {} none (some 4) none)
    ∧ decodeWords [0xA4000000004080DD] = .ok (.mma {} (.v 0) 1 2 (some 3) .sp8 .g6 false)
    ∧ decodeWords [0xA700003001703000] = .ok (.twsend {} (v 5))
    ∧ decodeWords [0xA7000000C1703001] = .ok (.twsendNb {} 3 (v 5))
    ∧ decodeWords [0xA8000301B0303000] = .ok (.twrecv { sb := some 4 } (.v 6)) := by decide


/-! ### A lane set that is issuing: two live lanes of a group in slot 0 of core 0, with 20 mapped registers -/

/-- A register whose lanes hold w. -/
def reg (n : Nat) (w : Word) : VReg := { tag := n, val := List.replicate 64 w, full := BitVec.allOnes 64, pois := 0 }
/-- One set of up to 1,024 threads; NPOK, MATRIX and TWIN; a handler at 0x2000. -/
def hdr : LHeader := { entry := 0x1000, params := 0, handler := 0x2000, widths := [10], lc := 1, lp := 1, n := 1024, rb := 128,
                       rx := 0, spad := 1, flags := 0x38, prio := 0, cq := 0, ctask := 0, ctv := false }
def run0 : Run := ⟨0x1000, ⟨true, true, true, true, true, 4, 0, false, 0⟩, [0, 0, 0, 0]⟩
def thr (wid : Nat) : Thread := { present := true, wid := BitVec.ofNat 64 wid, pc := 0x1008, mid := true, run := some run0 }
/-- v0 to v7 hold 0, v8 to v11 hold 1, v12 to v19 hold 16. -/
def g : Group := { gid := 7, launch := 1, set := 0, fn := 0, rb := 128, rx := 0, threads := thr 0 :: thr 1 :: List.replicate 62 {},
                   regs := (List.range 20).map fun n => (n, reg n (if n < 8 then 0 else if n < 12 then 1 else 16)) }
def g1 : Group := { g with gid := 8, threads := thr 64 :: List.replicate 63 {}, regs := [] }
def k : Cur := { core := 0, slot := 0, lanes := 3, pc := 0x1008, word := 0, lit := 0, next := 0x1010, last := false, run := run0, op := 3 }
def launch1 : Launch := { id := 1, fn := 0, proc := 0, hdrAddr := 0, hdr := hdr, origin := .cmd 0 0, eff := 0, started := 0 }
def tlb0 : TlbEntry := { fn := 0, proc := 0, vpn := 0, large := false, ppn := 1, tier := 0, lm := false, key := 0, fmt := 0, blk := 0,
                         w := true, x := true, d := true, rp := false }
def core0 : Core := { groups := [(0, g), (1, g1)], quarters := [(0, (0, 3))], regGran := 4, spadGran := 4, tlb := [tlb0],
                      tiles := [(0, { claim := some (1, 0) }), (1, { claim := some (1, 0) })] }
def st : State := { State.reset with
  nid := 100, cur := some k, cores := [(0, core0)], launches := [launch1], sets := [{ launch := 1, set := 0, core := some 0, units := 1 }],
  full := true, fns := [(0, { pen := true, procs := [(0, { v := true })], nodes := [(0, { en := true })],
                              colls := [(0, { en := true, local_ := 9 })] })] }

theorem issuing : Issuing st k g := ⟨rfl, by decide +kernel⟩

/-- What an instruction brings to the common checks. -/
structure Form where
  i : Instr
  c : Ctl := {}
  twin : Bool := false
  srcs : List SrcUse := []
  dsts : List DstUse := []
  consume : List (Nat × SrcUse) := []
  x : Mask := 3

def Form.ok (f : Form) : Bool :=
  f.i.isInstr && f.i.wf && match gate st k g f.c f.twin f.srcs f.dsts f.consume with
  | .pass a r _ => a == 3 && r == 0 && (match regGate st k g f.c 3 f.x f.dsts with | .pass .. => true | _ => false)
  | _ => false

/-- The form's instruction is well-formed, a lane set is issuing it, and it passes the checks that every instruction makes. -/
def Form.Met (f : Form) : Prop :=
  f.i.wf = true ∧ Issuing st k g ∧ ∃ p, Passes st k g f.c f.twin f.srcs f.dsts f.consume 3 0 p f.x

theorem met (f : Form) (h : f.ok = true) : f.Met := by
  unfold Form.ok at h
  split at h
  · next a r p e =>
    simp only [Bool.and_eq_true, beq_iff_eq] at h
    obtain ⟨⟨-, w⟩, ⟨rfl, rfl⟩, h⟩ := h
    refine ⟨w, issuing, p, e, ?_⟩
    split at h
    · next a r q e => exact ⟨a, r, q, e⟩
    · cases h
  · simp at h

def AllMet (fs : List Form) : Prop := ∀ f, f ∈ fs → f.Met

theorem allMet (fs : List Form) (h : fs.all Form.ok = true) : AllMet fs := fun f hf => met f (List.all_eq_true.mp h f hf)

/-- As `Met`, with the instruction's own check, which answers a state in which its registers are still to be had. -/
def Form.Goes (f : Form) (own : Own) : Prop :=
  f.Met ∧ ∃ s1, own = .ok s1 ∧ ∃ a r q, regGate s1 k g f.c 3 f.x f.dsts = .pass a r q

def Form.goesB (f : Form) : Own → Bool
  | .ok s1 => f.ok && match regGate s1 k g f.c 3 f.x f.dsts with | .pass .. => true | _ => false
  | _ => false

theorem goes (f : Form) (own : Own) (h : f.goesB own = true) : f.Goes own := by
  cases own with
  | ok s1 =>
    simp only [Form.goesB, Bool.and_eq_true] at h
    refine ⟨met f h.1, s1, rfl, ?_⟩
    have h := h.2
    split at h
    · next a r q e => exact ⟨a, r, q, e⟩
    · cases h
  | _ => cases h

def AllGo (fs : List (Form × Own)) : Prop := ∀ f, f ∈ fs → f.1.Goes f.2

theorem allGo (fs : List (Form × Own)) (h : fs.all (fun f => f.1.goesB f.2) = true) : AllGo fs :=
  fun f hf => goes f.1 f.2 (List.all_eq_true.mp h f hf)

/-- Instructions with one destination register: d of n registers, from the registers of their sources. -/
def toReg (i : Instr) (srcs : List SrcUse) (d : Opd := .v 30) (c : Ctl := {}) (n : Nat := 1) : Form :=
  { i := i, c := c, srcs := srcs, dsts := [{ o := d, n := n }] }

theorem witness_IntegerArithmetic : AllMet [
    toReg (.iadd {} (.v 127) (v 0) (v 8) .sat) [useA (v 0), useB (v 8)] (.v 127),
    toReg (.isub U (.s 63) (v 0) (s 63) .usat) [useA (v 0), useB (s 63)] (.s 63) U,
    toReg (.iaddi {} .zero { o := .lid } 0x80000000) [useA { o := .lid }] .zero,
    toReg (.imul {} (.v 0) (v 0) (v 0)) [useA (v 0), useB (v 0)] (.v 0),
    toReg (.imulh {} (.v 30) (v 0) (v 8) true) [useA (v 0), useB (v 8)],
    toReg (.imad {} (.v 30) (v 0) (v 8) (v 9)) [useA (v 0), useB (v 8), useC (v 9)],
    toReg (.imin {} (.v 30) (v 0) (v 8) false) [useA (v 0), useB (v 8)], toReg (.imax {} (.v 30) (v 0) (v 8) true) [useA (v 0), useB (v 8)],
    toReg (.iabs {} (.v 30) (v 0) true) [useA (v 0)]] := allMet _ (by decide +kernel)

theorem witness_BitwiseShiftsAndFields : AllMet [
    toReg (.lop {} (.v 30) (v 0) (v 8) 6) [useA (v 0), useB (v 8)], toReg (.lopi {} (.v 30) (v 0) 6 0x20000) [useA (v 0)],
    toReg (.shl {} (.v 30) (v 8) (v 12)) [useA (v 8), useB (v 12)], toReg (.shr {} (.v 30) (v 8) (v 12)) [useA (v 8), useB (v 12)],
    toReg (.sar {} (.v 30) (v 8) (v 12)) [useA (v 8), useB (v 12)], toReg (.popc {} (.v 30) (v 8)) [useA (v 8)],
    toReg (.clz {} (.v 30) (v 0)) [useA (v 0)], toReg (.brev {} (.v 30) (v 8)) [useA (v 8)],
    toReg (.bfx {} (.v 30) (v 8) (v 0) true) [useA (v 8), useB (v 0)],
    toReg (.bfi {} (.v 30) (v 8) (v 0) (v 12)) [useA (v 8), useB (v 0), useC (v 12)]] := allMet _ (by decide +kernel)

theorem witness_MovesAndSelects : AllMet [
    toReg (.mov {} (.v 30) (v 8)) [useA (v 8)], toReg (.movi {} (.v 30) 0x80000000) [], toReg (.movl {} (.v 30) false 0xFFFFFFFF) [],
    toReg (.sel {} (.v 30) (v 8) (v 0) 7 true) [useA (v 8), useB (v 0)], toReg (.pack2 {} (.v 30) (v 8) (v 0)) [useA (v 8), useB (v 0)],
    toReg (.unpk2 {} (.v 30) (v 8) true true) [useA (v 8)],
    { i := .mov {} (.w 15) (v 8), srcs := [useA (v 8)], dsts := [{ o := .w 15 }], consume := [(5, useA (v 8))] },
    { i := .movi {} (.w 0) 1, dsts := [{ o := .w 0 }] }, { i := .movl {} (.w 0) false 1, dsts := [{ o := .w 0 }] }] := allMet _ (by decide +kernel)

theorem witness_PairResults : AllMet [
    toReg (.aadd {} (.v 30) (v 0) (v 8) 7 true) [useA (v 0) 2, useB (v 8)] (.v 30) {} 2,
    toReg (.aaddi {} (.v 126) (v 0) 0x80000000) [useA (v 0) 2] (.v 126) {} 2, toReg (.movl {} (.v 30) true 1) [] (.v 30) {} 2,
    toReg (.rdcyc U (.s 62)) [] (.s 62) U 2] := allMet _ (by decide +kernel)

/-- The last also has the words that no compare decodes from. -/
theorem witness_PredicateResults : AllMet [
    { i := .icmp {} 7 .geu (v 0) (v 8), srcs := [useA (v 0), useB (v 8)] }, { i := .icmpi {} 0 .lt (v 0) 0x80000000, srcs := [useA (v 0)] },
    { i := .fcmp {} 1 .eq (v 0) (v 8), srcs := [useA (v 0), useB (v 8)] }, { i := .plop {} 1 2 7 6 }]
    ∧ (splitWord 0x3300001402223000).op = 0x33 ∧ 10 ≤ (splitWord 0x3300001402223000).d.toNat / 8 % 16 :=
  ⟨allMet _ (by decide +kernel), by decide⟩

theorem witness_FloatResults : AllMet [
    toReg (.fadd {} (.v 30) (v 0) (v 8) .ru true false) [useA (v 0), useB (v 8)],
    toReg (.fmul {} (.v 30) (v 0) (v 8) .rd false true) [useA (v 0), useB (v 8)],
    toReg (.ffma {} (.v 30) (v 0) (v 8) (v 12) .rz true true) [useA (v 0), useB (v 8), useC (v 12)],
    toReg (.fmin {} (.v 30) (v 0) (v 8)) [useA (v 0), useB (v 8)], toReg (.fmax {} (.v 30) (v 0) (v 8)) [useA (v 0), useB (v 8)],
    toReg (.frnd {} (.v 30) (v 8) .rn) [useA (v 8)], toReg (.fcls {} (.v 30) (v 8)) [useA (v 8)]] := allMet _ (by decide +kernel)

theorem witness_SpecialFunctions : AllMet (([fun d a => .frcp {} d a, fun d a => .frsq {} d a, fun d a => .fsqt {} d a,
    fun d a => .fex2 {} d a, fun d a => .flg2 {} d a, fun d a => .fspi {} d a, fun d a => .fcpi {} d a] : List (Opd → Src → Instr)).map
    fun f => toReg (f (.v 30) (v 8)) [useA (v 8)]) := allMet _ (by decide +kernel)

theorem witness_PackedDotsConversionsRays : AllMet [
    toReg (.padd2 {} (.v 30) (v 0) (v 8) .rn true) [useA (v 0), useB (v 8)], toReg (.pmul2 {} (.v 30) (v 0) (v 8) .rz false) [useA (v 0), useB (v 8)],
    toReg (.pfma2 {} (.v 30) (v 0) (v 8) (v 12) .rn true) [useA (v 0), useB (v 8), useC (v 12)],
    toReg (.dot2f {} (.v 30) (v 0) (v 8) (v 12) true) [useA (v 0), useB (v 8), useC (v 12)],
    toReg (.dot4i {} (.v 30) (v 0) (v 8) (v 12) true false) [useA (v 0), useB (v 8), useC (v 12)],
    toReg (.spdot {} (.v 30) (v 0) (v 8) (v 12)) [useA (v 0), useB (v 8), useC (v 12)],
    toReg (.cvt {} (.v 30) (v 8) .e4m3 .f32 .dt true 0) [useA (v 8)],
    toReg (.raybox {} (.v 30) (v 0) (v 8)) [useA (v 0) 8, useB (v 8) 6],
    toReg (.raytri {} (.v 30) (v 0) (v 8)) [useA (v 0) 8, useB (v 8) 9] (.v 30) {} 2] := allMet _ (by decide +kernel)

/-- No lane of the group holds a poisoned register, so the values of every lane are clean. -/
theorem witness_ShufflesAndCompaction : AllMet [
    toReg (.shfl {} (.v 30) (v 0) (v 8) .up) [useA (v 0), useB (v 8)],
    { i := .compact {} (.v 30) (v 8), srcs := [useA (v 8)], dsts := [{ o := .v 30, low := true }] }]
    ∧ ∀ l, (3 : Mask).getLsbD l = true → (laneVal st k g l (.v 8) 0).2 = false ∧ (laneVal st k g (shflFrom st k g 3 .up (v 8) l) (.v 0) 0).2 = false :=
  ⟨allMet _ (by decide +kernel), fun l h => by
    rcases Nat.lt_or_ge l 64 with h64 | h64
    · have two : ∀ i : Fin 64, (3 : Mask).getLsbD i.val = true → i.val = 0 ∨ i.val = 1 := by decide
      rcases two ⟨l, h64⟩ h with e | e <;> subst e <;> decide +kernel
    · rw [BitVec.getLsbD_of_ge _ l h64] at h; cases h⟩

theorem cleanPred (p : Nat) (x : Mask) : CleanPred p st k g x := fun l _ => by simp [predPois, g, tget, tget?]

theorem witness_BallotsVotesMatches : AllMet [
    toReg (.ballot {} (.v 30) 7) [] (.v 30) {} 2, toReg (.matchKeys {} (.v 30) (v 8)) [useKey (v 8)] (.v 30) {} 2,
    toReg (.vote U (.reg (.s 63)) 1 .eq) [] (.s 63) U, { i := .vote {} (.pred 7) 1 .all }, { i := .pchk {} 7 (v 8), srcs := [useA (v 8)] }]
    ∧ CleanPred 7 st k g 3 ∧ (lanesOf (execLanes g { gp := 0, gn := true } 3)).length < 2 :=
  ⟨allMet _ (by decide +kernel), cleanPred 7 3, by decide +kernel⟩

theorem witness_ReductionsAndScans : AllMet [
    { toReg (.reduce U (.s 0) (v 8) .add) [useWide (v 8)] (.s 0) U with consume := [(3, useWide (v 8))] },
    { toReg (.scan {} (.v 30) (v 8) .max true) [useWide (v 8)] with consume := [(3, useWide (v 8))] }] := allMet _ (by decide +kernel)

theorem witness_Branches : AllMet [
    { i := .nop {} }, { i := .bra {} 0x3FFFFFFF }, { i := .brc {} 7 .none 1 },
    { i := .brx {} (v 0), srcs := [useA (v 0) 2], consume := [(2, useA (v 0) 2)] }] ∧ CleanPred 7 st k g 3 :=
  ⟨allMet _ (by decide +kernel), cleanPred 7 3⟩

theorem witness_CallsAndReturns : AllMet [
    { i := .call {} (.v 126) 1, dsts := [{ o := .v 126, n := 2 }] },
    { i := .callx {} (.v 30) (v 0), srcs := [useA (v 0) 2], dsts := [{ o := .v 30, n := 2 }], consume := [(2, useA (v 0) 2)] },
    { i := .ret {} (v 0), srcs := [useA (v 0) 2], consume := [(2, useA (v 0) 2)] }] := allMet _ (by decide +kernel)

/-- With the guard !p0 no lane executes, so live lanes are left; with p0 both lanes leave. -/
theorem witness_Exits : AllMet [{ i := .exit { gn := true }, c := { gn := true }, x := 0 }, { i := .exit {} }]
    ∧ (∃ l, l < 64 ∧ (threadAt g l).live = true ∧ (execLanes g { gn := true } 3).getLsbD l = false) :=
  ⟨allMet _ (by decide +kernel), 0, by decide +kernel⟩

theorem witness_MeetsAndMelding : AllMet [
    { i := .meet {} 7 1 }, { i := .jarr {} 0 }, { i := .jleave {} 0 }, { i := .meld {} (.pred 1) (some 6) },
    { i := .meld {} (.q4 (v 8)) (some 4), srcs := [useA (v 8)], consume := [(2, useA (v 8))] }, { i := .meldx {} }, { i := .ptab {} 3 true 0 }]
    ∧ CleanPred 1 st k g 3 := ⟨allMet _ (by decide +kernel), cleanPred 1 3⟩

theorem witness_RegionsAndWaits : AllMet [{ i := .npb {} }, { i := .npe {} }, { i := .waite {} 0xFF }]
    ∧ (hdrOf st g).npok = true ∧ ∀ i, i < 8 → (0xFF : BitVec 8).getLsbD i = true → tget? g.sb i = none :=
  ⟨allMet _ (by decide +kernel), by decide +kernel, fun _ _ _ => rfl⟩

/-- The group runs in the physical function; `gVf` is the same in a virtual one. -/
def gVf : Group := { g with fn := 1 }
def stVf : State := { st with cores := [(0, { core0 with groups := [(0, gVf), (1, g1)] })] }

theorem witness_SystemRegisters : AllMet [
    toReg (.mfs {} (.v 30) 1) [] (.v 30) {} 2, toReg (.mfs {} (.v 30) 0x100) [],
    { i := .mts {} (v 0) 0x00A, srcs := [useA (v 0) 2], consume := [(1, useA (v 0) 2)] },
    { i := .mts {} (v 0) 0x00B, srcs := [useA (v 0)], consume := [(1, useA (v 0))] }]
    ∧ (sysScope 8 ≠ .thread ∧ gate st k g {} false [useA (v 0)] [] [] = .pass 3 0 (.split [])
      ∧ srcPois st k g 0 (useA (v 0)) = false)
    ∧ Issuing stVf k gVf ∧ gate stVf k gVf {} false [] [{ o := .v 30 }] [] = .pass 3 0 (.split []) ∧ gVf.fn ≠ 0 :=
  ⟨allMet _ (by decide +kernel), by decide +kernel, ⟨rfl, by decide +kernel⟩, by decide +kernel⟩

/-! ### Checks, traps and the return -/

/-- v0 is empty in lane 1 of `gE`; v20 is mapped to nothing. -/
def gE : Group := { g with regs := tset g.regs 0 { reg 0 0 with full := 1 } }
def stE : State := { st with cores := [(0, { core0 with groups := [(0, gE), (1, g1)] })] }
/-- A handler runs in `gT`, which a trap inside a clause entered. -/
def gT : Group := { g with tactive := true, handler := 3, tpc := 0x1010, tclause := 0x1000, trun := some run0 }
def stT : State := { st with cores := [(0, { core0 with groups := [(0, gT), (1, g1)] })] }
def a (n : Fin 128) : Src := { o := .v n, pol := .trap }
def tok : FaultTok := ⟨5, 0, 0, 7, 3, 0x1008, 0, 3, some run0⟩
def stF (h : Group) : State := { st with cores := [(0, { core0 with groups := [(0, h), (1, g1)] })], fns := [(0, { toks := [tok] })] }

theorem witness_OperandChecks :
    ((∀ u, u ∈ [useA (v 0), useB (v 8)] → (∀ n, u.src.o ≠ .m n) ∧ (∀ n, u.src.o ≠ .w n)
      ∧ ∀ l, l ∈ readLanes g {} k.lanes u → ∀ r, r ∈ srcNames g l u → refFull g l r = true ∧ ∀ n, r = .v n → (vreg? g n).isSome = true)
      ∧ k.lanes ≠ 0 ∧ (∀ u, u ∈ [useA (v 0), useB (v 8)] → u.src.pol = .split → u.xlow = false)
      ∧ (∀ l, k.lanes.getLsbD l = true → predPois g 0 l = false) ∧ dstEmpty g (execLanes g {} k.lanes) [{ o := .v 30 }] = []
      ∧ mappedCount g + (newNames g {} (execLanes g {} k.lanes) [{ o := .v 30 }]).length ≤ g.rb)
    ∧ (Issuing stE k gE ∧ vreg? gE 0 = some { reg 0 0 with full := 1 } ∧ vreg? gE 8 = some (reg 8 1)
      ∧ k.lanes &&& ~~~(1 : Mask) ≠ 0 ∧ gE.tactive = false ∧ (hdrOf stE gE).handler ≠ 0 ∧ (a 0).pol = .trap ∧ (v 8).pol = .block)
    ∧ vreg? g 20 = none := by
  refine ⟨⟨?_, by decide +kernel, by decide +kernel, fun l _ => by simp [predPois, g, tget, tget?], by decide +kernel, by decide +kernel⟩,
    ⟨⟨rfl, by decide +kernel⟩, by decide +kernel⟩, by decide +kernel⟩
  intro u hu
  have hs : ∀ u, u ∈ [useA (v 0), useB (v 8)] → (∀ n, u.src.o ≠ .m n) ∧ (∀ n, u.src.o ≠ .w n) ∧
      ∀ l, l ∈ readLanes g {} k.lanes u → ∀ r, r ∈ srcNames g l u → refFull g l r = true ∧
        (match r with | .v n => (vreg? g n).isSome | .s _ => true) = true := by decide +kernel
  obtain ⟨h1, h2, h3⟩ := hs u hu
  refine ⟨h1, h2, fun l hl r hr => ⟨(h3 l hl r hr).1, fun n e => ?_⟩⟩
  have := (h3 l hl r hr).2
  subst e
  exact this

theorem witness_TrapsEnterTheHandlerOrHalt :
    (groupAt st 0 0 = some g ∧ tcMisaligned ≠ tcPageFault ∧ tcMisaligned ≠ tcPoison ∧ g.tactive = false ∧ (hdrOf st g).handler ≠ 0)
    ∧ groupAt stT 0 0 = some gT ∧ gT.tactive = true ∧ launchAt stT gT.launch = some launch1 ∧ (coreAt stT 0).regroup = [] := by
  decide +kernel

theorem witness_SoftTrapsEnterTheHandler : AllMet [{ i := .trap {} 0x3FFFFF }, { i := .bkpt {} 0 }, { i := .svc {} 1 },
    { i := .svc { gn := true } 1, c := { gn := true }, x := 0 }]
    ∧ execLanes g {} 3 ≠ 0 ∧ execLanes g { gn := true } 3 = 0 ∧ g.tactive = false ∧ (hdrOf st g).handler ≠ 0 :=
  ⟨allMet _ (by decide +kernel), by decide +kernel⟩

theorem witness_SystemFaultsAndAnswers :
    (groupAt st 0 0 = some g ∧ tcPageFault = tcPageFault ∧ tcPoison = tcPoison)
    ∧ ((fnAt (stF g) 0).toks.find? (fun u => BitVec.ofNat 32 u.token == 5) = some tok ∧ groupAt (stF g) tok.core tok.slot = some g
      ∧ g.gid = tok.gid ∧ g.tactive = false ∧ (hdrOf (stF g) g).handler ≠ 0 ∧ (coreAt (stF g) 0).regroup = []
      ∧ launchAt (stF g) g.launch = some launch1)
    ∧ groupAt (stF gT) tok.core tok.slot = some gT ∧ gT.gid = tok.gid ∧ gT.tactive = true := by decide +kernel

theorem witness_EretReturns :
    (Issuing stT k gT ∧ gate stT k gT {} false [] [] [] = .pass 3 0 (.split []) ∧ gT.tactive = true)
    ∧ (gT.trun = some run0 ∧ gT.tpc.toNat % 8 = 0 ∧ gT.tclause.toNat < gT.tpc.toNat ∧ gT.tpc.toNat < gT.tclause.toNat + 8 * (1 + run0.hdr.cnt))
    ∧ Issuing st k g ∧ gate st k g {} false [] [] [] = .pass 3 0 (.split []) ∧ g.tactive = false :=
  ⟨⟨⟨rfl, by decide +kernel⟩, by decide +kernel⟩, by decide +kernel, issuing, by decide +kernel⟩

/-- A NOP stands first in a clause of one word. -/
def run1 : Run := ⟨0x1000, ⟨false, false, false, false, false, 1, 0, false, 0⟩, [0x0000003030303000]⟩
def gN : Group := { g with threads := { thr 0 with run := some run1 } :: { thr 1 with run := some run1 } :: List.replicate 62 {} }
def stN : State := { st with cur := none, cores := [(0, { core0 with groups := [(0, gN), (1, g1)] })] }

theorem witness_StepRunsTheDecodedInstruction : stN.agenda = [] ∧ stN.turn = 4 * 0 + 0 ∧ tget? (coreAt stN 0).quarters 0 = some (0, 3)
    ∧ groupAt stN 0 0 = some gN ∧ mayIssue stN gN = true ∧ stN.full = true ∧ (threadAt gN 0).run = some run1
    ∧ (maskOf fun l => (3 : Mask).getLsbD l && (threadAt gN l).live && (threadAt gN l).mid && (!(threadAt gN l).stopped || inRegion gN)) = 3
    ∧ gN.overrun = none ∧ overruns gN 3 = (0, 0) ∧ (threadAt gN 0).park = .no ∧ (threadAt gN 1).park = .no
    ∧ ((threadAt gN 0).pc.toNat - run1.addr.toNat) / 8 - 1 = 0 ∧ Mn.ofOp 0x00 = some .nop ∧ literalAt run1.words 0 = false
    ∧ engineOf 0x00 = none ∧ Mn.nop.standsLast = false ∧ hasLiteral .nop (splitWord 0x0000003030303000) = false
    ∧ decodeWords [0x0000003030303000, 0] = .ok (.nop {})
    ∧ linkStalls (coreAt stN 0) 0 = false ∧ (threadAt gN 0).parts = none ∧ (threadAt gN 1).parts = none
    ∧ tget? (coreAt stN 0).strikes 0 = none ∧ (∀ e, e ∈ gN.regs → e.2.other = []) ∧ gN.shadowCtl = none ∧ goingOn gN 3 = 3
    ∧ ({ stN with full := false } : State).full = false ∧ (splitWord 0xA500003030303000).op = 0xA5#8
    ∧ literalAt [0xA500003030303000] 0 = false := by decide +kernel

/-! ### Memory, copies, tiles, twins -/

def acc (va : DWord) (z : Nat) : LaneAcc := ⟨1, va, z⟩

/-- The last clause: at the very end of the scratchpad, off alignment, and one access past the end. -/
theorem witness_AddressChecks :
    ((acc 2 4).va.toNat % (acc 2 4).size ≠ 0 ∧ (acc 2 4).lane < 64)
    ∧ ((acc 0x0100000000000000 4).va.toNat % 4 = 0 ∧ canonical (acc 0x0100000000000000 4).va = false)
    ∧ ((acc 0xFFFC 4).va.toNat % 4 = 0 ∧ canonical (acc 0xFFFC 4).va = true
      ∧ lookup st 0 g.fn (procOf st g) (acc 0xFFFC 4).va true = .hit tlb0 ∧ tlb0.w = true)
    ∧ MKind.b32.typed = false
    ∧ anyBlocked (coreAt st 0) g 3 = false
    ∧ (((val st k g 0 (v 12)).toNat + (4 : BitVec 6).toInt * 4) % (4 : Int) = 0 ∧ 0 ≤ (val st k g 0 (v 12)).toNat + (-4 : BitVec 6).toInt * 4
      ∧ (val st k g 0 (v 12)).toNat + (4 : BitVec 6).toInt * 4 + 4 ≤ spadSize st g 0)
    ∧ ((val st k g 1 (v 8)).toNat + (0 : BitVec 6).toInt * 4) % (4 : Int) ≠ 0
    ∧ (val st k g 1 (v 0)).toNat + (-1 : BitVec 6).toInt * 4 < 0 := by decide +kernel

/-- What both lanes satisfy, every lane of the mask 3 does. -/
theorem onBoth {P : Nat → Prop} (h0 : P 0) (h1 : P 1) : ∀ l, (3 : Mask).getLsbD l = true → P l := fun l h => by
  rcases Nat.lt_or_ge l 64 with h64 | h64
  · have two : ∀ i : Fin 64, (3 : Mask).getLsbD i.val = true → i.val = 0 ∨ i.val = 1 := by decide
    rcases two ⟨l, h64⟩ h with e | e
    · have e : l = 0 := e
      exact e ▸ h0
    · have e : l = 1 := e
      exact e ▸ h1
  · rw [BitVec.getLsbD_of_ge _ l h64] at h; cases h

def reachesB (wr : Bool) (bad : TlbEntry → Bool) (as : List LaneAcc) : Bool :=
  (as.all fun a => a.va.toNat % a.size == 0 && canonical a.va && decide (lookup st 0 g.fn (procOf st g) a.va wr = .hit tlb0)) && !bad tlb0

/-- Page 0 is mapped, writable and in the stacks; no fence, acquire or snapshot stands before the lanes. -/
theorem reaches (wr : Bool) (bad : TlbEntry → Bool) (as : List LaneAcc) (h : reachesB wr bad as = true) :
    Reaches st k g 3 wr bad as fun _ => tlb0 := by
  simp only [reachesB, Bool.and_eq_true, List.all_eq_true, beq_iff_eq, decide_eq_true_eq, Bool.not_eq_true'] at h
  have hl : launchAt st g.launch = some launch1 := by decide +kernel
  exact ⟨fun a ha => ⟨(h.1 a ha).1.1, (h.1 a ha).1.2, (h.1 a ha).2⟩, fun _ _ _ => rfl, fun _ _ => h.2,
    fun a _ => by simp [lostWord, show st.lost = [] from rfl, show st.lostFns = [] from rfl], by decide +kernel,
    fun _ y e => by rw [hl] at e; cases e; rfl⟩

theorem witness_LoadsStart : AllGo [
    ({ i := .ld {} (.v 30) (v 0) (v 2) .b32 .normal false 0, srcs := [useA (v 0) 2, useB (v 2)], dsts := [{ o := .v 30, queued := true }],
       consume := [(2, useA (v 0) 2), (2, useB (v 2))] }, loadOwn st k g 3 3 (v 0) (v 2) .b32 .normal 0),
    ({ i := .ldu U (.s 8) (s 0) { o := .zero } .b32 true 31, c := U, srcs := [useA (s 0) 2, { useB { o := .zero } with xlow := true }],
       dsts := [{ o := .s 8, queued := true }] }, loadOwn st k g (laneBit (lowLane 3)) 3 (s 0) { o := .zero } .b32 .ro 31),
    ({ i := .lds {} (.v 28) (v 0) .b128 false 0, srcs := [useA (v 0)], dsts := [{ o := .v 28, n := 4, queued := true }],
       consume := [(2, useA (v 0))] }, spadOwn st k g 3 (v 0) 16 0)]
    ∧ (srcPois st k g (lowLane 3) (useA (s 0) 2) = false ∧ srcPois st k g (lowLane 3) (useB { o := .zero }) = false)
    ∧ (Reaches st k g 3 false (fun e => !loadKindOk e.tier e.fmt e.blk .f32) ((laneLoads st k g 3 (v 0) (v 8) .f32 0).map (·.acc)) (fun _ => tlb0)
      ∧ (∀ l, (3 : Mask).getLsbD l = true → (laneReach st k g (v 0) (v 8) .f32 0 l).2 = none)
      ∧ let n := loadNeed st 0 g.fn .normal .f32 (((laneLoads st k g 3 (v 0) (v 8) .f32 0).map (·.acc)).map fun q => (q, tlb0))
        capacityFor (coreAt st 0) n.1 n.2 = true)
    ∧ (lookup st 0 g.fn (procOf st g) 8 false = .hit tlb0 ∧ tlb0.tier ≠ 3) :=
  ⟨allGo _ (by decide +kernel), by decide +kernel, ⟨reaches _ _ _ (by decide +kernel),
    onBoth (by decide +kernel) (by decide +kernel), by decide +kernel⟩, by decide +kernel⟩

/-- The last clauses: a word that is clean in the L1, and one that a higher rank has written. -/
theorem witness_StoresAct : AllGo [
    ({ i := .st {} (v 0) (v 8) .b64 .normal false 0, srcs := [useA (v 0) 2, useB (v 8) 2], consume := [(2, useA (v 0) 2), (1, useB (v 8) 2)] },
      storeOwn st k g 3 (v 0) (v 8) .b64 .normal 0),
    ({ i := .sts {} (v 0) (v 8) .b8 true 31, srcs := [useA (v 0), useB (v 8)], consume := [(2, useA (v 0)), (1, useB (v 8))] },
      spadOwn st k g 3 (v 0) 1 31)]
    ∧ execLanes g {} 3 = 3
    ∧ (let as := storeAccs st k g 3 (v 0) .f32 0
      let n := storeNeed st k g (v 8) .f32 .normal (as.map fun q => (q, tlb0))
      Reaches st k g 3 true (fun e => !kindOk e.tier e.fmt e.blk .f32) as (fun _ => tlb0)
      ∧ (∀ l, (3 : Mask).getLsbD l = true → (laneReach st k g (v 0) ⟨.zero, .block, false⟩ .f32 0 l).2 = none)
      ∧ coverFaults st k g (v 8) .f32 (as.map fun q => (q, tlb0)) = [] ∧ capacityFor (coreAt st 0) n.1 n.2 = true)
    ∧ AllMet [{ i := .st {} (v 0) (v 8) .f32 .normal false 0, srcs := [useA (v 0) 2, useB (v 8)], consume := [(2, useA (v 0) 2), (1, useB (v 8))] }]
    ∧ (InSpad st k g 3 (v 0) 1 31 ∧ anyBlocked (coreAt st 0) g 3 = false)
    ∧ (∀ y, l1At core0 5 = some y → y.d = false)
    ∧ (∃ y, l1At { core0 with l1 := [(5, { mw := {}, d := true, rank := some (2, 0) })] } 5 = some y ∧ y.d = true ∧ y.rank = some (2, 0))
    ∧ ((1 : Nat) < 2 ∨ ((1 : Nat) = 2 ∧ (0 : Nat) < 0))
    ∧ (lostWord st 5 = false ∧ tierOf 5 ≠ 3 ∧ goesPast .normal = false ∧ goesPast .bypass = true) :=
  ⟨allGo _ (by decide +kernel), by decide +kernel,
    ⟨reaches _ _ _ (by decide +kernel), onBoth (by decide +kernel) (by decide +kernel), by decide +kernel, by decide +kernel⟩,
    allMet _ (by decide +kernel), ⟨onBoth (by decide +kernel) (by decide +kernel), by decide +kernel⟩,
    fun _ h => by simp [l1At, tget?, core0] at h, ⟨_, rfl, rfl, rfl⟩, by decide, by decide +kernel⟩

theorem witness_AtomicsAct : AllGo [
    ({ i := .atom {} (.v 30) (v 0) (v 8) .add32 .plain 0, srcs := [useA (v 0) 2, useB (v 8)], dsts := [{ o := .v 30, queued := true }],
       consume := [(2, useA (v 0) 2), (1, useB (v 8))] }, atomOwn st k g 3 (v 0) .add32 0),
    ({ i := .atom {} .zero (v 0) (v 8) .add32 .ar 0, srcs := [useA (v 0) 2, useB (v 8)],
       consume := [(2, useA (v 0) 2), (1, useB (v 8))] }, atomOwn st k g 3 (v 0) .add32 0),
    ({ i := .red {} (v 0) (v 8) .add64 true 0, srcs := [useA (v 0) 2, useB (v 8) 2], consume := [(2, useA (v 0) 2), (1, useB (v 8) 2)] },
      atomOwn st k g 3 (v 0) .add64 0)]
    ∧ execLanes g {} 3 = 3
    ∧ ∀ op, op = .add32 ∨ op = .add64 → Reaches st k g 3 true (fun e => e.fmt != 0) (atomAccs st k g 3 (v 0) op 0) (fun _ => tlb0)
      ∧ capacityFor (coreAt st 0) 0 (atomAccs st k g 3 (v 0) op 0).length = true :=
  ⟨allGo _ (by decide +kernel), by decide +kernel, fun op h => by
    rcases h with rfl | rfl <;> exact ⟨reaches _ _ _ (by decide +kernel), by decide +kernel⟩⟩

theorem witness_FencesAndCacheControl : AllMet [{ i := .fence {} (.q 0xF) },
    { i := .pref {} (v 0) (v 2) true 0, srcs := [useA (v 0) 2, useB (v 2)], consume := [(2, useA (v 0) 2), (2, useB (v 2))] },
    { i := .cctl {} { o := .zero } .invall 0 }]
    ∧ anyBlocked (coreAt st 0) g 3 = false ∧ (∀ q, q < 4 → (tget (coreAt st 0).cq q []).length + (lanesOf 3).length ≤ 64)
    ∧ AllGo [({ i := .cctl {} (v 0) .wb 0, srcs := [useA (v 0) 2], consume := [(2, useA (v 0) 2)] },
      memOwn st k g 3 false (cctlAccs st k g 3 (v 0) 0) (fun _ => []) (fun _ => (0, 0)) fun _ => .ok st)]
    ∧ (canonical 8 = true ∧ lookup st 0 g.fn (procOf st g) 8 false = .hit tlb0 ∧ tlb0.tier ≠ 3 ∧ tlb0.fmt = 0
      ∧ l1At (coreAt st 0) (wkey tlb0.tier (physOf tlb0 8)) = none
      ∧ (let n := capacityNeed st 0 g.fn [(wkey tlb0.tier (physOf tlb0 8), tlb0.key, tlb0.sector)] 0; capacityFor (coreAt st 0) n.1 n.2 = true)
      ∧ capacityFor (coreAt st 0) 0 1 = true ∧ canonical 0x0100000000000000 = false) :=
  ⟨allMet _ (by decide +kernel), by decide +kernel, by decide +kernel, allGo _ (by decide +kernel), by decide +kernel⟩

theorem witness_InMemoryOperationsStart : AllGo [
    ({ i := .mzero {} (v 0) 9 0, srcs := [useA (v 0) 2], consume := [(2, useA (v 0) 2)] },
      inmemOwn st k g 3 true ((lanesOf 3).map (runAcc st k g (v 0) 9 0)) [] []),
    ({ i := .mcopy {} (v 0) (v 2) 0 0, srcs := [useA (v 0) 2, useB (v 2) 2], consume := [(2, useA (v 0) 2), (2, useB (v 2) 2)] },
      inmemOwn st k g 3 true ((lanesOf 3).map (runAcc st k g (v 0) 0 0)) ((lanesOf 3).map (runAcc st k g (v 2) 0 0)) []),
    ({ i := .mcmp {} (.v 12) (v 0) (v 2) 0 0, srcs := [useA (v 0) 2, useB (v 2) 2, { pos := 3, src := v 12 }],
       consume := [(2, useA (v 0) 2), (2, useB (v 2) 2), (2, { pos := 3, src := v 12 })] },
      inmemOwn st k g 3 false ((lanesOf 3).map (runAcc st k g (v 0) 0 0)) ((lanesOf 3).map (runAcc st k g (v 2) 0 0))
        (spadFaults st g 8 8 ((lanesOf 3).map fun l => (l, ((laneVal st k g l (.v 12) 0).1.toNat : Int)))))]
    ∧ inmemLanes {} 3 (execLanes g {} 3) = 3
    ∧ (∀ wr n r, (n, r) ∈ [((9 : Fin 10), v 0), (0, v 0), (0, v 2)] →
      Reaches st k g 3 wr (fun e => e.tier != 0 || e.key != 0) ((lanesOf 3).map (runAcc st k g r n 0)) fun _ => tlb0)
    ∧ (∀ q, q ∈ (lanesOf 3).map (runAcc st k g (v 0) 0 0) → ∀ r, r ∈ (lanesOf 3).map (runAcc st k g (v 2) 0 0) → q.lane = r.lane →
      colourOf (waddrOf (accWord q tlb0)) = colourOf (waddrOf (accWord r tlb0)))
    ∧ ∀ l, (3 : Mask).getLsbD l = true → (laneVal st k g l (.v 12) 0).1.toNat % 8 = 0
      ∧ (laneVal st k g l (.v 12) 0).1.toNat + 8 ≤ spadSize st g l := by
  refine ⟨allGo _ (by decide +kernel), by decide +kernel, fun wr n r h => ?_, by decide +kernel, onBoth (by decide +kernel) (by decide +kernel)⟩
  rcases List.mem_cons.mp h with e | h
  · cases e; cases wr <;> exact reaches _ _ _ (by decide +kernel)
  rcases List.mem_cons.mp h with e | h
  · cases e; cases wr <;> exact reaches _ _ _ (by decide +kernel)
  · cases List.mem_singleton.mp h; cases wr <;> exact reaches _ _ _ (by decide +kernel)

def swForm (i : Instr) (srcs : List SrcUse) : Form := { i := i, srcs := srcs, consume := [(2, useA (v 12)), (1, useB (v 8))] }

theorem witness_SyncWordsAct : AllGo [
    (swForm (.swinit {} (v 12) (v 8) 0) [useA (v 12), useB (v 8)], swOwn st k g 3 (v 12) 0 false),
    (swForm (.swarr {} (v 12) (v 8) 31) [useA (v 12), useB (v 8)], swOwn st k g 3 (v 12) 31 true),
    (swForm (.swwait {} (v 12) (v 8) 0) [useA (v 12), useB (v 8)], swOwn st k g 3 (v 12) 0 true)]
    ∧ 16 % 16 = 0 ∧ 0 < (tget [(2, ({ data := 0x0000000100000002 } : SpadWord))] (16 / 8) {}).data.toNat % 2 ^ 32 :=
  ⟨allGo _ (by decide +kernel), by decide⟩

/-- Two lanes meet at a barrier of two; at another, both have arrived and the generation has moved on. -/
def stB : State := { st with sets := [{ launch := 1, set := 0, core := some 0, units := 1, bars := [(63, { gen := 1 })] }] }

/-- A barrier of three where one has arrived. -/
def stB3 : State := { st with
  sets := [{ launch := 1, set := 0, core := some 0, units := 1, bars := [(5, { target := 3, arr := 1, gen := 7 })] }] }

theorem passesBar (s : State) (h : (match gate s k g {} false [] [] [] with | .pass a r p => a == 3 && r == 0 && p == .split [] | _ => false) = true)
    (hr : ∃ a r q, regGate s k g {} 3 3 [] = .pass a r q) : Passes s k g {} false [] [] [] 3 0 (.split []) 3 := by
  split at h
  · next a r p e =>
    simp only [Bool.and_eq_true, beq_iff_eq] at h
    obtain ⟨⟨rfl, rfl⟩, rfl⟩ := h
    exact ⟨e, hr⟩
  · cases h

theorem witness_BarriersAct : AllGo [
    ({ i := .bara {} 0 3 }, arriveOwn st k g 3 0 3), ({ i := .bara {} 64 0 }, arriveOwn st k g 3 64 0)]
    ∧ (∃ s2, arriveOwn st k g 3 63 2 = .ok s2 ∧ ∃ s1, waitOwn s2 k 3 63 = .ok s1)
    ∧ (collTrap stB g 3 3 63 = none ∧ anyBlocked (coreAt stB 0) g 3 = false ∧ (∃ s1, waitOwn stB k 0 63 = .ok s1)
    ∧ ({ target := 2, arr := 2 } : Barrier).all = false ∧ ({ target := 2, arr := 2 } : Barrier).target ≠ 0
    ∧ ({ all := true, arr := 3 } : Barrier).all = true)
    ∧ (execLanes g {} 3 = 3 ∧ ∀ s, s = st ∨ s = stB ∨ s = stB3 → Issuing s k g ∧ Passes s k g {} false [] [] [] 3 0 (.split []) 3
      ∧ anyBlocked (coreAt s 0) g 3 = false ∧ collTrap s g 3 3 64 = none ∧ Released s k g 3
      ∧ ∀ l, (3 : Mask).getLsbD l = true → (threadAt g l).arrived = false ∧ laneSet s g l = 0)
    ∧ ((∀ l, (3 : Mask).getLsbD l = true → (threadAt g l).wb ≠ 63) ∧ (barNow stB g (threadAt g 0) 63).1 ≠ (threadAt g 0).wg)
    ∧ ∀ id cnt s, (id = 0 ∧ cnt = 2 ∧ s = st) ∨ (id = 5 ∧ cnt = 0 ∧ s = stB3) → ∃ y, setAt s g.launch 0 = some y
      ∧ let b := tget y.bars id {}
        (b.arr = 0 ∧ cnt ≠ 0 ∧ (lanesOf 3).length = cnt) ∨ (b.arr ≠ 0 ∧ b.all = false ∧ b.arr + (lanesOf 3).length = b.target) := by
  have okOf : ∀ o : Own, (match o with | .ok _ => true | _ => false) = true → ∃ s, o = .ok s := fun o h => by
    cases o with | ok s => exact ⟨s, rfl⟩ | _ => cases h
  have okTwo : ∀ (o : Own) (f : State → Own), (match o with | .ok s => (match f s with | .ok _ => true | _ => false) | _ => false) = true →
      ∃ s2, o = .ok s2 ∧ ∃ s1, f s2 = .ok s1 := fun o f h => by
    cases o with | ok s => exact ⟨s, rfl, okOf _ h⟩ | _ => cases h
  refine ⟨allGo _ (by decide +kernel), okTwo _ (fun s2 => waitOwn s2 k 3 63) (by decide +kernel), ⟨by decide +kernel, by decide +kernel,
    okOf _ (by decide +kernel), by decide⟩, ⟨by decide +kernel, fun s h => ?_⟩,
    ⟨onBoth (by decide +kernel) (by decide +kernel), by decide +kernel⟩, fun id cnt s h => ?_⟩
  · rcases h with rfl | rfl | rfl
    all_goals exact ⟨⟨rfl, by decide +kernel⟩, passesBar _ (by decide +kernel) ⟨3, 0, _, rfl⟩, by decide +kernel, by decide +kernel,
      onBoth (.inr (by decide +kernel)) (.inr (by decide +kernel)), onBoth (by decide +kernel) (by decide +kernel)⟩
  · rcases h with ⟨rfl, rfl, rfl⟩ | ⟨rfl, rfl, rfl⟩
    · exact ⟨_, rfl, .inl (by decide +kernel)⟩
    · exact ⟨_, rfl, .inr (by decide +kernel)⟩

/-! ### Copies, queues and tasks -/

def zeros (c : List (Nat × SrcUse)) (i : Instr) (srcs : List SrcUse) : Form := { i := i, srcs := srcs, consume := c ++ srcs.map fun u => (2, u) }

theorem witness_CopiesAreAccepted :
    let vs := (lanesOf 3).map fun l => (l, compVal st k g (.lit 0x80000001) l)
    let lit : AcptLit := ⟨0, 1, false, false, .rn, .bf16, .f32⟩
    AllGo [
      (zeros [] (.acp {} (.v 12) (v 0) (.lit 0x80000001) 3 .b128 false) [useA (v 0) 2, useD (.v 12) 1],
        copyOwn st k g 3 3 (acpSrcs st k g 3 (v 0) (csizeBytes .b128)) (acpDsts st k g 3 (.v 12) (csizeBytes .b128) false)
          (spadFaults st g (csizeBytes .b128) (csizeBytes .b128) (acpOffs st k g 3 (.v 12) false) ++ compFaults st g vs) false
          (byComp vs).length none),
      (zeros [] (.acpt {} 0 (v 0) 0 false lit) [useA (v 0) 2],
        copyOwn st k g 3 0 (acpSrcs st k g 3 (v 0) (styBytes lit.sty)) []
          (crossFaults (lit.len.toNat * styBytes lit.sty) (acpSrcs st k g 3 (v 0) (styBytes lit.sty))
            ++ compFaults st g ((lanesOf 3).map fun l => (l, lit.comp))) false 1 none),
      (zeros [(1, useB (v 8))] (.acpr {} (.v 0) (v 12) (v 8) (.lit 0x80000001) 0 .add32) [useD (.v 0) 2, useA (v 12), useB (v 8)],
        copyOwn st k g 3 0 [] (acprAccs st k g 3 (.v 0) (v 12) 4) (compFaults st g vs) true (byComp vs).length none),
      (zeros [] (.acpl {} (.s 8) (s 0) (v 2) 0 false 256 0) [useA (s 0) 2, useB (v 2), useD (.s 8) 1],
        copyOwn st k g 3 0 (acplRows st k g 3 3 (s 0) (v 2) 2048) (acplDsts st k g 3 3 (.s 8) 2048 false)
          (crossFaults 2048 (acplRows st k g 3 3 (s 0) (v 2) 2048) ++ crossFaults 2048 (acplDsts st k g 3 3 (.s 8) 2048 false)
            ++ spadFaults st g 2048 8 (acplOffs st k g 3 3 (.s 8) 2048 false) ++ compFaults st g ((lanesOf 3).map fun l => (l, 0))) false 1 none)]
    ∧ (tget (coreAt st 0).tiles 0 {}).claim.isNone = false
    ∧ (∀ f n, f ∈ [fun id => CopyCmd.fence id 7 0 1] → cmdNum (f n) = n ∧ cmdSlot (f n) = k.slot)
    ∧ (∀ e, e ∈ tget (coreAt st 0).cq 0 [] →
      ((coreAt st 0).cqCycle = podClock st (podOf 0) ∧ cmdNum e ∈ (coreAt st 0).cqNew) ∨ st.nid ≤ cmdNum e → cmdSlot e / 32 ≤ k.slot / 32)
    ∧ (let f := CopyCmd.fence 50 8 32 1
      let s := { st with cores := [(0, { core0 with cq := [(2, [f])], cqNew := [50], cqCycle := podClock st 0 })] }
      tget (coreAt s 0).cq 2 [] = [f] ∧ (coreAt s 0).cqCycle = podClock s (podOf 0) ∧ cmdNum f ∈ (coreAt s 0).cqNew
        ∧ cmdSlot (CopyCmd.fence 51 7 0 1) / 32 < cmdSlot f / 32 ∧ cmdBegun f = false)
    ∧ ((byComp vs)[0]? = some [0, 1] ∧ (vs.map (·.1)).Nodup)
    ∧ (∃ q, q.lane = 1 ∧ entriesOf st 0 g false (acpSrcs st k g 2 (v 0) 16) = [(q, tlb0)])
    ∧ (∃ q, q.lane = 1 ∧ entriesOf st 0 g true (acpDsts st k g 2 (.v 0) 16 true) = [(q, tlb0)])
    ∧ ∃ q, q.lane = 1 ∧ entriesOf st 0 g true (acprAccs st k g 2 (.v 0) (v 12) 8) = [(q, tlb0)] := by
  refine ⟨allGo _ (by decide +kernel), by decide +kernel, fun f n h => ?_, fun e h => ?_, by decide +kernel, by decide +kernel,
    ⟨⟨1, 0, 16⟩, by decide +kernel⟩, ⟨⟨1, 0, 16⟩, by decide +kernel⟩, ⟨⟨1, 128, 8⟩, by decide +kernel⟩⟩
  · cases List.mem_singleton.mp h; exact ⟨rfl, rfl⟩
  · have hz : tget (coreAt st 0).cq 0 [] = [] := rfl
    rw [hz] at h; cases h

theorem witness_QueuesAndTasksAct : AllMet [
    { i := .enq {} (v 0) (v 4), srcs := [{ useA (v 0) with late := 0 }, useB (v 4)] }, { i := .enqc {} },
    { i := .tksig U (v 0), c := U, srcs := [useA (v 0)], consume := [(2, useA (v 0))] }]
    ∧ ((nodeAt st g.fn (enqNode st k g 3 (v 4))).rwords = 1 ∧ enqRegs st {} (v 0) (v 4) = (1, 0) ∧ enqFirst (v 0) + 1 ≤ 128
      ∧ srcPois st k g (lowLane 3) (useB (v 4)) = false ∧ (∀ l, l < 2 → srcPois st k g l (useA (v 0)) = false)
      ∧ (nodeAt st g.fn (enqNode st k g 3 (v 4))).en = true ∧ (nodeAt st g.fn (enqNode st k g 3 (v 4))).proc = procOf st g
      ∧ g.staged.length + (lanesOf 3).length ≤ 256)
    ∧ fullNodes st g.fn g.staged = [] ∧ (commitStall st g.fn g.staged).1 = false ∧ (releaseFirst st k g 3).isNone = true :=
  ⟨allMet _ (by decide +kernel), by decide +kernel, by decide +kernel⟩

/-! ### Matrix and twin instructions -/

theorem witness_GangsForm : AllMet [
    { i := .gang U (v 0) (v 2) .g2, c := U, srcs := [useA (v 0), useB (v 2)], consume := [(3, useA (v 0)), (3, useB (v 2))] }]
    ∧ (val st k g (lowLane 3) (v 0)).toNat < gsize .g2 ∧ (val st k g (lowLane 3) (v 2)).toNat + gsize .g2 ≤ setGroupCount (hdrOf st g) g.set
    ∧ g.formed = false ∧ groupPos (hdrOf st g) g = (val st k g (lowLane 3) (v 2)).toNat + (val st k g (lowLane 3) (v 0)).toNat :=
  ⟨allMet _ (by decide +kernel), by decide +kernel⟩

theorem witness_TileSlotsAct : AllMet [{ i := .tclm {} 7 (some 5) (some 15) none }, { i := .trel {} (some 0) none (some 1) },
    { i := .tfill {} 1 (v 8) true true false, srcs := [useB (v 8)], consume := [(6, useB (v 8))] }]
    ∧ (∀ n, n ∈ named [some 0, none, some 1] → (tileAt st 0 n).claim = some (g.launch, g.set) ∧ (tileAt st 0 n).full = true
      ∧ (tileAt st 0 n).locks = 0) ∧ (3 : Mask) = liveMask g ∧ ({ data := List.replicate 32768 0 } : Tile).data.length = 32768
    ∧ (coreAt st 0).claims = []
    ∧ (let f : Claim := ⟨1, 1, 8, 2, 1, [4, 5], (1, 0), true⟩
      let e : Claim := ⟨0, 0, 7, 1, 3, [3, 4], (1, 0), false⟩
      let u := { st with cores := [(0, { core0 with tiles := [(4, { claim := some (1, 0) }), (5, { claim := some (1, 0) })],
                                                    claims := [f], claimCycle := podClock st 0 })] }
      (coreAt u 0).claimCycle = podClock u (podOf 0) ∧ (coreAt u 0).claims = [f] ∧ e.quarter < f.quarter ∧ e.slot ≠ f.slot
        ∧ (∀ m, m ∈ f.names ∨ m ∈ e.names → (tileAt u 0 m).clearing = false)
        ∧ (∀ m, m ∈ e.names → m ∉ f.names → (tileAt u 0 m).claim = none) ∧ groupAt u 0 f.slot = some g1 ∧ g1.gid = f.gid
        ∧ 4 ∈ e.names ∧ 4 ∈ f.names) := by
  refine ⟨allMet _ (by decide +kernel), by decide +kernel, by decide +kernel, List.length_replicate, rfl, ⟨by decide +kernel, by decide +kernel,
    by decide, by decide, fun m h => ?_, by decide +kernel, by decide +kernel, by decide +kernel, by decide, by decide⟩⟩
  have hm : m ∈ [3, 4, 5] := by
    rcases h with h | h <;> simp only [List.mem_cons, List.not_mem_nil, or_false] at h ⊢ <;> omega
  clear h
  revert m
  decide +kernel

/-- The first member of a gang of two whose other member has nothing in the latch. -/
def gM : Group := { g with gangr := gangrVal 2 0 0, gang := [0, 1] }
def stM : State := { st with cores := [(0, { core0 with groups := [(0, gM), (1, g1)] })] }

theorem witness_MmaEntersTheLatch : Issuing stM k gM
    ∧ gate stM k gM {} false [] [{ o := .v 64, n := 64 }] [] = .pass 3 0 (.split [])
    ∧ regGate stM k gM {} 3 (BitVec.allOnes 64) [{ o := .v 64, n := 64 }] = .pass 3 0 .no
    ∧ execLanes gM {} 3 = liveMask gM ∧ liveMask gM ≠ 0
    ∧ (∀ i, i ∈ mmaSlots 0 1 none → (tileAt stM 0 i).claim.isSome = true ∧ (tileAt stM 0 i).full = true)
    ∧ gM.gangFault = none ∧ gM.gangr.getLsbD 31 = true ∧ gM.formed = false ∧ gM.gangr.extractLsb' 24 3 = BitVec.ofNat 3 (shapeSize .g2lo)
    ∧ ∀ m h f, (m, h) ∈ (coreAt stM k.core).groups → m ≠ k.slot → h.launch = gM.launch → h.set = gM.set → (m ∈ gM.gang ∨ k.slot ∈ h.gang) →
      h.latch = some f → h.gang = gM.gang ∧ f.a = 0 ∧ f.b = 1 ∧ f.b2 = none ∧ f.ty = .bf16 ∧ f.shape = .g2lo := by
  refine ⟨⟨rfl, by decide +kernel⟩, by decide +kernel, by decide +kernel, by decide +kernel, by decide +kernel, by decide +kernel,
    by decide +kernel, by decide +kernel, by decide +kernel, by decide +kernel, fun m h f hm _ _ _ _ hl => ?_⟩
  have none1 : ∀ e, e ∈ (coreAt stM k.core).groups → e.2.latch = none := by decide +kernel
  have := none1 (m, h) hm
  rw [hl] at this
  cases this

theorem witness_LicenceInstructions : AllMet [{ i := .mlic {} 0 }, { i := .mlrel {} }] := allMet _ (by decide +kernel)

/-- TWBAR: the twin has arrived at barrier 0 of the link as often as these lanes will have. -/
def stW : State := { st with cores := [(0, core0), (96, { twb := [(0, 1)] })], pods := [(0, { upst := 0 })] }

theorem witness_TwinInstructions : AllMet [
    { i := .twsend {} (v 8), twin := true, srcs := [useA (v 8)], consume := [(5, useA (v 8))] },
    { i := .twsendNb {} 1 (v 8), twin := true, srcs := [useA (v 8)], consume := [(5, useA (v 8))] },
    { i := .twrecv {} (.v 30), twin := true, dsts := [{ o := .v 30, queued := true }] },
    { i := .twfree U (.s 0), c := U, twin := true, dsts := [{ o := .s 0 }] }, { i := .twbar {} 0, twin := true }]
    ∧ outFree (coreAt st 0) ≠ 0 ∧ gate stW k g {} true [] [] [] = .pass 3 0 (.split [])
    ∧ (let s2 := twArrive stW 0 0 0
      ∀ l, l < 2 → (twinArrivals (modGroup s2 0 0 (fun g => modThreads g 3 fun t => { t with arrived := true })) 0 0
        - tget (coreAt s2 0).twb 0 0).msb = false)
    ∧ (coreAt st 0).link = []
    ∧ (let e : LinkSlot := ⟨podClock st 0, 1, .fifo []⟩
      let u := { st with cores := [(0, { core0 with link := [e] })] }
      (coreAt u 0).link = [e] ∧ e.since = podClock u (podOf 0) ∧ 0 < e.quarter)
    ∧ (let i : Item := { id := 60, op := 50, gid := 7, slot := 0, lane := 0, fn := 0, launch := 1, body := .twrecv (some 0) 3 }
      let u := { st with cores := [(0, { core0 with items := [i] }), (96, { fifo := [[5, 6]] })] }
      (coreAt u (twinOf 0)).fifo = [5, 6] :: [] ∧ oldestRecv (coreAt u 0) = some i ∧ groupAt u 0 i.slot = some g ∧ g.gid = i.gid
        ∧ vreg? g 0 = some (reg 0 0) ∧ (reg 0 0).tag = 0)
    ∧ oldestRecv (coreAt st 0) = none := ⟨allMet _ (by decide +kernel), by decide +kernel, by decide +kernel, by decide +kernel, rfl,
    by decide +kernel, by decide +kernel, by decide +kernel⟩

theorem witness_RegroupAndTopk : AllMet [
    { i := .regroup {} (.v 8) 1 0x00000005, srcs := [{ pos := 3, src := v 8 }] },
    { i := .topk {} (.v 30) (v 0) (v 8) .f32, srcs := [useA (v 0), useB (v 8)], dsts := [{ o := .v 30, n := 2 }],
      consume := [(3, useA (v 0)), (3, useB (v 8))] }]
    ∧ (carriedNames g 5).length ≤ g.rb + g.rx
    ∧ (∀ n, n ∈ carriedNames g 5 → (match vreg? g n with | some r => (3 : Mask) &&& ~~~r.full | none => 0) = 0)
    ∧ (∀ l, l < 2 → srcPois st k g l { pos := 3, src := v 8 } = false)
    ∧ (liveMask g &&& ~~~(1 : Mask) ≠ 0 ∧ liveMask g &&& ~~~(3 : Mask) = 0 ∧ carriedNames g 0 = [])
    ∧ (laneVal st k g (lowLane 3) (.v 8) 0).2 = false
    ∧ 1 ≤ (val st k g (lowLane 3) (v 8)).toNat ∧ (val st k g (lowLane 3) (v 8)).toNat ≤ 64 :=
  ⟨allMet _ (by decide +kernel), by decide +kernel, by decide +kernel, by decide +kernel, by decide +kernel, by decide +kernel, by decide +kernel⟩

/-! ### Events of a core -/

def word (w : Nat) (d : DWord) : Nat × L1Word := (w, { mw := { data := d } })
/-- The group as it stands before a clause of one NOP, which the L1 holds, at address 0x1000 of page 1. -/
def gH : Group := { g with threads := { present := true, pc := 0x1000 } :: { present := true, pc := 0x1000 } :: List.replicate 62 {} }
def gOdd : Group := { g with threads := { present := true, pc := 0x1004 } :: List.replicate 63 {} }
def stH (h : Group) : State := { st with
  cur := none, cores := [(0, { core0 with groups := [(0, h)], quarters := [], l1 := [word 8704 0xF401000000000000, word 8705 0x0000003030303000] })] }
def hdr1 : Header := ⟨false, false, false, false, false, 1, 0, false, 0⟩
/-- The group stands inside that clause, of which no word had come. -/
def gMid : Group := { g with
  threads := { present := true, pc := 0x1008, run := some ⟨0x1000, hdr1, []⟩ } :: { present := true, pc := 0x1008, run := some ⟨0x1000, hdr1, []⟩ } :: List.replicate 62 {} }
def fetched : Fetch → Option DWord | .word d _ => some d | _ => none

theorem witness_ClausesStart :
    (∀ h, h ∈ [gN, gH, gOdd] → h.overrun = none ∧ linkStalls (coreAt (stH h) 0) 0 = false ∧ (coreAt (stH h) 0).gated = false ∧ (coreAt (stH h) 0).retention = false
      ∧ tget? (coreAt (stH h) 0).quarters 0 = none ∧ candidates (stH h) 0 0 = [0] ∧ groupAt (stH h) 0 0 = some h ∧ laneSetOf (stH h) 0 0 h ≠ 0)
    ∧ (threadAt gN 0).mid = true ∧ (threadAt gOdd 0).mid = false ∧ (threadAt gOdd 0).pc.toNat % 8 ≠ 0
    ∧ (threadAt gH 0).mid = false ∧ (threadAt gH 0).pc.toNat % 8 = 0 ∧ (threadAt gH 0).run = none ∧ (threadAt gOdd 0).run = none
    ∧ (∃ s1, fetchCode { stH gH with cores := [(0, { core0 with groups := [(0, gH)], quarters := [] })] } 0 0 gH 3 0x1000 = .wait s1)
    ∧ ((threadAt gMid 0).mid = false ∧ (threadAt gMid 0).run = some ⟨0x1000, hdr1, []⟩
      ∧ ∃ s1 ws, fetchMany (stH gMid) 0 0 gMid 3 0x1008 false 1 [] = (.word 0 s1, ws) ∧ groupAt s1 0 0 = some gMid)
    ∧ ∃ d s1 s2 ws, fetchCode (stH gH) 0 0 gH 3 0x1000 = .word d s1 ∧ decodeHeader d = some hdr1 ∧ waitClear gH hdr1 = true ∧ hdr1.sp = false
      ∧ fetchMany s1 0 0 gH 3 0x1008 false 1 [] = (.word 0 s2, ws) ∧ groupAt s2 0 0 = some gH :=
  ⟨by decide +kernel, by decide +kernel, by decide +kernel, by decide +kernel, by decide +kernel, by decide +kernel, by decide +kernel,
    by decide +kernel, ⟨_, rfl⟩, ⟨by decide +kernel, by decide +kernel, stH gMid, [0x0000003030303000], rfl, by decide +kernel⟩,
    0xF401000000000000, stH gH, stH gH, [0x0000003030303000], rfl, by decide +kernel, by decide +kernel, rfl, rfl, by decide +kernel⟩

def entry : RegroupEntry := { launch := 1, set := 0, key := 5, wid := 3, pc := 0x1000, depth := 0, carried := [(0, 7, false)], spcnt := 0,
                              npIn := false, npCnt := 0, wb := 0, wg := 0, since := 0, wrote := [], wroteHome := [] }
def gPool : Group := { g with rb := 20, threads := { thr 0 with park := .pool 0 [126] } :: List.replicate 63 {} }
/-- A group that takes the rest of a granule and has no live lane. -/
def gRest : Group := { g1 with rb := 492, threads := List.replicate 64 {} }
def stPool : State := { st with cores := [(0, { core0 with groups := [(0, gPool), (1, gRest)], quarters := [], regGran := 1 })] }
/-- The scoreboard's two copies differ: in `gSb` a slot is set in one only. -/
def gSb : Group := { g with sb := [(0, 5)] }
def gatedSet : CoSet := { launch := 1, set := 0, done := false, causes := [(causeGating, 0)], saved := some ⟨[(0, g)], [], [], [], false, 0⟩ }
def stGated : State := { st with sets := [gatedSet], pods := [(0, { upst := 2 })] }
def launchR : Launch := { launch1 with hdr := { hdr with flags := 0 } }
def stR : State := { st with now := 2000, launches := [launchR], cores := [(0, { core0 with groups := [], regroup := [entry] })] }
def snap : Snapshot := { id := 9, region := 0, done := false, words := [] }
def stSnap : State := { st with launches := [{ launch1 with snaps := [snap] }],
                                home := [(8192, { v := true, mw := { data := 5 } })] }

theorem witness_CoreEventsAct :
    (groupAt stPool 0 0 = some gPool ∧ (0, gPool) ∈ (coreAt stPool 0).groups ∧ gPool.shadowOf = none ∧ gPool.shadow = none ∧ gPool.latch = none
      ∧ onPool gPool = true ∧ (∀ e, e ∈ (coreAt stPool 0).groups → allParked stPool 0 e.1 e.2 = true
        ∧ (e = (0, gPool) ∨ (e.2.hard = false ∧ onPool e.2 = false)))
      ∧ (∀ i, i ∈ (coreAt stPool 0).items → i.body.isProducer = false)
      ∧ drained (coreAt (stopGroup (modGroup stPool 0 0 fun g => { g with hard := true }) 0 0 true) 0) gPool = true)
    ∧ (({ core0 with groups := [], evicted := [(0, g, [])] } : Core).evicted = (0, g, []) :: [] ∧ g.shadow = none
      ∧ cmdRoom { core0 with groups := [] } [] = true
      ∧ regsUsed { core0 with groups := [] } + groupNeed g ≤ 512 * core0.regGran)
    ∧ ([(⟨1, true⟩ : GranConv)].find? (fun v => v.spad == true) = some ⟨1, true⟩ ∧ (coreAt st 0).conv = []
      ∧ regsUsed (coreAt st 0) ≤ 512 * (coreAt st 0).regGran ∧ unitsUsed st 0 ≤ 32 * (coreAt st 0).spadGran ∧ granWanted st 0 = false
      ∧ granWanted { st with cores := [(0, { core0 with evicted := [(0, g, [])] })] } 0 = true)
    ∧ ((coreAt stR 0).regroup.find? (keyDue stR 0 false) = some entry ∧ (coreAt stR 0).regroup.find? (keyDue stR 0 true) = some entry
      ∧ launchAt stR entry.launch = some launchR ∧ launchR.stopping = false ∧ launchR.hdr.shadow = false
      ∧ regsUsed (coreAt stR 0) + launchR.hdr.rb ≤ 512 * (coreAt stR 0).regGran ∧ (freeSlot (coreAt stR 0) false).isSome = true
      ∧ (coreAt stR 0).groups = [])
    ∧ (g.sb = g.sb2 ∧ gSb.sb ≠ gSb.sb2 ∧ core0.items = [])
    ∧ (groupAt st 0 0 = some g ∧ vreg? g 19 = some (reg 19 16) ∧ isUpper 0 = false)
    ∧ (isUpper 96 = true ∧ (podAt stGated (podOf 96)).upst = 2
      ∧ stGated.sets.find? (fun z => z.causes.contains (causeGating, podOf 96) && z.saved.any fun i => i.groups.any fun e => e.1 == 0) = some gatedSet
      ∧ (gatedSet.saved.bind fun i => (i.groups.find? fun e => e.1 == 0).map (·.2)) = some g)
    ∧ (stSnap.net = [] ∧ (homeAt stSnap (wkey 0 (8 * 8192))).owner = none ∧ (homeAt stSnap (wkey 0 (8 * 8192))).v = true
      ∧ (homeAt stSnap (wkey 0 (8 * 8192))).syn = 0)
    ∧ (stSnap.launches.findSome? fun y => (y.snaps.find? fun z => z.id == 9 && !z.done).map fun z => (y, z))
      = some ({ launch1 with snaps := [snap] }, snap) :=
  ⟨by decide +kernel, by decide +kernel, by decide +kernel, by decide +kernel, by decide +kernel, by decide +kernel, by decide +kernel,
    by decide +kernel, by decide +kernel⟩

/-- A page table for page 0: roots at page 1, a leaf with RP at page 4, which maps page 5 of the stacks. -/
def pte (w : Nat) (d : DWord) : Nat × HomeWord := (w, { v := true, mw := { data := d } })
def walk0 : Walk := { id := 9, core := 0, fn := 0, proc := 0, vpn := 0, write := false }
def stP (ws : List Walk) : State := { State.reset with
  nid := 100, full := true, walks := ws, invals := [⟨4, 0, 0, [0], [], []⟩, ⟨6, 0, 0, [0], [], [(0, 8)]⟩],
  fns := [(0, { procs := [(0, { v := true, root := 0x10000 }), (1, {})] })],
  home := [pte 8192 0x21000001, pte 16384 0x31000001, pte 24576 0x41000001, pte 32768 0x50E00007] }
def leaf0 : TlbEntry := { tlb0 with ppn := 5 }
def mig : Migration := { fn := 0, proc := 0, page := 0, leafTier := 0, leafW := 32768, tier := 1, ppn := 9, inval := 4 }
def stAts : State := { stP [] with fns := [(0, { ats := true, procs := [(0, { v := true, root := 0x10000 })] })],
                                   home := [pte 8192 0x21000001, pte 16384 0x31000001, pte 24576 0x41000001, pte 32768 0x50E00027] }
def stMig : State := { stP [] with migration := some mig }
def stCmd : State := { stP [] with
  cores := [(0, { cq := [(0, [.cmd 8 7 0 1 0 0 .copy [] [] false])] })] }

theorem witness_TranslationEventsAct :
    ((stP [walk0]).walks.find? (fun w => w.id == 9 && w.st == 0) = some walk0 ∧ inTransit (stP [walk0]) 0 0 0 = false
      ∧ (stP [walk0]).tlbLo.find? (fun e => tlbMatch 0 0 (pageVa 0) e && (!walk0.write || e.d || !e.w)) = none
      ∧ (walkPage (stP [walk0]) 0 0 0 false).1 = .leaf leaf0 32768 0x50E00007 ∧ leaf0.tier ≠ 2)
    ∧ (9 < stAts.nid ∧ (fnAt stAts 0).ats = true ∧ (match walkPage stAts 0 0 0 false with | (.leaf e _ _, s1) => e.tier == 2 && (fnAt s1 0).ats | _ => false) = true)
    ∧ walk0.pri = true ∧ ({ walk0 with pri := false } : Walk).pri = false
    ∧ ((stP [{ walk0 with proc := 1 }]).walks.find? (fun w => w.id == 9 && w.st == 0) = some { walk0 with proc := 1 }
      ∧ (walkPage (stP [{ walk0 with proc := 1 }]) 0 1 0 false).1 = .bad 1)
    ∧ ((stP [{ walk0 with st := 3 }]).walks.find? (fun w => w.id == 9 && w.st == 3 && w.token == 0) = some { walk0 with st := 3 }
      ∧ ((stP [{ walk0 with st := 3 }]).walks.filter fun v => v.st == 3 && v.token != 0).length < 256)
    ∧ (stP [{ walk0 with st := 3, token := 6 }]).walks.find? (fun w => w.fn == 0 && w.st == 3 && w.token != 0
      && BitVec.ofNat 32 w.token == 6) = some { walk0 with st := 3, token := 6 }
    ∧ ((stP []).invals.find? (fun v => v.id == 4) = some ⟨4, 0, 0, [0], [], []⟩
      ∧ (stP []).invals.find? (fun v => v.id == 6) = some ⟨6, 0, 0, [0], [], [(0, 8)]⟩ ∧ (0, 8) ∈ copiesOf stCmd 0)
    ∧ ((stP []).migration = none ∧ (leafOf (stP []) 0 0 0).1 = some (32768, 0x50E00007, leaf0) ∧ leaf0.large = false
      ∧ (0x50E00007 : DWord).getLsbD 23 = true ∧ leaf0.tier < 2 ∧ leaf0.tier ≠ 1)
    ∧ stMig.migration = some mig ∧ stMig.invals.find? (fun v => v.id == mig.inval) = some ⟨4, 0, 0, [0], [], []⟩
    ∧ (leafOf stMig 0 0 0).1 = some (32768, 0x50E00007, leaf0) ∧ invalReady stMig ⟨4, 0, 0, [0], [], []⟩ = true
    ∧ pageQuiet stMig (regionOf (wkey 0 (5 * 2 ^ 16))) = true := by decide +kernel

/-! ### Events of homes, channels and arrivals -/

def msg (kd : MsgKind) : HomeMsg := { id := 9, src := .core 0, fn := 0, w := 8192, kind := kd, acc := 5 }
def there : HomeWord := { v := true, mw := { data := 5 } }
def stHm (ms : List HomeMsg) (h : HomeWord) : State := { State.reset with
  net := ms, home := [(8192, h)], l2Lines := [(l2Frame State.reset 8192 0, { line := lineOf 8192 })] }
def rank0 : Rank := ⟨0, 0, 0, 0⟩
def stRc : State := { stHm [] { there with owner := some (.core 1) } with
  recalls := [⟨3, 1, 8192, 9⟩], cores := [(1, { l1 := [(8192, { mw := {}, o := true, d := true })] })] }

theorem witness_HomesAct :
    (∀ kd, kd ∈ [.read, .ranked rank0 0x0F {}, .unranked {}, .register, .rankClear, .atomic .add32 1 0 0] →
      (stHm [msg kd] there).net.find? (fun m => m.id == 9) = some (msg kd) ∧ msgFirst (stHm [msg kd] there) (msg kd) = true
      ∧ (msg kd).batch = 0 ∧ (msg kd).src = .core 0 ∧ (homeAt (stHm [msg kd] there) 8192).syn = 0 ∧ (homeAt (stHm [msg kd] there) 8192).owner = none ∧ (homeAt (stHm [msg kd] there) 8192).v = true
      ∧ (l2Way (stHm [msg kd] there) 8192).isSome = true ∧ (msg kd).acc ≠ 0 ∧ (msg kd).fill = false)
    ∧ rankGt ⟨0, 0, 0, 1⟩ rank0 = true ∧ rankGt rank0 rank0 = false
    ∧ (msgFirst (stHm [msg .read] {}) (msg .read) = true ∧ (homeAt (stHm [msg .read] {}) 8192).v = false ∧ (msg .read).mem = none
      ∧ (msg .read).ask = 0 ∧ tierOf (msg .read).w ≠ 2 ∧ (chanAt (stHm [msg .read] {}) (chanOf 8192)).pend = []
      ∧ (let q : ChanReq := { id := 7, w := 8193, sector := true }
        sectorOf q.w = sectorOf 8192 ∧ q.sector = true ∧ q.wr = [] ∧ ({ msg .read with sector := true } : HomeMsg).sector = true))
    ∧ (let m : HomeMsg := { msg .read with w := 2 ^ 51 + 1 }
      msgFirst (stHm [m] {}) m = true ∧ tierOf m.w = 2 ∧ (homeAt (stHm [m] {}) m.w).v = false)
    ∧ (isAtomic (.unranked {}) = false ∧ (homeAt (stHm [msg (.unranked {})] { there with owner := some (.core 0) }) 8192).owner = some (.core 0))
    ∧ ((homeAt (stHm [msg .read] { there with owner := some (.core 1) }) 8192).owner = some (.core 1) ∧ (msg .read).src ≠ .core 1
      ∧ (stHm [msg .read] { there with owner := some (.core 1) }).recalls = [])
    ∧ stRc.recalls.find? (fun r => r.id == 3) = some ⟨3, 1, 8192, 9⟩ ∧ stRc.net = [] ∧ (homeAt stRc 8192).owner = some (.core 1)
    ∧ l1At (coreAt stRc 1) 8192 = some { mw := {}, o := true, d := true } ∧ (l2Way stRc 8192).isSome = true := by decide +kernel

def stCh (r : ChanReq) : State := { State.reset with full := true, chans := [(0, { pend := [r] })] }
def rdReq : ChanReq := { id := 9, w := 8192 }
def wrReq : ChanReq := { id := 9, w := 2 ^ 51 - 1, wr := [(2 ^ 51 - 1, { data := 7, pois := true })] }
def stScrub : State := { State.reset with mem := memPut [] (2 ^ 36 - 1) (flipBit ⟨0, 0, 0⟩ 79) }
def hostRd : HomeMsg := { msg .read with w := 2 ^ 51 + 1, ask := 9 }

theorem witness_ChannelsAct :
    ((chanAt (stCh rdReq) 0).pend = [rdReq] ∧ inmemNext (stCh rdReq) 0 = none ∧ rdReq.wr = [] ∧ rdReq.repair = false ∧ rdReq.sector = false
      ∧ (memGet (stCh rdReq).mem rdReq.w).syn = 0)
    ∧ (let r : ChanReq := { rdReq with sector := true }; r.key = 0 ∧ ∀ w, w ∈ wordsOfSector (sectorOf r.w) → (memGet (stCh r).mem w).syn = 0)
    ∧ ((chanAt (stCh wrReq) 0).pend = [wrReq] ∧ inmemNext (stCh wrReq) 0 = none ∧ wrReq.wr = [(wrReq.w, { data := 7, pois := true })]
      ∧ wrReq.repair = false ∧ wrReq.key = 0 ∧ wholeSector (stCh wrReq) wrReq.sector = false ∧ (stCh wrReq).einjc.getLsbD 31 = false ∧ wrReq.w < 2 ^ 51 ∧ Memory.wf (stCh wrReq).mem = true)
    ∧ ((chanAt stScrub (chanOf (2 ^ 36 - 1))).pend = [] ∧ synRes (memGet stScrub.mem (2 ^ 36 - 1)) = .corrected 79)
    ∧ hostMsg { State.reset with net := [hostRd] } 9 = some hostRd ∧ hostRd.kind = .read ∧ hostRd.src = .core 0 ∧ hostRd.acc ≠ 0 := by
  decide +kernel

def resp (a : Nat) : Resp := { id := 9, core := 0, w := 8192, mw := { data := 5 }, acc := a }
def respHit : Resp := { resp 5 with hit := true, ins := 3 }
def item (b : Body) : Item := { id := 5, op := 3, gid := 7, slot := 0, lane := 1, body := b }
def stIt (b : Body) (a : Nat) : State := { st with
  cores := [(0, { core0 with items := [item b] })], resps := [resp a], acks := [⟨9, 0, 8192⟩] }

theorem witness_ArrivalsLand :
    (let b : Body := .load { kind := .b32, fmt := 0, blk := 0, off := 4, size := 4 } [8192] [] [.v 8 1] false;
      (stIt b 0).resps.find? (fun r => r.id == 9 && r.core == 0 && !r.eng && (r.acc == 0 || r.hit)) = some (resp 0)
      ∧ (resp 0).hit = false ∧ (resp 0).corrected = false ∧ (item b).past = false ∧ (coreAt (stIt b 0) 0).mshrs = []
      ∧ l1At (coreAt (stIt b 0) 0) 8192 = none ∧ (coreAt (stIt b 0) 0).items = [item b] ∧ (coreAt st 0).items = []
      ∧ ({ stIt b 0 with resps := [respHit] }).resps.find? (fun r => r.id == 9 && r.core == 0 && !r.eng && (r.acc == 0 || r.hit)) = some respHit
      ∧ (item b).op = respHit.ins ∧ (item b).id = respHit.acc ∧ (item b).id < 9
      ∧ groupAt (stIt b 0) 0 0 = some g ∧ g.gid = (item b).gid ∧ vreg? g 8 = some (reg 8 1) ∧ (reg 8 1).tag = 8)
    ∧ (let b : Body := .atomic 8192 4 [.v 8 1] false;
      (stIt b 5).resps.find? (fun r => r.id == 9 && r.core == 0 && (r.acc != 0 || r.eng) && !r.hit) = some (resp 5) ∧ (resp 5).eng = false ∧ (coreAt (stIt b 5) 0).items = [item b])
    ∧ setAt st 1 0 = some { launch := 1, set := 0, core := some 0, units := 1 } ∧ 4092 % 4 = 0
    ∧ (8 : Nat) ≠ 9 ∧ vreg? g 9 = some (reg 9 1) ∧ (reg 9 1).tag = 9
    ∧ (stIt (.settle [9] [] false) 0).acks.find? (fun a => a.id == 9) = some ⟨9, 0, 8192⟩
    ∧ (coreAt (stIt (.settle [9] [] false) 0) 0).items = [item (.settle [9] [] false)] := by decide +kernel

/-! ### Events of copies, front ends and launches -/

def cpUnit : CopyUnit := { dst := .home 16384 4 4, srcW := 8192, srcOff := 0, run := 0 }
def cmd (us : List CopyUnit) (rs : List CopyRun) : CopyCmd := .cmd 8 7 0 1 0 0 .copy us rs false
def stCp (cs : List CopyCmd) : State := { State.reset with
  cores := [(0, { cq := [(0, cs)], items := [item (.taskDec 0 3)] })],
  home := [(8192, there), (16384, { there with rank := some rank0 })], l2Lines := [(l2Frame State.reset 16384 0, { line := lineOf 16384 })],
  fns := [(0, { tasks := [(3, { counter := 2 })], started := [(4, .copy 0 0 [] none 0)] })] }

theorem witness_CopiesProceed :
    (headCmd (stCp [cmd [cpUnit] []]) 0 0 = some (cmd [cpUnit] []) ∧ cpUnit.written = false ∧ cpUnit.sent = false ∧ cpUnit.landed = false
      ∧ cpUnit.asked = false ∧ readsSrc .copy cpUnit = true ∧ tierOf cpUnit.srcW ≠ 3 ∧ copyHeld (stCp [cmd [cpUnit] []]) 0 0 = false
      ∧ copyHeld { stCp [cmd [cpUnit] []] with cores := [(0, { cq := [(0, [cmd [cpUnit] []])], groups := [(0, { g with hard := true })] })] } 0 0 = true)
    ∧ (let r : Resp := { id := 9, core := 0, w := 8192, mw := {}, acc := 8, eng := true }
      ({ stCp [cmd [{ cpUnit with asked := true }] []] with resps := [r] }).resps.find? (fun r => r.id == 9 && r.core == 0 && (r.acc != 0 || r.eng) && !r.hit)
        = some r ∧ r.unit = none)
    ∧ (let u : CopyUnit := { cpUnit with asked := true, got := some {} }
      headCmd (stCp [cmd [u] []]) 0 0 = some (cmd [u] []) ∧ u.dst = .home 16384 4 4 ∧ unitFirst [u] 0 u = true ∧ tierOf 16384 < 2
      ∧ u.skip = false ∧ (stCp [cmd [u] []]).net = []
      ∧ (homeAt (stCp [cmd [u] []]) 16384).v = true ∧ (homeAt (stCp [cmd [u] []]) 16384).owner = none
      ∧ (homeAt (stCp [cmd [u] []]) 16384).syn = 0 ∧ (l2Way (stCp [cmd [u] []]) 16384).isSome = true)
    ∧ ({ cpUnit with written := true } : CopyUnit).landed = false
    ∧ headCmd (stCp [cmd [{ cpUnit with landed := true }] []]) 0 0 = some (cmd [{ cpUnit with landed := true }] [])
    ∧ (tget (coreAt (stCp [.fence 5 7 0 3]) 0).cq 0 [] = .fence 5 7 0 3 :: [] ∧ (∀ i, i ∈ (coreAt (stCp [.fence 5 7 0 3]) 0).items → i.id = 5)
      ∧ ∀ j, j < 4 → j ≠ 0 → tget (coreAt (stCp [.fence 5 7 0 3]) 0).cq j [] = [])
    ∧ (item (.taskDec 0 3)).body = .taskDec 0 3 ∧ 1 < (tget (fnAt (stCp []) 0).tasks 3 {}).counter.toNat
    ∧ (∀ work, work ∈ [feTurn 0 (fun s => completeCmd s 0 0), (fun s => endItem (decTask s 0 3) 0 5), feTurn 0 fun s => endCopy s 0 4] →
      (fnAt (work (feBegin (stCp [cmd [{ cpUnit with landed := true }] []]) 0)) 0).stall = false)
    ∧ tget? (fnAt (stCp []) 0).started 4 = some (.copy 0 0 [] none 0) := by decide +kernel

/-- Queue 0 of function 0 with one command at the page that page 0 of process 0 maps to: eight words at home. -/
def stQ (ws : List DWord) : State := { stP [] with
  fns := [(0, { pen := true, queues := [(0, { en := true, tail := 1 })], tasks := [(0, { counter := 2 })],
                procs := [(0, { v := true, root := 0x10000 })] })],
  home := [pte 8192 0x21000001, pte 16384 0x31000001, pte 24576 0x41000001, pte 32768 0x50E00007]
    ++ (ws.zip (List.range ws.length)).map fun (d, i) => pte (40960 + i) d }
def hdrWords : List DWord := [0x1000, 0, 0, 0x0000041000000006, 64, 0x10, 0, 0, 0, 0, 0, 0, 0, 0, 0, 0]
def launchWords : List DWord := [1, 0x80, 0, 0, 7, 0, 0, 0] ++ List.replicate 8 0 ++ hdrWords
def graphWords : List DWord := [2, 0x80, 0, 0, 7, 0, 0, 0] ++ List.replicate 8 0 ++ [1, 0, 0, 0, 1, 0x1000]
def copyWords : List DWord := [3, 0x80, 0x100, 8, 7, 0, 0, 0]
/-- The command at the head of the queue, and the state in which the queue has moved on. -/
def cmdOf (ws : List DWord) : Cmd := (headOf (frontState (stQ ws) 0) 0 0).1
def moved (ws : List DWord) : State := headDone (headOf (frontState (stQ ws) 0) 0 0).2 0 0 0
/-- As FRONT_END_ARBITRATE looks at the heads. -/
def arbitrated (s : State) : State :=
  let s0 := frontState s 0
  priorityStops (pumpEntries s0 0 (fnAt s0 0).entries []) 0
def stDue : State := { stP [] with fns := [(0, { pen := true, procs := [(0, { v := true, root := 0x10000 })],
                                                 tasks := [(5, { due := [⟨hdr, 3, 0, 0, none⟩] })] })] }

theorem witness_CommandsStart :
    ((fnAt (stQ copyWords) 0).resetting = false ∧ (pick (arbitrated (stQ copyWords)) 0).map (·.2) = some (.queue 0)
      ∧ (pick (arbitrated stDue) 0).map (·.2) = some (.task 5) ∧ (tget (fnAt (arbitrated stDue) 0).tasks 5 {}).due = ⟨hdr, 3, 0, 0, none⟩ :: []
      ∧ processOrder (stQ copyWords) 0 = 0 :: [])
    ∧ (∀ ws, ws ∈ [launchWords, graphWords, copyWords, [4, 0, 0, 0, 7, 0, 0, 0], [0x104, 0, 0, 5, 7, 0, 0, 0], [5, 0, 0, 0, 7, 0, 0, 0]] →
      choice (frontState (stQ ws) 0) 0 = some (0, .queue 0) ∧ (cmdOf ws).ok = true)
    ∧ (∀ ws, ws ∈ [[0, 0, 0, 0, 7, 0, 0, 0], [4, 0, 1, 0, 7, 0, 0, 0], [255, 0, 0, 0, 7, 0, 0, 0]] →
      choice (frontState (stQ ws) 0) 0 = some (0, .queue 0) ∧ (cmdOf ws).ok = false)
    ∧ ((cmdOf launchWords).typ = 1 ∧ (readHeader (moved launchWords) 0 0 (cmdOf launchWords).a).1.2 = 0)
    ∧ ((cmdOf graphWords).typ = 2 ∧ (cmdOf graphWords).b = 0 ∧ (readGraph (moved graphWords) 0 0 (cmdOf graphWords).a).1
        = some ⟨1, false, 0, 0, [(1, 0x1000)]⟩ ∧ graphOk (cmdOf graphWords) ⟨1, false, 0, 0, [(1, 0x1000)]⟩ = true)
    ∧ ((cmdOf copyWords).typ = 3 ∧ (copyPieces 0 0 8 0x80 0x100 8 (moved copyWords)).1.isSome = true)
    ∧ ((cmdOf [4, 0, 0, 0, 7, 0, 0, 0]).typ = 4 ∧ (cmdOf [4, 0, 0, 0, 7, 0, 0, 0]).mod = false
      ∧ 1 < (tget (fnAt (moved [4, 0, 0, 0, 7, 0, 0, 0]) 0).tasks 0 {}).counter.toNat)
    ∧ (cmdOf [0x104, 0, 0, 5, 7, 0, 0, 0]).mod = true ∧ BitVec.ofNat 32 (cmdOf [0x104, 0, 0, 5, 7, 0, 0, 0]).len ≠ 0
    ∧ (cmdOf [5, 0, 0, 0, 7, 0, 0, 0]).typ = 5
    ∧ (∀ e, e ∈ [(launchWork 0, launchWords), (replayStart 0, graphWords), (copyStart 0, copyWords),
        (signalWork 0 false, [4, 0, 0, 0, 7, 0, 0, 0]), (signalWork 0 true, [0x104, 0, 0, 5, 7, 0, 0, 0]), (fenceStart 0, [5, 0, 0, 0, 7, 0, 0, 0]),
        (launchWork 0, [0, 0, 0, 0, 7, 0, 0, 0]), (arbitrate 0, copyWords)] →
      (fnAt (feTurn 0 e.1 (feBegin (stQ e.2) 0)) 0).stall = false)
    ∧ (fnAt (feTurn 0 (arbitrate 0) (feBegin stDue 0)) 0).stall = false := by decide +kernel

def stAd : State := { stR with sets := [], cores := [(0, { core0 with groups := [] })] }
def stBt : State := { stP [] with fns := [(0, { pen := true, procs := [(0, { v := true, root := 0x10000 })],
                                                nodes := [(0, { en := true, wr := 1, times := [0] })] })] }
def started (y : Started) : State := { st with fns := [(0, { pen := true, procs := [(0, { weight := 0 })], started := [(4, y)] })] }
def stOver : State := { st with cores := [], sets := [{ launch := 1, set := 0, done := true }] }
def stWin : State := { State.reset with numVfs := 1, fns := [(0, { pen := true }), (1, { pen := true })], now := 10000000 }

theorem witness_LaunchesProceed :
    (launchAt stAd 1 = some launchR ∧ (pickWith (joinP stAd 0) 0 fun m => canPlace (joinP stAd 0) m 0 || (m.id == 1 && mayAdmit (joinP stAd 0) launchR 0 0)).map (·.2)
        = some (.placing 1) ∧ mayAdmit (joinP stAd 0) launchR 0 0 = true ∧ savedAhead (joinP stAd 0) launchR 0 = false
      ∧ matrixOk (joinP stAd 0) launchR 0 0 = true ∧ planRoom (joinP stAd 0) launchR 0 0 true = true ∧ launchR.hdr.twin = false)
    ∧ (choice (frontState stBt 0) 0 = some (0, .batch 0) ∧ batchSize (frontState stBt 0) 0 0 false = some 1
      ∧ batchSize (frontState stBt 0) 0 0 true = some 1)
    ∧ tget? (fnAt (started (.replay 0 0 0 false 0 1 [] none 0 0)) 0).started 4 = some (.replay 0 0 0 false 0 1 [] none 0 0)
    ∧ tget? (fnAt (started (.fence 0 0 0 [])) 0).started 4 = some (.fence 0 0 0 [])
    ∧ tget? (fnAt (started (.fence 0 0 0 [1])) 0).started 4 = some (.fence 0 0 0 [1])
    ∧ (launchAt (started (.fence 0 0 0 [1])) 1).isSome = true
    ∧ (launchAt stOver 1 = some launch1 ∧ (fnAt stOver 0).resetting = false ∧ launchOver stOver launch1 = true ∧ launchQuiet stOver 1 = true
      ∧ launchQuiet (flushLaunch (clearRemote stOver launch1) 1) 1 = true
      ∧ (fnAt (feTurn 0 (endLaunch launch1) (feBegin (flushLaunch (clearRemote stOver launch1) 1) 0)) 0).stall = false)
    ∧ (fnAt (feTurn 0 (batchWork 0 0 false) (feBegin stBt 0)) 0).stall = false
    ∧ (fnAt (feTurn 0 (endReplay 0 4) (feBegin (started (.replay 0 0 0 false 0 1 [] none 0 0)) 0)) 0).stall = false
    ∧ (fnAt (feTurn 0 (endFence 0 4) (feBegin (started (.fence 0 0 0 [])) 0)) 0).stall = false
    ∧ (let s : State := { stOver with cores := [(0, { l1 := [(8192, { mw := {}, d := true, by_ := [1] })] })] }
      launchAt s 1 = some launch1 ∧ launchOver s launch1 = true ∧ launchQuiet s 1 = true
      ∧ launchQuiet (flushLaunch (clearRemote s launch1) 1) 1 = false)
    ∧ (tget? (fnAt (joinP (started (.fence 0 0 0 [])) 0) 0).procs 0 = some { weight := 0, inP := false }
      ∧ ∀ e, e ∈ (fnAt (joinP (started (.fence 0 0 0 [])) 0) 0).procs →
        e.2.vt + slotsOf (joinP (started (.fence 0 0 0 [])) 0) 0 e.1 * 1024 / max 1 e.2.weight ≤ 2 ^ 63)
    ∧ 1 < (sharers stWin 23).length ∧ (sharers stWin 23)[(tget stWin.windows 23 {}).slot]? = some 0
    ∧ (tget stWin.windows 23 {}).start + (fnAt stWin 0).quantum.toNat * usCycles stWin ≤ stWin.now := by decide +kernel

def setS (p : Stop) : CoSet := { launch := 1, set := 0, core := some 0, units := 1, stop := p }
def gBar : Group := { g with threads := { thr 0 with park := .bar 0 } :: { thr 1 with park := .bar 0 } :: List.replicate 62 {} }
def gSt : Group := { g with threads := { thr 0 with stopped := true } :: List.replicate 63 {} }
def stS (p : Stop) (h : Group) : State := { stR with sets := [setS p], cores := [(0, { core0 with groups := [(0, h)] })] }
def setV : CoSet := { launch := 1, set := 0, units := 1, saved := some ⟨[], [], [], [], false, 0⟩ }
def stV : State := { stAd with sets := [setV] }
def launchC : Launch := { launchR with contain := [(0, 0, 1, 1)] }
def stC : State := { stS .none g with launches := [launchC] }

theorem witness_PreemptionActs :
    (setAt (stS .hard g) 1 0 = some (setS .hard) ∧ groupAt (stS .hard g) 0 0 = some g ∧ (0, g) ∈ (coreAt (stS .hard g) 0).groups
      ∧ g.launch = 1 ∧ g.set = 0 ∧ g.formed = false ∧ g.shadowOf = none
      ∧ ∀ e, e ∈ (coreAt (stS .hard g) 0).groups → e.2.gid = g.gid → e = (0, g))
    ∧ (setAt (stS .light gBar) 1 0 = some (setS .light) ∧ (coreAt (stS .light gBar) 0).evicted = []
      ∧ (∀ e, e ∈ (coreAt (stS .light gBar) 0).groups → e = (0, gBar)) ∧ gBar.hard = false ∧ inRegion gBar = false
      ∧ (threadAt gBar 0).live = true ∧ ∀ l, l < 64 → (liveMask gBar).getLsbD l = true → lightStop gBar l = true)
    ∧ (launchAt (stS .light gSt) 1 = some launchR ∧ setAt (stS .light gSt) 1 0 = some (setS .light) ∧ launchR.stopping = false
      ∧ launchR.hdr.twin = false ∧ (setS .light).core = some 0 ∧ (setS .light).stop ≠ .none ∧ (stS .light gSt).defSwap = none ∧ saveUnit (stS .light gSt) 1 0 0 = [0]
      ∧ groupSavable (stS .light gSt) 0 gSt = true)
    ∧ (launchAt stV 1 = some launchR ∧ setAt stV 1 0 = some setV ∧ setV.saved.isSome = true ∧ stV.savedLinks = [] ∧ stV.defSwap = none
      ∧ canRestore stV launchR 0 0 = true)
    ∧ launchAt stC 1 = some launchC ∧ launchC.aborted = none ∧ (0, 0, 1, 1) ∈ launchC.contain
    ∧ launchDrained stC 1 = true ∧ stC.defSwap = none := by decide +kernel

/-! ### Events of pods, of the host and of the fabric -/

def pod (p : Pod) : State := { State.reset with pods := [(95, p)], now := 100000, full := true }

theorem witness_PodEventsAct :
    ((podAt (pod {}) 95).sampledAt = none ∧ (podAt (pod {}) 95).throttle = 0
      ∧ ((podAt (pod {}) 95).limit.toNat : Int) ≤ max (0x0690 : BitVec 16).toInt (0x068F : BitVec 16).toInt
      ∧ max (0x068F : BitVec 16).toInt (0x8000 : BitVec 16).toInt < ((podAt (pod {}) 95).limit.toNat : Int)
      ∧ podClock (pod { sampledAt := some 95905 }) 95 < 95905 + 4096 ∧ 95904 + 4096 ≤ podClock (pod { sampledAt := some 95904 }) 95)
    ∧ (let p := fun n => ({ throttle := 2, clk := 100000, clkAt := 100000, overSince := some n } : Pod);
      (podAt (pod (p 91808)) 95).overSince = some 91808 ∧ 1 ≤ (podAt (pod (p 91808)) 95).throttle ∧ (podAt (pod (p 91808)) 95).throttle ≤ 2
      ∧ 91808 + 8192 ≤ podClock (pod (p 91808)) 95 ∧ podClock (pod (p 91809)) 95 < 91809 + 8192)
    ∧ (podAt (pod {}) 95).overSince = none
    ∧ (569 : BitVec 16).toNat < 570 ∧ 570 ≤ (570 : BitVec 16).toNat
    ∧ ((podAt (pod { reqUp := true }) 95).lic = .free ∧ (podAt (pod { reqUp := true }) 95).reqUp = true)
    ∧ (let p : Pod := { lic := .held true, reqLo := true };
      (podAt (pod p) 95).lic = .held true ∧ (podAt (pod p) 95).fireAt + 256 ≤ podClock (pod p) 95
      ∧ (podAt (pod p) 95).grantAt + max 1024 (podAt (pod p) 95).licq.toNat ≤ podClock (pod p) 95 ∧ (podAt (pod p) 95).reqLo = true)
    ∧ podClock (pod { lic := .held false, fireAt := 99745 }) 95 < (podAt (pod { lic := .held false, fireAt := 99745 }) 95).fireAt + 256
    ∧ (let p := fun t => ({ lic := .handover false, drainAt := some t } : Pod);
      (podAt (pod (p 99952)) 95).drainAt = some 99952 ∧ 99952 + 48 ≤ podClock (pod (p 99952)) 95 ∧ podClock (pod (p 99953)) 95 < 99953 + 48)
    ∧ (podAt (pod { upst := 0 }) 95).gate = false ∧ (podAt (pod { gate := true }) 95).upst = 2
    ∧ (let p : Pod := { upst := 1, gate := true }; (podAt (pod p) 95).lic ≠ .held true ∧ (podAt (pod p) 95).lic ≠ .handover true
      ∧ (coreAt (pod p) 191).groups = [] ∧ (coreAt (pod p) 191).evicted = [] ∧ (coreAt (pod p) 191).items = [] ∧ (coreAt (pod p) 191).link = [] ∧ (coreAt (pod p) 191).mshrs = [])
    ∧ (let p : Pod := { upst := 3, image := some ([], [(0, 1)]) }; (podAt (pod p) 95).image = some ([], [(0, 1)]) ∧ (podAt (pod p) 95).gate = false ∧ (pod p).sets = []) := by
  decide +kernel

def latchE : LatchEntry := { a := 0, b := 1, b2 := none, ty := .bf16, shape := .g2lo, z := true, d := 64, lanes := 3, sb := none, next := 0,
                             last := false, word := 0, names := [] }
def round (f : Bool) : Round := { id := 5, lead := 0, members := [0], gids := [7], entries := [latchE], fired := f }
def winItem : LinkSlot := ⟨99999, 1, .window 15 [7] 3⟩
def fifoItem : LinkSlot := ⟨99999, 0, .fifo [7]⟩
def stRd (f : Bool) : State := { st with
  now := 100000,
  cores := [(0, { core0 with rounds := [round f], link := [winItem, ⟨0, 0, .bar 0⟩] }), (96, { link := [fifoItem] })],
  pods := [(0, { lic := .held false })] }

theorem witness_MatrixAndLinkEventsAct :
    (nextRound (coreAt (stRd false) 0) = some (round false) ∧ holdsLic (stRd false) 0 = true
      ∧ (∀ q, q ∈ (coreAt (stRd false) 0).rounds → q.fired = false) ∧ groupAt (stRd false) 0 0 = some g
      ∧ memberPois (stRd false) 0 g latchE 0 = false)
    ∧ (coreAt (stRd true) 0).rounds.find? (·.fired) = some (round true)
    ∧ (round true).firedAt + roundCycles (round true) ≤ podClock (stRd true) 0 ∧ (tileAt (stRd true) 0 0).clearAt + 16 ≤ podClock (stRd true) 0
    ∧ (coreAt (stRd true) 0).link = winItem :: [⟨0, 0, .bar 0⟩] ∧ (coreAt (stRd true) 96).link = fifoItem :: []
    ∧ winItem.since < podClock (stRd true) 0 ∧ (coreAt (stRd true) 0).crossAt = none ∧ (∀ n, n < 4 → winItem.item ≠ .bar n ∧ fifoItem.item ≠ .bar n)
    ∧ podClock { stRd true with now := 99999 } 0 ≤ winItem.since ∧ (coreAt st 0).link = []
    ∧ (coreAt (stRd true) (twinOf 96)).items = [] := by decide +kernel

def stDef : State := { State.reset with cores := [(0, { groups := [(0, g)] })], keydat := List.replicate 32 1 ++ List.replicate 32 2 }

theorem witness_HostWritesAct :
    (fnThere State.reset 0 = true ∧ ((64 : Word) - (queueAt State.reset 0 63).head).toNat ≤ 2 ^ (queueAt State.reset 0 63).log2n
      ∧ 2 ^ (queueAt State.reset 0 63).log2n < ((65 : Word) - (queueAt State.reset 0 63).head).toNat
      ∧ 6 ≤ (0x80000010 : Word).toNat % 2 ^ 5 ∧ (0x80000010 : Word).toNat % 2 ^ 5 ≤ 16 ∧ (0x80000005 : Word).toNat % 2 ^ 5 < 6)
    ∧ (∀ c, (sharers State.reset c).length ≤ 1)
    ∧ ((0x0000171F : Word).getLsbD 31 = false ∧ (0x80001700 : Word).getLsbD 31 = true ∧ ({ stDef with defSwap := some (0, 1, false) }).defSwap.isSome = true
      ∧ stDef.defSwap = none ∧ (0x80001700 : Word).toNat % 32 < 24 ∧ (0x80001700 : Word).toNat / 256 % 32 < 24
      ∧ (0, { groups := [(0, g)] }) ∈ stDef.cores ∧ clusterOf 0 = physCluster stDef ((0x80001700 : Word).toNat % 32))
    ∧ ((0x80000001 : Word).getLsbD 31 = true ∧ (0x80000001 : Word).toNat % 2 ^ 16 ≠ 0)
    ∧ stDef.keydat.length = 64 ∧ stDef.keydat.take 32 ≠ stDef.keydat.drop 32 ∧ 1 ≤ (128 : BitVec 8).toNat ∧ (128 : BitVec 8).toNat ≤ 128
    ∧ 128 < (129 : BitVec 8).toNat :=
  ⟨by decide +kernel, fun _ => Nat.le_trans (List.length_filter_le _ _) (by decide), by decide +kernel⟩

theorem witness_ResetsAndFirmwareAct :
    (let s : State := { State.reset with numVfs := 32 }; 0 < 32 ∧ 32 ≤ s.numVfs ∧ (fnAt s 32).resetting = false ∧ s.defSwap = none
      ∧ s.launches = [] ∧ s.rreqs = [] ∧ s.migration = none)
    ∧ Memory.wf State.reset.mem = true
    ∧ ({ State.reset with trained := 0xFF }).trained = 0xFF ∧ State.reset.launches = [] ∧ State.reset.trained ≠ 0xFF
    ∧ State.reset.booted = false ∧ ({ State.reset with booted := true }).booted = true
    ∧ State.reset.recov = false ∧ State.reset.updating = none ∧ ({ State.reset with recov := true }).recov = true
    ∧ ({ State.reset with updating := some [1] }).updating = some [1] ∧ State.reset.attWait = [] := by decide +kernel

/-- A flit with no slots: KIND 1, sequence 0, and its check code. -/
def flit : List Byte := let b := flitBody 0x0000001000000000 []; b ++ bytesOfWord (crc64 b)
def fab (kind : Nat) (q0 q1 : DWord) : FabMsg := { id := 9, dev := 1, kind := kind, q0 := q0, q1 := q1, q2 := 0 }
def rreq : RemoteReq := { id := 4, dev := 1, core := 0, acc := 5, w := 0, op := 0, mask := 0, data := 0, data2 := none, slot := 0, lane := 0,
                          home := 0, sent := true, since := 0 }
def coll (n : BitVec 16) : Coll := { peers := 2, en := true, local_ := 1, count := n }
def stFb (ms : List FabMsg) (n : BitVec 16) : State := { State.reset with
  full := true, linkEn := 0xFFFF, rin := ms, rreqs := [rreq], now := 131072, impWins := [(15, { base := 0, size := 8, devs := 2 })],
  cores := [(0, { items := [item (.homeStore 0)] })], fns := [(0, { colls := [(63, coll n)] })] }

theorem witness_FabricEventsAct :
    (linkUp (stFb [] 0) 15 = true ∧ flit.length = 256 ∧ (List.replicate 256 (1 : Byte)).length = 256
      ∧ wordOfBytes ((List.replicate 256 (1 : Byte)).drop 248) ≠ crc64 ((List.replicate 256 (1 : Byte)).take 248) ∧ (linkAt (stFb [] 0) 15).fails < 8
      ∧ wordOfBytes (flit.drop 248) = crc64 (flit.take 248) ∧ bitsOf (flitWord flit 0) 30 6 = (stFb [] 0).devid
      ∧ flitSeq flit = (linkAt (stFb [] 0) 15).rxSeq + 1 ∧ bitsOf (flitWord flit 0) 36 4 ∈ [1, 2, 3]
      ∧ bitsOf (flitWord flit 0) 30 6 ≠ ({ stFb [] 0 with devid := 1 }).devid)
    ∧ (rinAt (stFb [fab 1 0 0] 0) 9 1 = some (fab 1 0 0) ∧ reqKind (fab 1 0 0) = some .read
      ∧ importOk (stFb [] 0) 1 (8 * bitsOf (fab 1 0 0).q1 0 49) = true ∧ importOk (stFb [] 0) 1 (8 * bitsOf (fab 1 0 1).q1 0 49) = false)
    ∧ (rinAt (stFb [fab 2 0 4] 0) 9 2 = some (fab 2 0 4) ∧ (stFb [] 0).rreqs.find? (fun r =>
        r.sent && r.dev == (fab 2 0 4).dev && r.id % 65536 == bitsOf (fab 2 0 4).q1 0 16) = some rreq
      ∧ (fnAt (stFb [] 0) 0).resetting = false ∧ (coreAt (stFb [] 0) 0).items = [item (.homeStore 0)] ∧ (item (.homeStore 0)).id = rreq.acc)
    ∧ (rinAt (stFb [fab 3 63 0] 0) 9 3 = some (fab 3 63 0) ∧ bitsOf (fab 3 63 0).q0 6 26 < 33 ∧ (coll 0).peers.getLsbD 1 = true
      ∧ (fab 3 63 0).q1.setWidth 32 = (coll 0).gen ∧ collAt (stFb [] 1) 0 63 = coll 1 ∧ (coll 1).count = (coll 1).local_
      ∧ (coll 0).count ≠ (coll 0).local_ ∧ ∀ d, d < 64 → (coll 1).peers.getLsbD d = true → (coll 1).got.getLsbD d = true ∨ d = 1)
    ∧ (63 < 64 ∧ 63 ≠ (stFb [] 0).devid) ∧ (stFb [] 0).rreqs.find? (fun r => r.id == 4) = some rreq
    ∧ (stFb [] 0).lost = [] ∧ rreq.dev ∈ ({ stFb [] 0 with lost := [1] }).lost ∧ 4 < ({ stFb [] 0 with nid := 5 }).nid
    ∧ rreq.since + 131072 ≤ (stFb [] 0).now ∧ ({ stFb [] 0 with now := 131071 }).now < rreq.since + 131072 := by decide +kernel

/-! ### Words and memory -/

theorem witness_DecodeOfEncode : (Instr.isInstr (.mov {} (.w 15) (v 127)) = true ∧ Instr.wf (.mov {} (.w 15) (v 127)) = true)
    ∧ decodeWords [0x2000000080007001, 0] = .ok (.iadd {} (.v 2) (v 0) (v 1) .sat) := by decide

theorem witness_WordCode : 2 ≤ ((List.range 4).filter fun j => (0xC : BitVec 4).getLsbD j).length ∧ (2 : Nat) ^ 49 - 1 < 2 ^ 49 := by decide

theorem witness_StoredWords : Memory.wf (memPut [] (2 ^ 52 - 1) ⟨5, 3, 0⟩) = true ∧ 2 ^ 52 - 1 < 2 ^ 52 := by decide +kernel

def nextOf : Host.Outcome State Fault Refusal → Option State
  | .next t => some t
  | _ => none

theorem witness_MemoryStaysCanonical : Memory.wf State.reset.mem = true ∧ (nextOf (step State.reset)).isSome = true := by decide +kernel

/-! ### One step each, with results that the spec states -/

/-- The state in which v0, v1, … hold the words `xs` in every lane, and lanes 0 and 1 are issuing. -/
def holding (xs : List Word) : State := { st with
  cores := [(0, { core0 with groups := [(0, { g with regs := (xs.zip (List.range xs.length)).map fun (x, n) => (n, reg n x) }), (1, g1)] })] }
/-- The group after one instruction. -/
def after (i : Instr) (xs : List Word) : Option Group :=
  match exec i (holding xs) with
  | .next t => groupAt t 0 0
  | _ => none
/-- Lane 1 of a register after one instruction, and FFLAGS. -/
def outAt (n : Nat) (i : Instr) (xs : List Word) : Option (Word × Word) :=
  (after i xs).bind fun h => (vreg? h n).map fun r => (r.val.getD 1 0, h.fflags)
def out (i : Instr) (xs : List Word) : Option (Word × Word) := outAt 30 i xs

/-- R356, its table. -/
theorem test_iadd_wraps : out (.iadd {} (.v 30) (v 0) (v 1) .wrap) [0xFFFFFFF0, 0x20] = some (0x10, 0) := by decide +kernel
theorem test_iadd_clamps : out (.iadd {} (.v 30) (v 0) (v 1) .sat) [0x7FFFFFF0, 0x20] = some (0x7FFFFFFF, 0)
    ∧ out (.iadd {} (.v 30) (v 0) (v 1) .usat) [0xFFFFFFF0, 0x20] = some (0xFFFFFFFF, 0)
    ∧ out (.iadd {} (.v 30) (v 0) (v 1) .sat) [0xFFFFFFF0, 0x20] = some (0x10, 0) := by decide +kernel
/-- R355: IABS of −2^31. -/
theorem test_iabs_least : out (.iabs {} (.v 30) (v 0) false) [0x80000000] = some (0x80000000, 0)
    ∧ out (.iabs {} (.v 30) (v 0) true) [0x80000000] = some (0x7FFFFFFF, 0) := by decide +kernel
/-- R358: products of 0x8000_0000 and 2. -/
theorem test_products : out (.imul {} (.v 30) (v 0) (v 1)) [0x80000000, 2] = some (0, 0)
    ∧ out (.imulh {} (.v 30) (v 0) (v 1) false) [0x80000000, 2] = some (0xFFFFFFFF, 0)
    ∧ out (.imulh {} (.v 30) (v 0) (v 1) true) [0x80000000, 2] = some (1, 0) := by decide +kernel
/-- R325. -/
theorem test_bfx : out (.bfx {} (.v 30) (v 0) (v 1) false) [0x00030001, 0x1010] = some (3, 0) := by decide +kernel
/-- R408, by 4 and by 40. -/
theorem test_shifts : out (.shl {} (.v 30) (v 0) (v 1)) [0x80000010, 4] = some (0x100, 0)
    ∧ out (.shr {} (.v 30) (v 0) (v 1)) [0x80000010, 4] = some (0x08000001, 0)
    ∧ out (.sar {} (.v 30) (v 0) (v 1)) [0x80000010, 4] = some (0xF8000001, 0) := by decide +kernel
theorem test_long_shifts : out (.shl {} (.v 30) (v 0) (v 1)) [0x80000010, 40] = some (0, 0)
    ∧ out (.shr {} (.v 30) (v 0) (v 1)) [0x80000010, 40] = some (0, 0)
    ∧ out (.sar {} (.v 30) (v 0) (v 1)) [0x80000010, 40] = some (0xFFFFFFFF, 0) := by decide +kernel
/-- R352: −0.3 under rn gives −0, with NX. -/
theorem test_frnd_keeps_the_sign : out (.frnd {} (.v 30) (v 0) .rn) [0xBE99999A] = some (0x80000000, 1) := by decide +kernel
/-- R80: 2.5 to i32 under rn gives 2 with NX. -/
theorem test_cvt_to_integer : out (.cvt {} (.v 30) (v 0) .i32 .f32 .rn false 0) [0x40200000] = some (2, 1) := by decide +kernel
/-- R389: 1 + 2^−8 in BF16 is halfway, under rn and under ru. -/
theorem test_padd2_halfway : out (.padd2 {} (.v 30) (v 0) (v 1) .rn true) [0x3F80, 0x3B80] = some (0x3F80, 1)
    ∧ out (.padd2 {} (.v 30) (v 0) (v 1) .ru true) [0x3F80, 0x3B80] = some (0x3F81, 1) := by decide +kernel
/-- R414. -/
theorem test_spdot : out (.spdot {} (.v 30) (v 0) (v 1) (v 2)) [0x0808081D, 0xF9, 1000] = some (580, 0) := by decide +kernel
/-- R343: 1 + 1, and a sum of infinities of both signs is NaN with NV. -/
theorem test_fadd : out (.fadd {} (.v 30) (v 0) (v 1) .rn false false) [0x3F800000, 0x3F800000] = some (0x40000000, 0)
    ∧ out (.fadd {} (.v 30) (v 0) (v 1) .rn false true) [0x7F800000, 0x7F800000] = some (0x7FC00000, 0x10) := by decide +kernel
/-- R400: low half first. R307: the pair is read before the pair is written. -/
theorem test_aadd_carries : outAt 0 (.aadd {} (.v 0) (v 0) (v 2) 0 true) [0xFFFFFFFF, 1, 1] = some (0, 0)
    ∧ outAt 1 (.aadd {} (.v 0) (v 0) (v 2) 0 true) [0xFFFFFFFF, 1, 1] = some (2, 0) := by decide +kernel
/-- R44: an instruction that writes an unmapped name maps it, and other lanes hold zero there. -/
theorem test_new_register : ((after (.movi {} (.v 30) 7) []).bind fun h => (vreg? h 30).map fun r => r.val.take 3) = some [7, 7, 0] := by
  decide +kernel
/-- R357, R279: the predicate is written, p0 discards. -/
theorem test_icmp : (after (.icmp {} 1 .ltu (v 0) (v 1)) [1, 0x80000000]).map (fun h => (predBit h 1 0, predBit h 1 1, predBit h 1 2))
      = some (true, true, false)
    ∧ (after (.icmp {} 0 .ltu (v 0) (v 1)) [1, 0x80000000]).map (fun h => h.preds.length) = some 0 := by decide +kernel
/-- R275: where the guard does not hold nothing is written. -/
theorem test_guard : (after (.movi { gn := true } (.v 0) 7) [5]).bind (fun h => (vreg? h 0).map fun r => r.val.getD 0 0) = some 5 := by decide +kernel
/-- R328: a branch goes to its pc and 8 × OFF. -/
theorem test_bra_back : (after (.bra {} 0x3FFFFFFF) []).map (fun h => ((threadAt h 0).pc, (threadAt h 0).mid)) = some (0x1000, false) := by decide +kernel
/-- R419: SVC enters the handler with the next pc saved. -/
theorem test_svc : (after (.svc {} 9) []).map (fun h => (h.tcode, h.tpc, h.tinfo, (threadAt h 1).pc)) = some (0x14, 0x1010, 9, 0x2000) := by
  decide +kernel
/-- R341: ERET outside a handler is ILLEGAL_OP, which enters the handler with the pc of the instruction. -/
theorem test_eret_outside : (after (.eret {}) []).map (fun h => (h.tcode, h.tpc, (threadAt h 0).pc)) = some (0x01, 0x1008, 0x2000) := by decide +kernel
/-- R43, R210: an unmapped source is UNMAPPED_READ. -/
theorem test_unmapped : (after (.iadd {} (.v 30) (v 0) (v 1) .wrap) [1]).map (fun h => (h.tcode, h.tinfo)) = some (0x05, 1) := by decide +kernel
/-- R217: a misaligned load is MISALIGNED in the lanes that are. -/
theorem test_misaligned : (after (.ld {} (.v 30) (v 0) (v 2) .b32 .normal false 0) [2, 0, 0]).map (fun h => (h.tcode, h.tlanes)) = some (0x07, 3) := by
  decide +kernel
/-- R43, R361: the lanes of a load's destination are empty until it lands. -/
theorem test_load_empties : ((after (.ld {} (.v 30) (v 0) (v 2) .b32 .normal false 0) [0, 0, 0]).bind fun h => (vreg? h 30).map (·.full))
    = some 0xFFFFFFFFFFFFFFFC := by decide +kernel
/-- R439: a vote on a predicate that no lane holds. -/
theorem test_vote : (after (.vote U (.reg (.s 4)) 1 .eq) []).map (fun h => (sregAt h 4).val) = some 1
    ∧ (after (.vote U (.reg (.s 4)) 1 .any) []).map (fun h => (sregAt h 4).val) = some 0 := by decide +kernel
/-- R117, R118: the word of the example. -/
theorem test_word_code : sigma 0x600000489 = 0x38B ∧ sigma 0x600000488 = 0xA8A ∧ checkBits 0x600000489 1 0 = 0x882
    ∧ syndrome 0x600000489 1 0 0x2DE = 0x3A5 ∧ syndrome 0x600000489 0x21 0 0x882 = 0x205 ∧ syndrome 0x600000488 1 0 0x882 = 0x901 := by
  decide +kernel
/-- R236, R249: with nothing on the agenda and no group resident, a step goes on and nothing is there afterwards. -/
theorem test_step_from_reset : (nextOf (step State.reset)).map (fun s => (s.cores, s.launches, s.mem)) = some ([], [], []) := by decide +kernel
/-- The first instruction after reset, placed as the host places one: `MOVI v5, 7`. -/
theorem test_placed : ((nextOf (step (State.reset.withFetchWord 64 ((encode (.movi {} (.v 5) 7)).headD 0).toNat))).bind fun s =>
    (groupAt s 0 0).bind fun h => (vreg? h 5).map fun r => r.val.headD 0) = some 7 := by decide +kernel
end Sys2Proof.Tests
end

section
/-! PROOFS. Events of a pod: what the sensors, the clock divider, the licence and power gating do to the pod and its two cores
(R179, R180, R189, R190, R223, R249, R250, R252 to R254), and the obligation O50, put together from it. -/
namespace Sys2Proof.Machine

/-! ### Places of a pod -/

theorem podOf_lower {p : Nat} (h : p < 96) : podOf p = p := Nat.mod_eq_of_lt h

theorem podOf_upper {p : Nat} (h : p < 96) : podOf (p + 96) = p := by unfold podOf; omega

theorem isUpper_lower {p : Nat} (h : p < 96) : isUpper p = false := by simpa [isUpper] using h

theorem isUpper_upper (p : Nat) : isUpper (p + 96) = true := by simp [isUpper]

/-- The two cores of a pod lie in different quadrants (R254). -/
theorem quadrantOf_upper_ne (p : Nat) : quadrantOf p ≠ quadrantOf (p + 96) := by unfold quadrantOf; omega

/-! ### Reading past an update of another part -/

@[simp] theorem podAt_modCore (s : State) (c p : Nat) (f : Core → Core) : podAt (modCore s c f) p = podAt s p := rfl
@[simp] theorem coreAt_modPod (s : State) (p c : Nat) (f : Pod → Pod) : coreAt (modPod s p f) c = coreAt s c := rfl
@[simp] theorem modCore_now (s : State) (c : Nat) (f : Core → Core) : (modCore s c f).now = s.now := rfl

/-! ### What folds over the state leave alone -/

/-- What no step of a fold touches stands after the fold. -/
theorem foldl_keeps {α β : Type} {f : State → α → State} (get : State → β) (h : ∀ s a, get (f s a) = get s) (as : List α)
    (s : State) : get (as.foldl f s) = get s := by
  induction as generalizing s with
  | nil => rfl
  | cons a as ih => exact (ih (f s a)).trans (h s a)

/-- Requests for a move change the co-resident sets and nothing else (R220, R252). -/
theorem thermalMove_keeps {β : Type} (get : State → β) (h : ∀ (s : State) xs, get { s with sets := xs } = get s) (s : State) (c : Nat) :
    get (thermalMove s c) = get s :=
  foldl_keeps get (fun _ _ => foldl_keeps get (fun t _ => h t _) _ _) _ _

/-! ### Supply readings (R253, R254) -/

/-- What a core's cycle counter is reckoned from (R28). -/
def clockParts (x : Core) : DWord × Nat × Bool × Bool := (x.cyc, x.cycAt, x.gated, x.retention)

/-- A cycle counter stands where its parts, the time and the divider of its pod stand. -/
theorem cycleOf_congr {s u : State} {c : Nat} (hx : clockParts (coreAt u c) = clockParts (coreAt s c)) (hn : u.now = s.now)
    (ht : (podAt u (podOf c)).throttle = (podAt s (podOf c)).throttle) : cycleOf u c = cycleOf s c := by
  simp only [clockParts, Prod.mk.injEq] at hx
  obtain ⟨hc, ha, hg, hr⟩ := hx
  simp only [cycleOf, hc, ha, hg, hr, hn, ht]

/-- A core without power keeps its VMIN. -/
theorem lowSupply_unpowered {s : State} {c : Nat} (mv : BitVec 16) (hu : isUpper c = true) (hp : (podAt s (podOf c)).upst = 2) :
    lowSupply s c mv = s := by simp [lowSupply, hu, hp]

/-- A core with power takes the lower of the reading and VMIN. -/
theorem lowSupply_powered {s : State} {c : Nat} (mv : BitVec 16) (h : isUpper c = false ∨ (podAt s (podOf c)).upst ≠ 2) :
    lowSupply s c mv = modCore s c fun x => { x with vmin := if mv.toNat < x.vmin.toNat then mv else x.vmin } := by
  refine if_neg fun hb => ?_
  obtain ⟨hu, hp⟩ : isUpper c = true ∧ (podAt s (podOf c)).upst = 2 := by simpa using hb
  rcases h with h | h
  · simp [h] at hu
  · exact h hp

/-- A supply reading changes one core, and of it VMIN alone. -/
theorem lowSupply_keeps {β : Type} (get : State → β) (s : State) (c : Nat) (mv : BitVec 16)
    (h : ∀ v : Core → BitVec 16, get (modCore s c fun x => { x with vmin := v x }) = get s) : get (lowSupply s c mv) = get s := by
  unfold lowSupply
  split
  · rfl
  · exact h _

theorem vmin_lowSupply {s : State} {c : Nat} (mv : BitVec 16) (h : isUpper c = false ∨ (podAt s (podOf c)).upst ≠ 2) :
    (coreAt (lowSupply s c mv) c).vmin.toNat = min mv.toNat (coreAt s c).vmin.toNat := by
  rw [lowSupply_powered mv h, coreAt_modCore, if_pos rfl]
  dsimp only
  split <;> omega

@[simp] theorem sampleSupply_pods (s : State) (c : Nat) (mv : BitVec 16) : (sampleSupply s c mv).pods = s.pods :=
  lowSupply_keeps State.pods s c mv fun _ => rfl

@[simp] theorem sampleSupply_now (s : State) (c : Nat) (mv : BitVec 16) : (sampleSupply s c mv).now = s.now :=
  lowSupply_keeps State.now s c mv fun _ => rfl

@[simp] theorem sampleSupply_rosc (s : State) (c : Nat) (mv : BitVec 16) : (sampleSupply s c mv).rosc = s.rosc :=
  lowSupply_keeps State.rosc s c mv fun _ => rfl

@[simp] theorem sampleSupply_roscAt (s : State) (c : Nat) (mv : BitVec 16) : (sampleSupply s c mv).roscAt = s.roscAt :=
  lowSupply_keeps State.roscAt s c mv fun _ => rfl

@[simp] theorem podAt_sampleSupply (s : State) (c p : Nat) (mv : BitVec 16) : podAt (sampleSupply s c mv) p = podAt s p := by
  rw [podAt, sampleSupply_pods, podAt]

theorem coreAt_sampleSupply (s : State) (c : Nat) (mv : BitVec 16) :
    coreAt (sampleSupply s c mv) c = { coreAt (lowSupply s c mv) c with vnow := mv } := by simp [sampleSupply]

theorem coreAt_sampleSupply_other {s : State} {c d : Nat} (mv : BitVec 16) (h : d ≠ c) :
    coreAt (sampleSupply s c mv) d = coreAt s d := by
  rw [sampleSupply, coreAt_modCore, if_neg h]
  exact lowSupply_keeps (coreAt · d) s c mv fun _ => by simp [h]

@[simp] theorem clockParts_sampleSupply (s : State) (c d : Nat) (mv : BitVec 16) :
    clockParts (coreAt (sampleSupply s c mv) d) = clockParts (coreAt s d) := by
  by_cases h : d = c
  · subst h
    rw [coreAt_sampleSupply]
    exact lowSupply_keeps (fun u => clockParts (coreAt u d)) s d mv fun _ => by simp [clockParts]
  · rw [coreAt_sampleSupply_other mv h]

/-! ### Ring oscillators (R254) -/

/-- A sample of a ring oscillator changes the two tables of the oscillators and nothing else. -/
theorem sampleRing_keeps {β : Type} (get : State → β) (h : ∀ (s : State) r a, get { s with rosc := r, roscAt := a } = get s)
    (s : State) (n : Nat) (v : Word) : get (sampleRing s n v) = get s := by
  unfold sampleRing
  split
  · split
    · rfl
    · exact h _ _ _
  · exact h _ _ _

/-- Within 4,096 cycles of the last sample a quadrant takes no other. -/
theorem sampleRing_recent {s : State} {n t : Nat} (v : Word) (ht : tget? s.roscAt n = some t) (hn : s.now < t + 4096) :
    sampleRing s n v = s := by simp [sampleRing, ht, hn]

theorem rosc_sampleRing_other {s : State} {n m : Nat} (v : Word) (h : m ≠ n) :
    tget? (sampleRing s n v).rosc m = tget? s.rosc m := by
  unfold sampleRing
  split
  · split <;> simp [h]
  · simp [h]

/-! ### The clock divider (R223) -/

/-- A counter that has been taken over now stands, whatever the divider is (R28). -/
theorem cycleOf_rebased {s u : State} {c : Nat} (h : coreAt u c = { coreAt s c with cyc := cycleOf s c, cycAt := u.now }) :
    cycleOf u c = cycleOf s c := by
  conv => lhs; unfold cycleOf
  simp only [h, Nat.sub_self, Nat.zero_div, BitVec.add_zero, ite_self]

theorem cycleOf_rebaseCycle_other {s : State} {c d : Nat} (h : d ≠ c) : cycleOf (rebaseCycle s c) d = cycleOf s d :=
  cycleOf_congr (by simp [rebaseCycle, h]) rfl rfl

/-- A change of the divider takes over the counters of both cores of the pod. -/
theorem coreAt_setThrottle (s : State) (p n d : Nat) : coreAt (setThrottle s p n) d =
    if d = p ∨ d = p + 96 then { coreAt s d with cyc := cycleOf s d, cycAt := s.now } else coreAt s d := by
  have hc : coreAt (setThrottle s p n) d = coreAt (rebaseCycle (rebaseCycle s p) (p + 96)) d := rfl
  have hup : cycleOf (rebaseCycle s p) (p + 96) = cycleOf s (p + 96) := cycleOf_rebaseCycle_other (by omega)
  by_cases h : d = p
  · subst h; simp [hc, rebaseCycle]
  · by_cases h' : d = p + 96
    · subst h'; rw [hc, rebaseCycle, hup]; simp [rebaseCycle]
    · simp [hc, rebaseCycle, h, h']

@[simp] theorem podAt_setThrottle (s : State) (p n : Nat) :
    podAt (setThrottle s p n) p = { podAt s p with throttle := n, clk := podClock s p, clkAt := s.now } := by
  simp [setThrottle, rebaseCycle]

theorem cycleOf_setThrottle (s : State) (p n : Nat) {c : Nat} (h : c = p ∨ c = p + 96) :
    cycleOf (setThrottle s p n) c = cycleOf s c := cycleOf_rebased (by rw [coreAt_setThrottle, if_pos h]; rfl)

/-- The divider leaves a supply reading alone. -/
theorem supply_setThrottle (s : State) (p n d : Nat) :
    (coreAt (setThrottle s p n) d).vnow = (coreAt s d).vnow ∧ (coreAt (setThrottle s p n) d).vmin = (coreAt s d).vmin := by
  rw [coreAt_setThrottle]; split <;> exact ⟨rfl, rfl⟩

/-- The full clock returns or nothing changes. -/
theorem unthrottle_cases (s : State) (p : Nat) : unthrottle s p = s ∨ unthrottle s p = setThrottle s p 0 := by
  unfold unthrottle
  split
  · exact .inr rfl
  · exact .inl rfl

theorem unthrottle_of_full {s : State} {p : Nat} (h : (podAt s p).throttle = 0) : unthrottle s p = s := by simp [unthrottle, h]

/-- A sensor stands at the limit when the hotter one does. -/
theorem overLimit_iff (q : Pod) : overLimit q = true ↔ (q.limit.toNat : Int) ≤ max q.tup.toInt q.tlo.toInt := by
  rw [overLimit, Bool.or_eq_true, decide_eq_true_iff, decide_eq_true_iff]
  omega

/-! ### A sample of the sensors (R252, R254) -/

/-- What a sample of a pod's sensors wrote stands in a later state, and its counters have gone on as they were. -/
structure SameReadings (t u : State) (p : Nat) : Prop where
  tup : (podAt u p).tup = (podAt t p).tup
  tlo : (podAt u p).tlo = (podAt t p).tlo
  supply : ∀ d, (coreAt u d).vnow = (coreAt t d).vnow ∧ (coreAt u d).vmin = (coreAt t d).vmin
  cycles : ∀ d, d = p ∨ d = p + 96 → cycleOf u d = cycleOf t d
  rosc : u.rosc = t.rosc

theorem SameReadings.refl (t : State) (p : Nat) : SameReadings t t p := ⟨rfl, rfl, fun _ => ⟨rfl, rfl⟩, fun _ _ => rfl, rfl⟩

theorem SameReadings.trans {s t u : State} {p : Nat} (h : SameReadings s t p) (h' : SameReadings t u p) : SameReadings s u p where
  tup := h'.tup.trans h.tup
  tlo := h'.tlo.trans h.tlo
  supply d := ⟨(h'.supply d).1.trans (h.supply d).1, (h'.supply d).2.trans (h.supply d).2⟩
  cycles d hd := (h'.cycles d hd).trans (h.cycles d hd)
  rosc := h'.rosc.trans h.rosc

theorem sameReadings_setThrottle (t : State) (p n : Nat) : SameReadings t (setThrottle t p n) p where
  tup := by simp
  tlo := by simp
  supply := supply_setThrottle t p n
  cycles _ h := cycleOf_setThrottle t p n h
  rosc := rfl

theorem sameReadings_unthrottle (t : State) (p : Nat) : SameReadings t (unthrottle t p) p := by
  rcases unthrottle_cases t p with h | h <;> rw [h]
  · exact .refl t p
  · exact sameReadings_setThrottle t p 0

/-- A pod with a sample of its sensors written at a cycle of its clock (R223, R252). -/
def noteSample (q : Pod) (now : Nat) (tup tlo : BitVec 16) : Pod :=
  { q with tup := tup, tlo := tlo, sampledAt := some now,
           overSince := if overLimit { q with tup := tup, tlo := tlo } then some (q.overSince.getD now) else none }

/-- The state in which a sample has been written, before anything follows from it. -/
def readSensors (s : State) (p : Nat) (tup tlo vup vlo : BitVec 16) (rup rlo : Word) : State :=
  let s := modPod s p fun q => noteSample q (podClock s p) tup tlo
  let s := sampleSupply (sampleSupply s p vlo) (p + 96) vup
  sampleRing (sampleRing s (quadrantOf p) rlo) (quadrantOf (p + 96)) rup

/-- The moves that a sample asks for (R252). -/
def askMoves (s : State) (p : Nat) (tup tlo : BitVec 16) : State :=
  let q := podAt s p
  let s := if (q.move.toNat : Int) ≤ tlo.toInt then thermalMove s p else s
  if (q.move.toNat : Int) ≤ tup.toInt then thermalMove s (p + 96) else s

theorem askMoves_keeps {β : Type} (get : State → β) (h : ∀ (s : State) xs, get { s with sets := xs } = get s) (s : State) (p : Nat)
    (tup tlo : BitVec 16) : get (askMoves s p tup tlo) = get s := by
  have hm : ∀ (c : Prop) [Decidable c] (t : State) (d : Nat), get (if c then thermalMove t d else t) = get t := by
    intro c _ t d
    split
    · exact thermalMove_keeps get h t d
    · rfl
  exact (hm _ _ _).trans (hm _ _ _)

/-- What follows from a sample: moves are asked for, a pod at full clock is throttled where it is hot, and the full clock returns where it
may (R223, R252). -/
def followSample (s : State) (p : Nat) (tup tlo : BitVec 16) (hot : Bool) : State :=
  if hot && (podAt s p).throttle == 0 then setThrottle (askMoves s p tup tlo) p 1 else unthrottle (askMoves s p tup tlo) p

section
variable (s : State) (p : Nat) (tup tlo vup vlo : BitVec 16) (rup rlo : Word)

/-- A sample that is due is written, and the rest follows. -/
theorem execSensorSample_due (hp : p < 96) (hd : ∀ n, (podAt s p).sampledAt = some n → n + 4096 ≤ podClock s p) :
    exec (.sensorSample p tup tlo vup vlo rup rlo) s = .next (followSample (readSensors s p tup tlo vup vlo rup rlo) p tup tlo
      (overLimit { podAt s p with tup := tup, tlo := tlo })) := by
  have hg : ¬ (decide (96 ≤ p) || match (podAt s p).sampledAt with
      | some t => decide (podClock s p < t + 4096) | none => false) = true := by
    cases h : (podAt s p).sampledAt with
    | none => simpa using hp
    | some n => simpa using ⟨hp, hd n h⟩
  exact congrArg Host.Outcome.next (if_neg hg)

theorem execSensorSample_early {n : Nat} (h : (podAt s p).sampledAt = some n) (hn : podClock s p < n + 4096) :
    exec (.sensorSample p tup tlo vup vlo rup rlo) s = .next s := by
  simp [exec, execSensorSample, h, hn]

/-- Samples of the rings leave all but the rings alone. -/
theorem readSensors_keeps {β : Type} (get : State → β) (h : ∀ (s : State) r a, get { s with rosc := r, roscAt := a } = get s) :
    get (readSensors s p tup tlo vup vlo rup rlo) = get (sampleSupply (sampleSupply (modPod s p fun q =>
      noteSample q (podClock s p) tup tlo) p vlo) (p + 96) vup) :=
  (sampleRing_keeps get h _ _ _).trans (sampleRing_keeps get h _ _ _)

theorem podAt_readSensors :
    podAt (readSensors s p tup tlo vup vlo rup rlo) p = noteSample (podAt s p) (podClock s p) tup tlo :=
  (readSensors_keeps s p tup tlo vup vlo rup rlo (podAt · p) fun _ _ _ => rfl).trans (by simp)

theorem now_readSensors : (readSensors s p tup tlo vup vlo rup rlo).now = s.now :=
  (readSensors_keeps s p tup tlo vup vlo rup rlo State.now fun _ _ _ => rfl).trans (by simp)

/-- A sample leaves the counters of the pod's cores where they stand. -/
theorem cycleOf_readSensors {c : Nat} (hc : podOf c = p) : cycleOf (readSensors s p tup tlo vup vlo rup rlo) c = cycleOf s c := by
  refine cycleOf_congr ?_ (now_readSensors ..) ?_
  · exact (readSensors_keeps s p tup tlo vup vlo rup rlo (fun u => clockParts (coreAt u c)) fun _ _ _ => rfl).trans (by simp)
  · rw [hc, podAt_readSensors]
    rfl

/-- The lower core always has power, so its VMIN follows. -/
theorem supply_readSensors_lower (hp : p < 96) : (coreAt (readSensors s p tup tlo vup vlo rup rlo) p).vnow = vlo
    ∧ (coreAt (readSensors s p tup tlo vup vlo rup rlo) p).vmin.toNat = min vlo.toNat (coreAt s p).vmin.toNat := by
  have hx := readSensors_keeps s p tup tlo vup vlo rup rlo (coreAt · p) fun _ _ _ => rfl
  rw [hx, coreAt_sampleSupply_other vup (by omega), coreAt_sampleSupply]
  exact ⟨rfl, vmin_lowSupply vlo (.inl (isUpper_lower hp))⟩

/-- The upper core's VMIN follows where it has power (R254). -/
theorem supply_readSensors_upper (hp : p < 96) : (coreAt (readSensors s p tup tlo vup vlo rup rlo) (p + 96)).vnow = vup
    ∧ (coreAt (readSensors s p tup tlo vup vlo rup rlo) (p + 96)).vmin.toNat =
      if (podAt s p).upst = 2 then (coreAt s (p + 96)).vmin.toNat else min vup.toNat (coreAt s (p + 96)).vmin.toNat := by
  have hx := readSensors_keeps s p tup tlo vup vlo rup rlo (coreAt · (p + 96)) fun _ _ _ => rfl
  rw [hx, coreAt_sampleSupply]
  refine ⟨rfl, ?_⟩
  generalize ht : sampleSupply (modPod s p fun q => noteSample q (podClock s p) tup tlo) p vlo = t
  have hcore : coreAt t (p + 96) = coreAt s (p + 96) := by rw [← ht, coreAt_sampleSupply_other vlo (by omega), coreAt_modPod]
  have hupst : (podAt t (podOf (p + 96))).upst = (podAt s p).upst := by rw [podOf_upper hp, ← ht]; simp [noteSample]
  rw [← hcore, ← hupst]
  split
  next h => rw [lowSupply_unpowered vup (isUpper_upper p) h]
  next h => exact vmin_lowSupply vup (.inr h)

/-- A quadrant whose ring was sampled less than 4,096 cycles ago keeps its reading. -/
theorem rosc_readSensors {t : Nat} (ht : tget? s.roscAt (quadrantOf p) = some t) (hn : s.now < t + 4096) :
    tget? (readSensors s p tup tlo vup vlo rup rlo).rosc (quadrantOf p) = tget? s.rosc (quadrantOf p) := by
  unfold readSensors
  rw [rosc_sampleRing_other rup (quadrantOf_upper_ne p), sampleRing_recent rlo (t := t) (by simpa using ht) (by simpa using hn)]
  simp

end

theorem sameReadings_askMoves (t : State) (p : Nat) (tup tlo : BitVec 16) : SameReadings t (askMoves t p tup tlo) p where
  tup := askMoves_keeps (fun u => (podAt u p).tup) (fun _ _ => rfl) t p tup tlo
  tlo := askMoves_keeps (fun u => (podAt u p).tlo) (fun _ _ => rfl) t p tup tlo
  supply d := ⟨askMoves_keeps (fun u => (coreAt u d).vnow) (fun _ _ => rfl) t p tup tlo,
    askMoves_keeps (fun u => (coreAt u d).vmin) (fun _ _ => rfl) t p tup tlo⟩
  cycles d _ := askMoves_keeps (cycleOf · d) (fun _ _ => rfl) t p tup tlo
  rosc := askMoves_keeps State.rosc (fun _ _ => rfl) t p tup tlo

/-- What follows from a sample leaves its readings, and sets a full clock to half where the pod is hot (R223). -/
theorem followSample_spec (t : State) (p : Nat) (tup tlo : BitVec 16) (hot : Bool) :
    SameReadings t (followSample t p tup tlo hot) p
    ∧ ((podAt t p).throttle = 0 → (podAt (followSample t p tup tlo hot) p).throttle = if hot then 1 else 0) := by
  have hm : SameReadings t (askMoves t p tup tlo) p := sameReadings_askMoves t p tup tlo
  have hmp : podAt (askMoves t p tup tlo) p = podAt t p := askMoves_keeps (podAt · p) (fun _ _ => rfl) t p tup tlo
  by_cases hc : (hot && (podAt t p).throttle == 0) = true
  · rw [followSample, if_pos hc]
    obtain ⟨rfl, -⟩ := Bool.and_eq_true_iff.1 hc
    exact ⟨hm.trans (sameReadings_setThrottle _ p 1), fun _ => by simp⟩
  · rw [followSample, if_neg hc]
    refine ⟨hm.trans (sameReadings_unthrottle _ p), fun h0 => ?_⟩
    have hcold : hot = false := by simpa [h0] using hc
    rw [unthrottle_of_full (by rw [hmp, h0]), hmp, h0, hcold]
    rfl

/-- A sample of a pod's sensors that is due (R252, R254). -/
theorem sensorSample_comes (s : State) (p : Nat) (tup tlo vup vlo : BitVec 16) (rup rlo : Word) (hp : p < 96)
    (hd : ∀ n, (podAt s p).sampledAt = some n → n + 4096 ≤ podClock s p) :
    Comes (.sensorSample p tup tlo vup vlo rup rlo) s fun u => (podAt u p).tup = tup ∧ (podAt u p).tlo = tlo
      ∧ (coreAt u p).vnow = vlo ∧ (coreAt u (p + 96)).vnow = vup
      ∧ (coreAt u p).vmin.toNat = min vlo.toNat (coreAt s p).vmin.toNat
      ∧ (coreAt u (p + 96)).vmin.toNat = (if (podAt s p).upst = 2 then (coreAt s (p + 96)).vmin.toNat
          else min vup.toNat (coreAt s (p + 96)).vmin.toNat)
      ∧ cycleOf u p = cycleOf s p ∧ cycleOf u (p + 96) = cycleOf s (p + 96)
      ∧ (∀ t, tget? s.roscAt (quadrantOf p) = some t → s.now < t + 4096 →
        tget? u.rosc (quadrantOf p) = tget? s.rosc (quadrantOf p))
      ∧ ((podAt s p).throttle = 0 → ((podAt s p).limit.toNat : Int) ≤ max tup.toInt tlo.toInt → (podAt u p).throttle = 1)
      ∧ ((podAt s p).throttle = 0 → max tup.toInt tlo.toInt < ((podAt s p).limit.toNat : Int) → (podAt u p).throttle = 0) := by
  have hhot := overLimit_iff { podAt s p with tup := tup, tlo := tlo }
  have hpod := podAt_readSensors s p tup tlo vup vlo rup rlo
  obtain ⟨hnl, hml⟩ := supply_readSensors_lower s p tup tlo vup vlo rup rlo hp
  obtain ⟨hnu, hmu⟩ := supply_readSensors_upper s p tup tlo vup vlo rup rlo hp
  obtain ⟨same, hthr⟩ := followSample_spec (readSensors s p tup tlo vup vlo rup rlo) p tup tlo
    (overLimit { podAt s p with tup := tup, tlo := tlo })
  refine ⟨_, execSensorSample_due s p tup tlo vup vlo rup rlo hp hd, ?_, ?_, ?_, ?_, ?_, ?_, ?_, ?_, fun t ht hn => ?_,
    fun h0 hl => ?_, fun h0 hl => ?_⟩
  · rw [same.tup, hpod]; rfl
  · rw [same.tlo, hpod]; rfl
  · rw [(same.supply p).1, hnl]
  · rw [(same.supply (p + 96)).1, hnu]
  · rw [(same.supply p).2, hml]
  · rw [(same.supply (p + 96)).2, hmu]
  · rw [same.cycles p (.inl rfl), cycleOf_readSensors (hc := podOf_lower hp) ..]
  · rw [same.cycles (p + 96) (.inr rfl), cycleOf_readSensors (hc := podOf_upper hp) ..]
  · rw [same.rosc, rosc_readSensors (ht := ht) (hn := hn) ..]
  · rw [hthr (by rw [hpod]; exact h0), if_pos (hhot.2 hl)]
  · rw [hthr (by rw [hpod]; exact h0), if_neg fun h => absurd (hhot.1 h) (Int.not_le.2 hl)]

/-! ### Throttling and droops (R223, R253) -/

/-- THERMAL_THROTTLE_STEP halves the clock again 8,192 cycles after the last halving. -/
theorem execThermalThrottleStep_due {s : State} {p n : Nat} (ho : (podAt s p).overSince = some n) (h1 : 1 ≤ (podAt s p).throttle)
    (h2 : (podAt s p).throttle ≤ 2) (hn : n + 8192 ≤ podClock s p) : exec (.thermalThrottleStep p) s =
      .next (modPod (setThrottle s p ((podAt s p).throttle + 1)) p fun q => { q with overSince := some (podClock s p) }) := by
  simp only [exec, execThermalThrottleStep, ho]
  rw [if_neg (by omega)]

theorem execThermalThrottleStep_early {s : State} {p n : Nat} (ho : (podAt s p).overSince = some n) (hn : podClock s p < n + 8192) :
    exec (.thermalThrottleStep p) s = .next s := by simp [exec, execThermalThrottleStep, ho, hn]

theorem execThermalThrottleStep_under {s : State} {p : Nat} (ho : (podAt s p).overSince = none) :
    exec (.thermalThrottleStep p) s = .next s := by simp [exec, execThermalThrottleStep, ho]

/-- A pod's clock runs on from where it stood when the divider changes (R1). -/
theorem podClock_rebased {s u : State} {p : Nat} (hc : (podAt u p).clk = podClock s p) (ha : (podAt u p).clkAt = u.now) :
    podClock u p = podClock s p := by
  conv => lhs; unfold podClock
  simp only [hc, ha, Nat.sub_self, Nat.zero_div, Nat.add_zero]

theorem thermalThrottleStep_comes {s : State} {p n : Nat} (ho : (podAt s p).overSince = some n) (h1 : 1 ≤ (podAt s p).throttle)
    (h2 : (podAt s p).throttle ≤ 2) (hn : n + 8192 ≤ podClock s p) : Comes (.thermalThrottleStep p) s fun u =>
      (podAt u p).throttle = (podAt s p).throttle + 1 ∧ (podAt u p).overSince = some (podClock s p)
      ∧ cycleOf u p = cycleOf s p ∧ podClock u p = podClock s p := by
  refine ⟨_, execThermalThrottleStep_due ho h1 h2 hn, by simp, by simp, ?_, ?_⟩
  · exact cycleOf_rebased (by rw [coreAt_modPod, coreAt_setThrottle, if_pos (.inl rfl)]; rfl)
  · exact podClock_rebased (by simp) (by simp [setThrottle, rebaseCycle])

theorem supplyDroop_comes (s : State) (c : Nat) {mv : BitVec 16} (h : mv.toNat < 570) : Comes (.supplyDroop c mv) s fun u =>
    (coreAt u c).stretched = true ∧ (isUpper c = false ∨ (podAt s (podOf c)).upst ≠ 2 →
      (coreAt u c).vmin.toNat = min mv.toNat (coreAt s c).vmin.toNat) :=
  ⟨_, congrArg Host.Outcome.next (if_pos h), by simp, fun hp => by simpa using vmin_lowSupply mv hp⟩

theorem supplyRecovery_comes (s : State) (c : Nat) {mv : BitVec 16} (h : 570 ≤ mv.toNat) :
    Comes (.supplyRecovery c mv) s fun u => (coreAt u c).stretched = false :=
  ⟨_, congrArg Host.Outcome.next (if_pos h), by simp⟩

/-! ### The licence (R179, R180) -/

/-- A grant gives the core the licence, makes it LAST and takes its request back. -/
theorem grantLic_spec (s : State) (p : Nat) (up : Bool) : (podAt (grantLic s p up) p).lic = .held up
    ∧ (podAt (grantLic s p up) p).last = some up
    ∧ if up then (podAt (grantLic s p up) p).reqUp = false else (podAt (grantLic s p up) p).reqLo = false := by
  cases up <;> simp [grantLic]

/-- The core that a free licence goes to. -/
def grantee (q : Pod) : Bool := if q.reqLo = false then true else if q.reqUp = false then false else tieUp q

/-- R180: two that request together are told apart by PRIOR, and where that is equal by LAST. -/
theorem grantee_eq (q : Pod) : grantee q = if q.reqLo = false then true else if q.reqUp = false then false
    else if q.priorUp ≠ q.priorLo then q.priorUp else match q.last with | some u => !u | none => false := by
  cases h : q.last with
  | none => simp only [grantee, tieUp, bne_iff_ne, h]
  | some u => simp only [grantee, tieUp, bne_iff_ne, h]

theorem execLicenceGrant_free {s : State} {p : Nat} (hf : (podAt s p).lic = .free)
    (hr : (podAt s p).reqLo = true ∨ (podAt s p).reqUp = true) :
    exec (.licenceGrant p) s = .next (grantLic s p (grantee (podAt s p))) := by
  simp only [exec, execLicenceGrant, hf, grantee]
  rcases hr with hr | hr
  · cases hu : (podAt s p).reqUp <;> simp [hr]
  · cases hl : (podAt s p).reqLo <;> simp [hr]

/-- A request of the licence changes no licence. -/
theorem lic_requestLic (s : State) (c p : Nat) : (podAt (requestLic s c) p).lic = (podAt s p).lic := by
  by_cases h : p = podOf c
  · subst h; exact (requestLic_spec s c).2.1
  · simp [requestLic, h]

theorem lic_roundRequest (s : State) (c p : Nat) : (podAt (roundRequest s c) p).lic = (podAt s p).lic := by
  unfold roundRequest
  split
  · exact lic_requestLic s c p
  · rfl

theorem lic_startHandover (s : State) (p : Nat) (up : Bool) : (podAt (startHandover s p up) p).lic = .handover up :=
  (lic_roundRequest _ _ p).trans (by simp)

section
variable {s : State} {p : Nat} {up : Bool}

theorem licenceIdleExpiry_comes (hl : (podAt s p).lic = .held up) (h : (podAt s p).fireAt + 256 ≤ podClock s p) :
    Comes (.licenceIdleExpiry p) s fun u => (podAt u p).lic = .handover up :=
  ⟨startHandover s p up, by simp [exec, execLicenceIdleExpiry, hl, h], lic_startHandover s p up⟩

theorem licenceIdleExpiry_early (hl : (podAt s p).lic = .held up) (h : podClock s p < (podAt s p).fireAt + 256) :
    Comes (.licenceIdleExpiry p) s fun u => u = s :=
  ⟨s, by simp only [exec, execLicenceIdleExpiry, hl, if_neg (Nat.not_le.2 h)], rfl⟩

theorem licenceHoldExpiry_comes (hl : (podAt s p).lic = .held up)
    (h : (podAt s p).grantAt + max 1024 (podAt s p).licq.toNat ≤ podClock s p)
    (hr : (if up then (podAt s p).reqLo else (podAt s p).reqUp) = true) :
    Comes (.licenceHoldExpiry p) s fun u => (podAt u p).lic = .handover up := by
  refine ⟨startHandover s p up, ?_, lic_startHandover s p up⟩
  simp only [exec, execLicenceHoldExpiry, hl]
  rw [if_pos ⟨h, hr⟩]

theorem licenceHoldExpiry_unasked (hl : (podAt s p).lic = .held up)
    (hr : (if up then (podAt s p).reqLo else (podAt s p).reqUp) = false) :
    Comes (.licenceHoldExpiry p) s fun u => u = s := by
  refine ⟨s, ?_, rfl⟩
  simp only [exec, execLicenceHoldExpiry, hl]
  rw [if_neg (by simp [hr])]

theorem handoverEnd_early {t : Nat} (hl : (podAt s p).lic = .handover up) (hd : (podAt s p).drainAt = some t)
    (h : podClock s p < t + 48) : Comes (.handoverEnd p) s fun u => u = s := ⟨s, by simp [exec, execHandoverEnd, hl, hd, h], rfl⟩

/-- At the end of a hand-over the other core is served first, then the holder that asks again. -/
theorem handoverEnd_comes {t : Nat} (hl : (podAt s p).lic = .handover up) (hd : (podAt s p).drainAt = some t)
    (h : t + 48 ≤ podClock s p) : Comes (.handoverEnd p) s fun u => (podAt u p).lic =
      if (if up then (podAt s p).reqLo else (podAt s p).reqUp) then .held (!up)
      else if (if up then (podAt s p).reqUp else (podAt s p).reqLo) then .held up else .free := by
  simp only [Comes, exec, execHandoverEnd, hl, hd, if_neg (Nat.not_lt.2 h)]
  generalize (if up then (podAt s p).reqLo else (podAt s p).reqUp) = other
  generalize (if up then (podAt s p).reqUp else (podAt s p).reqLo) = own
  refine ⟨_, rfl, ?_⟩
  split
  · exact (grantLic_spec s p !up).1
  · split
    · exact (grantLic_spec s p up).1
    · simp

end

/-! ### Power gating (R189, R190, R249, R250) -/

/-- Starting to gate changes, of the pods, the state of one upper core. -/
theorem startGating_pods (s : State) (p : Nat) : (startGating s p).pods = (modPod s p fun q => { q with upst := 1 }).pods :=
  (foldl_keeps State.pods (fun t slot => by unfold modGroup; split <;> rfl) _ _).trans
    (foldl_keeps (f := fun t (e : Nat × Nat) => requestSet t e.1 e.2 false (causeGating, p)) State.pods (fun _ _ => rfl) _ _)

theorem podctlGate_comes {s : State} {p : Nat} (hf : s.full = true) (hg : (podAt s p).gate = false) (hu : (podAt s p).upst = 0) :
    Comes (.podctlGate p) s fun u => (podAt u p).gate = true ∧ (podAt u p).upst = 1 := by
  refine ⟨startGating (modPod s p fun q => { q with gate := true }) p, ?_, ?_⟩
  · simp [exec, execPodctlGate, writeGate, hf, hg, hu]
  · simp [podAt, startGating_pods, modPod]

/-- In early service GATE is not set (R250). -/
theorem podctlGate_early {s : State} {p : Nat} (hf : s.full = false) : Comes (.podctlGate p) s fun u => u = s :=
  ⟨s, by simp [exec, execPodctlGate, writeGate, hf], rfl⟩

theorem podctlUngate_comes {s : State} {p : Nat} (hg : (podAt s p).gate = true) (hu : (podAt s p).upst = 2) :
    Comes (.podctlUngate p) s fun u => (podAt u p).gate = false ∧ (podAt u p).upst = 3 := by
  refine ⟨startUngating (modPod s p fun q => { q with gate := false }) p, ?_, ?_⟩
  · simp [exec, execPodctlUngate, writeGate, hg, hu]
  · simp [startUngating]

/-- Emptying a core's caches sends messages, and of the core changes its caches alone (log 27). -/
theorem coreAt_emptyCaches (s : State) (c : Nat) :
    coreAt (emptyCaches s c) c = { coreAt s c with l1 := [], l1Lines := [], tlb := [] } := by
  unfold emptyCaches
  rw [coreAt_modCore, if_pos rfl]
  refine congrArg (fun x : Core => { x with l1 := [], l1Lines := [], tlb := [] }) (foldl_keeps (coreAt · c) (fun t e => ?_) _ s)
  obtain ⟨w, y⟩ := e
  dsimp only
  split <;> rfl

theorem gatingComplete_comes {s : State} {p : Nat} (hu : (podAt s p).upst = 1) (hg : (podAt s p).gate = true)
    (hh : (podAt s p).lic ≠ .held true) (ho : (podAt s p).lic ≠ .handover true) (h1 : (coreAt s (p + 96)).groups = [])
    (h2 : (coreAt s (p + 96)).evicted = []) (h3 : (coreAt s (p + 96)).items = []) (h4 : (coreAt s (p + 96)).link = [])
    (h5 : (coreAt s (p + 96)).mshrs = []) : Comes (.gatingComplete p) s fun u =>
      (podAt u p).upst = 2 ∧ (podAt u p).image = some ((coreAt s (p + 96)).win, (coreAt s (p + 96)).twb)
      ∧ (coreAt u (p + 96)).win = [] ∧ (coreAt u (p + 96)).l1 = [] ∧ (coreAt u (p + 96)).tlb = [] := by
  simp only [Comes, exec, execGatingComplete, hu, hg, h1, h2, h3, h4, h5, beq_false_of_ne hh, beq_false_of_ne ho]
  exact ⟨_, rfl, by simp [coreAt_emptyCaches]⟩

/-- Where no set stands, none was saved by gating. -/
theorem gatedSets_of_none {s : State} {p : Nat} (h : s.sets = []) : gatedSets s p = [] := by simp [gatedSets, h]

theorem ungatingComplete_comes {s : State} {p : Nat} {w : Tbl (List Word)} {b : Tbl Word} (hu : (podAt s p).upst = 3)
    (hg : (podAt s p).gate = false) (hi : (podAt s p).image = some (w, b)) (hs : s.sets = []) :
    Comes (.ungatingComplete p) s fun u =>
      (podAt u p).upst = 0 ∧ (podAt u p).image = none ∧ (coreAt u (p + 96)).win = w ∧ (coreAt u (p + 96)).twb = b
      ∧ (coreAt u (p + 96)).vmin = 0xFFFF
      ∧ ((coreAt s (p + 96)).gated = false → (coreAt s (p + 96)).retention = false → cycleOf u (p + 96) = 0) := by
  refine ⟨modCore (modPod s p fun q => { q with upst := 0, image := none }) (p + 96) fun x =>
    { x with cyc := 0, cycAt := s.now, vmin := 0xFFFF, win := w, crossed := w, twb := b }, ?_, ?_⟩
  · simp only [exec, execUngatingComplete, hu, hg, hi]
    rw [gatedSets_of_none]
    · rfl
    · exact hs
  · refine ⟨by simp, by simp, by simp, by simp, by simp, fun h1 h2 => ?_⟩
    simp [cycleOf, h1, h2]

/-! ### The obligation -/

/-- Settles O50: each event of a pod by its own lemma. -/
theorem podEventsAct : Obligations.PodEventsAct := by
  unfold Obligations.PodEventsAct
  refine ⟨fun s p tup tlo vup vlo rup rlo hp => ⟨?_, sensorSample_comes s p tup tlo vup vlo rup rlo hp⟩,
    fun s p n ho h1 h2 => ⟨thermalThrottleStep_comes ho h1 h2, fun hn => ⟨s, execThermalThrottleStep_early ho hn, rfl⟩⟩,
    fun s p ho => ⟨s, execThermalThrottleStep_under ho, rfl⟩,
    fun s c mv => ⟨supplyDroop_comes s c, supplyRecovery_comes s c⟩,
    fun s p hf hr => ?_,
    fun s p up hl => ⟨licenceIdleExpiry_comes hl, licenceIdleExpiry_early hl, licenceHoldExpiry_comes hl, licenceHoldExpiry_unasked hl⟩,
    fun s p t up hl hd => ⟨handoverEnd_early hl hd, handoverEnd_comes hl hd⟩,
    fun s p => ⟨podctlGate_comes, podctlGate_early, podctlUngate_comes⟩,
    fun s p _ hu hg hh ho => gatingComplete_comes hu hg hh ho,
    fun s p w b _ => ungatingComplete_comes⟩
  · rintro ⟨n, h, hn⟩
    exact ⟨s, execSensorSample_early s p tup tlo vup vlo rup rlo h hn, rfl⟩
  · intro up
    have hup : up = grantee (podAt s p) := (grantee_eq (podAt s p)).symm
    rw [hup]
    exact ⟨_, execLicenceGrant_free hf hr, grantLic_spec s p _⟩

end Sys2Proof.Machine
end

section
/-! PROOFS. Divergence: meets, melding and path tables (R53, R60, R359, R372 to R375, R396), settled as O15, and REGROUP by the last lane of
a group with staged records (R63, R202), which refutes O39. -/
namespace Sys2Proof.Machine

/-! ### Instructions that change the issuing group alone -/

theorem modCur_spec {t : State} {k : Cur} {g : Group} (f : Group → Group) (h : groupAt t k.core k.slot = some g) :
    groupAt (modCur t k f) k.core k.slot = some (f g) ∧ Apart t (modCur t k f) k :=
  ⟨by simp [modCur, h], apart_modGroup t k f⟩

/-- An effect that an empty set of executing lanes does not have (R275). -/
theorem modCur_unless_spec {t : State} {k : Cur} {g : Group} (x : Mask) (f : Group → Group)
    (h : groupAt t k.core k.slot = some g) :
    groupAt (if x = 0 then t else modCur t k f) k.core k.slot = some (if x = 0 then g else f g)
      ∧ Apart t (if x = 0 then t else modCur t k f) k := by
  by_cases hx : x = 0
  · rw [if_pos hx, if_pos hx]; exact ⟨h, .refl t k⟩
  · rw [if_neg hx, if_neg hx]; exact modCur_spec f h

/-- An instruction without operands that applies `f` to the issuing group. -/
theorem runs_of_modCur {i : Instr} {c : Ctl} {f : Cur → Mask → Group → Group}
    (he : ∀ s, exec i s = issuePlain s c fun s k x => modCur s k (f k x)) :
    Runs i c [] [] (fun _ _ _ _ => True) (fun _ k g _ x => f k x g) (fun _ k _ _ _ => k.next) fun k => k.last :=
  runs_of he (fun _ _ _ _ _ _ => rfl) fun _ k _ _ x _ ht _ => ⟨_, .inr ⟨rfl, rfl, rfl⟩, modCur_spec (f k x) ht⟩

/-- The same where an empty set of executing lanes has no effect. -/
theorem runs_of_modCur_unless {i : Instr} {c : Ctl} {f : Cur → Mask → Group → Group}
    (he : ∀ s, exec i s = issuePlain s c fun s k x => if x = 0 then s else modCur s k (f k x)) :
    Runs i c [] [] (fun _ _ _ _ => True) (fun _ k g _ x => if x = 0 then g else f k x g) (fun _ k _ _ _ => k.next)
      fun k => k.last :=
  runs_of he (fun _ _ _ _ _ _ => rfl) fun _ k _ _ x _ ht _ => ⟨_, .inr ⟨rfl, rfl, rfl⟩, modCur_unless_spec x (f k x) ht⟩

/-! ### Meets (R53, R359, R372) -/

/-- OFF counts words of 8 bytes from the instruction (R263). -/
theorem offTarget_eq (k : Cur) (off : BitVec 30) : offTarget k off = BitVec.ofInt 64 (k.pc.toInt + 8 * off.toInt) := by
  have hsh : off.signExtend 64 <<< (3 : Nat) = BitVec.ofInt 64 (8 * off.toInt) := by
    rw [BitVec.ofInt_mul, BitVec.mul_comm]
    exact BitVec.shiftLeft_eq_mul_twoPow _ 3
  rw [offTarget, hsh, BitVec.ofInt_add, BitVec.ofInt_toInt]

theorem meet_runs (c : Ctl) (n : Fin 8) (off : BitVec 30) : Runs (.meet c n off) c [] [] (fun _ _ _ _ => True)
    (fun _ k g _ x => modThreads { g with jms := tset g.jms n.val ⟨x, 0⟩ } x fun t =>
      { t with meeta := BitVec.ofInt 64 (k.pc.toInt + 8 * off.toInt), meetj := BitVec.ofNat 32 n.val })
    (fun _ k _ _ _ => k.next) fun k => k.last := by
  simp only [← offTarget_eq]
  exact runs_of_modCur fun _ => rfl

theorem jarr_runs (c : Ctl) (n : Fin 8) : Runs (.jarr c n) c [] [] (fun _ _ _ _ => True)
    (fun _ _ g _ x => { g with jms := tset g.jms n.val ⟨(jmaskAt g n.val).e, (jmaskAt g n.val).a ||| (x &&& (jmaskAt g n.val).e)⟩ })
    (fun _ k _ _ _ => k.next) fun k => k.last :=
  runs_of_modCur fun _ => rfl

theorem jleave_runs (c : Ctl) (n : Fin 8) : Runs (.jleave c n) c [] [] (fun _ _ _ _ => True)
    (fun _ _ g _ x =>
      modThreads { g with jms := tset g.jms n.val ⟨(jmaskAt g n.val).e &&& ~~~x, (jmaskAt g n.val).a &&& ~~~x⟩ } x fun t =>
        if t.meetj.toNat % 8 = n.val then { t with meeta := 0 } else t)
    (fun _ k _ _ _ => k.next) fun k => k.last :=
  runs_of_modCur fun _ => rfl

/-! ### Melding (R60, R373 to R375) -/

theorem meldPred_runs (c : Ctl) (p : Fin 8) (wp : Option (Fin 8)) : Runs (.meld c (.pred p) wp) c [] [] (CleanPred p.val)
    (fun _ _ g _ x => setPaths g x (fun l => if predBit g p.val l then 1 else 0) wp 2) (fun _ k _ _ _ => k.next) fun k => k.last := by
  refine runs_of (execMeld.eq_1 c wp · p) (fun s k g _ x hclean => if_neg (Classical.not_not.2 ?_))
    fun _ _ _ _ _ _ ht _ => ⟨_, .inr ⟨rfl, rfl, rfl⟩, modCur_spec _ ht⟩
  refine maskOf_none fun l _ => ?_
  cases hl : x.getLsbD l
  · rfl
  · exact hclean l hl

/-- R374: the path number is the low two bits of the lane's register. -/
theorem meldReg_runs (c : Ctl) (a : Src) (wp : Option (Fin 8)) : Runs (.meld c (.q4 a) wp) c [useA a] [(2, useA a)] (fun _ _ _ _ => True)
    (fun s k g _ x => setPaths g x (fun l => BitVec.ofNat 2 (val s k g l a).toNat) wp 4) (fun _ k _ _ _ => k.next) fun k => k.last :=
  runs_of (execMeld.eq_2 c wp · a) (fun _ _ _ _ _ _ => rfl) fun _ _ _ _ _ _ ht _ => ⟨_, .inr ⟨rfl, rfl, rfl⟩, modCur_spec _ ht⟩

/-- The predicates of .WP, written one by one: the first n of them, from b on. -/
def writePaths (g : Group) (x : Mask) (p : Nat → BitVec 2) (b n : Nat) : Group :=
  (List.range n).foldl (fun g i => setPred g (b + i) x (maskOf fun l => x.getLsbD l && (p l).toNat == i) 0) g

theorem setPaths_some (g : Group) (x : Mask) (p : Nat → BitVec 2) (b : Fin 8) (n : Nat) : setPaths g x p (some b) n =
    writePaths (mapThreads g fun l t => if x.getLsbD l then { t with path := p l } else t) x p b.val n := rfl

theorem writePaths_succ (g : Group) (x : Mask) (p : Nat → BitVec 2) (b n : Nat) : writePaths g x p b (n + 1) =
    setPred (writePaths g x p b n) (b + n) x (maskOf fun l => x.getLsbD l && (p l).toNat == n) 0 := by
  simp [writePaths, List.range_succ]

theorem writePaths_threads (g : Group) (x : Mask) (p : Nat → BitVec 2) (b n : Nat) : (writePaths g x p b n).threads = g.threads := by
  induction n with
  | zero => rfl
  | succ n ih =>
    rw [writePaths_succ, ← ih]
    exact (congrArg Group.threads (setPred_spec _ (b + n) x _ 0).1 :)

/-- R374: predicate b + i says whether the lane's path number is i, and is not poisoned. -/
theorem writePaths_pred {g : Group} {x : Mask} {p : Nat → BitVec 2} {b n i l : Nat} (hb : 1 ≤ b) (hi : i < n)
    (hl : x.getLsbD l = true) : predBit (writePaths g x p b n) (b + i) l = decide ((p l).toNat = i)
      ∧ predPois (writePaths g x p b n) (b + i) l = false := by
  induction n with
  | zero => cases hi
  | succ n ih =>
    rw [writePaths_succ]
    obtain ⟨hbit, hpois⟩ := (setPred_spec (writePaths g x p b n) (b + n) x
      (maskOf fun l => x.getLsbD l && (p l).toNat == n) 0).2 (b + i) l (lt_of_getLsbD hl)
    rw [hbit, hpois]
    by_cases hin : i = n
    · subst hin
      have hw : b + i = b + i ∧ b + i ≠ 0 ∧ x.getLsbD l = true := ⟨rfl, by omega, hl⟩
      rw [if_pos hw, if_pos hw, getLsbD_maskOf, decide_eq_true (lt_of_getLsbD hl), hl]
      exact ⟨rfl, BitVec.getLsbD_zero⟩
    · have hw : ¬ (b + i = b + n ∧ b + n ≠ 0 ∧ x.getLsbD l = true) := fun h => hin (by omega)
      rw [if_neg hw, if_neg hw]
      exact ih (by omega)

theorem setPaths_path {g : Group} {x : Mask} {p : Nat → BitVec 2} {b : Fin 8} {n l : Nat} (hl : x.getLsbD l = true) :
    (threadAt (setPaths g x p (some b) n) l).path = p l := by
  rw [setPaths_some, threadAt, writePaths_threads]
  change (threadAt (mapThreads g _) l).path = p l
  rw [threadAt_mapThreads, if_pos (lt_of_getLsbD hl), if_pos hl]

theorem meldx_runs (c : Ctl) : Runs (.meldx c) c [] [] (fun _ _ _ _ => True)
    (fun _ _ g _ x => if x = 0 then g else modThreads g (maskOf fun l => (threadAt g l).present) fun t => { t with path := 0 })
    (fun _ k _ _ _ => k.next) fun k => k.last :=
  runs_of_modCur_unless fun _ => rfl

/-! ### Path tables (R396) -/

/-- PTAB's codes are the bytes of its literal, lowest first. -/
theorem extractLsb'_byte (lit : DWord) (i : Nat) : lit.extractLsb' (8 * i) 8 = BitVec.ofNat 8 (lit.toNat / 2 ^ (8 * i)) := by
  rw [← Nat.shiftRight_eq_div_pow]; rfl

theorem ptab_runs (c : Ctl) (n : Fin 4) (hi : Bool) (lit : DWord) : Runs (.ptab c n hi lit) c [] [] (fun _ _ _ _ => True)
    (fun _ _ g _ x => if x = 0 then g else { g with ptabs := (List.range 8).foldl (fun t i =>
      tset t (n.val * 16 + (if hi then 8 else 0) + i) (BitVec.ofNat 8 (lit.toNat / 2 ^ (8 * i)))) g.ptabs })
    (fun _ k _ _ _ => k.next) fun k => k.last := by
  simp only [← extractLsb'_byte]
  exact runs_of_modCur_unless fun _ => rfl

/-- Settles O15: each instruction by its own lemma. -/
theorem meetsAndMelding : Obligations.MeetsAndMelding := by
  unfold Obligations.MeetsAndMelding
  exact ⟨meet_runs, jarr_runs, jleave_runs, meldPred_runs, meldReg_runs,
    fun _ _ _ _ _ _ _ _ hb _ hi hl => ⟨setPaths_path hl, writePaths_pred hb hi hl⟩, meldx_runs, ptab_runs⟩

/-! ### A group ends at REGROUP with a record staged (R63, R202) -/

/-- A launch of one thread, without a handler. -/
def stagingLaunch : Launch :=
  { id := 1, fn := 0, proc := 0, hdrAddr := 0, origin := .cmd 0 0, eff := 0, started := 0,
    hdr := { entry := 0x1000, params := 0, handler := 0, widths := [0], lc := 0, lp := 0, n := 1, rb := 8, rx := 0, spad := 0,
             flags := 0, prio := 0, cq := 0, ctask := 0, ctv := false } }

/-- The group of that thread. An ENQ has staged a record in it, which no ENQC has committed; its one register is v0. -/
def stagingGroup : Group :=
  { gid := 7, launch := 1, set := 0, fn := 0, rb := 8, rx := 0, threads := [{ present := true, pc := 0x1008, mid := true }],
    regs := [(0, freshReg 0)], staged := [{ node := 0, words := [0] }] }

/-- The thread issues the first word of its clause. -/
def stagingCur : Cur :=
  { core := 0, slot := 0, lanes := 1, pc := 0x1008, word := 0, lit := 0, next := 0x1010, last := false, op := 3,
    run := ⟨0x1000, ⟨false, false, false, false, false, 4, 0, false, 0⟩, [0, 0, 0, 0]⟩ }

def stagingState : State :=
  { State.reset with
    nid := 100, cur := some stagingCur, cores := [(0, { groups := [(0, stagingGroup)], quarters := [(0, (0, 1))] })],
    launches := [stagingLaunch], sets := [{ launch := 1, set := 0, core := some 0, units := 0 }],
    fns := [(0, { pen := true, nodes := [(0, { en := true })] })] }

/-- Where the fault ring of `stagingState` begins: in the host's memory, at its address 0. -/
def ringStart : Nat := 8 * wkey 2 0

theorem issuing_staging : Issuing stagingState stagingCur stagingGroup := ⟨rfl, by decide +kernel⟩

theorem passes_staging : Passes stagingState stagingCur stagingGroup {} false [{ pos := 3, src := { o := .v 0 } }] [] [] 1 0 (.split [])
    (execLanes stagingGroup {} 1) :=
  ⟨by decide +kernel, 1, 0, .no, by decide +kernel⟩

/-- R202: the record that was staged when the last thread left is discarded, and an error record goes to the fault ring: KIND 2 in its
first byte, which memory did not hold before. -/
theorem regroup_writes_errorRecord : ∃ t, exec (.regroup {} (.v 0) 1 0) stagingState = .next t ∧ Memory.read t.mem ringStart = 2
    ∧ Memory.read stagingState.mem ringStart = 0 := by
  refine ⟨_, rfl, ?_⟩
  decide +kernel

/-- Refutes O39: REGROUP is said to leave every byte of memory as it was. Where the last thread of a group leaves with a record staged, the
group ends, and the error record of R202 and R215 is written to the fault ring. -/
theorem not_regroupAndTopk : ¬ Obligations.RegroupAndTopk := by
  unfold Obligations.RegroupAndTopk
  rintro ⟨hregroup, -⟩
  have hclean : ∀ l, l ∈ lanesOf (execLanes stagingGroup {} 1) →
      srcPois stagingState stagingCur stagingGroup l { pos := 3, src := { o := .v 0 } } = false := by decide +kernel
  have hnone : carriedNames stagingGroup 0 = [] := by decide +kernel
  obtain ⟨t, ht, -, hmem, -⟩ := hregroup {} (.v 0) 1 0 stagingState stagingCur stagingGroup 1 0 (.split []) issuing_staging passes_staging
    (by decide +kernel) (by rw [hnone]; exact Nat.zero_le _) (fun n _ hn => by rw [hnone] at hn; cases hn)
    fun l hl => hclean l ((mem_lanesOf _ l).2 hl)
  obtain ⟨u, hu, hafter, hbefore⟩ := regroup_writes_errorRecord
  obtain rfl : t = u := by rw [ht] at hu; injection hu
  rw [hmem, hbefore] at hafter
  exact absurd hafter (by decide)

end Sys2Proof.Machine
end

section
/-! PROOFS. Numbers: rounds of matrix products (R84, R85, R170, R174 to R177) and the register link (R183 to R185), settled as O51. -/
namespace Sys2Proof.Machine

/-! ### Parts that an update leaves alone -/

/-- A pod's clock stands where the pods and the time stand. -/
theorem podClock_congr {s u : State} (hp : u.pods = s.pods) (hn : u.now = s.now) (p : Nat) : podClock u p = podClock s p := by
  simp only [podClock, podAt, hp, hn]

theorem modGroup_keeps {β : Type} (get : State → β) {c : Nat} (h : ∀ s n g, get (setGroup s c n g) = get s) (s : State) (n : Nat)
    (f : Group → Group) : get (modGroup s c n f) = get s := by
  unfold modGroup
  split
  · exact h _ _ _
  · rfl

/-- Items and rounds are no part of a group. -/
theorem work_setGroup (s : State) (c n : Nat) (g : Group) :
    (coreAt (setGroup s c n g) c).items = (coreAt s c).items ∧ (coreAt (setGroup s c n g) c).rounds = (coreAt s c).rounds := by
  simp [coreAt_setGroup]

/-- Items and rounds are no part of a tile slot. -/
theorem work_modTile (s : State) (c n : Nat) (f : Tile → Tile) :
    (coreAt (modTile s c n f) c).items = (coreAt s c).items ∧ (coreAt (modTile s c n f) c).rounds = (coreAt s c).rounds := by
  simp [modTile]

/-! ### Read locks (R170) -/

/-- The read locks of the slots of a round are counted anew. -/
def countLocks (s : State) (c : Nat) (r : Round) (f : Nat → Nat) : State :=
  (roundSlots r).foldl (fun s n => modTile s c n fun t => { t with locks := f t.locks }) s

/-- Locks change tile slots alone. -/
theorem countLocks_keeps {β : Type} (get : State → β) {c : Nat} (h : ∀ s n f, get (modTile s c n f) = get s) (s : State) (r : Round)
    (f : Nat → Nat) : get (countLocks s c r f) = get s :=
  foldl_keeps get (fun s n => h s n _) _ s

/-! ### A round fires (R176, R177) -/

/-- The members of a round: slot, entry of the latch, place in the gang. -/
def roundMembers (r : Round) : List (Nat × LatchEntry × Nat) := r.members.zip (r.entries.zip (List.range r.members.length))

theorem slots_roundMembers {r : Round} (h : r.entries.length = r.members.length) : (roundMembers r).map (·.1) = r.members :=
  List.map_fst_zip (by simp [h])

/-- The tags of the registers that a round's fragments will land in. -/
def fragTags (s : State) (c : Nat) (r : Round) : List (List Nat) :=
  (roundMembers r).map fun (slot, e, _) => match groupAt s c slot with
    | some g => (List.range 64).map fun i => ((vreg? g (e.d + i)).map (·.tag)).getD 0
    | none => []

/-- The round is noted as fired. -/
def markFired (s : State) (c : Nat) (r : Round) : State :=
  modCore s c fun x => { x with rounds := x.rounds.map fun q =>
    if q.id = r.id then { q with fired := true, firedAt := podClock s (podOf c), frag := fragTags s c r } else q }

/-- The MMAs of a round issue. -/
def fireMembers (s : State) (c round : Nat) (ms : List (Nat × LatchEntry × Nat)) : State :=
  ms.foldl (fun s (slot, e, _) => fireMember s c round slot e) s

/-- What a round does before the licence's clock is set. -/
def startRound (s : State) (c : Nat) (r : Round) : State :=
  countLocks (fireMembers (markFired s c r) c r.id (roundMembers r)) c r (· + 1)

/-- ROUND_FIRE, for a round that nothing holds back and whose members read no poison. -/
theorem execRoundFire_clean {s : State} {c : Nat} {r : Round} (hr : nextRound (coreAt s c) = some r) (hl : holdsLic s c = true)
    (hf : ∀ q, q ∈ (coreAt s c).rounds → q.fired = false)
    (hp : ∀ slot e m g, (slot, e, m) ∈ roundMembers r → groupAt s c slot = some g → memberPois s c g e m = false) :
    execRoundFire c s = .next (modPod (startRound s c r) (podOf c) fun q =>
      { q with fireAt := podClock (startRound s c r) (podOf c) }) := by
  have hnone : (coreAt s c).rounds.any (·.fired) = false := List.any_eq_false.2 fun q hq => by simp [hf q hq]
  simp only [execRoundFire, hr, hl, hnone]
  rw [if_neg (by simp), if_neg]
  · rfl
  · refine ne_true_of_eq_false (List.any_eq_false.2 fun (slot, e, m) hm => ?_)
    cases hg : groupAt s c slot with
    | none => simp
    | some g => simp [hp slot e m g hm hg]

/-- What each of the shared updates of `fireMember` leaves alone, the MMA's issue leaves alone. -/
theorem fireMember_keeps {β : Type} (get : State → β) {c : Nat} (hn : ∀ (s : State) n, get { s with nid := n } = get s)
    (hi : ∀ s f, get (modItems s c f) = get s) (hg : ∀ s n g, get (setGroup s c n g) = get s) (s : State) (round slot : Nat)
    (e : LatchEntry) : get (fireMember s c round slot e) = get s := by
  unfold fireMember
  split
  · rfl
  · exact (hg _ _ _).trans ((hi _ _).trans (hn _ _))

/-- What the updates that make up a round's start leave alone stands as it did when the round was noted as fired. -/
theorem startRound_keeps {β : Type} (get : State → β) {c : Nat} (hn : ∀ (s : State) n, get { s with nid := n } = get s)
    (hi : ∀ s f, get (modItems s c f) = get s) (hg : ∀ s n g, get (setGroup s c n g) = get s)
    (ht : ∀ s n f, get (modTile s c n f) = get s) (s : State) (r : Round) :
    get (startRound s c r) = get (markFired s c r) :=
  (countLocks_keeps get ht _ _ _).trans (foldl_keeps get (fun s _ => fireMember_keeps get hn hi hg s _ _ _) _ _)

theorem rounds_startRound (s : State) (c : Nat) (r : Round) : (coreAt (startRound s c r) c).rounds =
    (coreAt s c).rounds.map fun q =>
      if q.id = r.id then { q with fired := true, firedAt := podClock s (podOf c), frag := fragTags s c r } else q := by
  refine (startRound_keeps (fun s => (coreAt s c).rounds) (fun _ _ => rfl) (fun _ _ => ?_) (fun _ _ _ => (work_setGroup ..).2)
    (fun _ _ _ => (work_modTile ..).2) s r).trans ?_
  · simp [modItems]
  · simp [markFired]

theorem podClock_startRound (s : State) (c : Nat) (r : Round) (p : Nat) : podClock (startRound s c r) p = podClock s p :=
  podClock_congr
    (startRound_keeps State.pods (fun _ _ => rfl) (fun _ _ => rfl) (fun _ _ _ => rfl) (fun _ _ _ => rfl) s r)
    (startRound_keeps State.now (fun _ _ => rfl) (fun _ _ => rfl) (fun _ _ _ => rfl) (fun _ _ _ => rfl) s r) p

/-! ### The latch of the members (R177) -/

/-- What a slot's group holds in the latch. -/
def latchAt (s : State) (c n : Nat) : Option (Option LatchEntry) := (groupAt s c n).map (·.latch)

theorem latch_releaseMeets (g : Group) : (releaseMeets g).latch = g.latch := (congrArg Group.latch (releaseMeets_spec g).1 :)

theorem latch_pointSlot (g : Group) (n : Option (Fin 8)) (op : Nat) : (pointSlot g n op).latch = g.latch :=
  (congrArg Group.latch (pointSlot_spec g n op) :)

theorem groupAt_modItems (s : State) (c d n : Nat) (f : List Item → List Item) : groupAt (modItems s c f) d n = groupAt s d n := by
  simp only [groupAt, modItems, coreAt_modCore]
  split <;> simp_all

/-- The member that issues leaves the latch, and no other group does. -/
theorem latchAt_fireMember (s : State) (c round slot n : Nat) (e : LatchEntry) :
    latchAt (fireMember s c round slot e) c n = if n = slot then (latchAt s c n).map fun _ => none else latchAt s c n := by
  unfold fireMember
  cases hg : groupAt s c slot with
  | none =>
    by_cases hn : n = slot
    · simp [hn, latchAt, hg]
    · simp [hn]
  | some g =>
    by_cases hn : n = slot
    · subst hn
      simp [latchAt, hg, latch_releaseMeets, latch_pointSlot]
    · simp only [latchAt, groupAt_setGroup, groupAt_modItems, hn, and_false, if_false]
      rfl

theorem latchAt_fireMembers (s : State) (c round n : Nat) (ms : List (Nat × LatchEntry × Nat)) :
    latchAt (fireMembers s c round ms) c n = if n ∈ ms.map (·.1) then (latchAt s c n).map fun _ => none else latchAt s c n := by
  induction ms generalizing s with
  | nil => rfl
  | cons m ms ih =>
    refine (ih (fireMember s c round m.1 m.2.1)).trans ?_
    rw [latchAt_fireMember]
    simp only [List.map_cons, List.mem_cons]
    by_cases h1 : n = m.1
    · subst h1
      cases latchAt s c m.1 <;> simp
    · simp only [h1, if_false, false_or]

/-- Once its round has fired, a member's MMA stands in the latch no longer. -/
theorem latchAt_startRound {s : State} {c n : Nat} {r : Round} {g : Group} (hn : n ∈ r.members)
    (hlen : r.entries.length = r.members.length) (hg : groupAt s c n = some g) : latchAt (startRound s c r) c n = some none := by
  calc latchAt (startRound s c r) c n
    _ = latchAt (fireMembers (markFired s c r) c r.id (roundMembers r)) c n :=
      countLocks_keeps (latchAt · c n) (fun s m f => congrArg (Option.map _) (groupAt_modTile s c m c n f)) _ _ _
    _ = (latchAt (markFired s c r) c n).map fun _ => none := by
      rw [latchAt_fireMembers, slots_roundMembers hlen, if_pos hn]
    _ = (latchAt s c n).map fun _ => none := by simp [latchAt, groupAt, markFired]
    _ = some none := by simp [latchAt, hg]

theorem roundFire_comes {s : State} {c : Nat} {r : Round} (hr : nextRound (coreAt s c) = some r) (hl : holdsLic s c = true)
    (hf : ∀ q, q ∈ (coreAt s c).rounds → q.fired = false)
    (hp : ∀ slot e m g, (slot, e, m) ∈ roundMembers r → groupAt s c slot = some g → memberPois s c g e m = false) :
    Comes (.roundFire c) s fun u => (∀ q, q ∈ (coreAt u c).rounds → q.id = r.id → q.fired = true)
      ∧ (podAt u (podOf c)).fireAt = podClock s (podOf c)
      ∧ ∀ slot g, slot ∈ r.members → r.entries.length = r.members.length → groupAt s c slot = some g →
        ∃ g', groupAt u c slot = some g' ∧ g'.latch = none := by
  refine ⟨_, execRoundFire_clean hr hl hf hp, fun q hq hid => ?_, ?_, fun slot g hm hlen hg => ?_⟩
  · rw [coreAt_modPod, rounds_startRound] at hq
    obtain ⟨q', -, rfl⟩ := List.mem_map.1 hq
    by_cases hr' : q'.id = r.id
    · rw [if_pos hr']
    · rw [if_neg hr'] at hid
      exact absurd hid hr'
  · rw [podAt_modPod, if_pos rfl, podClock_startRound]
  · exact Option.map_eq_some_iff.1 (latchAt_startRound hm hlen hg)

/-! ### A round completes (R174, R176) -/

theorem orFlags_keeps {β : Type} (get : State → β) {c : Nat} (h : ∀ s n g, get (setGroup s c n g) = get s) (s : State) (n : Nat)
    (f : Flg) : get (orFlags s c n f) = get s := by
  unfold orFlags
  split
  · rfl
  · exact modGroup_keeps get h s n _

/-- What writing a group leaves alone, the landing of a fragment leaves alone. -/
theorem landFragment_keeps {β : Type} (get : State → β) {c : Nat} (h : ∀ s n g, get (setGroup s c n g) = get s) (s : State)
    (slot gid : Nat) (e : LatchEntry) (m : Nat) (frag : List Nat) : get (landFragment s c slot gid e m frag) = get s := by
  unfold landFragment
  split
  · rfl
  · split
    · rfl
    · exact (orFlags_keeps get h _ _ _).trans (h _ _ _)

/-- The fragments of a round land, and its read locks are dropped. -/
def landRound (s : State) (c : Nat) (r : Round) : State :=
  countLocks (((r.members.zip r.gids).zip ((r.entries.zip r.frag).zip (List.range r.members.length))).foldl
    (fun s ((slot, gid), (e, frag), m) => landFragment s c slot gid e m frag) s) c r (· - 1)

/-- The round stands on its core no longer. -/
def dropRound (s : State) (c : Nat) (r : Round) : State :=
  modCore s c fun x => { x with rounds := x.rounds.filter fun q => q.id != r.id }

/-- Pieces of work end, one after another. -/
def endItems (s : State) (c : Nat) (is : List Item) : State := is.foldl (fun s i => endItem s c i.id) s

theorem endItems_keeps {β : Type} (get : State → β) {c : Nat} (h : ∀ s n, get (endItem s c n) = get s) (s : State) (is : List Item) :
    get (endItems s c is) = get s :=
  foldl_keeps (f := fun s (i : Item) => endItem s c i.id) get (fun s i => h s i.id) is s

/-- What a round's completion does before a hand-over that waits for it goes on. -/
def finishRound (s : State) (c : Nat) (r : Round) : State :=
  let u := dropRound (landRound s c r) c r
  endItems u c ((coreAt u c).items.filter fun i => i.body == .mma r.id)

/-- MMA_ROUND_COMPLETE, once the cycles of the fired round have passed. -/
theorem execMmaRoundComplete_due {s : State} {c : Nat} {r : Round} (hr : (coreAt s c).rounds.find? (·.fired) = some r)
    (ht : r.firedAt + roundCycles r ≤ podClock s (podOf c)) :
    execMmaRoundComplete c s = .next (modPod (finishRound s c r) (podOf c) fun q =>
      if q.lic = .handover (isUpper c) then { q with drainAt := some (podClock (finishRound s c r) (podOf c)) } else q) := by
  simp only [execMmaRoundComplete, hr]
  rw [if_neg (Nat.not_lt.2 ht)]
  rfl

theorem landRound_keeps {β : Type} (get : State → β) {c : Nat} (hg : ∀ s n g, get (setGroup s c n g) = get s)
    (ht : ∀ s n f, get (modTile s c n f) = get s) (s : State) (r : Round) : get (landRound s c r) = get s :=
  (countLocks_keeps get ht _ _ _).trans (foldl_keeps get (fun s _ => landFragment_keeps get hg s _ _ _ _ _) _ _)

theorem pods_finishRound (s : State) (c : Nat) (r : Round) : (finishRound s c r).pods = s.pods :=
  (endItems_keeps State.pods (fun _ _ => rfl) _ _).trans (landRound_keeps State.pods (fun _ _ _ => rfl) (fun _ _ _ => rfl) s r)

theorem now_finishRound (s : State) (c : Nat) (r : Round) : (finishRound s c r).now = s.now :=
  (endItems_keeps State.now (fun _ _ => rfl) _ _).trans (landRound_keeps State.now (fun _ _ _ => rfl) (fun _ _ _ => rfl) s r)

theorem rounds_endItem (s : State) (c n : Nat) : (coreAt (endItem s c n) c).rounds = (coreAt s c).rounds := by
  simp [endItem, clearSlots]

theorem rounds_finishRound (s : State) (c : Nat) (r : Round) :
    (coreAt (finishRound s c r) c).rounds = (coreAt s c).rounds.filter fun q => q.id != r.id := by
  have hland : (coreAt (landRound s c r) c).rounds = (coreAt s c).rounds :=
    landRound_keeps (fun s => (coreAt s c).rounds) (fun _ _ _ => (work_setGroup ..).2) (fun _ _ _ => (work_modTile ..).2) s r
  refine (endItems_keeps (fun s => (coreAt s c).rounds) (fun s n => rounds_endItem s c n) _ _).trans ?_
  simp [dropRound, hland]

/-! ### The items of a round end with it (R42, R176) -/

/-- What work waits for says nothing of what work it is: an MMA's item stays one, and none becomes one. -/
theorem without_eq_mma {b : Body} {n k : Nat} : b.without n = .mma k ↔ b = .mma k := by
  cases b <;> simp [Body.without]

/-- An item that stands after another one has ended stood before, under another number than that one's. -/
theorem mem_items_endItem {s : State} {c n : Nat} {i : Item} (h : i ∈ (coreAt (endItem s c n) c).items) :
    ∃ j, j ∈ (coreAt s c).items ∧ j.id = i.id ∧ i.id ≠ n ∧ i.body = j.body.without n := by
  simp only [endItem, coreAt_modCore, if_true, clearSlots, List.mem_map, List.mem_filter, bne_iff_ne] at h
  obtain ⟨j, ⟨hj, hn⟩, rfl⟩ := h
  exact ⟨j, hj, rfl, hn, rfl⟩

theorem mma_endItems {c k : Nat} {i : Item} (hb : i.body = .mma k) (is : List Item) (s : State)
    (h : i ∈ (coreAt (endItems s c is) c).items) :
    ∃ j, j ∈ (coreAt s c).items ∧ j.id = i.id ∧ j.body = .mma k ∧ ∀ m, m ∈ is → i.id ≠ m.id := by
  induction is generalizing s with
  | nil => exact ⟨i, h, rfl, hb, fun m hm => by cases hm⟩
  | cons a is ih =>
    obtain ⟨j, hj, hid, hmma, hne⟩ := ih (endItem s c a.id) h
    obtain ⟨j', hj', hid', hn, hbody⟩ := mem_items_endItem hj
    refine ⟨j', hj', hid'.trans hid, without_eq_mma.1 (hbody.symm.trans hmma), fun m hm => ?_⟩
    rcases List.mem_cons.1 hm with rfl | hm
    · exact hid ▸ hn
    · exact hne m hm

theorem no_mma_finishRound {s : State} {c : Nat} {r : Round} {i : Item} (hi : i ∈ (coreAt (finishRound s c r) c).items) :
    i.body ≠ .mma r.id := by
  intro hb
  obtain ⟨j, hj, hid, hmma, hne⟩ := mma_endItems hb _ _ hi
  exact hne j (List.mem_filter.2 ⟨hj, by simp [hmma]⟩) hid.symm

theorem mmaRoundComplete_comes {s : State} {c : Nat} {r : Round} (hr : (coreAt s c).rounds.find? (·.fired) = some r)
    (ht : r.firedAt + roundCycles r ≤ podClock s (podOf c)) : Comes (.mmaRoundComplete c) s fun u =>
      (∀ q, q ∈ (coreAt u c).rounds → q.id ≠ r.id) ∧ (∀ i, i ∈ (coreAt u c).items → i.body ≠ .mma r.id)
      ∧ ((podAt s (podOf c)).lic = .handover (isUpper c) → (podAt u (podOf c)).drainAt = some (podClock s (podOf c))) := by
  refine ⟨_, execMmaRoundComplete_due hr ht, fun q hq => ?_, fun i hi => ?_, fun hlic => ?_⟩
  · rw [coreAt_modPod, rounds_finishRound] at hq
    exact bne_iff_ne.1 (List.mem_filter.1 hq).2
  · exact no_mma_finishRound hi
  · have hpod : podAt (finishRound s c r) (podOf c) = podAt s (podOf c) := by simp only [podAt, pods_finishRound]
    rw [podAt_modPod, if_pos rfl, hpod, if_pos hlic, podClock_congr (pods_finishRound s c r) (now_finishRound s c r)]

/-! ### Elements of an integer fragment (R85) -/

theorem dotSlots_i8 (a b : List Nat) (c : Word) : (dotSlots .i8 a b c).1 = BitVec.ofInt 32 (c.toInt
    + ((a.zip b).map fun p => (BitVec.ofNat 8 p.1).toInt * (BitVec.ofNat 8 p.2).toInt).sum) := by
  rw [BitVec.ofInt_add, BitVec.ofInt_toInt, List.map_zip_eq_zipWith, List.sum_eq_foldl]
  rfl

/-! ### A slot's clearing ends (R170) -/

theorem slotClearDone_comes {s : State} {c n : Nat} (h : (tileAt s c n).clearAt + 16 ≤ podClock s (podOf c)) :
    Comes (.slotClearDone c n) s fun u => (tileAt u c n).clearing = false
      ∧ (tileAt u c n).full = (tileAt s c n).full ∧ (tileAt u c n).data = (tileAt s c n).data := by
  cases hc : (tileAt s c n).clearing with
  | true => exact ⟨modTile s c n fun t => { t with clearing := false }, by simp [exec, execSlotClearDone, hc, h], by simp [tileAt_modTile]⟩
  | false => exact ⟨s, by simp [exec, execSlotClearDone, hc], hc, rfl, rfl⟩

/-! ### Items cross the register link (R183 to R185) -/

theorem dropBars_of_ne_bar {e : LinkSlot} {r : List LinkSlot} (h : ∀ n, e.item ≠ .bar n) : dropBars (e :: r) = e :: r := by
  obtain ⟨since, quarter, item⟩ := e
  cases item with
  | bar n => exact absurd rfl (h n)
  | window => rfl
  | fifo => rfl

section
variable {s : State} {c : Nat} {e : LinkSlot} {r : List LinkSlot}

/-- No item crosses in the cycle that produced it, and no two in one cycle. -/
theorem linkItemCross_waits (hl : (coreAt s c).link = e :: r) (hb : ∀ n, e.item ≠ .bar n)
    (h : podClock s (podOf c) ≤ e.since ∨ ∃ n, (coreAt s c).crossAt = some n ∧ podClock s (podOf c) ≤ n) :
    Comes (.linkItemCross c) s fun u => u = s := by
  refine ⟨s, ?_, rfl⟩
  simp only [exec, execLinkItemCross, hl, dropBars_of_ne_bar hb]
  rw [if_pos]
  rcases h with h | ⟨n, hn, h⟩
  · simp [h]
  · simp [hn, h]

/-- The core once the first item of its link has left. -/
def linkMoved (x : Core) (r : List LinkSlot) (t : Nat) : Core := { x with link := dropBars r, crossAt := some t }

/-- An item arrives on the other core: a window item in the lanes that it names, an entry at the end of the FIFO, which a TWRECV may
pop at once. -/
def crossItem (s : State) (c : Nat) (x : Core) : LinkItem → State
  | .window n v m =>
    let new := lanes64 fun l => if m.getLsbD l then v.getD l 0 else (tget x.crossed n []).getD l 0
    setCore s c { x with crossed := tset x.crossed n new }
  | .fifo v => popTwin (setCore s c { x with fifo := x.fifo ++ [v] }) (twinOf c) 8
  | .bar _ => setCore s c x

/-- LINK_ITEM_CROSS where the first item may cross. -/
theorem execLinkItemCross_due (hl : (coreAt s c).link = e :: r) (hb : ∀ n, e.item ≠ .bar n) (hs : e.since < podClock s (podOf c))
    (hx : ∀ n, (coreAt s c).crossAt = some n → n < podClock s (podOf c)) :
    execLinkItemCross c s = .next (crossItem s c (linkMoved (coreAt s c) r (podClock s (podOf c))) e.item) := by
  simp only [execLinkItemCross, hl, dropBars_of_ne_bar hb]
  rw [if_neg]
  · rfl
  · cases hc : (coreAt s c).crossAt with
    | none => simp [hs]
    | some n => simp [hs, hx n hc]

theorem linkItemCross_window {n : Nat} {v : List Word} {m : Mask} (hl : (coreAt s c).link = e :: r) (hb : ∀ n, e.item ≠ .bar n)
    (hs : e.since < podClock s (podOf c)) (hx : ∀ n, (coreAt s c).crossAt = some n → n < podClock s (podOf c))
    (hi : e.item = .window n v m) : Comes (.linkItemCross c) s fun u => (coreAt u c).link = dropBars r
      ∧ (coreAt u c).crossAt = some (podClock s (podOf c))
      ∧ ∀ l, l < 64 → (tget (coreAt u c).crossed n []).getD l 0 = if m.getLsbD l then v.getD l 0
        else (tget (coreAt s c).crossed n []).getD l 0 := by
  refine ⟨_, execLinkItemCross_due hl hb hs hx, ?_⟩
  simp only [hi, crossItem, coreAt_setCore, if_true]
  refine ⟨rfl, rfl, fun l h64 => ?_⟩
  simp only [linkMoved, tget_tset, if_true, getD_lanes64, h64]

theorem twinOf_ne (c : Nat) : twinOf c ≠ c := by
  unfold twinOf
  split <;> omega

/-- No FIFO entry is popped where no TWRECV waits for one (R185). -/
theorem popTwin_of_no_recv (h : ∀ i, i ∈ (coreAt s c).items → ∀ d m, i.body ≠ .twrecv d m) (n : Nat) : popTwin s c n = s := by
  have hnone : oldestRecv (coreAt s c) = none := by
    unfold oldestRecv
    rw [List.filter_eq_nil_iff.2 fun i hi => ?_]
    · rfl
    · cases hb : i.body with
      | twrecv d m => exact absurd hb (h i hi d m)
      | _ => simp
  cases n with
  | zero => rfl
  | succ n =>
    unfold popTwin
    rw [hnone]
    cases (coreAt s (twinOf c)).fifo <;> rfl

theorem linkItemCross_fifo {v : List Word} (hl : (coreAt s c).link = e :: r) (hb : ∀ n, e.item ≠ .bar n)
    (hs : e.since < podClock s (podOf c)) (hx : ∀ n, (coreAt s c).crossAt = some n → n < podClock s (podOf c))
    (hi : e.item = .fifo v) (hrecv : ∀ i, i ∈ (coreAt s (twinOf c)).items → ∀ d m, i.body ≠ .twrecv d m) :
    Comes (.linkItemCross c) s fun u => (coreAt u c).link = dropBars r ∧ (coreAt u c).crossAt = some (podClock s (podOf c))
      ∧ (coreAt u c).fifo = (coreAt s c).fifo ++ [v] := by
  refine ⟨_, execLinkItemCross_due hl hb hs hx, ?_⟩
  simp only [hi, crossItem]
  rw [popTwin_of_no_recv (by simpa [twinOf_ne] using hrecv)]
  simp only [coreAt_setCore, if_true]
  exact ⟨rfl, rfl, rfl⟩

end

/-! ### The order of the link (R184) -/

/-- Items of one cycle stand in the order of their quarters: an item of no lower quarter than those that wait goes behind them. -/
theorem link_pushLink_behind {s : State} {c q : Nat} {i : LinkItem} (h : ∀ e, e ∈ (coreAt s c).link → e.quarter ≤ q) :
    (coreAt (pushLink s c q i) c).link = (coreAt s c).link ++ [⟨podClock s (podOf c), q, i⟩] := by
  have hall : ∀ e, e ∈ (coreAt s c).link →
      (!(e.since == podClock s (podOf c) && decide (q < e.quarter))) = true := fun e he => by simp [Nat.not_lt.2 (h e he)]
  have htake := List.takeWhile_append_of_pos (l₂ := []) hall
  have hdrop := List.dropWhile_append_of_pos (l₂ := []) hall
  simp only [List.append_nil, List.takeWhile_nil, List.dropWhile_nil] at htake hdrop
  simp only [pushLink, coreAt_modCore, if_true, htake, hdrop]

/-- An item of a lower quarter goes before those of its cycle. -/
theorem link_pushLink_before {s : State} {c q : Nat} {i : LinkItem} {e : LinkSlot} {r : List LinkSlot} (hl : (coreAt s c).link = e :: r)
    (ht : e.since = podClock s (podOf c)) (hq : q < e.quarter) :
    (coreAt (pushLink s c q i) c).link = ⟨podClock s (podOf c), q, i⟩ :: e :: r := by
  simp [pushLink, hl, ht, hq]

theorem link_pushLink_alone {s : State} {c q : Nat} {i : LinkItem} (hl : (coreAt s c).link = []) :
    (coreAt (pushLink s c q i) c).link = [⟨podClock s (podOf c), q, i⟩] := by
  rw [link_pushLink_behind (by simp [hl]), hl]
  rfl

theorem link_of_two {s : State} {c q q' : Nat} {i j : LinkItem} (hl : (coreAt s c).link = []) (hq : q ≤ q') :
    (coreAt (pushLink (pushLink s c q i) c q' j) c).link
      = [⟨podClock s (podOf c), q, i⟩, ⟨podClock s (podOf c), q', j⟩] := by
  have hfirst : (coreAt (pushLink s c q i) c).link = [⟨podClock s (podOf c), q, i⟩] := link_pushLink_alone hl
  rw [link_pushLink_behind (by simp [hfirst, hq]), hfirst]
  rfl

/-- A later push of a lower quarter makes no other link than an earlier one. -/
theorem link_of_two_swapped {s : State} {c q q' : Nat} {i j : LinkItem} (hl : (coreAt s c).link = []) (hq : q < q') :
    (coreAt (pushLink (pushLink s c q' j) c q i) c).link
      = [⟨podClock s (podOf c), q, i⟩, ⟨podClock s (podOf c), q', j⟩] :=
  link_pushLink_before (link_pushLink_alone hl) rfl hq

/-! ### The obligation -/

/-- Settles O51: each event by its own lemma. -/
theorem matrixAndLinkEventsAct : Obligations.MatrixAndLinkEventsAct := by
  unfold Obligations.MatrixAndLinkEventsAct
  refine ⟨fun s c r hr hl hf hp => roundFire_comes hr hl hf hp, fun s c r hr ht => mmaRoundComplete_comes hr ht,
    fun a b c _ => dotSlots_i8 a b c, fun s c n h => slotClearDone_comes h,
    fun s c e r hl hb => ⟨linkItemCross_waits hl hb, fun hs hx => ⟨fun n v m hi => linkItemCross_window hl hb hs hx hi,
      fun v hi _ hrecv => linkItemCross_fifo hl hb hs hx hi hrecv⟩⟩,
    fun s c q q' i j hl hq => ⟨?_, fun hlt => ?_⟩⟩
  · rw [link_of_two hl hq]
    rfl
  · rw [link_of_two hl hq, link_of_two_swapped hl hlt]

end Sys2Proof.Machine
end
